-- ==== Sys2Proof/Word.lean ====
section
/-! DEFINITION. The plain data types every other file uses: bytes, memory lines, byte masks. -/

namespace Sys2Proof

/-- One byte. -/
abbrev Byte := BitVec 8

/-- A line: 64 bytes of memory, byte 0 first (spec section 0.5). -/
abbrev Line := Vector Byte 64

/-- A byte mask: bit i stands for byte i of a line (spec section 0.5). -/
abbrev Mask := BitVec 64

/-- A 32-bit count of the spec: a house count, a sequence, a block number, a report index. -/
abbrev Count32 := BitVec 32

end Sys2Proof
end

