-- ==== Sys2Proof/Config.lean ====
section
/-! DEFINITION. The sizes and limits the spec fixes, and the values it leaves open (opaque, so that
no proof can see them). -/

namespace Sys2Proof.Config

/-- Bytes of a line (R1). -/
def lineBytes : Nat := 64
/-- Size of the address space in bytes: 2^36 (section 0.6). -/
def addressSpace : Nat := 68719476736
/-- Size of the bootstrap COMMAND window (R3). -/
def bootstrapSize : Nat := 4096
/-- Own writes the own-write buffer holds (R11). -/
def bufferLimit : Nat := 64
/-- Buffer occupancy up to which the arbiter serves the host first (R15). -/
def hostFirstLimit : Nat := 48
/-- Command lines the intake queue holds (R18). -/
def intakeLimit : Nat := 32
/-- FENCE entries the in-flight list holds (R22). -/
def fenceLimit : Nat := 8
/-- Reports the staging list holds (section 2.6). -/
def stagingLimit : Nat := 8
/-- Where the lost count of reports stops (R32). -/
def lostLimit : Nat := 65535
/-- Band buffers of a feed (R46). -/
def bandBuffers : Nat := 4
/-- Unit records of a unit list (R79). -/
def unitListLimit : Nat := 4096
/-- Fired blocks the fire queue holds (R100). -/
def fireQueueLimit : Nat := 2
/-- Legs with the uplink flag on (R110). -/
def uplinkLegLimit : Nat := 4
/-- Mixed blocks in an audio frame (R114). -/
def frameBlocks : Nat := 10
/-- Clips on the mark stack (R129). -/
def stackLimit : Nat := 8
/-- Clip records of the log (R135). -/
def clipLimit : Nat := 256
/-- Fragments of a transmit queue (R163). -/
def transmitLimit : Nat := 4
/-- Failed attempts at which a path enters FAILED (R155). -/
def attemptLimit : Nat := 8
/-- Errors above which a path is DEGRADED (R162). -/
def degradedLimit : Nat := 16
/-- Highest capacity, host cap and RATE_CAP in kbit/s (R154, R180). -/
def rateLimit : Nat := 400000
/-- Frames of the AUDIO queue (R172). -/
def audioLimit : Nat := 8
/-- Messages of the LABEL queue (R175). -/
def labelLimit : Nat := 32
/-- Clips of the CLIP queue (R144). -/
def clipQueueLimit : Nat := 16
/-- Entries of the return list (R178). -/
def returnLimit : Nat := 16
/-- Carriage frame bytes that are not data: header and CRC (section 9.1). -/
def frameOverhead : Nat := 28
/-- Largest data length accepted before an MTU is agreed (R187). -/
def dataLimitNoMtu : Nat := 1472

/-- FREE VALUE (DESIGN CHOICE, log 12): bytes 10..13 of the header of a fragment of a CLIP_NOTICE (message
kind 0) or a NAK (message kind 1). Section 11.5 gives the field to a unit sequence, a first block number or
a code, and no rule says what it holds for these two messages. -/
opaque messageCodeField : (messageKind : Nat) → (clip : Nat) → BitVec 32

end Sys2Proof.Config
end

