-- ==== Sys2Proof/Syntax.lean ====
section
/-! DEFINITION. The commands and events of the part: one constructor for each row of
spec/opcode_table.json, in the table's order. A command row's operands are the fields of its command
line as section 11.1 lays them out, raw; an event row's operands are what the event brings. -/

namespace Sys2Proof

/-- What every command line carries besides its parameters: the tag and the report-always flag
(section 2.1). -/
structure CmdHead where
  tag : BitVec 16
  always : Bool
  deriving DecidableEq, Repr

/-- The parameters of FEED CONFIG (section 11.1, code 0x10). -/
structure FeedConfigArgs where
  feed : Byte
  format : Byte
  mode : Byte
  qMin : Byte
  qMax : Byte
  qRec : Byte
  weight : Byte
  slots : Byte
  rateMin : BitVec 32
  rateMax : BitVec 32
  maxUnit : BitVec 32
  recorder : Byte
  autoLog : Byte
  deriving DecidableEq, Repr

/-- The parameters of SIGNAL LINE SET (section 11.1, code 0x32). -/
structure SignalLineArgs where
  line : Byte
  enabled : Byte
  kind : Byte
  polarity : Byte
  action : Byte
  argument : Byte
  category : Byte
  feeds : Byte
  deriving DecidableEq, Repr

/-- The parameters of CLIP LABEL (section 11.1, code 0x42). -/
structure ClipLabelArgs where
  clip : BitVec 16
  category : Byte
  rating : Byte
  noteLength : Byte
  note : Vector Byte 40
  deriving DecidableEq, Repr

/-- The commands and events of the part (spec/opcode_table.json). -/
inductive Instr where
  /-- HOST_WRITE: a host line write arrives (R1). -/
  | hostWrite (addr : BitVec 36) (data : Line) (mask : Mask)
  /-- HOST_READ: a host line read arrives (R1). -/
  | hostRead (addr : BitVec 36)
  /-- OWN_WRITE_ACCEPT: the buffer accepts one own write that waited (R11). -/
  | ownWriteAccept
  /-- DOWNSTREAM_GRANT: the downstream port falls free (R15). -/
  | downstreamGrant
  /-- UNKNOWN_KIND_COMMAND: a line of unknown kind code is taken (R184). -/
  | unknownKindCommand (h : CmdHead) (kind : BitVec 16)
  /-- WINDOW_SET (R8, R9). -/
  | windowSet (h : CmdHead) (entry kind feed : Byte) (base size : BitVec 64)
  /-- WINDOW_CLEAR (R10). -/
  | windowClear (h : CmdHead) (entry : Byte)
  /-- FEED_CONFIG (R37). -/
  | feedConfig (h : CmdHead) (a : FeedConfigArgs)
  /-- FEED_START (R38). -/
  | feedStart (h : CmdHead) (feed : Byte)
  /-- FEED_STOP (R40). -/
  | feedStop (h : CmdHead) (feed : Byte)
  /-- TIMECODE_SET (R52). -/
  | timecodeSet (h : CmdHead) (rate : Byte) (start : Count32)
  /-- AUDIO_START (R96). -/
  | audioStart (h : CmdHead)
  /-- AUDIO_STOP (R97). -/
  | audioStop (h : CmdHead)
  /-- INPUT_SET (R110). -/
  | inputSet (h : CmdHead) (input fader afv depth : Byte)
  /-- SEND_SET (R110). -/
  | sendSet (h : CmdHead) (input leg level : Byte)
  /-- LEG_SET (R110). -/
  | legSet (h : CmdHead) (leg master uplink alarm : Byte)
  /-- SCENE_SAVE (R111). -/
  | sceneSave (h : CmdHead) (slot : Byte)
  /-- SCENE_RECALL (R112). -/
  | sceneRecall (h : CmdHead) (slot : Byte)
  /-- OVERLOAD_CLEAR (R109). -/
  | overloadClear (h : CmdHead) (leg : Byte)
  /-- TALLY_SET (R118). -/
  | tallySet (h : CmdHead) (feed tally call : Byte)
  /-- TALLY_AUTHORITY (R121). -/
  | tallyAuthority (h : CmdHead) (authority : Byte)
  /-- SIGNAL_LINE_SET (R125). -/
  | signalLineSet (h : CmdHead) (a : SignalLineArgs)
  /-- MARK_IN (R129). -/
  | markIn (h : CmdHead) (feeds category : Byte)
  /-- MARK_OUT (R130). -/
  | markOut (h : CmdHead)
  /-- CLIP_LABEL (R141). -/
  | clipLabel (h : CmdHead) (a : ClipLabelArgs)
  /-- CLIP_PROTECT (R142). -/
  | clipProtect (h : CmdHead) (clip : BitVec 16)
  /-- CLIP_UNPROTECT (R142). -/
  | clipUnprotect (h : CmdHead) (clip : BitVec 16)
  /-- CLIP_RELEASE (R143). -/
  | clipRelease (h : CmdHead) (clip : BitVec 16)
  /-- CLIP_SEND (R144). -/
  | clipSend (h : CmdHead) (clip : BitVec 16)
  /-- TRIM_BEGIN (R147). -/
  | trimBegin (h : CmdHead) (clip : BitVec 16)
  /-- TRIM_MOVE (R148). -/
  | trimMove (h : CmdHead) (point : Byte) (delta : BitVec 32)
  /-- TRIM_END (R147). -/
  | trimEnd (h : CmdHead)
  /-- TRIM_ABANDON (R148). -/
  | trimAbandon (h : CmdHead)
  /-- PATH_SET (R154). -/
  | pathSet (h : CmdHead) (path enable : Byte) (hostCap : BitVec 32)
  /-- PATH_RETRAIN (R159). -/
  | pathRetrain (h : CmdHead) (path : Byte)
  /-- UPLINK_SET (R181). -/
  | uplinkSet (h : CmdHead) (headroom share ageLimit notify : Byte) (maxLength : BitVec 16)
  /-- HOME_SIGNAL (R175). -/
  | homeSignal (h : CmdHead) (code : BitVec 16)
  /-- REPORTS_TAKEN (R31). -/
  | reportsTaken (h : CmdHead) (index : Count32)
  /-- ATTENTION_SET (R34). -/
  | attentionSet (h : CmdHead) (causes : Byte)
  /-- ATTENTION_CLEAR (R34). -/
  | attentionClear (h : CmdHead) (cause : Byte)
  /-- FENCE (R24). -/
  | fence (h : CmdHead)
  /-- RESTART (R26). -/
  | restart (h : CmdHead)
  /-- STATUS_SECOND_TIMER: it expires (R35). -/
  | statusSecondTimer
  /-- BAND_CODED: the coder has the band's bytes and issues its own writes (R57). -/
  | bandCoded
  /-- FEED_SILENCE_TIMER of a feed expires (R40). -/
  | feedSilenceTimer (f : Fin 8)
  /-- FRAME_PULSE: a pulse comes, `elapsed` nanoseconds after the last event that moved the model's
  clock or set the last advance time (R49, R51, DESIGN CHOICE, log 3). -/
  | framePulse (elapsed : Nat)
  /-- WATCH_TIMER reaches 2 picture periods (R50). -/
  | watchTimer
  /-- FREE_RUN_TIMER expires (R50). -/
  | freeRunTimer
  /-- MIX_END: the mixer has the block's legs and issues its own writes (R106). -/
  | mixEnd
  /-- CALL_TIMER of a feed expires (R119). -/
  | callTimer (f : Fin 8)
  /-- BLINK_TIMER of a tally line expires (R120). -/
  | blinkTimer (f : Fin 8)
  /-- FALLBACK_TIMER expires (R122). -/
  | fallbackTimer
  /-- SIGNAL_LINE_CHANGE: the input level of a line turns to `high` (R126). -/
  | signalLineChange (n : Fin 8) (high : Bool)
  /-- DEBOUNCE_TIMER of a line expires (R126). -/
  | debounceTimer (n : Fin 8)
  /-- TRAINING_TIMER of a path expires (R155). -/
  | trainingTimer (p : Fin 4)
  /-- TRAINING_WINDOW of a path expires (R155). -/
  | trainingWindow (p : Fin 4)
  /-- OFFER_TIMER of a path expires (R156). -/
  | offerTimer (p : Fin 4)
  /-- NEGOTIATION_TIMER of a path expires (R156). -/
  | negotiationTimer (p : Fin 4)
  /-- PATH_SILENCE_TIMER of a path expires (R158). -/
  | pathSilenceTimer (p : Fin 4)
  /-- HOLD_TIMER of a path expires (R161). -/
  | holdTimer (p : Fin 4)
  /-- PACING_TICK of a path expires (R163). -/
  | pacingTick (p : Fin 4)
  /-- TRANSMISSION_END: a frame's last byte leaves the link (R165). -/
  | transmissionEnd (p : Fin 4)
  /-- ALLOCATION_TIMER expires (R169). -/
  | allocationTimer
  /-- TRAIN: a good TRAIN word is received (R155, R158). -/
  | train (p : Fin 4)
  /-- OFFER: a good OFFER word is received (R160). -/
  | offer (p : Fin 4)
  /-- ACCEPT: a good ACCEPT word is received (R156). -/
  | accept (p : Fin 4) (level : Byte) (mtu : BitVec 16) (ceiling initial : BitVec 24)
  /-- IDLE: a good IDLE word is received (R160). -/
  | idle (p : Fin 4)
  /-- CAPACITY: a good CAPACITY word is received (R160). -/
  | capacity (p : Fin 4) (value : BitVec 24)
  /-- HOLD: a good HOLD word is received (R161). -/
  | hold (p : Fin 4)
  /-- RESUME: a good RESUME word is received (R161). -/
  | resume (p : Fin 4)
  /-- ERROR_NOTICE: a good ERROR_NOTICE word is received (R162). -/
  | errorNotice (p : Fin 4) (count : BitVec 16)
  /-- UNIT_FAILING_CHECK: a received unit fails its check (R187). -/
  | unitFailingCheck (p : Fin 4)
  /-- FRAGMENT_FRAME_RECEIVED: a good frame with a fragment lead is received (R187). -/
  | fragmentFrameReceived (p : Fin 4)
  /-- TALLY_MESSAGE: a good return message of kind TALLY with its data (R123, R166). -/
  | tallyMessage (p : Fin 4) (session number : BitVec 32) (body : List Byte)
  /-- CALL_MESSAGE: a good return message of kind CALL (R123). -/
  | callMessage (p : Fin 4) (session number : BitVec 32) (body : List Byte)
  /-- CLIP_REQUEST: a good return message of kind CLIP_REQUEST (R149). -/
  | clipRequest (p : Fin 4) (session number : BitVec 32) (body : List Byte)
  /-- RATE_CAP: a good return message of kind RATE_CAP (R180). -/
  | rateCap (p : Fin 4) (session number : BitVec 32) (body : List Byte)
  /-- SIGNAL_MESSAGE: a good return message of kind SIGNAL (R167). -/
  | signalMessage (p : Fin 4) (session number : BitVec 32) (body : List Byte)
  /-- FULL_RESET: the reset input is asserted (R16). -/
  | fullReset
  /-- RESET_RELEASE: the reset input is released with the straps at these levels (R3). -/
  | resetRelease (strap1 strap0 : Bool)
  /-- UNKNOWN_KIND_RETURN_MESSAGE: a good return message of kind code above 4 (R187). -/
  | unknownKindReturnMessage (p : Fin 4) (kind : Byte) (body : List Byte)
  /-- CONTROL_WORD_END: a control word's last byte leaves the link (R165). -/
  | controlWordEnd (p : Fin 4)
  deriving DecidableEq, Repr

end Sys2Proof
end

