-- ==== Sys2Proof/Decode.lean ====
section
/-! DEFINITION. The reading of a table word. No row of spec/opcode_table.json gives bits: the commands are
command lines, read by `Machine.decodeLine`, and the units of a path link are read by
`Machine.classifyUnit`. So no word spells a row (DESIGN CHOICE, log 6). -/

namespace Sys2Proof

/-- The command a table word spells: none, since the table gives no row any bits (DESIGN CHOICE, log 6). -/
def decodeTableWord (_nbits _w : Nat) : Option Instr := none

end Sys2Proof
end

