-- ==== Sys2Proof/Machine/State.lean ====
section
/-! DEFINITION. The state of the part, all of it, as plain data, and its value after a full reset. Each
field's docstring names the rule that gives it; INVENTORY.md lists them with their reset values. -/

namespace Sys2Proof.Machine

/-- A timer: stopped, or running with the time it was started at. The unit is the millisecond, or the
picture period where the field's docstring says so (DESIGN CHOICE, log 3). -/
abbrev Timer := Option Nat

/-- DRAM: the bytes that differ from 0, addresses strictly rising (DESIGN CHOICE, log 5). -/
abbrev Memory := List Host.Cell

/-- The kinds of window, in the order of section 1.2. -/
inductive WindowKind where
  | command | capture | audioIn | coded | mixOut | report
  deriving DecidableEq, Repr

/-- A window (section 1.2); `feed` is present for CAPTURE and CODED only. -/
structure Window where
  base : Nat
  size : Nat
  kind : WindowKind
  feed : Option (Fin 8)
  deriving DecidableEq, Repr

/-- An own write: one line address, one line of data and a byte mask (section 1.6). -/
structure OwnWrite where
  addr : Nat
  data : Line
  mask : Mask
  deriving DecidableEq, Repr

/-- A host transaction forwarded and waiting for the downstream port (section 1.8). -/
inductive HostTxn where
  | write (addr : Nat) (data : Line) (mask : Mask)
  | read (addr : Nat)
  deriving DecidableEq, Repr

/-- An own read of a path link waiting for the downstream port: line `index` of the data of the path's
fragment with uplink sequence `seq` (R14). -/
structure OwnRead where
  path : Fin 4
  seq : BitVec 48
  addr : Nat
  index : Nat
  deriving DecidableEq, Repr

/-- The memory path (spec/01). -/
structure MemPath where
  /-- The window table (1.2). -/
  windows : Vector (Option Window) 24
  /-- The own-write buffer, head first (R11). -/
  buffer : List OwnWrite
  /-- Host transactions waiting for the port, oldest first (1.8). -/
  hostQ : List HostTxn
  /-- Own reads waiting for the port, oldest first (R14, R15). -/
  ownReads : List OwnRead
  /-- The arbiter's state: ALTERNATING, or HOST_FIRST when false (R15). -/
  alternating : Bool
  /-- The last grant went to the host side (R15). -/
  lastHost : Bool
  /-- The host read answered last on the upstream port: its line address and the line (R1). -/
  answer : Option (Nat × Line)
  deriving DecidableEq, Repr

/-- The object of an in-flight entry (section 2.3). -/
inductive Object where
  | feed (f : Fin 8)
  | mixerRecall
  | path (p : Fin 4)
  | fence
  | whole
  deriving DecidableEq, Repr

/-- An entry of the in-flight list (section 2.3). `waits` is the wait set of a FENCE; `ident` is the
model's own name for the entry (DESIGN CHOICE, log 20). -/
structure InFlight where
  ident : Nat
  kind : BitVec 16
  tag : BitVec 16
  always : Bool
  object : Object
  waits : List Nat
  deriving DecidableEq, Repr

/-- The command unit (spec/02), but for the intake queue, which stands in `State`. -/
structure CommandUnit where
  /-- The in-flight list, in the order taken (2.3). -/
  inflight : List InFlight
  /-- The next in-flight entry's identity (DESIGN CHOICE, log 20). -/
  nextEntry : Nat
  /-- Producer index p (2.6). -/
  producer : Count32
  /-- Consumer index c (2.6). -/
  consumer : Count32
  /-- Overfull mark (R32). -/
  overfull : Bool
  /-- Lost count, stopping at 65535 (R32). -/
  lost : Nat
  /-- The staging list: reports placed and not yet accepted, each as its own write (R29). -/
  staging : List OwnWrite
  /-- Pending cause set, bit n for cause n (R33). -/
  pendingSet : Byte
  /-- Enable cause set (R34). -/
  enableSet : Byte
  /-- Status second timer (R35). -/
  statusTimer : Timer
  deriving DecidableEq, Repr

/-- House timing (section 3.8). -/
structure Timing where
  /-- House count. -/
  count : Count32
  /-- Rate F in pictures per second. -/
  rate : Nat
  /-- FREE_RUN, or LOCKED when false. -/
  freeRun : Bool
  /-- Watch timer, in picture periods (R50). -/
  watch : Timer
  /-- Free-run timer, in picture periods (R50). -/
  freeTimer : Timer
  /-- The model's clock in nanoseconds (DESIGN CHOICE, log 3). -/
  clock : Nat
  /-- Last advance time, on the model's clock (3.8). -/
  lastAdvance : Nat
  deriving DecidableEq, Repr

/-- Picture formats (section 3.2). -/
inductive Format where
  | sd | hd720 | hd1080
  deriving DecidableEq, Repr

/-- Feed modes (section 3.1). -/
inductive Mode where
  | live | record
  deriving DecidableEq, Repr

/-- Feed states (section 3.1). -/
inductive FeedState where
  | idle | ready | running | stopping
  deriving DecidableEq, Repr

/-- A feed's configuration (section 3.1, R37). -/
structure FeedConfig where
  format : Format
  mode : Mode
  qMin : Nat
  qMax : Nat
  qRec : Nat
  weight : Nat
  rateMin : Nat
  rateMax : Nat
  /-- M, the maximum unit size in bytes. -/
  maxUnit : Nat
  /-- Slot count K. -/
  slots : Nat
  recorder : Bool
  autoLog : Bool
  deriving DecidableEq, Repr

/-- Band states (section 3.6). -/
inductive BandState where
  | waiting | opened | short | complete | incomplete | empty
  deriving DecidableEq, Repr

/-- One band of a picture's band map, with the buffer it holds, if any (section 3.6). -/
structure Band where
  state : BandState
  /-- The band holds one of the feed's band buffers. -/
  hasBuffer : Bool
  /-- The memory lines of the band written so far, by line of the band, rising. -/
  lines : List (Nat × Line)
  /-- The band's close event; meaningful once closed (R55). -/
  closeEvent : Nat
  deriving DecidableEq, Repr

/-- The budget of a picture of a LIVE feed (R65). -/
structure Budget where
  pictureBits : Nat
  bandShare : Nat
  ceiling : Nat
  pictureBytes : Nat
  deriving DecidableEq, Repr

/-- A picture in hand (section 3.5), with what the band coder keeps for it (R55, R65, R68, R73). -/
structure Picture where
  /-- The model's own name for the picture (DESIGN CHOICE, log 20). -/
  ident : Nat
  slot : Nat
  house : Count32
  /-- First line of its region, as an offset in the CODED window. -/
  start : Nat
  /-- The lowest band not yet closed; the band count once every band is closed. -/
  base : Nat
  bands : List Band
  /-- The picture was abandoned (R44). -/
  abandoned : Bool
  budget : Option Budget
  /-- Error sum E (R70). -/
  errorSum : Int
  /-- Bands coded so far: the feed's coding position in this picture (R55). -/
  coded : Nat
  /-- U: bytes already in the unit (R68). -/
  bytes : Nat
  incompleteBands : Nat
  flatBands : Nat
  retriedBands : Nat
  deriving DecidableEq, Repr

/-- A feed's current picture (section 3.1). -/
inductive CurrentPicture where
  | none
  | dropped
  | present (ident : Nat)
  deriving DecidableEq, Repr

/-- A feed record with its pictures in hand (section 3.1). -/
structure Feed where
  state : FeedState
  cfg : FeedConfig
  curSlot : Option Nat
  cur : CurrentPicture
  pics : List Picture
  /-- Free band buffers (R46). -/
  freeBuffers : Nat
  /-- Silence timer, in picture periods (R40). -/
  silence : Timer
  /-- Quantiser index (R70). -/
  q : Nat
  /-- P, B, K_band and T as the record shows them: those of the picture at the feed's coding position
  (R65; with no such picture: DESIGN CHOICE, log 36). -/
  budget : Option Budget
  /-- E as the record shows it: that of the picture at the feed's coding position (R65, R71, R74; with no
  such picture: DESIGN CHOICE, log 36). -/
  errorSum : Int
  /-- Late-write mark (R48). -/
  lateMark : Bool
  /-- Incomplete-band mark (R48). -/
  incMark : Bool
  deriving DecidableEq, Repr

/-- An entry of the coding queue (section 4.1). -/
structure QueuedBand where
  feed : Fin 8
  pic : Nat
  band : Nat
  closeEvent : Nat
  deriving DecidableEq, Repr

/-- The coding operation in progress: one band, and for a picture's last band its unit header too
(R57). -/
structure CodingOp where
  feed : Fin 8
  pic : Nat
  band : Nat
  /-- The coder has issued the operation's own writes. -/
  issued : Bool
  /-- Its own writes not yet accepted, in issue order. -/
  writes : List OwnWrite
  deriving DecidableEq, Repr

/-- The band coder (spec/04). -/
structure BandCoder where
  queue : List QueuedBand
  op : Option CodingOp
  /-- The number of the next band closing (DESIGN CHOICE, log 20). -/
  closeCount : Nat
  /-- The number of the next picture (DESIGN CHOICE, log 20). -/
  picCount : Nat
  deriving DecidableEq, Repr

/-- A unit record (section 5.1). `seq`, `length` and `bytes` are meaningful once COMPLETE. -/
structure UnitRec where
  /-- COMPLETE, or RESERVED when false. -/
  complete : Bool
  seq : Count32
  house : Count32
  start : Nat
  reserved : Nat
  /-- Length in lines. -/
  length : Nat
  /-- The unit header's length field. -/
  bytes : Nat
  recorded : Bool
  held : Nat
  /-- Live membership. -/
  live : Bool
  deriving DecidableEq, Repr

/-- A feed's coded ring (spec/05); its size is read from the CODED window (R76). -/
structure CodedRing where
  head : Nat
  units : List UnitRec
  nextSeq : Count32
  /-- Some unit of the feed has completed since full reset (R85). -/
  anyCompleted : Bool
  deriving DecidableEq, Repr

/-- An input record (section 6.4). -/
structure InputRec where
  fader : Nat
  afv : Option (Fin 8)
  depth : Nat
  deriving DecidableEq, Repr

/-- A leg record (section 6.4). -/
structure LegRec where
  master : Nat
  uplink : Bool
  alarm : Bool
  latch : Bool
  deriving DecidableEq, Repr

/-- A gain step for each pair of input and leg; 0 is off. -/
abbrev Steps := Vector (Vector Nat 8) 32

/-- A scene: what a scene slot holds (section 6.8). -/
structure Scene where
  inputs : Vector InputRec 32
  sends : Steps
  /-- Master step and alarm enable of each leg. -/
  legs : Vector (Nat × Bool) 8
  deriving DecidableEq, Repr

/-- A pending recall (R112). -/
structure Recall where
  scene : Scene
  fromCommand : Bool
  deriving DecidableEq, Repr

/-- The block state (section 6.3). -/
inductive BlockState where
  | waiting
  | gathering (n : Count32)
  | fired (n : Count32)
  deriving DecidableEq, Repr

/-- Fire kinds, in the order of section 11.4. -/
inductive FireKind where
  | complete | next | stray
  deriving DecidableEq, Repr

/-- A fired block (R100). -/
structure FiredBlock where
  number : Count32
  kind : FireKind
  buf : List (Nat × Line)
  house : Count32
  steps : Steps
  /-- Inputs STARVED for the block (R101). -/
  starved : BitVec 32
  /-- Base of the MIX_OUT window at the firing (R106). -/
  outBase : Nat
  /-- The last mix of R97: it adds nothing to an uplink frame. -/
  last : Bool
  deriving DecidableEq, Repr

/-- One leg of a mixed block: its 48 samples after the range check, peak and flags (R105, R107). -/
structure LegMix where
  samples : List Int
  peak : Nat
  inexact : Bool
  roundedUp : Bool
  saturated : Bool
  deriving DecidableEq, Repr

/-- The mix in progress (R106). -/
structure MixOp where
  legs : List LegMix
  /-- The mixer has issued the block's own writes. -/
  issued : Bool
  /-- Its own writes not yet accepted, in issue order. -/
  writes : List OwnWrite
  deriving DecidableEq, Repr

/-- The frame in assembly (R114). `samples` holds, for each listed leg, its samples so far. -/
structure Assembly where
  legs : List (Fin 8)
  first : Count32
  house : Count32
  lastBlock : Count32
  gap : Bool
  blocks : Nat
  samples : List (List Int)
  deriving DecidableEq, Repr

/-- The sound mixer (spec/06). -/
structure Mixer where
  running : Bool
  block : BlockState
  /-- The block being gathered: the slot lines written, by slot line, rising (R95). -/
  buf : List (Nat × Line)
  fireQ : List FiredBlock
  mix : Option MixOp
  inputs : Vector InputRec 32
  sends : Steps
  legs : Vector LegRec 8
  lastSteps : Steps
  /-- Inputs STARVED at the previous firing; the others are PRESENT (R101). -/
  starved : BitVec 32
  scenes : Vector (Option Scene) 8
  recalling : Option Recall
  frame : Option Assembly
  deriving DecidableEq, Repr

/-- Tally states (section 7.1). -/
inductive TallyState where
  | off | preview | program
  deriving DecidableEq, Repr

/-- Output drives (section 7.2). -/
inductive Drive where
  | off | steady | slow | fast
  deriving DecidableEq, Repr

/-- A feed's tally and its tally line (sections 7.1, 7.2). -/
structure TallyFeed where
  state : TallyState
  call : Bool
  callTimer : Timer
  drive : Drive
  /-- The tally line is lit. -/
  lit : Bool
  blink : Timer
  deriving DecidableEq, Repr

/-- Tally authority: LOCAL (`van`), HOME, HOME_LOST (section 7.3). -/
inductive Authority where
  | van | home | homeLost
  deriving DecidableEq, Repr

/-- Line actions, in the order of section 7.5. -/
inductive LineAction where
  | mark | markIn | markOut | program | preview | call | signalHome | scene
  deriving DecidableEq, Repr

/-- A signal-line record (section 7.5). -/
structure SignalLine where
  enabled : Bool
  /-- PULSE, or LEVEL when false. -/
  pulse : Bool
  /-- Polarity HIGH, or LOW when false. -/
  activeHigh : Bool
  action : LineAction
  argument : Byte
  feeds : Byte
  category : Byte
  /-- Debounced level ACTIVE. -/
  debounced : Bool
  /-- Pending level, ACTIVE when true. -/
  pendingLevel : Option Bool
  debounce : Timer
  markOpen : Bool
  deriving DecidableEq, Repr

/-- The tally and signal unit (spec/07). -/
structure TallyUnit where
  feeds : Vector TallyFeed 8
  authority : Authority
  fallback : Timer
  upCount : Nat
  lines : Vector SignalLine 8
  /-- Mark stack of clip numbers, top first (7.7). -/
  stack : List Nat
  deriving DecidableEq, Repr

/-- Clip origins (section 8.1). -/
inductive Origin where
  | manual | auto
  deriving DecidableEq, Repr

/-- Clip states (section 8.2). -/
inductive ClipState where
  | opened | closed | sending | sent | released | lapsed
  deriving DecidableEq, Repr

/-- Close reasons, in the order of section 8.1. -/
inductive CloseReason where
  | markOut | maxLength | tally | stop | restart | empty
  deriving DecidableEq, Repr

/-- A listed feed of a clip with its in and out sequences (section 8.1). -/
structure ClipFeed where
  feed : Fin 8
  inSeq : Option Count32
  outSeq : Option Count32
  deriving DecidableEq, Repr

/-- A clip (section 8.1). -/
structure Clip where
  number : Nat
  origin : Origin
  state : ClipState
  guarded : Bool
  parent : Option Nat
  feeds : List ClipFeed
  inHouse : Option Count32
  outHouse : Option Count32
  category : Byte
  rating : Byte
  note : List Byte
  reason : Option CloseReason
  /-- Send progress while SENDING: bytes in all and bytes handed. -/
  progress : Option (Nat × Nat)
  deriving DecidableEq, Repr

/-- The trim session: its clip and the saved points (section 8.7). -/
structure TrimSession where
  clip : Nat
  saved : List ClipFeed
  deriving DecidableEq, Repr

/-- The clip log (spec/08). -/
structure ClipLog where
  /-- The clips the records hold, in creation order. -/
  list : List Clip
  counter : Nat
  maxLen : Nat
  trim : Option TrimSession
  /-- An automatic opening of the feed found no record and NO_RECORD was reported (R139). -/
  autoFailed : Vector Bool 8
  deriving DecidableEq, Repr

/-- The classes of uplink data, in the order of section 11.5. -/
inductive UplinkClass where
  | audio | label | live | clip
  deriving DecidableEq, Repr

/-- The item a fragment belongs to (R176). -/
inductive Item where
  | audio (first : Count32)
  | message (kind : Nat) (number : Nat)
  | liveUnit (feed : Fin 8) (seq : Count32)
  | clipUnit (clip : Nat) (feed : Fin 8) (seq : Count32)
  deriving DecidableEq, Repr

/-- A fragment handed to a path (R176). `addr` is the DRAM address of byte 0 of the item for units
(DEDUCED, log 14); `data` is the copy an audio frame's or a message's fragment carries. -/
structure Fragment where
  seq : BitVec 48
  cls : UplinkClass
  item : Item
  addr : Nat
  offset : Nat
  itemLength : Nat
  length : Nat
  data : List Byte
  deriving DecidableEq, Repr

/-- Control words the part sends (section 9.1). -/
inductive ControlWord where
  | train | offer | idle
  deriving DecidableEq, Repr

/-- What stands on a path's link: nothing, the frame of the fragment in transmission with the memory
lines of its data fetched so far, or a control word (R165). -/
inductive Link where
  | quiet
  | frame (fragment : Fragment) (fetched : List (Option Line))
  | word (w : ControlWord)
  deriving DecidableEq, Repr

/-- Path states, in the order of section 9.2. -/
inductive PathState where
  | disabled | training | negotiating | up | failed
  deriving DecidableEq, Repr

/-- A path record (section 9.1). Level, MTU, ceiling and reported capacity are 0 when absent. -/
structure PathRec where
  state : PathState
  hostCap : Nat
  good : Nat
  failed : Nat
  level : Nat
  mtu : Nat
  ceiling : Nat
  reported : Nat
  pacingCap : Nat
  credit : Int
  held : Bool
  errors : Nat
  degraded : Bool
  /-- Transmit queue, head first. -/
  queue : List Fragment
  link : Link
  /-- Control words that wait for the link (R165). -/
  due : List ControlWord
  /-- A frame or word was sent since the last pacing tick (R165, DESIGN CHOICE, log 15). -/
  sent : Bool
  trainingTimer : Timer
  window : Timer
  offerTimer : Timer
  negotiation : Timer
  silence : Timer
  hold : Timer
  pacing : Timer
  deriving DecidableEq, Repr

/-- The return filter (section 9.8). Bit k of `taken` stands for the number k before the highest. -/
structure ReturnFilter where
  session : Option (BitVec 32)
  highest : BitVec 32
  taken : BitVec 32
  lastTally : Option (BitVec 32)
  lastRateCap : Option (BitVec 32)
  deriving DecidableEq, Repr

/-- A queue item of the AUDIO queue: an audio frame with its bytes (R114, R172). -/
structure AudioItem where
  legs : List (Fin 8)
  first : Count32
  house : Count32
  gap : Bool
  data : List Byte
  cursor : Nat
  deriving DecidableEq, Repr

/-- A queue item of the LABEL queue: a message (R175). `kind` is 0 CLIP_NOTICE, 1 NAK, 2 SIGNAL;
`number` is its clip number, or its code for a SIGNAL. -/
structure LabelItem where
  kind : Nat
  number : Nat
  data : List Byte
  cursor : Nat
  deriving DecidableEq, Repr

/-- A queue item of the LIVE queue (R173). -/
structure LiveItem where
  feed : Fin 8
  seq : Count32
  house : Count32
  length : Nat
  addr : Nat
  cursor : Nat
  deriving DecidableEq, Repr

/-- A unit of a clip in the CLIP queue (R174). -/
structure ClipUnit where
  feed : Fin 8
  seq : Count32
  length : Nat
  addr : Nat
  cursor : Nat
  deriving DecidableEq, Repr

/-- A clip in the CLIP queue (R174). -/
structure ClipItem where
  clip : Nat
  units : List ClipUnit
  deriving DecidableEq, Repr

/-- An entry of the return list: what is not yet re-cut of a returned fragment (section 10.4). -/
structure ReturnEntry where
  cls : UplinkClass
  item : Item
  addr : Nat
  offset : Nat
  itemLength : Nat
  length : Nat
  data : List Byte
  deriving DecidableEq, Repr

/-- The uplink scheduler (spec/10). -/
structure Scheduler where
  audio : List AudioItem
  label : List LabelItem
  live : List LiveItem
  clipQ : List ClipItem
  returns : List ReturnEntry
  seq : BitVec 48
  headroom : Nat
  share : Nat
  ageLimit : Nat
  notify : Bool
  rateCap : Option Nat
  /-- R of each feed (R171). -/
  rates : Vector (Option Nat) 8
  allocTimer : Timer
  deriving DecidableEq, Repr

/-- The part itself: everything but DRAM, the intake queue and the model's own queue. -/
structure Chip where
  /-- The reset input is held (R16). -/
  resetHeld : Bool
  /-- Strap 1 and strap 0 as read at the last release; high is true (R3). -/
  straps : Bool × Bool
  /-- The input levels of the signal lines; high is true (R126). -/
  linePins : Vector Bool 8
  mem : MemPath
  cmd : CommandUnit
  timing : Timing
  feeds : Vector Feed 8
  coder : BandCoder
  rings : Vector CodedRing 8
  mixer : Mixer
  tally : TallyUnit
  clips : ClipLog
  paths : Vector PathRec 4
  filter : ReturnFilter
  sched : Scheduler
  deriving DecidableEq, Repr

/-- The whole state: the model's queue of commands and events, DRAM, the intake queue of command
lines not yet taken (R18), and the part. -/
structure State where
  pending : List Instr
  dram : Memory
  intake : List Line
  chip : Chip
  deriving DecidableEq, Repr

/-- Faults: none. The spec gives the block no stop (DESIGN CHOICE, log 26). -/
inductive Fault where
  deriving DecidableEq, Repr

/-- Refusals. -/
inductive Refusal where
  /-- A row without a meaning. Raised by no arm: every row of the table has its meaning. Safe. -/
  | notModelled (mnemonic : String)
  deriving DecidableEq, Repr

/-- A feed record after full reset (R53, R74; the unread configuration: DESIGN CHOICE, log 19). -/
def Feed.reset : Feed where
  state := .idle
  cfg :=
    { format := .sd, mode := .live, qMin := 0, qMax := 0, qRec := 0, weight := 0, rateMin := 0,
      rateMax := 0, maxUnit := 0, slots := 0, recorder := false, autoLog := false }
  curSlot := none
  cur := .none
  pics := []
  freeBuffers := Config.bandBuffers
  silence := none
  q := 0
  budget := none
  errorSum := 0
  lateMark := false
  incMark := false

/-- A tally and its line after full reset (R132). -/
def TallyFeed.reset : TallyFeed where
  state := .off
  call := false
  callTimer := none
  drive := .off
  lit := false
  blink := none

/-- A signal-line record after full reset (R132; the unread fields: DESIGN CHOICE, log 19). -/
def SignalLine.reset : SignalLine where
  enabled := false
  pulse := false
  activeHigh := true
  action := .mark
  argument := 0
  feeds := 0
  category := 0
  debounced := false
  pendingLevel := none
  debounce := none
  markOpen := false

/-- A path record after full reset (R168). -/
def PathRec.reset : PathRec where
  state := .disabled
  hostCap := 0
  good := 0
  failed := 0
  level := 0
  mtu := 0
  ceiling := 0
  reported := 0
  pacingCap := 0
  credit := 0
  held := false
  errors := 0
  degraded := false
  queue := []
  link := .quiet
  due := []
  sent := false
  trainingTimer := none
  window := none
  offerTimer := none
  negotiation := none
  silence := none
  hold := none
  pacing := none

/-- Every step off. -/
def Steps.off : Steps := Vector.replicate 32 (Vector.replicate 8 0)

/-- The part while the reset input is held: R16, R36, R53, R74, R93, R115, R132, R151, R168, R182.
The window table stays empty until the release reads the straps (R3; DESIGN CHOICE, log 28); the pins and what has nothing
to do with the part's own state (the host's waiting transactions and the last answer) are given. -/
def Chip.held (straps : Bool × Bool) (pins : Vector Bool 8) (hostQ : List HostTxn)
    (answer : Option (Nat × Line)) (clock : Nat) : Chip where
  resetHeld := true
  straps := straps
  linePins := pins
  mem :=
    { windows := Vector.replicate 24 none, buffer := [], hostQ := hostQ, ownReads := [],
      alternating := false, lastHost := false, answer := answer }
  cmd :=
    { inflight := [], nextEntry := 0, producer := 0, consumer := 0, overfull := false, lost := 0,
      staging := [], pendingSet := 0, enableSet := 0, statusTimer := none }
  timing :=
    { count := 0, rate := 25, freeRun := false, watch := none, freeTimer := none, clock := clock,
      lastAdvance := clock }
  feeds := Vector.replicate 8 Feed.reset
  coder := { queue := [], op := none, closeCount := 0, picCount := 0 }
  rings := Vector.replicate 8 { head := 0, units := [], nextSeq := 0, anyCompleted := false }
  mixer :=
    { running := false, block := .waiting, buf := [], fireQ := [], mix := none,
      inputs := Vector.replicate 32 { fader := 0, afv := none, depth := 0 },
      sends := Steps.off,
      legs := Vector.replicate 8 { master := 0, uplink := false, alarm := false, latch := false },
      lastSteps := Steps.off, starved := 0, scenes := Vector.replicate 8 none, recalling := none,
      frame := none }
  tally :=
    { feeds := Vector.replicate 8 TallyFeed.reset, authority := .van, fallback := none,
      upCount := 0, lines := Vector.replicate 8 SignalLine.reset, stack := [] }
  clips :=
    { list := [], counter := 1, maxLen := 9000, trim := none, autoFailed := Vector.replicate 8 false }
  paths := Vector.replicate 4 PathRec.reset
  filter := { session := none, highest := 0, taken := 0, lastTally := none, lastRateCap := none }
  sched :=
    { audio := [], label := [], live := [], clipQ := [], returns := [], seq := 0, headroom := 90,
      share := 20, ageLimit := 20, notify := true, rateCap := none,
      rates := Vector.replicate 8 none, allocTimer := none }

/-- Base of the bootstrap COMMAND window by strap 1 and strap 0 (R3). -/
def bootstrapBase : Bool × Bool → Nat
  | (false, false) => 0x000000000
  | (false, true) => 0x010000000
  | (true, false) => 0x040000000
  | (true, true) => 0x0F0000000

/-- The release of the reset input: the straps are read, the bootstrap window is placed, and the watch,
status second and allocation timers start (R3, R28, R53, R182). -/
def Chip.release (c : Chip) (straps : Bool × Bool) : Chip :=
  { c with
    resetHeld := false
    straps := straps
    mem.windows := (Vector.replicate 24 none).set 0
      (some { base := bootstrapBase straps, size := Config.bootstrapSize, kind := .command,
              feed := none })
    cmd.statusTimer := some 1000
    timing.watch := some 2
    sched.allocTimer := some 100 }

/-- The machine right after a full reset: power-up has ended with both straps and every signal input
low (DESIGN CHOICE, log 4), the queues empty, DRAM with nothing listed (DESIGN CHOICE, log 5). -/
def State.reset : State where
  pending := []
  dram := []
  intake := []
  chip := (Chip.held (false, false) (Vector.replicate 8 false) [] none 0).release (false, false)

end Sys2Proof.Machine
end

