-- ==== Sys2Proof/Machine/Operands.lean ====
section
/-! DEFINITION. The forms in which operands and results stand in bytes: the fields of lines, byte masks,
the command line of section 11.1 (reading it and writing it), the CRC of R186, and the lists of feeds,
paths, inputs and legs. -/

namespace Sys2Proof.Machine

/-- Feeds, legs, lines and scene slots in ascending order. -/
def eight : List (Fin 8) := [0, 1, 2, 3, 4, 5, 6, 7]

/-- Paths in ascending order. -/
def four : List (Fin 4) := [0, 1, 2, 3]

/-- Byte `i` of a line, 0 beyond its end. -/
def lineByte (l : Line) (i : Nat) : Byte := l.toList.getD i 0

/-- The line whose bytes are `bs`, byte 0 first, completed with 0 (R185). -/
def lineOf (bs : List Byte) : Line := Vector.ofFn fun i : Fin 64 => bs.getD i.val 0

/-- The two-byte field at offset `o`, little-endian (chapter 11, Byte order). -/
def word16 (l : Line) (o : Nat) : BitVec 16 := lineByte l (o + 1) ++ lineByte l o

/-- The four-byte field at offset `o`, little-endian. -/
def word32 (l : Line) (o : Nat) : BitVec 32 := word16 l (o + 2) ++ word16 l o

/-- The eight-byte field at offset `o`, little-endian. -/
def word64 (l : Line) (o : Nat) : BitVec 64 := word32 l (o + 4) ++ word32 l o

/-- A two-byte value in memory order. -/
def le16 (x : BitVec 16) : List Byte := [x.extractLsb' 0 8, x.extractLsb' 8 8]

/-- A four-byte value in memory order. -/
def le32 (x : BitVec 32) : List Byte := le16 (x.extractLsb' 0 16) ++ le16 (x.extractLsb' 16 16)

/-- An eight-byte value in memory order. -/
def le64 (x : BitVec 64) : List Byte := le32 (x.extractLsb' 0 32) ++ le32 (x.extractLsb' 32 32)

/-- A two-byte value in link order, most significant byte first. -/
def be16 (x : BitVec 16) : List Byte := [x.extractLsb' 8 8, x.extractLsb' 0 8]

/-- A three-byte value in link order. -/
def be24 (x : BitVec 24) : List Byte := x.extractLsb' 16 8 :: be16 (x.extractLsb' 0 16)

/-- A four-byte value in link order. -/
def be32 (x : BitVec 32) : List Byte := be16 (x.extractLsb' 16 16) ++ be16 (x.extractLsb' 0 16)

/-- A six-byte value in link order. -/
def be48 (x : BitVec 48) : List Byte := be16 (x.extractLsb' 32 16) ++ be32 (x.extractLsb' 0 32)

/-- The value of bytes in link order. -/
def beNat (bs : List Byte) : Nat := bs.foldl (fun n b => 256 * n + b.toNat) 0

/-- A number as one byte. -/
def byteOf (n : Nat) : Byte := BitVec.ofNat 8 n

/-- A number as two bytes in memory order. -/
def leNat16 (n : Nat) : List Byte := le16 (BitVec.ofNat 16 n)

/-- A number as four bytes in memory order. -/
def leNat32 (n : Nat) : List Byte := le32 (BitVec.ofNat 32 n)

/-- An absent one-byte field (chapter 11, Absent values). -/
def absentByte : Byte := 0xFF

/-- A flag as a bit. -/
def bitOf (b : Bool) : Nat := if b then 1 else 0

/-- Byte `i` stands in the mask. -/
def inMask (m : Mask) (i : Nat) : Bool := m.getLsbD i

/-- Number of bytes in a mask (R7). -/
def maskCount (m : Mask) : Nat := (List.range 64).countP (inMask m)

/-- Every byte of the line. -/
def fullMask : Mask := 0xFFFFFFFFFFFFFFFF

/-- The mask of bytes `lo` .. `lo + n - 1` (R72). -/
def maskRange (lo n : Nat) : Mask := BitVec.ofNat 64 ((2 ^ n - 1) * 2 ^ lo)

/-- `old` with the bytes of `m` taken from `new`. -/
def mergeLine (old new : Line) (m : Mask) : Line :=
  Vector.ofFn fun i : Fin 64 => if inMask m i.val then new[i] else old[i]

/-- A line of zeros. -/
def zeroLine : Line := Vector.replicate 64 0

/-- The members of a one-byte feed list or feed set, ascending (chapter 11, Sets). -/
def feedsOf (b : Byte) : List (Fin 8) := eight.filter fun f => b.getLsbD f.val

/-- A list of feeds as a bitmap. -/
def feedBits (fs : List (Fin 8)) : Byte :=
  fs.foldl (fun b f => b ||| BitVec.ofNat 8 (2 ^ f.val)) 0

/-- A one-byte index below 8, if it is one. -/
def index8 (b : Byte) : Option (Fin 8) :=
  if h : b.toNat < 8 then some ⟨b.toNat, h⟩ else none

/-- A one-byte index below 4, if it is one. -/
def index4 (b : Byte) : Option (Fin 4) :=
  if h : b.toNat < 4 then some ⟨b.toNat, h⟩ else none

/-- A one-byte index below 32, if it is one. -/
def index32 (b : Byte) : Option (Fin 32) :=
  if h : b.toNat < 32 then some ⟨b.toNat, h⟩ else none

/-- A flag field: 0 off, 1 on, anything else BAD_ARG (R184). -/
def flagOf (b : Byte) : Option Bool :=
  if b = 0 then some false else if b = 1 then some true else none

/-- Kind code of a command line (section 11.1). -/
def kindCode (l : Line) : BitVec 16 := word16 l 0

/-- Tag and report-always flag of a command line; other flag bits are ignored (R21). -/
def headOf (l : Line) : CmdHead := { tag := word16 l 4, always := (lineByte l 2).getLsbD 0 }

/-- The 40 bytes of a CLIP LABEL note. -/
def noteOf (l : Line) : Vector Byte 40 := Vector.ofFn fun i : Fin 40 => lineByte l (16 + i.val)

/-- The command a command line is, by the tables of section 11.1 (R184). A kind code that stands in
neither table gives UNKNOWN_KIND_COMMAND. -/
def decodeLine (l : Line) : Instr :=
  let h := headOf l
  let k := kindCode l
  let b := lineByte l
  if k = 0x01 then .windowSet h (b 8) (b 9) (b 10) (word64 l 16) (word64 l 24)
  else if k = 0x02 then .windowClear h (b 8)
  else if k = 0x10 then
    .feedConfig h
      { feed := b 8, format := b 9, mode := b 10, qMin := b 11, qMax := b 12, qRec := b 13,
        weight := b 14, slots := b 15, rateMin := word32 l 16, rateMax := word32 l 20,
        maxUnit := word32 l 24, recorder := b 28, autoLog := b 29 }
  else if k = 0x11 then .feedStart h (b 8)
  else if k = 0x12 then .feedStop h (b 8)
  else if k = 0x13 then .timecodeSet h (b 8) (word32 l 12)
  else if k = 0x20 then .audioStart h
  else if k = 0x21 then .audioStop h
  else if k = 0x22 then .inputSet h (b 8) (b 9) (b 10) (b 11)
  else if k = 0x23 then .sendSet h (b 8) (b 9) (b 10)
  else if k = 0x24 then .legSet h (b 8) (b 9) (b 10) (b 11)
  else if k = 0x25 then .sceneSave h (b 8)
  else if k = 0x26 then .sceneRecall h (b 8)
  else if k = 0x27 then .overloadClear h (b 8)
  else if k = 0x30 then .tallySet h (b 8) (b 9) (b 10)
  else if k = 0x31 then .tallyAuthority h (b 8)
  else if k = 0x32 then
    .signalLineSet h
      { line := b 8, enabled := b 9, kind := b 10, polarity := b 11, action := b 12,
        argument := b 13, category := b 14, feeds := b 15 }
  else if k = 0x40 then .markIn h (b 8) (b 9)
  else if k = 0x41 then .markOut h
  else if k = 0x42 then
    .clipLabel h
      { clip := word16 l 8, category := b 10, rating := b 11, noteLength := b 12, note := noteOf l }
  else if k = 0x43 then .clipProtect h (word16 l 8)
  else if k = 0x44 then .clipUnprotect h (word16 l 8)
  else if k = 0x45 then .clipRelease h (word16 l 8)
  else if k = 0x46 then .clipSend h (word16 l 8)
  else if k = 0x47 then .trimBegin h (word16 l 8)
  else if k = 0x48 then .trimMove h (b 8) (word32 l 12)
  else if k = 0x49 then .trimEnd h
  else if k = 0x4A then .trimAbandon h
  else if k = 0x50 then .pathSet h (b 8) (b 9) (word32 l 12)
  else if k = 0x51 then .pathRetrain h (b 8)
  else if k = 0x52 then .uplinkSet h (b 8) (b 9) (b 10) (b 11) (word16 l 12)
  else if k = 0x53 then .homeSignal h (word16 l 8)
  else if k = 0x60 then .reportsTaken h (word32 l 8)
  else if k = 0x61 then .attentionSet h (b 8)
  else if k = 0x62 then .attentionClear h (b 8)
  else if k = 0x70 then .fence h
  else if k = 0x71 then .restart h
  else .unknownKindCommand h k

/-- A command line with kind code `k`, head `h` and the parameter bytes `ps` from byte 8, every other
byte 0 (section 11.1). -/
def commandLine (k : BitVec 16) (h : CmdHead) (ps : List Byte) : Line :=
  lineOf (le16 k ++ [byteOf (bitOf h.always), 0] ++ le16 h.tag ++ [0, 0] ++ ps)

/-- The command line the host writes for a command, by the tables of section 11.1; nothing for a row
that is no command of the host. -/
def encodeLine : Instr → Option Line
  | .unknownKindCommand h k => some (commandLine k h [])
  | .windowSet h e k f b z =>
    some (commandLine 0x01 h ([e, k, f, 0, 0, 0, 0, 0] ++ le64 b ++ le64 z))
  | .windowClear h e => some (commandLine 0x02 h [e])
  | .feedConfig h a =>
    some (commandLine 0x10 h
      ([a.feed, a.format, a.mode, a.qMin, a.qMax, a.qRec, a.weight, a.slots] ++ le32 a.rateMin ++
        le32 a.rateMax ++ le32 a.maxUnit ++ [a.recorder, a.autoLog]))
  | .feedStart h f => some (commandLine 0x11 h [f])
  | .feedStop h f => some (commandLine 0x12 h [f])
  | .timecodeSet h r n => some (commandLine 0x13 h ([r, 0, 0, 0] ++ le32 n))
  | .audioStart h => some (commandLine 0x20 h [])
  | .audioStop h => some (commandLine 0x21 h [])
  | .inputSet h i f a d => some (commandLine 0x22 h [i, f, a, d])
  | .sendSet h i l g => some (commandLine 0x23 h [i, l, g])
  | .legSet h l m u a => some (commandLine 0x24 h [l, m, u, a])
  | .sceneSave h n => some (commandLine 0x25 h [n])
  | .sceneRecall h n => some (commandLine 0x26 h [n])
  | .overloadClear h l => some (commandLine 0x27 h [l])
  | .tallySet h f t c => some (commandLine 0x30 h [f, t, c])
  | .tallyAuthority h a => some (commandLine 0x31 h [a])
  | .signalLineSet h a =>
    some (commandLine 0x32 h
      [a.line, a.enabled, a.kind, a.polarity, a.action, a.argument, a.category, a.feeds])
  | .markIn h fs c => some (commandLine 0x40 h [fs, c])
  | .markOut h => some (commandLine 0x41 h [])
  | .clipLabel h a =>
    some (commandLine 0x42 h
      (le16 a.clip ++ [a.category, a.rating, a.noteLength, 0, 0, 0] ++ a.note.toList))
  | .clipProtect h n => some (commandLine 0x43 h (le16 n))
  | .clipUnprotect h n => some (commandLine 0x44 h (le16 n))
  | .clipRelease h n => some (commandLine 0x45 h (le16 n))
  | .clipSend h n => some (commandLine 0x46 h (le16 n))
  | .trimBegin h n => some (commandLine 0x47 h (le16 n))
  | .trimMove h pt d => some (commandLine 0x48 h ([pt, 0, 0, 0] ++ le32 d))
  | .trimEnd h => some (commandLine 0x49 h [])
  | .trimAbandon h => some (commandLine 0x4A h [])
  | .pathSet h p e c => some (commandLine 0x50 h ([p, e, 0, 0] ++ le32 c))
  | .pathRetrain h p => some (commandLine 0x51 h [p])
  | .uplinkSet h r s a n m => some (commandLine 0x52 h ([r, s, a, n] ++ le16 m))
  | .homeSignal h c => some (commandLine 0x53 h (le16 c))
  | .reportsTaken h n => some (commandLine 0x60 h (le32 n))
  | .attentionSet h cs => some (commandLine 0x61 h [cs])
  | .attentionClear h n => some (commandLine 0x62 h [n])
  | .fence h => some (commandLine 0x70 h [])
  | .restart h => some (commandLine 0x71 h [])
  | .hostWrite _ _ _ | .hostRead _ | .ownWriteAccept | .downstreamGrant | .statusSecondTimer
  | .bandCoded | .feedSilenceTimer _ | .framePulse _ | .watchTimer | .freeRunTimer | .mixEnd
  | .callTimer _ | .blinkTimer _ | .fallbackTimer | .signalLineChange _ _ | .debounceTimer _
  | .trainingTimer _ | .trainingWindow _ | .offerTimer _ | .negotiationTimer _
  | .pathSilenceTimer _ | .holdTimer _ | .pacingTick _ | .transmissionEnd _ | .allocationTimer
  | .train _ | .offer _ | .accept _ _ _ _ _ | .idle _ | .capacity _ _ | .hold _ | .resume _
  | .errorNotice _ _ | .unitFailingCheck _ | .fragmentFrameReceived _ | .tallyMessage _ _ _ _
  | .callMessage _ _ _ _ | .clipRequest _ _ _ _ | .rateCap _ _ _ _ | .signalMessage _ _ _ _
  | .fullReset | .resetRelease _ _ | .unknownKindReturnMessage _ _ _ | .controlWordEnd _ => none

/-- The CRC register shifted right by one bit (R186). -/
def crcBit (r : BitVec 32) : BitVec 32 :=
  if r.getLsbD 0 then (r >>> 1) ^^^ 0xEDB88320 else r >>> 1

/-- The CRC register after one byte (R186). -/
def crcByte (r : BitVec 32) (b : Byte) : BitVec 32 :=
  crcBit (crcBit (crcBit (crcBit (crcBit (crcBit (crcBit (crcBit (r ^^^ b.setWidth 32))))))))

/-- The CRC-32 of R186: the register complemented when every byte has been taken. -/
def crc32 (bs : List Byte) : BitVec 32 := ~~~(bs.foldl crcByte 0xFFFFFFFF)

/-- The check of a control word: the low 16 bits of the CRC-32 over its bytes 0..9 (R186). -/
def wordCheck (bs : List Byte) : BitVec 16 := (crc32 (bs.take 10)).extractLsb' 0 16

end Sys2Proof.Machine
end

