-- ==== Sys2Proof/Machine/Flags.lean ====
section
/-! DEFINITION. The flags: causes and the attention line (section 2.7), the flags of a mixed sample
(R105), and the class of a leg (R107). -/

namespace Sys2Proof.Machine

/-- The eight causes and their numbers (section 2.7). -/
inductive Cause where
  | fault | command | path | ring | audio | clip | home | reports
  deriving DecidableEq, Repr

/-- A cause's number, 0..7 (section 2.7). -/
def causeCode : Cause → Nat
  | .fault => 0
  | .command => 1
  | .path => 2
  | .ring => 3
  | .audio => 4
  | .clip => 5
  | .home => 6
  | .reports => 7

/-- The set holding one cause. -/
def causeBit (k : Cause) : Byte := BitVec.ofNat 8 (2 ^ causeCode k)

/-- A cause set with a cause made pending; making it pending twice does not count twice (R33). -/
def withCause (set : Byte) (k : Cause) : Byte := set ||| causeBit k

/-- The lowest-numbered cause of a set as a report's byte, 0xFF for none (section 2.6). -/
def lowestCause (set : Byte) : Byte :=
  match eight.find? fun n => set.getLsbD n.val with
  | some n => byteOf n.val
  | none => absentByte

/-- The attention line: asserted exactly when some cause is pending and enabled (R34). -/
def Chip.attention (c : Chip) : Bool := (c.cmd.pendingSet &&& c.cmd.enableSet) != 0

/-- Full scale of a sample: 2^23 (R105). -/
def fullScale : Int := 8388608

/-- A mixed sample with its flags (R105). -/
structure MixedSample where
  value : Int
  inexact : Bool
  roundedUp : Bool
  saturated : Bool
  deriving DecidableEq, Repr

/-- A / 2^15 rounded to the nearest integer, ties to the even integer (R105). -/
def roundSample (a : Int) : Int :=
  let q0 := a / 32768
  let r := a % 32768
  if r < 16384 then q0 else if 16384 < r then q0 + 1 else if q0 % 2 = 0 then q0 else q0 + 1

/-- A leg sample from the exact sum A: rounded, flagged, then range-checked (R105). -/
def mixedSample (a : Int) : MixedSample :=
  let y := roundSample a
  { value := max (-fullScale) (min (fullScale - 1) y)
    inexact := a % 32768 != 0
    roundedUp := decide (a < y * 32768)
    saturated := decide (y < -fullScale) || decide (fullScale - 1 < y) }

/-- A leg of a mixed block from its 48 samples: the peak and the flags set on any sample (R107). -/
def legMixOf (ss : List MixedSample) : LegMix where
  samples := ss.map (·.value)
  peak := ss.foldl (fun m s => max m s.value.natAbs) 0
  inexact := ss.any (·.inexact)
  roundedUp := ss.any (·.roundedUp)
  saturated := ss.any (·.saturated)

/-- Class of a leg in a block: 0 SILENT, 1 NORMAL, 2 HOT, 3 CLIPPED, decided in the order of R107. -/
def legClass (m : LegMix) : Byte :=
  if m.samples.all (· == 0) then 0
  else if m.saturated then 3
  else if 7340032 ≤ m.peak then 2
  else 1

/-- The flags byte of a leg in a trailer (section 11.4). -/
def legFlags (m : LegMix) : Byte :=
  byteOf (bitOf m.inexact + 2 * bitOf m.roundedUp + 4 * bitOf m.saturated)

/-- a is before b in the 32-bit order of R134. -/
def seqBefore (a b : Count32) : Bool :=
  let d := (b - a).toNat
  decide (1 ≤ d) && decide (d < 2147483648)

/-- x lies in the span that runs from a to b in the order of R134. -/
def inSpan (a b x : Count32) : Bool := decide ((x - a).toNat ≤ (b - a).toNat)

/-- x lies in a span that runs from a onward (R86, an OPEN clip). -/
def inOpenSpan (a x : Count32) : Bool := !seqBefore x a

end Sys2Proof.Machine
end

