-- ==== Sys2Proof/Machine/Ops.lean ====
section
/-! DEFINITION. The shared operations: DRAM, the window table, the own-write buffer, asking for a
report, results and the in-flight list, and the taking of a command from the intake queue. Where one
event has effects in several blocks, or asks for several reports, the meanings fix their order (DESIGN
CHOICE, log 7). -/

namespace Sys2Proof.Machine

/-- What a step answers. -/
abbrev Out := Host.Outcome State Fault Refusal

/-! ### DRAM -/

/-- The byte at an address; an unlisted byte reads 0 (DESIGN CHOICE, log 5). -/
def memRead : Memory → Nat → Byte
  | [], _ => 0
  | (x, v) :: r, a => if x = a then v else memRead r a

/-- DRAM with a byte written, in canonical form. -/
def memWrite : Memory → Nat → Byte → Memory
  | [], a, b => if b = 0 then [] else [(a, b)]
  | (x, v) :: r, a, b =>
    if a < x then (if b = 0 then (x, v) :: r else (a, b) :: (x, v) :: r)
    else if a = x then (if b = 0 then r else (a, b) :: r)
    else (x, v) :: memWrite r a b

/-- The canonical form: addresses strictly rising, no listed byte 0. -/
def Memory.wf (m : Memory) : Bool :=
  decide (m.Pairwise fun x y => x.1 < y.1) && m.all fun x => x.2 != 0

/-- The line of DRAM at a line address. -/
def memReadLine (m : Memory) (addr : Nat) : Line :=
  Vector.ofFn fun i : Fin 64 => memRead m (addr + i.val)

/-- DRAM with the masked bytes of a line written; the other bytes keep their values (R1). -/
def memWriteLine (m : Memory) (addr : Nat) (data : Line) (mask : Mask) : Memory :=
  (List.range 64).foldl
    (fun m i => if inMask mask i then memWrite m (addr + i) (lineByte data i) else m) m

/-- The line address of a host transaction (section 1.1; the low six bits do not count, DEDUCED, log 27). -/
def lineAddr (a : BitVec 36) : Nat := a.toNat / Config.lineBytes * Config.lineBytes

/-! ### The window table -/

/-- Entry numbers in ascending order. -/
def entries : List (Fin 24) :=
  [0, 1, 2, 3, 4, 5, 6, 7, 8, 9, 10, 11, 12, 13, 14, 15, 16, 17, 18, 19, 20, 21, 22, 23]

/-- An address matches a window (R2). -/
def Window.covers (w : Window) (a : Nat) : Bool :=
  decide (w.base ≤ a) && decide (a - w.base < w.size)

/-- The lowest-numbered entry an address matches (R2). -/
def classify (c : Chip) (a : Nat) : Option (Fin 24 × Window) :=
  entries.findSome? fun i =>
    match c.mem.windows[i] with
    | some w => if w.covers a then some (i, w) else none
    | none => none

/-- The window of a kind, for a feed where the kind has one (section 1.2). -/
def findWindow (c : Chip) (k : WindowKind) (f : Option (Fin 8)) : Option Window :=
  entries.findSome? fun i =>
    match c.mem.windows[i] with
    | some w => if w.kind = k ∧ w.feed = f then some w else none
    | none => none

/-- A part-owned kind (section 1.2). -/
def partOwned : WindowKind → Bool
  | .coded | .mixOut | .report => true
  | .command | .capture | .audioIn => false

/-- Window kind codes (section 1.2 by the rule of chapter 11, Codes). -/
def windowKindCode : WindowKind → Nat
  | .command => 0
  | .capture => 1
  | .audioIn => 2
  | .coded => 3
  | .mixOut => 4
  | .report => 5

/-- A feed as a one-byte field, 0xFF for none. -/
def feedByte : Option (Fin 8) → Byte
  | some f => byteOf f.val
  | none => absentByte

/-! ### The own-write buffer -/

/-- The mixer's own writes that wait for room (R11). -/
def mixerWaiting (c : Chip) : List OwnWrite :=
  match c.mixer.mix with
  | some m => if m.issued then m.writes else []
  | none => []

/-- The coder's own writes that wait for room (R11). -/
def coderWaiting (c : Chip) : List OwnWrite :=
  match c.coder.op with
  | some o => if o.issued then o.writes else []
  | none => []

/-- An own write accepted at the tail of the buffer; the write that brings it to 49 lines enters
ALTERNATING (R11, R15). -/
def pushOwn (w : OwnWrite) (c : Chip) : Chip :=
  { c with
    mem.buffer := c.mem.buffer ++ [w]
    mem.alternating := c.mem.alternating || decide (Config.hostFirstLimit ≤ c.mem.buffer.length) }

/-- The pending own writes of a line together cover all its bytes (R13). -/
def covered (buffer : List OwnWrite) (addr : Nat) : Bool :=
  (buffer.foldl (fun m w => if w.addr = addr then m ||| w.mask else m) 0) == fullMask

/-- A line with the pending own writes of its address merged in, newest on top (R13). -/
def mergePending (buffer : List OwnWrite) (addr : Nat) (line : Line) : Line :=
  buffer.foldl (fun l w => if w.addr = addr then mergeLine l w.data w.mask else l) line

/-! ### Causes and reports -/

/-- A cause becomes pending (R33). -/
def makePending (k : Cause) (c : Chip) : Chip :=
  { c with cmd.pendingSet := withCause c.cmd.pendingSet k }

/-- The kinds of report, in the order of section 2.6. -/
inductive ReportKind where
  | result | commandLost | guard | feed | unit | ring | audio | clip | path | home | status | overflow
  deriving DecidableEq, Repr

/-- Report kind codes (section 2.6 by the rule of chapter 11, Codes). -/
def reportCode : ReportKind → Nat
  | .result => 0
  | .commandLost => 1
  | .guard => 2
  | .feed => 3
  | .unit => 4
  | .ring => 5
  | .audio => 6
  | .clip => 7
  | .path => 8
  | .home => 9
  | .status => 10
  | .overflow => 11

/-- The cause of each report kind (section 2.6). -/
def reportCause : ReportKind → Option Cause
  | .result | .commandLost => some .command
  | .guard | .feed => some .fault
  | .unit | .ring => some .ring
  | .audio => some .audio
  | .clip => some .clip
  | .path => some .path
  | .home => some .home
  | .status => none
  | .overflow => some .reports

/-- The REPORT window. -/
def reportWindow (c : Chip) : Option Window := findWindow c .report none

/-- Lines of the report ring (section 2.6). -/
def ringLines (w : Window) : Nat := w.size / Config.lineBytes

/-- Occupancy of the report ring (section 2.6). -/
def occupancy (c : Chip) : Nat := (c.cmd.producer - c.cmd.consumer).toNat

/-- The report line of section 11.2 with the index, the pending set and the house count as they stand;
`body` is bytes 12 onward. -/
def reportLine (c : Chip) (k : ReportKind) (body : List Byte) : Line :=
  lineOf
    (le32 c.cmd.producer ++
      [byteOf (reportCode k),
        (match reportCause k with
          | some k => byteOf (causeCode k)
          | none => absentByte),
        lowestCause c.cmd.pendingSet, 0] ++
      le32 c.timing.count ++ body)

/-- Bytes 12 onward of a report with a subkind and a payload (section 11.2). -/
def reportBody (sub : Nat) (payload : List Byte) : List Byte := [byteOf sub, 0, 0, 0] ++ payload

/-- The staging list issues its head while the own-write buffer has room that no waiting write of the
mixer takes first (R11, R29). -/
def drainStaging : Nat → Chip → Chip
  | 0, c => c
  | n + 1, c =>
    match c.cmd.staging with
    | [] => c
    | w :: rest =>
      if c.mem.buffer.length + (mixerWaiting c).length < Config.bufferLimit then
        drainStaging n (pushOwn w { c with cmd.staging := rest })
      else c

/-- A report is lost for lack of room (R32). -/
def loseReport (c : Chip) : Chip :=
  let c := if c.cmd.overfull then c else makePending .reports c
  { c with cmd.overfull := true, cmd.lost := min Config.lostLimit (c.cmd.lost + 1) }

/-- A report is given index p and its line, joins the staging list, and may bring the occupancy to
half the ring or above (R29, R33). -/
def placeReport (w : Window) (k : ReportKind) (body : List Byte) (c : Chip) : Chip :=
  let line := w.base + c.cmd.producer.toNat % ringLines w * Config.lineBytes
  let own : OwnWrite := { addr := line, data := reportLine c k body, mask := fullMask }
  let c := { c with cmd.producer := c.cmd.producer + 1, cmd.staging := c.cmd.staging ++ [own] }
  let c := if ringLines w ≤ 2 * occupancy c then makePending .reports c else c
  drainStaging c.cmd.staging.length c

/-- The ring or the staging list has no room for a report (R29). -/
def noReportRoom (w : Window) (c : Chip) : Bool :=
  c.cmd.overfull || decide (ringLines w ≤ occupancy c) ||
    decide (Config.stagingLimit ≤ c.cmd.staging.length)

/-- The cause of a report kind becomes pending (R29, R33). -/
def raiseCause (k : ReportKind) (c : Chip) : Chip :=
  match reportCause k with
  | some x => makePending x c
  | none => c

/-- A report is discarded, lost or placed (R29). -/
def putReport (k : ReportKind) (body : List Byte) (c : Chip) : Chip :=
  match reportWindow c with
  | none => c
  | some w => if noReportRoom w c then loseReport c else placeReport w k body c

/-- A block asks for a report: its cause becomes pending, then the report is placed (R29). -/
def askReport (k : ReportKind) (body : List Byte) (c : Chip) : Chip :=
  putReport k body (raiseCause k c)

/-- The overfull period ends at an event after which the ring has a free line and the staging list has
room: the mark and the count are cleared and OVERFLOW is asked for (R32). -/
def endOverfull (c : Chip) : Chip :=
  match reportWindow c with
  | none => c
  | some w =>
    if c.cmd.overfull && decide (occupancy c < ringLines w) &&
        decide (c.cmd.staging.length < Config.stagingLimit) then
      askReport .overflow (reportBody 0 (leNat16 c.cmd.lost))
        { c with cmd.overfull := false, cmd.lost := 0 }
    else c

/-! ### Results -/

/-- Result codes, in the order of section 2.4 (chapter 11, Codes). -/
inductive ResultCode where
  | done | exact | clampedLow | clampedHigh
  | badKind | badArg | busy | notReady | notRunning | wrongState | noSuchClip | logFull
  | stackFull | stackEmpty | queueFull | authority | limit | guarded | held | empty
  deriving DecidableEq, Repr

/-- A result code's number. -/
def resultCode : ResultCode → Nat
  | .done => 0
  | .exact => 1
  | .clampedLow => 2
  | .clampedHigh => 3
  | .badKind => 4
  | .badArg => 5
  | .busy => 6
  | .notReady => 7
  | .notRunning => 8
  | .wrongState => 9
  | .noSuchClip => 10
  | .logFull => 11
  | .stackFull => 12
  | .stackEmpty => 13
  | .queueFull => 14
  | .authority => 15
  | .limit => 16
  | .guarded => 17
  | .held => 18
  | .empty => 19

/-- The codes below BAD_KIND have outcome COMPLETED, the others REFUSED (section 2.4). -/
def isRefusal (r : ResultCode) : Bool := decide (4 ≤ resultCode r)

/-- Where an action came from (R25): a command line, or a signal line. -/
inductive Source where
  | host
  | line (n : Fin 8)
  deriving DecidableEq, Repr

/-- Source and line bytes of a report (section 11.2; no line is 0xFF, DEDUCED, log 11). -/
def sourceBytes : Source → List Byte
  | .host => [0, absentByte]
  | .line n => [1, byteOf n.val]

/-- A RESULT report is asked for (R25). -/
def askResult (kind tag : BitVec 16) (src : Source) (r : ResultCode) (payload : List Byte)
    (c : Chip) : Chip :=
  askReport .result
    (reportBody 0
      (le16 tag ++ le16 kind ++ sourceBytes src ++
        [byteOf (bitOf (isRefusal r)), byteOf (resultCode r)] ++ payload)) c

/-! ### The in-flight list -/

/-- Some in-flight entry has this object (R22). -/
def inFlight (o : Object) (c : Chip) : Bool := c.cmd.inflight.any fun e => e.object == o

/-- A RESTART is in flight (R26). -/
def restarting (c : Chip) : Bool := inFlight .whole c

/-- An entry leaves the list and every wait set, and its RESULT is asked for if its report-always flag
is set; RESTART always asks for one (R23, R24). -/
def endEntry (e : InFlight) (r : ResultCode) (payload : List Byte) (c : Chip) : Chip :=
  let kept := (c.cmd.inflight.filter fun x => x.ident != e.ident).map fun x =>
    { x with waits := x.waits.filter fun i => i != e.ident }
  let c := { c with cmd.inflight := kept }
  if e.always || e.object == .whole || isRefusal r then
    askResult e.kind e.tag .host r payload c
  else c

/-- Every FENCE whose wait set is empty completes, oldest first (R24). -/
def settleFences : Nat → Chip → Chip
  | 0, c => c
  | n + 1, c =>
    match c.cmd.inflight.find? fun e => e.object == .fence && e.waits.isEmpty with
    | none => c
    | some e => settleFences n (endEntry e .done [] c)

/-- The in-flight command on an object completes, if there is one, and with it every FENCE that waited
for nothing else (R23, R24). -/
def finishObject (o : Object) (payload : List Byte) (c : Chip) : Chip :=
  match c.cmd.inflight.find? fun e => e.object == o with
  | none => c
  | some e =>
    let c := endEntry e .done payload c
    settleFences c.cmd.inflight.length c

/-! ### Taking a command -/

/-- What an owner answers to a command (R20): completed at once with a code, a payload and the state
after; refused with a code; begun on an object with the state after. -/
inductive Verdict where
  | completed (r : ResultCode) (payload : List Byte) (c : Chip)
  | refused (r : ResultCode)
  | begun (o : Object) (c : Chip)

/-- The end of a command's taking: a refused command changes nothing and asks for its RESULT, a
completed one asks for it if its report-always flag is set, a begun one joins the in-flight list, a
FENCE with every entry of the list as its wait set (R20, R23, R24, R25). `c'` is the state after every effect
of the command, so the reports and the serve that the effects bring come before the command's own RESULT, where
the manual does not order them (DESIGN CHOICE, log 7; MARK OUT alone serves after its RESULT). -/
def conclude (kind : BitVec 16) (h : CmdHead) (c : Chip) : Verdict → Chip
  | .refused r => askResult kind h.tag .host r [] c
  | .completed r payload c' => if h.always then askResult kind h.tag .host r payload c' else c'
  | .begun o c' =>
    { c' with
      cmd.nextEntry := c'.cmd.nextEntry + 1
      cmd.inflight := c'.cmd.inflight ++
        [{ ident := c'.cmd.nextEntry, kind := kind, tag := h.tag, always := h.always, object := o,
           waits := if o = .fence then c'.cmd.inflight.map (·.ident) else [] }] }

/-- This command may be taken: the reset input is not held, no RESTART is in flight, and the line at the
head of the intake queue is this command, or the queue is empty and the command's line is handed over
and taken at once (R20, R26, R28; DESIGN CHOICE, log 6). -/
def takes (i : Instr) (s : State) : Bool :=
  !s.chip.resetHeld && !restarting s.chip &&
    match s.intake with
    | [] => true
    | l :: _ => decodeLine l == i

/-- A command is taken from the head of the intake queue; a command that may not be taken has no effect
(R20, DESIGN CHOICE, log 1). -/
def command (i : Instr) (s : State) (k : Chip → Chip) : Out :=
  if takes i s then .next { s with intake := s.intake.tail, chip := k s.chip } else .next s

/-- An event at the part; while the reset input is held it has no effect (R16, R28). -/
def event (s : State) (k : Chip → Chip) : Out :=
  if s.chip.resetHeld then .next s else .next { s with chip := k s.chip }

/-- A feed's record changed. -/
def setFeed (c : Chip) (f : Fin 8) (r : Feed) : Chip := { c with feeds := c.feeds.set f r }

/-- A feed's coded ring changed. -/
def setRing (c : Chip) (f : Fin 8) (r : CodedRing) : Chip := { c with rings := c.rings.set f r }

/-- A path's record changed. -/
def setPath (c : Chip) (p : Fin 4) (r : PathRec) : Chip := { c with paths := c.paths.set p r }

/-- A feed's tally record changed. -/
def setTallyFeed (c : Chip) (f : Fin 8) (t : TallyFeed) : Chip :=
  { c with tally.feeds := c.tally.feeds.set f t }

/-- A signal-line record changed. -/
def setLine (c : Chip) (n : Fin 8) (l : SignalLine) : Chip :=
  { c with tally.lines := c.tally.lines.set n l }

end Sys2Proof.Machine
end

