-- ==== Sys2Proof/Machine/Scheduler.lean ====
section
/-! DEFINITION. The uplink scheduler and the carriage of fragments: the allocation (R169 to R171), the
class queues (R172 to R175), readiness, taking and transmission (R163 to R165), serving the paths
(R176, R177), the return list (R178) and withdrawal (R179). -/

namespace Sys2Proof.Machine

/-! ### Unit records -/

/-- The COMPLETE record of a feed's unit with a sequence. -/
def findUnit (c : Chip) (f : Fin 8) (seq : Count32) : Option UnitRec :=
  c.rings[f].units.find? fun u => u.complete && u.seq == seq

/-- Every record of the feed's list passed through `g`. -/
def mapUnits (g : UnitRec → UnitRec) (f : Fin 8) (c : Chip) : Chip :=
  setRing c f { c.rings[f] with units := c.rings[f].units.map g }

/-- The live membership of a unit set or ended (R87). -/
def setLive (f : Fin 8) (seq : Count32) (b : Bool) (c : Chip) : Chip :=
  mapUnits (fun u => if u.complete && u.seq == seq then { u with live := b } else u) f c

/-- DRAM address of line `start` of a feed's CODED window. -/
def codedAddr (c : Chip) (f : Fin 8) (start : Nat) : Nat :=
  match findWindow c .coded (some f) with
  | some w => w.base + start * Config.lineBytes
  | none => start * Config.lineBytes

/-- The LIVE queue or the return list holds bytes of a live unit (R87, R173). -/
def hasLiveBytes (c : Chip) (f : Fin 8) (seq : Count32) : Bool :=
  (c.sched.live.any fun i => i.feed == f && i.seq == seq) ||
    c.sched.returns.any fun r => r.item == .liveUnit f seq

/-- A live unit's membership ends when no bytes of it are left to send (R87). -/
def settleMember (i : Item) (c : Chip) : Chip :=
  match i with
  | .liveUnit f seq => if hasLiveBytes c f seq then c else setLive f seq false c
  | .audio _ | .message _ _ | .clipUnit _ _ _ => c

/-- LIVE backlog D of a feed (R173). -/
def backlog (c : Chip) (f : Fin 8) : Nat :=
  ((c.sched.live.filter fun i => i.feed == f).map fun i => i.length - i.cursor).sum +
    ((c.sched.returns.filter fun r =>
      match r.item with
      | .liveUnit g _ => g == f
      | .audio _ | .message _ _ | .clipUnit _ _ _ => false).map (·.length)).sum

/-! ### The allocation -/

/-- Step 1 of R170: the cap of a path. -/
def pathCap (r : PathRec) : Nat :=
  if r.state = .up then
    let cap := if r.level = 1 then r.ceiling else min r.reported r.ceiling
    let cap := if r.hostCap = 0 then cap else min cap r.hostCap
    if r.degraded then cap / 2 else cap
  else 0

/-- Steps 2 to 6 of R170: the live pool L. -/
def livePool (c : Chip) : Nat :=
  let sum := (four.map fun p => pathCap c.paths[p]).sum
  let cap := match c.sched.rateCap with
    | some r => min sum r
    | none => sum
  let eff := cap * c.sched.headroom / 100
  let reserve := if c.mixer.running then 1200 * eight.countP (fun l => c.mixer.legs[l].uplink) else 0
  (eff - reserve - 64) * (100 - c.sched.share) / 100

/-- A feed that shares the live pool (R171). -/
def sharesPool (c : Chip) (f : Fin 8) : Bool :=
  c.feeds[f].state == .running && c.feeds[f].cfg.mode == .live

/-- Weight w' of a feed: doubled while its tally is PROGRAM (R171). -/
def tallyWeight (c : Chip) (f : Fin 8) : Nat :=
  if c.tally.feeds[f].state = .program then 2 * c.feeds[f].cfg.weight else c.feeds[f].cfg.weight

/-- R of a feed from the live pool (R171). -/
def feedRate (c : Chip) (f : Fin 8) : Option Nat :=
  if sharesPool c f then
    let total := ((eight.filter (sharesPool c)).map (tallyWeight c)).sum
    let r := livePool c * tallyWeight c f / total
    some (min c.feeds[f].cfg.rateMax (max c.feeds[f].cfg.rateMin r))
  else none

/-- The allocation: every R and every pacing cap is replaced at one event (R169, R171). -/
def allocate (c : Chip) : Chip :=
  { c with
    sched.rates := Vector.ofFn fun f : Fin 8 => feedRate c f
    paths := Vector.ofFn fun p : Fin 4 => { c.paths[p] with pacingCap := pathCap c.paths[p] } }

/-! ### The AUDIO and LABEL queues -/

/-- An audio frame joins the AUDIO queue; at 8 frames the head is dropped first (R172). -/
def joinAudio (a : AudioItem) (c : Chip) : Chip :=
  let q := if Config.audioLimit ≤ c.sched.audio.length then c.sched.audio.tail else c.sched.audio
  { c with sched.audio := q ++ [a] }

/-- The LABEL queue has room for a message (R175). -/
def labelRoom (c : Chip) : Bool := decide (c.sched.label.length < Config.labelLimit)

/-- A label message joins the LABEL queue, or is dropped with a LABEL_DROPPED report (R175). -/
def joinLabel (m : LabelItem) (c : Chip) : Chip :=
  if labelRoom c then { c with sched.label := c.sched.label ++ [m] }
  else askReport .home (reportBody 4 (byteOf m.kind :: leNat16 m.number)) c

/-- A SIGNAL goes home, by command or by a line's action: the message is queued or dropped, and
SIGNAL_OUT is asked for (R175). -/
def signalHome (code : Byte) (src : Source) (c : Chip) : Chip :=
  let queued := labelRoom c
  let c := joinLabel { kind := 2, number := code.toNat, data := [code], cursor := 0 } c
  askReport .home (reportBody 5 ([code] ++ sourceBytes src ++ [byteOf (bitOf (!queued))])) c

/-! ### What stands on a link -/

/-- Class codes (section 11.5). -/
def classCode : UplinkClass → Nat
  | .audio => 0
  | .label => 1
  | .live => 2
  | .clip => 3

/-- Bytes 7..13 of a fragment's header: feed or message kind, clip, and unit sequence, first block
number or code (section 11.5; DEDUCED, log 11; DESIGN CHOICE, log 12). -/
def itemBytes : Item → List Byte
  | .audio first => [absentByte] ++ be16 0 ++ be32 first
  | .message kind n =>
    if kind = 2 then [2] ++ be16 0 ++ be32 (BitVec.ofNat 32 n)
    else [byteOf kind] ++ be16 (BitVec.ofNat 16 n) ++ be32 (Config.messageCodeField kind n)
  | .liveUnit f seq => [byteOf f.val] ++ be16 0 ++ be32 seq
  | .clipUnit n f seq => [byteOf f.val] ++ be16 (BitVec.ofNat 16 n) ++ be32 seq

/-- The 24 header bytes of a fragment's carriage frame (section 11.5). -/
def frameHeader (f : Fragment) : List Byte :=
  [byteOf (0x10 + classCode f.cls)] ++ be48 f.seq ++ itemBytes f.item ++
    be32 (BitVec.ofNat 32 f.offset) ++ be32 (BitVec.ofNat 32 f.itemLength) ++
    be16 (BitVec.ofNat 16 f.length)

/-- The data of a frame: the fragment's own copy, or its part of the lines fetched (R165). -/
def frameData (f : Fragment) (fetched : List (Option Line)) : List Byte :=
  match f.item with
  | .audio _ | .message _ _ => f.data
  | .liveUnit _ _ | .clipUnit _ _ _ =>
    ((fetched.flatMap fun l => (l.getD zeroLine).toList).drop
      ((f.addr + f.offset) % Config.lineBytes)).take f.length

/-- The value bytes of a control word the part sends (section 11.5). -/
def wordValues : ControlWord → List Byte
  | .train => [0xA5, 0x5A, 0xA5, 0x5A, 0x3C, 0xC3, 0x0F, 0xF0, 0x96]
  | .offer => [2] ++ be16 1500 ++ [0, 0, 0, 0, 0, 0]
  | .idle => [0, 0, 0, 0, 0, 0, 0, 0, 0]

/-- Lead bytes of the control words the part sends (section 11.5). -/
def wordLead : ControlWord → Byte
  | .train => 0x01
  | .offer => 0x02
  | .idle => 0x04

/-- The bytes that leave on a link: a carriage frame with its CRC-32, or a control word with its check
(R165, R186). -/
def linkBytes : Link → List Byte
  | .quiet => []
  | .frame f fetched =>
    let body := frameHeader f ++ frameData f fetched
    body ++ le32 (crc32 body)
  | .word w =>
    let body := wordLead w :: wordValues w
    body ++ be16 (wordCheck body)

/-! ### Transmission -/

/-- The memory lines that hold a unit fragment's data, in address order (R165). -/
def fragmentLines (f : Fragment) : List Nat :=
  match f.item with
  | .audio _ | .message _ _ => []
  | .liveUnit _ _ | .clipUnit _ _ _ =>
    let a := f.addr + f.offset
    let first := a / Config.lineBytes
    let last := (a + f.length - 1) / Config.lineBytes
    (List.range (last + 1 - first)).map fun i => (first + i) * Config.lineBytes

/-- A transmission may begin on a path (R165); a word that waits goes first (DESIGN CHOICE, log 15). -/
def mayBegin (r : PathRec) : Bool :=
  r.state == .up && !r.held && r.link == .quiet && r.due.isEmpty && !r.queue.isEmpty

/-- A transmission begins: the head fragment leaves the queue and its lines are read, those wholly
covered by pending own writes at once, the others by own reads (R13, R14, R165). -/
def beginTransmission (p : Fin 4) (c : Chip) : Chip :=
  if mayBegin c.paths[p] then
    match c.paths[p].queue with
    | [] => c
    | f :: rest =>
      let addrs := fragmentLines f
      let fetched := addrs.map fun a =>
        if covered c.mem.buffer a then some (mergePending c.mem.buffer a zeroLine) else none
      let reads := (addrs.zipIdx.filter fun x => !covered c.mem.buffer x.1).map fun x =>
        ({ path := p, seq := f.seq, addr := x.1, index := x.2 } : OwnRead)
      let c := { c with mem.ownReads := c.mem.ownReads ++ reads }
      setPath c p { c.paths[p] with queue := rest, link := .frame f fetched, sent := true }
  else c

/-- A control word due on a path: it goes out, or waits for the link (R165). -/
def sendWord (p : Fin 4) (w : ControlWord) (c : Chip) : Chip :=
  let r := c.paths[p]
  if r.link = .quiet then setPath c p { r with link := .word w }
  else setPath c p { r with due := r.due ++ [w] }

/-- The link falls quiet: the next waiting word goes out, or else the next frame (R165, DESIGN CHOICE, log
15). -/
def linkFree (p : Fin 4) (c : Chip) : Chip :=
  let r := c.paths[p]
  match r.due with
  | w :: rest => setPath c p { r with link := .word w, due := rest, sent := true }
  | [] => beginTransmission p (setPath c p { r with link := .quiet })

/-! ### Serving the paths -/

/-- A path is ready (R163). -/
def ready (r : PathRec) : Bool :=
  r.state == .up && !r.held && decide (r.queue.length < Config.transmitLimit) && decide (0 < r.credit)

/-- The ready path with the greatest credit, the lower number among equals (R176). -/
def bestReady (c : Chip) : Option (Fin 4) :=
  four.foldl
    (fun best p =>
      if ready c.paths[p] then
        match best with
        | none => some p
        | some b => if c.paths[b].credit < c.paths[p].credit then some p else best
      else best) none

/-- Most data bytes of a fragment on a path (R164). -/
def fragmentLimit (r : PathRec) : Nat := r.mtu - Config.frameOverhead

/-- The path takes a fragment: it takes the next uplink sequence, joins the transmit queue, and the
credit falls; a quiet link begins it (R163 to R165, R176). -/
def hand (p : Fin 4) (cls : UplinkClass) (item : Item) (addr offset itemLength length : Nat)
    (data : List Byte) (c : Chip) : Chip :=
  let f : Fragment :=
    { seq := c.sched.seq, cls := cls, item := item, addr := addr, offset := offset,
      itemLength := itemLength, length := length, data := data }
  let c := { c with sched.seq := c.sched.seq + 1 }
  let r := c.paths[p]
  beginTransmission p (setPath c p
    { r with
      queue := r.queue ++ [f]
      credit := r.credit - 8 * ((length + Config.frameOverhead : Nat) : Int) })

/-- The unit the LIVE class would serve: the earliest house count, ties to the lower feed (R173;
the counts compared unsigned: DEDUCED, log 29; among equal counts of one feed the unit that completed
first: DESIGN CHOICE, log 34). -/
def earliestLive (c : Chip) : Option LiveItem :=
  c.sched.live.foldl
    (fun best i =>
      match best with
      | none => some i
      | some b =>
        if i.house.toNat < b.house.toNat ∨ (i.house = b.house ∧ i.feed < b.feed) then some i
        else best) none

/-- A unit's item leaves the LIVE queue. -/
def dropLive (f : Fin 8) (seq : Count32) (c : Chip) : Chip :=
  { c with sched.live := c.sched.live.filter fun i => !(i.feed == f && i.seq == seq) }

/-- Units older than the live age limit are dropped, one after another, until the unit to be served is
young enough (R177). -/
def ageLive : Nat → Chip → Chip
  | 0, c => c
  | n + 1, c =>
    match earliestLive c with
    | none => c
    | some i =>
      if c.sched.ageLimit < (c.timing.count - i.house).toNat then
        ageLive n (settleMember (.liveUnit i.feed i.seq) (dropLive i.feed i.seq c))
      else c

/-- The clip log's record of a clip changed. -/
def mapClip (n : Nat) (g : Clip → Clip) (c : Chip) : Chip :=
  { c with clips.list := c.clips.list.map fun k => if k.number = n then g k else k }

/-- The clip a number names (section 8.5). -/
def findClip (c : Chip) (n : Nat) : Option Clip := c.clips.list.find? fun k => k.number == n

/-- The scheduler tells the clip log of bytes handed; when all are handed the clip is SENT (R145). -/
def clipHanded (n k : Nat) (c : Chip) : Chip :=
  match findClip c n with
  | none => c
  | some clip =>
    match clip.progress with
    | none => c
    | some (total, handed) =>
      if total ≤ handed + k then
        askReport .clip (reportBody 2 (leNat16 n))
          (mapClip n (fun x => { x with state := .sent, progress := none }) c)
      else mapClip n (fun x => { x with progress := some (total, handed + k) }) c

/-- A serve from the return list's head entry (R176, R178). -/
def serveReturn (p : Fin 4) (r : ReturnEntry) (rest : List ReturnEntry) (c : Chip) : Chip :=
  let k := min (fragmentLimit c.paths[p]) r.length
  let left :=
    if k < r.length then
      { r with offset := r.offset + k, length := r.length - k, data := r.data.drop k } :: rest
    else rest
  settleMember r.item
    (hand p r.cls r.item r.addr r.offset r.itemLength k (r.data.take k)
      { c with sched.returns := left })

/-- A serve from the AUDIO queue's head frame (R172, R176). -/
def serveAudio (p : Fin 4) (a : AudioItem) (rest : List AudioItem) (c : Chip) : Chip :=
  let k := min (fragmentLimit c.paths[p]) (a.data.length - a.cursor)
  let left :=
    if a.cursor + k < a.data.length then { a with cursor := a.cursor + k } :: rest else rest
  hand p .audio (.audio a.first) 0 a.cursor a.data.length k ((a.data.drop a.cursor).take k)
    { c with sched.audio := left }

/-- A serve from the LABEL queue's head message (R175, R176). -/
def serveLabel (p : Fin 4) (m : LabelItem) (rest : List LabelItem) (c : Chip) : Chip :=
  let k := min (fragmentLimit c.paths[p]) (m.data.length - m.cursor)
  let left :=
    if m.cursor + k < m.data.length then { m with cursor := m.cursor + k } :: rest else rest
  hand p .label (.message m.kind m.number) 0 m.cursor m.data.length k ((m.data.drop m.cursor).take k)
    { c with sched.label := left }

/-- A serve from a unit of the LIVE queue (R173, R176). -/
def serveLive (p : Fin 4) (i : LiveItem) (c : Chip) : Chip :=
  let k := min (fragmentLimit c.paths[p]) (i.length - i.cursor)
  let left :=
    if i.cursor + k < i.length then
      c.sched.live.map fun x =>
        if x.feed = i.feed ∧ x.seq = i.seq then { x with cursor := i.cursor + k } else x
    else c.sched.live.filter fun x => !(x.feed == i.feed && x.seq == i.seq)
  settleMember (.liveUnit i.feed i.seq)
    (hand p .live (.liveUnit i.feed i.seq) i.addr i.cursor i.length k [] { c with sched.live := left })

/-- A serve from the current unit of the CLIP queue's head clip; the clip log is told of its bytes
(R174, R176). -/
def serveClip (p : Fin 4) (q : ClipItem) (rest : List ClipItem) (u : ClipUnit)
    (us : List ClipUnit) (c : Chip) : Chip :=
  let k := min (fragmentLimit c.paths[p]) (u.length - u.cursor)
  let units := if u.cursor + k < u.length then { u with cursor := u.cursor + k } :: us else us
  let left := if units.isEmpty then rest else { q with units := units } :: rest
  clipHanded q.clip k
    (hand p .clip (.clipUnit q.clip u.feed u.seq) u.addr u.cursor u.length k []
      { c with sched.clipQ := left })

/-- One serve (R176): the path, then the first source that has bytes. The flag tells whether a
fragment was handed. -/
def serveOnce (c : Chip) : Chip × Bool :=
  match bestReady c with
  | none => (c, false)
  | some p =>
    match c.sched.returns with
    | r :: rest => (serveReturn p r rest c, true)
    | [] =>
      match c.sched.audio with
      | a :: rest => (serveAudio p a rest c, true)
      | [] =>
        match c.sched.label with
        | m :: rest => (serveLabel p m rest c, true)
        | [] =>
          let c := ageLive c.sched.live.length c
          match earliestLive c with
          | some i => (serveLive p i c, true)
          | none =>
            match c.sched.clipQ with
            | [] => (c, false)
            | q :: rest =>
              match q.units with
              | [] => (c, false)
              | u :: us => (serveClip p q rest u us c, true)

/-- Serves repeated while a path is ready and bytes wait. -/
def serveLoop : Nat → Chip → Chip
  | 0, c => c
  | n + 1, c =>
    match serveOnce c with
    | (c', true) => serveLoop n c'
    | (c', false) => c'

/-- The most fragments four paths can take at one event: each fills its queue of 4 and begins one. -/
def serveBound : Nat := 20

/-- Own reads issued together are served lower path number first (R15). -/
def inReadOrder (k : Chip → Chip) (c : Chip) : Chip :=
  let n := c.mem.ownReads.length
  let c := k c
  let new := c.mem.ownReads.drop n
  { c with
    mem.ownReads := c.mem.ownReads.take n ++ four.flatMap fun p => new.filter fun r => r.path == p }

/-- The scheduler serves while some path is ready and some byte waits (R176). -/
def serve (c : Chip) : Chip := inReadOrder (serveLoop (serveBound + 1)) c

/-- The scheduler serves if the event changed what the class queues or the return list hold, or a path's
record (R176). The serve, and a SENT report that it brings, come after the event's own effects and reports
(R176 does not order them: DESIGN CHOICE, log 7). -/
def serveIfNew (before after : Chip) : Chip :=
  if after.sched.label = before.sched.label ∧ after.sched.clipQ = before.sched.clipQ ∧
      after.sched.live = before.sched.live ∧ after.sched.audio = before.sched.audio ∧
      after.sched.returns = before.sched.returns ∧ after.paths = before.paths then after
  else serve after

/-- An event's effect, and the serves that follow from it (R176). -/
def served (k : Chip → Chip) (c : Chip) : Chip := serveIfNew c (k c)

/-! ### The return list -/

/-- The unit record a fragment's item belongs to still stands; audio frames and messages need none
(R178). -/
def itemStands (c : Chip) : Item → Bool
  | .audio _ | .message _ _ => true
  | .liveUnit f seq | .clipUnit _ f seq => (findUnit c f seq).isSome

/-- The oldest entry of a full return list is dropped (R178). -/
def makeReturnRoom (c : Chip) : Chip :=
  if c.sched.returns.length < Config.returnLimit then c
  else
    match c.sched.returns with
    | [] => c
    | r :: rest => settleMember r.item { c with sched.returns := rest }

/-- A live unit with returned bytes becomes a member again (R178). -/
def rejoin (i : Item) (c : Chip) : Chip :=
  match i with
  | .liveUnit f seq => setLive f seq true c
  | .audio _ | .message _ _ | .clipUnit _ _ _ => c

/-- A path hands back a fragment (R178). -/
def returnFragment (f : Fragment) (c : Chip) : Chip :=
  if itemStands c f.item then
    let c := makeReturnRoom c
    rejoin f.item
      { c with
        sched.returns := c.sched.returns ++
          [{ cls := f.cls, item := f.item, addr := f.addr, offset := f.offset,
             itemLength := f.itemLength, length := f.length, data := f.data }] }
  else c

/-- A path hands back its queued fragments, oldest first (R157, R161, R178). -/
def returnQueue (p : Fin 4) (c : Chip) : Chip :=
  let fs := c.paths[p].queue
  fs.foldl (fun c f => returnFragment f c) (setPath c p { c.paths[p] with queue := [] })

/-! ### Withdrawal -/

/-- Every fragment that satisfies `gone` leaves the return list and the transmit queues (R164, R179). -/
def withdrawItems (gone : Item → Bool) (c : Chip) : Chip :=
  { c with
    sched.returns := c.sched.returns.filter fun r => !gone r.item
    paths := c.paths.map fun r => { r with queue := r.queue.filter fun f => !gone f.item } }

/-- The withdrawal of a live unit (R179); its membership ends (R82). -/
def withdrawLive (f : Fin 8) (seq : Count32) (c : Chip) : Chip :=
  setLive f seq false (withdrawItems (fun i => i == .liveUnit f seq) (dropLive f seq c))

/-- The item belongs to the clip. -/
def ofClip (n : Nat) : Item → Bool
  | .clipUnit m _ _ => m == n
  | .audio _ | .message _ _ | .liveUnit _ _ => false

/-- The withdrawal of a clip (R179). -/
def withdrawClip (n : Nat) (c : Chip) : Chip :=
  withdrawItems (ofClip n) { c with sched.clipQ := c.sched.clipQ.filter fun q => q.clip != n }

end Sys2Proof.Machine
end

