-- ==== Sys2Proof/Machine/Rings.lean ====
section
/-! DEFINITION. The coded rings as the other blocks use them: the figures of R85, holds (R86), which clip
holds what, protection (R88), the recorder tap (R89) and the discarding of a unit list (R91). -/

namespace Sys2Proof.Machine

/-- Newest completed sequence of a feed (R85). -/
def newestSeq (c : Chip) (f : Fin 8) : Option Count32 :=
  if c.rings[f].anyCompleted then some (c.rings[f].nextSeq - 1) else none

/-- Oldest sequence in a feed's unit list (R85). -/
def oldestSeq (c : Chip) (f : Fin 8) : Option Count32 :=
  (c.rings[f].units.find? fun u => u.complete).map (·.seq)

/-- A held count raised by one, stopping at 256 (R86). -/
def holdMore (n : Nat) : Nat := min 256 (n + 1)

/-- The hold changes of one feed at one event: +1 on each COMPLETE unit newly inside the span, -1 on
each newly outside it (R86, R140). -/
def changeHolds (f : Fin 8) (was now : Count32 → Bool) : Chip → Chip :=
  mapUnits
    (fun u =>
      if u.complete && now u.seq && !was u.seq then { u with held := holdMore u.held }
      else if u.complete && was u.seq && !now u.seq then { u with held := u.held - 1 }
      else u) f

/-- The four states in which a clip holds its units (section 8.2). -/
def holding : ClipState → Bool
  | .opened | .closed | .sending | .sent => true
  | .released | .lapsed => false

/-- A listed feed's span includes a sequence; an OPEN clip's span runs on from its in sequence (R86). -/
def spanIncludes (x : ClipFeed) (s : Count32) : Bool :=
  match x.inSeq, x.outSeq with
  | some a, some b => inSpan a b s
  | some a, none => inOpenSpan a s
  | none, _ => false

/-- A clip holds a sequence of a feed (R86). -/
def clipHolds (k : Clip) (f : Fin 8) (s : Count32) : Bool :=
  holding k.state && k.feeds.any fun x => x.feed == f && spanIncludes x s

/-- A clip holds at least one unit now in a feed's unit list (R81, R9). -/
def holdsUnitOf (c : Chip) (k : Clip) (f : Fin 8) : Bool :=
  c.rings[f].units.any fun u => u.complete && clipHolds k f u.seq

/-- Some clip in a holding state holds a unit of the feed (R9, R37). -/
def feedHeld (c : Chip) (f : Fin 8) : Bool := c.clips.list.any fun k => holdsUnitOf c k f

/-- The protected bytes of a feed if clip `k` were protected (R88). -/
def protectedBytes (c : Chip) (k : Clip) (f : Fin 8) : Nat :=
  ((c.rings[f].units.filter fun u =>
    u.complete && (clipHolds k f u.seq ||
      c.clips.list.any fun x => x.guarded && clipHolds x f u.seq)).map fun u =>
        u.length * Config.lineBytes).sum

/-- Size of a feed's coded ring in lines (R76). -/
def ringSize (c : Chip) (f : Fin 8) : Nat :=
  match findWindow c .coded (some f) with
  | some w => w.size / Config.lineBytes
  | none => 0

/-- The ring manager's answer whether a clip may be protected (R88). -/
def mayProtect (c : Chip) (k : Clip) : Bool :=
  k.feeds.all fun x =>
    decide (2 * protectedBytes c k x.feed ≤ ringSize c x.feed * Config.lineBytes)

/-- A recorder read of line `o` of the CODED window: the last line of an unrecorded COMPLETE unit makes
it recorded while the recorder flag is on; any other read is ignored (R89). -/
def readTap (f : Fin 8) (o : Nat) (c : Chip) : Chip :=
  if c.feeds[f].cfg.recorder then
    mapUnits (fun u => if u.complete && u.start + u.length - 1 == o then { u with recorded := true } else u)
      f c
  else c

/-- The unit list of a feed is discarded: live members are withdrawn, oldest first, the list becomes
empty, the head 0, and one DISCARDED report is asked for (R91). -/
def discardList (f : Fin 8) (c : Chip) : Chip :=
  let us := c.rings[f].units
  let c := us.foldl (fun c u => if u.complete && u.live then withdrawLive f u.seq c else c) c
  let c := setRing c f { c.rings[f] with units := [], head := 0 }
  askReport .ring (reportBody 2 (byteOf f.val :: leNat16 us.length)) c

end Sys2Proof.Machine
end

