-- ==== Sys2Proof/Machine/ClipLog.lean ====
section
/-! DEFINITION. The clip log (spec/08) with the mark stack's closings (R131): creating, closing,
labelling, protecting, releasing, sending, lapsing and trimming clips, automatic clips, notices and
home requests. -/

namespace Sys2Proof.Machine

/-! ### Codes and small reads -/

/-- Origin codes (section 8.1). -/
def originCode : Origin → Nat
  | .manual => 0
  | .auto => 1

/-- Clip state codes (section 8.1). -/
def clipStateCode : ClipState → Nat
  | .opened => 0
  | .closed => 1
  | .sending => 2
  | .sent => 3
  | .released => 4
  | .lapsed => 5

/-- Close reason codes (section 8.1). -/
def closeCode : CloseReason → Nat
  | .markOut => 0
  | .maxLength => 1
  | .tally => 2
  | .stop => 3
  | .restart => 4
  | .empty => 5

/-- A listed feed with both points: of a clip that is not OPEN, the feeds that are not bare (8.1). -/
def points (x : ClipFeed) : Option (Count32 × Count32) :=
  match x.inSeq, x.outSeq with
  | some a, some b => some (a, b)
  | _, _ => none

/-- The feeds of a closed clip that are not bare. -/
def nonBare (k : Clip) : List ClipFeed := k.feeds.filter fun x => (points x).isSome

/-- A clip lists a feed. -/
def lists (k : Clip) (f : Fin 8) : Bool := k.feeds.any fun x => x.feed == f

/-- The trim session is on the clip (R147). -/
def inTrim (c : Chip) (n : Nat) : Bool :=
  match c.clips.trim with
  | some t => t.clip == n
  | none => false

/-- House count of a feed's unit, if its record stands. -/
def unitHouse (c : Chip) (f : Fin 8) (s : Count32) : Option Count32 :=
  (findUnit c f s).map (·.house)

/-- In and out sequences of the non-bare feeds in bytes, each as `enc` lays it out. -/
def pointBytes (enc : Count32 → List Byte) (xs : List ClipFeed) : List Byte :=
  xs.flatMap fun x =>
    match points x with
    | some (a, b) => enc a ++ enc b
    | none => []

/-! ### Notices -/

/-- The body of a clip notice (R150, section 11.5). -/
def noticeBody (k : Clip) : List Byte :=
  be16 (BitVec.ofNat 16 k.number) ++
    [byteOf (originCode k.origin), byteOf (clipStateCode k.state), feedBits (k.feeds.map (·.feed)),
      feedBits ((nonBare k).map (·.feed))] ++
    be32 (k.inHouse.getD 0) ++ be32 (k.outHouse.getD 0) ++
    [k.category, k.rating, byteOf k.note.length] ++ k.note ++ pointBytes be32 (nonBare k)

/-- A clip notice is handed to the LABEL queue while notify is on, with the clip as it stands (R150). -/
def giveNotice (n : Nat) (c : Chip) : Chip :=
  if c.sched.notify then
    match findClip c n with
    | some k => joinLabel { kind := 0, number := n, data := noticeBody k, cursor := 0 } c
    | none => c
  else c

/-! ### Creating and closing -/

/-- A record can be had: a free one, or that of the oldest-created RELEASED or LAPSED clip (R135). -/
def takeRecord (l : List Clip) : Option (List Clip) :=
  if l.length < Config.clipLimit then some l
  else
    match l.find? fun k => !holding k.state with
    | some k => some (l.filter fun x => x.number != k.number)
    | none => none

/-- The number after a clip number, wrapping from 65535 to 1 (R135). -/
def numberAfter (n : Nat) : Nat := if n = 65535 then 1 else n + 1

/-- The first number from `n` onward that no clip of the log holds (R135). -/
def freeNumber (l : List Clip) : Nat → Nat → Nat
  | 0, n => n
  | fuel + 1, n => if l.any fun k => k.number == n then freeNumber l fuel (numberAfter n) else n

/-- A clip is created OPEN, if a record can be had, and OPENED is asked for (R135). -/
def createClip (origin : Origin) (fs : List (Fin 8)) (category : Byte) (parent : Option Nat)
    (c : Chip) : Option (Nat × Chip) :=
  match takeRecord c.clips.list with
  | none => none
  | some l =>
    let n := freeNumber l Config.clipLimit c.clips.counter
    let k : Clip :=
      { number := n, origin := origin, state := .opened, guarded := false, parent := parent,
        feeds := fs.map fun f =>
          { feed := f, inSeq := some c.rings[f].nextSeq, outSeq := none },
        inHouse := none, outHouse := none, category := category, rating := 0, note := [],
        reason := none, progress := none }
    let c := { c with clips.list := l ++ [k], clips.counter := numberAfter n }
    some (n, askReport .clip
      (reportBody 0
        (leNat16 n ++ [byteOf (originCode origin), feedBits fs] ++ leNat16 (parent.getD 0) ++
          [category])) c)

/-- A listed feed at its clip's close: bare if no unit completed since the clip opened (R136). -/
def closeFeed (c : Chip) (x : ClipFeed) : ClipFeed :=
  if x.inSeq = some c.rings[x.feed].nextSeq then { x with inSeq := none, outSeq := none }
  else { x with outSeq := some (c.rings[x.feed].nextSeq - 1) }

/-- The clip as its close leaves it (R136). -/
def closedClip (c : Chip) (reason : CloseReason) (k : Clip) : Clip :=
  let k := { k with feeds := k.feeds.map (closeFeed c) }
  match nonBare k with
  | [] => { k with state := .released, reason := some .empty }
  | x :: _ =>
    { k with
      state := .closed
      reason := some reason
      inHouse := x.inSeq.bind (unitHouse c x.feed)
      outHouse := x.outSeq.bind (unitHouse c x.feed) }

/-- One CLOSED report: its part and the feeds whose points it carries (section 11.2). -/
def closedReport (k : Clip) (part : Nat) (xs : List ClipFeed) : Chip → Chip :=
  askReport .clip
    (reportBody 1
      (leNat16 k.number ++
        [byteOf ((k.reason.map closeCode).getD 0), byteOf (clipStateCode k.state), byteOf part,
          feedBits ((nonBare k).map (·.feed))] ++ pointBytes le32 xs))

/-- A clip closes with its report or reports, and gives a notice if it became CLOSED (R136, R150). CLOSED is
asked for before a LABEL_DROPPED of that notice (R136, R150 and R175 do not order them: DESIGN CHOICE, log
7). -/
def closeClip (n : Nat) (reason : CloseReason) (c : Chip) : Chip :=
  match findClip c n with
  | none => c
  | some k =>
    let k := closedClip c reason k
    let c := mapClip n (fun _ => k) c
    let xs := nonBare k
    let c := closedReport k 0 (xs.take 5) c
    let c := if 5 < xs.length then closedReport k 1 (xs.drop 5) c else c
    if k.state = .closed then giveNotice n c else c

/-! ### The mark stack's closings -/

/-- The stack is popped from the top down to and including clip `n`, each clip closing (R131). -/
def closeStackTo (n : Nat) (reason : CloseReason) : List Nat → Chip → Chip
  | [], c => c
  | top :: rest, c =>
    let c := closeClip top reason { c with tally.stack := rest }
    if top = n then c else closeStackTo n reason rest c

/-- The whole stack is popped, each clip closing (R133). -/
def closeStack (reason : CloseReason) : List Nat → Chip → Chip
  | [], c => c
  | top :: rest, c => closeStack reason rest (closeClip top reason { c with tally.stack := rest })

/-! ### Automatic clips -/

/-- A feed calls for an automatic clip (R139). -/
def callsForAuto (c : Chip) (f : Fin 8) : Bool :=
  c.feeds[f].state == .running && c.feeds[f].cfg.autoLog && c.tally.feeds[f].state == .program

/-- The feed's OPEN AUTO clip (R139). -/
def openAuto (c : Chip) (f : Fin 8) : Option Clip :=
  c.clips.list.find? fun k => k.origin == .auto && k.state == .opened && lists k f

/-- Whether the feed's automatic opening has failed since it last opened or stopped calling (R139). -/
def setAutoFailed (f : Fin 8) (b : Bool) (c : Chip) : Chip :=
  { c with clips.autoFailed := c.clips.autoFailed.set f b }

/-- The feed's automatic clip opens if the feed calls for one and has none; NO_RECORD is reported at the
first failure only (R139). -/
def tryOpenAuto (f : Fin 8) (c : Chip) : Chip :=
  if callsForAuto c f && (openAuto c f).isNone then
    match createClip .auto [f] 0 none c with
    | some (_, c') => setAutoFailed f false c'
    | none =>
      if c.clips.autoFailed[f] then c
      else askReport .clip (reportBody 6 [byteOf f.val]) (setAutoFailed f true c)
  else c

/-- The feed's OPEN AUTO clip closes, if there is one; the feed no longer calls for one (R139). -/
def closeAuto (f : Fin 8) (reason : CloseReason) (c : Chip) : Chip :=
  let c := setAutoFailed f false c
  match openAuto c f with
  | some k => closeClip k.number reason c
  | none => c

/-! ### Max length -/

/-- Length of an OPEN clip in a listed feed (R137). -/
def clipLength (c : Chip) (x : ClipFeed) : Nat :=
  match x.inSeq with
  | some a => (c.rings[x.feed].nextSeq - a).toNat
  | none => 0

/-- An OPEN clip has reached the max length in one of the given feeds (R138). -/
def reachedMax (c : Chip) (among : Fin 8 → Bool) (k : Clip) : Bool :=
  k.state == .opened && k.feeds.any fun x => among x.feed && decide (c.clips.maxLen ≤ clipLength c x)

/-- A clip of the stack has reached the max length (R138). -/
def stackedReached (c : Chip) (among : Fin 8 → Bool) (n : Nat) : Bool :=
  match findClip c n with
  | some k => reachedMax c among k
  | none => false

/-- The automatic clip of a feed closes at its max length and the next one opens (R138, R139). -/
def closeAutoAtMax (among : Fin 8 → Bool) (f : Fin 8) (c : Chip) : Chip :=
  match openAuto c f with
  | some k =>
    if reachedMax c among k then tryOpenAuto f (closeClip k.number .maxLength c) else c
  | none => c

/-- The clips at their max length close: stacked clips from the lowest that reached it upward, then the
automatic clips (R131, R138, DESIGN CHOICE, log 30). -/
def closeAtMax (among : Fin 8 → Bool) (c : Chip) : Chip :=
  let c := match c.tally.stack.reverse.find? (stackedReached c among) with
    | some n => closeStackTo n .maxLength c.tally.stack c
    | none => c
  (eight.filter among).foldl (fun c f => closeAutoAtMax among f c) c

/-! ### Sends, releases and lapses -/

/-- A clip's holds drop in every feed it lists (R140). -/
def dropHolds (k : Clip) (c : Chip) : Chip :=
  k.feeds.foldl (fun c x => changeHolds x.feed (spanIncludes x) (fun _ => false) c) c

/-- The units of a clip that go to the CLIP queue: those of its spans with a record (R144). -/
def clipUnits (c : Chip) (k : Clip) : List ClipUnit :=
  (nonBare k).flatMap fun x =>
    (c.rings[x.feed].units.filter fun u => u.complete && spanIncludes x u.seq).map fun u =>
      { feed := x.feed, seq := u.seq, length := u.bytes, addr := codedAddr c x.feed u.start,
        cursor := 0 }

/-- A clip becomes SENDING and joins the CLIP queue (R144, R174). A clip with no bytes to send is SENT at
once, since the bytes handed reach the bytes in all (R145, DEDUCED, log 31). -/
def sendClip (k : Clip) (c : Chip) : Chip :=
  let us := clipUnits c k
  let total := (us.map (·.length)).sum
  let c := mapClip k.number (fun x => { x with state := .sending, progress := some (total, 0) }) c
  if total = 0 then clipHanded k.number 0 c
  else { c with sched.clipQ := c.sched.clipQ ++ [{ clip := k.number, units := us }] }

/-- A send is aborted: the clip's bytes are withdrawn and the send progress is dropped (R145). -/
def abortSend (n : Nat) (c : Chip) : Chip :=
  mapClip n (fun x => { x with progress := none }) (withdrawClip n c)

/-- A clip that is SENDING or SENT has its waiting bytes withdrawn (R143, R146). -/
def withdrawIfSent (k : Clip) (c : Chip) : Chip :=
  if k.state = .sending ∨ k.state = .sent then abortSend k.number c else c

/-- The clip chosen by hold pressure lapses for a feed's reservation (R146). -/
def lapseClip (k : Clip) (f : Fin 8) (c : Chip) : Chip :=
  let trimmed := inTrim c k.number
  let c := withdrawIfSent k c
  let c := if trimmed then { c with clips.trim := none } else c
  let c := dropHolds k (mapClip k.number (fun x => { x with state := .lapsed }) c)
  askReport .clip
    (reportBody 5
      (leNat16 k.number ++
        [byteOf f.val, byteOf (clipStateCode k.state),
          byteOf (bitOf (k.state == .sending) + 2 * bitOf trimmed)])) c

/-- Hold pressure's choice: the oldest-created CLOSED or SENT clip that is not protected, or failing that
the oldest SENDING one, among the clips holding a unit of the feed (R81, R140). -/
def lapseChoice (c : Chip) (f : Fin 8) : Option Clip :=
  let ks := c.clips.list.filter fun k => holdsUnitOf c k f && !k.guarded
  match ks.find? fun k => k.state == .closed || k.state == .sent with
  | some k => some k
  | none => ks.find? fun k => k.state == .sending

/-! ### Clip commands -/

/-- CLIP LABEL (R141). Its notice, a LABEL_DROPPED that the notice brings and the serve of it come before
the command's own RESULT (R141 does not order them: DESIGN CHOICE, log 7). -/
def clipLabel (a : ClipLabelArgs) (c : Chip) : Verdict :=
  let n := a.clip.toNat
  if 3 < a.rating.toNat ∨ 40 < a.noteLength.toNat then .refused .badArg
  else
    match findClip c n with
    | none => .refused .noSuchClip
    | some k =>
      if k.state = .released ∨ k.state = .lapsed then .refused .wrongState
      else
        let c' := mapClip n (fun x =>
          { x with
            category := a.category
            rating := a.rating
            note := a.note.toList.take a.noteLength.toNat }) c
        let c' := if k.state = .opened then c' else giveNotice n c'
        .completed .done [] (serveIfNew c c')

/-- CLIP PROTECT (R142). -/
def clipProtect (n : Nat) (c : Chip) : Verdict :=
  match findClip c n with
  | none => .refused .noSuchClip
  | some k =>
    if inTrim c n then .refused .busy
    else if ¬(k.state = .closed ∨ k.state = .sending ∨ k.state = .sent) then .refused .wrongState
    else if !k.guarded && !mayProtect c k then .refused .limit
    else .completed .done [] (mapClip n (fun x => { x with guarded := true }) c)

/-- CLIP UNPROTECT (R142). -/
def clipUnprotect (n : Nat) (c : Chip) : Verdict :=
  match findClip c n with
  | none => .refused .noSuchClip
  | some k =>
    if ¬(k.state = .closed ∨ k.state = .sending ∨ k.state = .sent) then .refused .wrongState
    else .completed .done [] (mapClip n (fun x => { x with guarded := false }) c)

/-- CLIP RELEASE (R143), its serve before its RESULT (DESIGN CHOICE, log 7). -/
def clipRelease (n : Nat) (c : Chip) : Verdict :=
  match findClip c n with
  | none => .refused .noSuchClip
  | some k =>
    if inTrim c n then .refused .busy
    else if k.state = .opened ∨ k.state = .released ∨ k.state = .lapsed then .refused .wrongState
    else if k.guarded then .refused .guarded
    else
      let c' := withdrawIfSent k c
      let c' := dropHolds k (mapClip n (fun x => { x with state := .released }) c')
      .completed .done [] (serveIfNew c c')

/-- The checks of CLIP SEND after the clip is found (R144). -/
def sendCheck (c : Chip) (k : Clip) : Option ResultCode :=
  if inTrim c k.number then some .busy
  else if ¬(k.state = .closed ∨ k.state = .sent) then some .wrongState
  else if Config.clipQueueLimit ≤ c.sched.clipQ.length then some .queueFull
  else none

/-- CLIP SEND (R144). The serve it brings, and a SENT report that comes of it, come before the command's own
RESULT (R144 does not order them: DESIGN CHOICE, log 7). -/
def clipSend (n : Nat) (c : Chip) : Verdict :=
  match findClip c n with
  | none => .refused .noSuchClip
  | some k =>
    match sendCheck c k with
    | some r => .refused r
    | none => .completed .done [] (serveIfNew c (sendClip k c))

/-! ### The trim session -/

/-- TRIM BEGIN (R147). -/
def trimBegin (n : Nat) (c : Chip) : Verdict :=
  match findClip c n with
  | none => .refused .noSuchClip
  | some k =>
    if c.clips.trim.isSome then .refused .busy
    else if ¬(k.state = .closed ∨ k.state = .sent) then .refused .wrongState
    else .completed .done [] { c with clips.trim := some { clip := n, saved := nonBare k } }

/-- The saved points differ from the clip's points as they stand (R147, R150). -/
def trimChanged (c : Chip) (t : TrimSession) : Bool :=
  match findClip c t.clip with
  | some k => nonBare k != t.saved
  | none => false

/-- The session ends, with a notice if a point differs from its saved value (R147, R150). -/
def endTrim (t : TrimSession) (c : Chip) : Chip :=
  let changed := trimChanged c t
  let c := { c with clips.trim := none }
  if changed then giveNotice t.clip c else c

/-- TRIM END (R147). Its notice, a LABEL_DROPPED and the serve come before the command's own RESULT (DESIGN
CHOICE, log 7). -/
def trimEnd (c : Chip) : Verdict :=
  match c.clips.trim with
  | none => .refused .wrongState
  | some t => .completed .done [] (serveIfNew c (endTrim t c))

/-- A point clamped between its bounds in the order of R134 (R148; contradicting or absent bounds:
DESIGN CHOICE, log 16). -/
def clampSeq (lo hi : Option Count32) (x : Count32) : Count32 :=
  let y := match lo with
    | some l => if seqBefore x l then l else x
    | none => x
  match hi with
  | some h => if seqBefore h y then h else y
  | none => y

/-- By how many sequences a point was clamped, and whether upward from below the bound. -/
structure Clamp where
  feed : Fin 8
  amount : Nat
  low : Bool
  deriving DecidableEq, Repr

/-- The clamp that took a point from `want` to `got`, if any. -/
def clampOf (f : Fin 8) (want got : Count32) : Option Clamp :=
  if got = want then none
  else if seqBefore want got then some { feed := f, amount := (got - want).toNat, low := true }
  else some { feed := f, amount := (want - got).toNat, low := false }

/-- The result code of a trim: EXACT, or by the point clamped by the most sequences, ties to the lowest
feed (R148). -/
def trimCode (cl : List Clamp) : ResultCode :=
  let worst := cl.foldl
    (fun best x =>
      match best with
      | none => some x
      | some b =>
        if b.amount < x.amount ∨ (b.amount = x.amount ∧ x.feed < b.feed) then some x else best) none
  match worst with
  | none => .exact
  | some b => if b.low then .clampedLow else .clampedHigh

/-- Feeds that were clamped, each once. -/
def clampedFeeds (cl : List Clamp) : Nat := eight.countP fun f => cl.any fun x => x.feed == f

/-- A listed feed with one point moved by delta and clamped (R148). -/
def moveFeed (c : Chip) (isIn : Bool) (delta : BitVec 32) (x : ClipFeed) : ClipFeed × List Clamp :=
  match points x with
  | none => (x, [])
  | some (a, b) =>
    if isIn then
      let got := clampSeq (oldestSeq c x.feed) (some b) (a + delta)
      ({ x with inSeq := some got }, (clampOf x.feed (a + delta) got).toList)
    else
      let got := clampSeq (some a) (newestSeq c x.feed) (b + delta)
      ({ x with outSeq := some got }, (clampOf x.feed (b + delta) got).toList)

/-- A listed feed with both points at their saved values, clamped by the same bounds, so that the restored
span lies within the feed's list as it now stands: oldest, in, out, newest in order (R148; the order of clamps
and absent bounds: DESIGN CHOICE, log 16). -/
def restoreFeed (c : Chip) (saved : List ClipFeed) (x : ClipFeed) : ClipFeed × List Clamp :=
  match saved.find? (fun y => y.feed == x.feed) with
  | none => (x, [])
  | some y =>
    match points y with
    | none => (x, [])
    | some (a, b) =>
      let out := clampSeq none (newestSeq c x.feed) b
      let inn := clampSeq (oldestSeq c x.feed) none (clampSeq (oldestSeq c x.feed) (some out) a)
      let out := clampSeq (some inn) none out
      ({ x with inSeq := some inn, outSeq := some out },
        (clampOf x.feed a inn).toList ++ (clampOf x.feed b out).toList)

/-- House counts taken again from the first non-bare feed's in and out units; a point whose unit has no
record leaves its house count (R148). -/
def renewHouses (c : Chip) (k : Clip) : Clip :=
  match nonBare k with
  | [] => k
  | x :: _ =>
    { k with
      inHouse := match x.inSeq.bind (unitHouse c x.feed) with
        | some h => some h
        | none => k.inHouse
      outHouse := match x.outSeq.bind (unitHouse c x.feed) with
        | some h => some h
        | none => k.outHouse }

/-- The session clip's feeds each changed by `g`, with the hold changes and the house counts (R148). -/
def retrim (k : Clip) (g : ClipFeed → ClipFeed × List Clamp) (c : Chip) : Chip × List Clamp :=
  let moved := k.feeds.map fun x => (x, g x)
  let c := moved.foldl (fun c m =>
    changeHolds m.1.feed (spanIncludes m.1) (spanIncludes m.2.1) c) c
  let k' := renewHouses c { k with feeds := moved.map (·.2.1) }
  (mapClip k.number (fun _ => k') c, moved.flatMap (·.2.2))

/-- The signed value of a TRIM MOVE delta lies in -30000..30000 (R148). -/
def deltaOk (d : BitVec 32) : Bool := decide (-30000 ≤ d.toInt) && decide (d.toInt ≤ 30000)

/-- TRIM MOVE (R148). -/
def trimMove (point : Byte) (delta : BitVec 32) (c : Chip) : Verdict :=
  if !deltaOk delta || decide (1 < point.toNat) then .refused .badArg
  else
    match c.clips.trim with
    | none => .refused .wrongState
    | some t =>
      if delta = 0 then .completed .exact [0] c
      else
        match findClip c t.clip with
        | none => .completed .exact [0] c
        | some k =>
          let (c', cl) := retrim k (moveFeed c (point == 0) delta) c
          .completed (trimCode cl) [byteOf (clampedFeeds cl)] c'

/-- TRIM ABANDON (R148). Its notice, a LABEL_DROPPED and the serve come before the command's own RESULT
(DESIGN CHOICE, log 7). -/
def trimAbandon (c : Chip) : Verdict :=
  match c.clips.trim with
  | none => .refused .wrongState
  | some t =>
    match findClip c t.clip with
    | none => .completed .exact [0] (endTrim t c)
    | some k =>
      let (c', cl) := retrim k (restoreFeed c t.saved) c
      .completed (trimCode cl) [byteOf (clampedFeeds cl)] (serveIfNew c (endTrim t c'))

/-! ### Home requests -/

/-- The outcome of a home CLIP_REQUEST as its report names it, and the NAK's code if one is queued
(R149, sections 11.2 and 11.5). -/
inductive RequestOutcome where
  | sending | ignored | nakBusy | nakNotReady | nakGone
  deriving DecidableEq, Repr

/-- Outcome codes of the HOME CLIP_REQUEST report (section 11.2). -/
def outcomeCode : RequestOutcome → Nat
  | .sending => 0
  | .ignored => 1
  | .nakBusy => 2
  | .nakNotReady => 3
  | .nakGone => 4

/-- NAK codes (section 11.5). -/
def nakCode : RequestOutcome → Option Nat
  | .nakNotReady => some 0
  | .nakGone => some 1
  | .nakBusy => some 2
  | .sending | .ignored => none

/-- How a home CLIP_REQUEST is taken (R149). -/
def requestOutcome (c : Chip) (n : Nat) : RequestOutcome :=
  match findClip c n with
  | none => .nakGone
  | some k =>
    match k.state with
    | .released | .lapsed => .nakGone
    | .opened => .nakNotReady
    | .sending => .ignored
    | .closed | .sent => if (sendCheck c k).isSome then .nakBusy else .sending

/-- A home CLIP_REQUEST (R149). The send, with the SENT report of one that has no byte, and the NAK, with a
LABEL_DROPPED, come before the HOME report (R149 does not order them: DESIGN CHOICE, log 7). -/
def homeRequest (n : Nat) (c : Chip) : Chip :=
  let o := requestOutcome c n
  let c := match o, findClip c n with
    | .sending, some k => sendClip k c
    | _, _ => c
  let c := match nakCode o with
    | some code =>
      joinLabel
        { kind := 1, number := n, data := be16 (BitVec.ofNat 16 n) ++ [byteOf code], cursor := 0 } c
    | none => c
  askReport .home (reportBody 1 (leNat16 n ++ [byteOf (outcomeCode o)])) c

/-! ### Meanings -/

/-- CLIP_LABEL (R141). -/
def execClipLabel (h : CmdHead) (a : ClipLabelArgs) (s : State) : Out :=
  command (.clipLabel h a) s fun c =>
    conclude 0x42 h c (clipLabel a c)

/-- CLIP_PROTECT (R142). -/
def execClipProtect (h : CmdHead) (clip : BitVec 16) (s : State) : Out :=
  command (.clipProtect h clip) s fun c =>
    conclude 0x43 h c (clipProtect clip.toNat c)

/-- CLIP_UNPROTECT (R142). -/
def execClipUnprotect (h : CmdHead) (clip : BitVec 16) (s : State) : Out :=
  command (.clipUnprotect h clip) s fun c =>
    conclude 0x44 h c (clipUnprotect clip.toNat c)

/-- CLIP_RELEASE (R143). -/
def execClipRelease (h : CmdHead) (clip : BitVec 16) (s : State) : Out :=
  command (.clipRelease h clip) s fun c =>
    conclude 0x45 h c (clipRelease clip.toNat c)

/-- CLIP_SEND (R144). -/
def execClipSend (h : CmdHead) (clip : BitVec 16) (s : State) : Out :=
  command (.clipSend h clip) s fun c =>
    conclude 0x46 h c (clipSend clip.toNat c)

/-- TRIM_BEGIN (R147). -/
def execTrimBegin (h : CmdHead) (clip : BitVec 16) (s : State) : Out :=
  command (.trimBegin h clip) s fun c =>
    conclude 0x47 h c (trimBegin clip.toNat c)

/-- TRIM_MOVE (R148). -/
def execTrimMove (h : CmdHead) (point : Byte) (delta : BitVec 32) (s : State) : Out :=
  command (.trimMove h point delta) s fun c =>
    conclude 0x48 h c (trimMove point delta c)

/-- TRIM_END (R147). -/
def execTrimEnd (h : CmdHead) (s : State) : Out :=
  command (.trimEnd h) s fun c =>
    conclude 0x49 h c (trimEnd c)

/-- TRIM_ABANDON (R148). -/
def execTrimAbandon (h : CmdHead) (s : State) : Out :=
  command (.trimAbandon h) s fun c =>
    conclude 0x4A h c (trimAbandon c)

end Sys2Proof.Machine
end

