-- ==== Sys2Proof/Machine/Mixer.lean ====
section
/-! DEFINITION. The sound mixer (spec/06): gathering and firing blocks, gain steps, mixing, trailers,
overload alarms, settings, scenes and uplink audio. -/

namespace Sys2Proof.Machine

/-! ### Line stores -/

/-- The stored line with an index, zero if it was never written. -/
def storedLine (buf : List (Nat × Line)) (i : Nat) : Line :=
  match buf.find? fun x => x.1 == i with
  | some x => x.2
  | none => zeroLine

/-- A masked write stored at an index of a buffer that starts all zero; the index counts as written
whatever the mask held (R46, R95). -/
def storeLine : List (Nat × Line) → Nat → Line → Mask → List (Nat × Line)
  | [], i, d, m => [(i, mergeLine zeroLine d m)]
  | (j, l) :: r, i, d, m =>
    if i < j then (i, mergeLine zeroLine d m) :: (j, l) :: r
    else if i = j then (j, mergeLine l d m) :: r
    else (j, l) :: storeLine r i d m

/-- A line with this index was written. -/
def wroteLine (buf : List (Nat × Line)) (i : Nat) : Bool := buf.any fun x => x.1 == i

/-! ### Gain -/

/-- The coefficients of R102, step 0 first. -/
def coefTable : List Nat :=
  [0, 558, 609, 664, 724, 790, 861, 939,
   1024, 1117, 1218, 1328, 1448, 1579, 1722, 1878,
   2048, 2233, 2435, 2656, 2896, 3158, 3444, 3756,
   4096, 4467, 4871, 5312, 5793, 6317, 6889, 7512,
   8192, 8933, 9742, 10624, 11585, 12634, 13777, 15024,
   16384, 17867, 19484, 21247, 23170, 25268, 27554, 30048,
   32768, 35734, 38968, 42495, 46341, 50535, 55109, 60097,
   65536, 71468, 77936, 84990, 92682, 101070, 110218, 120194]

/-- c(g), the coefficient of a step (R102). -/
def coef (g : Nat) : Int := (coefTable.getD g 0 : Nat)

/-- The fader step f' of an input, reduced while its assigned feed is not on air (R103). -/
def afvFader (r : InputRec) (tally : Vector TallyFeed 8) : Nat :=
  match r.afv with
  | none => r.fader
  | some f => if tally[f].state = .program then r.fader else r.fader - r.depth

/-- The effective step of a pair from its three stages; 0 is off (R103). -/
def effectiveStep (fader send master : Nat) : Nat :=
  if fader = 0 ∨ send = 0 ∨ master = 0 then 0 else min 63 (fader + send + master - 96)

/-- The effective steps of every pair as the settings and tallies stand (R103). -/
def effectiveSteps (m : Mixer) (tally : Vector TallyFeed 8) : Steps :=
  Vector.ofFn fun i : Fin 32 => Vector.ofFn fun l : Fin 8 =>
    effectiveStep (afvFader m.inputs[i] tally) m.sends[i][l] m.legs[l].master

/-- The coefficient of sample j of a block for a pair that goes from its last step to its step (R104). -/
def rampCoef (last now j : Nat) : Int :=
  if last = now then coef now else coef last + (coef now - coef last) * (j + 1 : Nat) / 48

/-! ### Mixing -/

/-- Inputs in ascending order. -/
def inputs : List (Fin 32) := List.ofFn fun i : Fin 32 => i

/-- Sample j of an input in a gathered block: the low 24 bits of its word, sign-extended (R95). -/
def inputSample (buf : List (Nat × Line)) (i j : Nat) : Int :=
  let l := storedLine buf (3 * i + j / 16)
  let o := 4 * (j % 16)
  (lineByte l (o + 2) ++ lineByte l (o + 1) ++ lineByte l o : BitVec 24).toInt

/-- The exact sum A of a leg's sample (R105). -/
def legSum (b : FiredBlock) (last : Steps) (l : Fin 8) (j : Nat) : Int :=
  (inputs.map fun i =>
    inputSample b.buf i.val j * rampCoef last[i][l] b.steps[i][l] j).sum

/-- A leg of a block mixed (R105). -/
def mixLeg (b : FiredBlock) (last : Steps) (l : Fin 8) : LegMix :=
  legMixOf ((List.range 48).map fun j => mixedSample (legSum b last l j))

/-- The eight legs of a block mixed, leg 0 first. -/
def mixLegs (b : FiredBlock) (last : Steps) : List LegMix := eight.map fun l => mixLeg b last l

/-- Fire kind codes (section 11.4). -/
def fireCode : FireKind → Nat
  | .complete => 0
  | .next => 1
  | .stray => 2

/-- Six trailer bytes of a leg: peak, flags, class and a byte no field occupies (section 11.4). -/
def legTrailer (m : LegMix) : List Byte :=
  [byteOf m.peak, byteOf (m.peak / 256), byteOf (m.peak / 65536), legFlags m, legClass m, 0]

/-- The block trailer (R107, section 11.4). -/
def trailerLine (b : FiredBlock) (legs : List LegMix) : Line :=
  lineOf
    (le32 b.number ++ [byteOf (fireCode b.kind), 0, 0, 0] ++ le32 b.house ++ le32 b.starved ++
      legs.flatMap legTrailer)

/-- Line k of a leg: sixteen samples, each sign-extended to a 32-bit little-endian word (R106). -/
def legLine (m : LegMix) (k : Nat) : Line :=
  lineOf (((m.samples.drop (16 * k)).take 16).flatMap fun y => le32 (BitVec.ofInt 32 y))

/-- The 25 own writes of a block's mix, trailer last (R106). -/
def mixWrites (b : FiredBlock) (legs : List LegMix) : List OwnWrite :=
  let base := b.outBase + b.number.toNat % 16 * 25 * Config.lineBytes
  let lines := (legs.flatMap fun m => [legLine m 0, legLine m 1, legLine m 2]) ++ [trailerLine b legs]
  lines.zipIdx.map fun x =>
    { addr := base + x.2 * Config.lineBytes, data := x.1, mask := fullMask }

/-- The block at the head of the fire queue begins mixing; its steps become the last steps (R100, R104,
R106). -/
def beginMix (c : Chip) : Chip :=
  match c.mixer.fireQ with
  | [] => { c with mixer.mix := none }
  | b :: _ =>
    let legs := mixLegs b c.mixer.lastSteps
    { c with
      mixer.mix := some { legs := legs, issued := false, writes := mixWrites b legs }
      mixer.lastSteps := b.steps }

/-! ### The end of a mix -/

/-- The overload check of one leg (R108). -/
def overloadLeg (b : FiredBlock) (legs : List LegMix) (c : Chip) (l : Fin 8) : Chip :=
  match legs[l.val]? with
  | none => c
  | some m =>
    let r := c.mixer.legs[l]
    if m.saturated && r.alarm && !r.latch then
      askReport .audio (reportBody 3 (byteOf l.val :: (le32 b.number ++ leNat32 m.peak)))
        { c with mixer.legs := c.mixer.legs.set l { r with latch := true } }
    else c

/-- The legs whose uplink flag is on, ascending (R114). -/
def uplinkLegs (m : Mixer) : List (Fin 8) := eight.filter fun l => m.legs[l].uplink

/-- The samples of the listed legs of a mixed block. -/
def listedSamples (ls : List (Fin 8)) (legs : List LegMix) : List (List Int) :=
  ls.map fun l => (legs[l.val]?.map (·.samples)).getD []

/-- The audio frame's bytes: leg after leg, block after block, each sample in 24 bits (R114, DESIGN CHOICE,
log 13). -/
def frameBytes (a : Assembly) : List Byte :=
  a.samples.flatMap fun ys => ys.flatMap fun y => be24 (BitVec.ofInt 24 y)

/-- A mixed block joins the frame in assembly, which begins with it if it was empty and some leg is
uplinked (R114). -/
def joinAssembly (b : FiredBlock) (legs : List LegMix) (m : Mixer) : Option Assembly :=
  match m.frame with
  | some a =>
    some
      { a with
        lastBlock := b.number
        gap := a.gap || b.number != a.lastBlock + 1
        blocks := a.blocks + 1
        samples := List.zipWith (· ++ ·) a.samples (listedSamples a.legs legs) }
  | none =>
    match uplinkLegs m with
    | [] => none
    | l :: ls =>
      some
        { legs := l :: ls, first := b.number, house := b.house, lastBlock := b.number, gap := false,
          blocks := 1, samples := listedSamples (l :: ls) legs }

/-- The uplinked legs of a mixed block go to the frame in assembly; a frame of ten blocks goes to the
AUDIO queue (R114). -/
def uplinkBlock (b : FiredBlock) (legs : List LegMix) (c : Chip) : Chip :=
  match joinAssembly b legs c.mixer with
  | none => c
  | some a =>
    if Config.frameBlocks ≤ a.blocks then
      joinAudio
        { legs := a.legs, first := a.first, house := a.house, gap := a.gap, data := frameBytes a,
          cursor := 0 }
        { c with mixer.frame := none }
    else { c with mixer.frame := some a }

/-- A block's mix ends: the overload check leg by leg, ascending (R108; the order of the reports: DESIGN
CHOICE, log 7), the uplinked legs, and the fire queue moves on (R106). The last mix of R97 adds nothing
to a frame. -/
def mixFinish (c : Chip) : Chip :=
  match c.mixer.fireQ, c.mixer.mix with
  | b :: rest, some m =>
    let c := eight.foldl (overloadLeg b m.legs) c
    let c := if b.last then c else uplinkBlock b m.legs c
    beginMix { c with mixer.fireQ := rest }
  | _, _ => c

/-- The own-write buffer accepts one waiting write of the mixer; the trailer's acceptance ends the mix
(R11, R106). -/
def acceptMixer (c : Chip) : Chip :=
  match c.mixer.mix with
  | none => c
  | some m =>
    match m.writes with
    | [] => c
    | w :: rest =>
      let c := pushOwn w { c with mixer.mix := some { m with writes := rest } }
      if rest.isEmpty then mixFinish c else c

/-- The mixer's waiting writes are accepted while the buffer has room; they go ahead of all others
(R11). -/
def drainMixer : Nat → Chip → Chip
  | 0, c => c
  | n + 1, c =>
    if (mixerWaiting c).isEmpty ∨ Config.bufferLimit ≤ c.mem.buffer.length then c
    else drainMixer n (acceptMixer c)

/-- The mixer has the block's legs and issues its own writes (R106). -/
def issueMix (c : Chip) : Chip :=
  match c.mixer.mix with
  | none => c
  | some m =>
    if m.issued then c
    else drainMixer m.writes.length { c with mixer.mix := some { m with issued := true } }

/-! ### Scenes and settings -/

/-- The settings that a scene holds, as they stand (R111). -/
def currentScene (m : Mixer) : Scene where
  inputs := m.inputs
  sends := m.sends
  legs := m.legs.map fun l => (l.master, l.alarm)

/-- A leg's record with a new master and alarm enable; an alarm that is off clears the latch (R109). -/
def setLegAlarm (r : LegRec) (master : Nat) (alarm : Bool) : LegRec :=
  { r with master := master, alarm := alarm, latch := r.latch && alarm }

/-- A scene replaces the settings (R113); the uplink flags stay. -/
def applyScene (s : Scene) (c : Chip) : Chip :=
  { c with
    mixer.inputs := s.inputs
    mixer.sends := s.sends
    mixer.legs := Vector.ofFn fun l : Fin 8 =>
      setLegAlarm c.mixer.legs[l] s.legs[l].1 s.legs[l].2 }

/-- The pending recall is applied and completes (R113). -/
def applyRecall (c : Chip) : Chip :=
  match c.mixer.recalling with
  | none => c
  | some r =>
    let c := applyScene r.scene { c with mixer.recalling := none }
    if r.fromCommand then finishObject .mixerRecall [] c else c

/-- A recall of a scene slot, by command or by a line (R112). -/
def recallScene (slot : Byte) (fromCommand : Bool) (c : Chip) : Verdict :=
  match index8 slot with
  | none => .refused .badArg
  | some n =>
    match c.mixer.scenes[n] with
    | none => .refused .empty
    | some s =>
      if c.mixer.recalling.isSome then .refused .busy
      else if c.mixer.running then
        .begun .mixerRecall
          { c with mixer.recalling := some { scene := s, fromCommand := fromCommand } }
      else .completed .done [] (applyScene s c)

/-- The pending recall's copy changed by a setting command (R110, R112). -/
def changeCopy (g : Scene → Scene) (c : Chip) : Chip :=
  { c with mixer.recalling := c.mixer.recalling.map fun r => { r with scene := g r.scene } }

/-- An AFV feed field: 0xFF is none (R184). -/
def afvOf (b : Byte) : Option (Option (Fin 8)) :=
  if b = 0xFF then some none else (index8 b).map some

/-- INPUT SET (R110). -/
def inputSet (input fader afv depth : Byte) (c : Chip) : Verdict :=
  match index32 input, afvOf afv with
  | some i, some a =>
    if 63 < fader.toNat ∨ 63 < depth.toNat then .refused .badArg
    else
      let r : InputRec := { fader := fader.toNat, afv := a, depth := depth.toNat }
      .completed .done []
        (changeCopy (fun s => { s with inputs := s.inputs.set i r })
          { c with mixer.inputs := c.mixer.inputs.set i r })
  | _, _ => .refused .badArg

/-- A send matrix with one pair's step changed. -/
def setStep (m : Steps) (i : Fin 32) (l : Fin 8) (g : Nat) : Steps := m.set i (m[i].set l g)

/-- SEND SET (R110). -/
def sendSet (input leg level : Byte) (c : Chip) : Verdict :=
  match index32 input, index8 leg with
  | some i, some l =>
    if 63 < level.toNat then .refused .badArg
    else
      .completed .done []
        (changeCopy (fun s => { s with sends := setStep s.sends i l level.toNat })
          { c with mixer.sends := setStep c.mixer.sends i l level.toNat })
  | _, _ => .refused .badArg

/-- LEG SET (R110). -/
def legSet (leg master uplink alarm : Byte) (c : Chip) : Verdict :=
  match index8 leg, flagOf uplink, flagOf alarm with
  | some l, some u, some a =>
    if 63 < master.toNat then .refused .badArg
    else if u && !c.mixer.legs[l].uplink &&
        decide (Config.uplinkLegLimit ≤ (uplinkLegs c.mixer).length) then .refused .limit
    else
      .completed .done []
        (changeCopy (fun s => { s with legs := s.legs.set l (master.toNat, a) })
          { c with
            mixer.legs := c.mixer.legs.set l
              { setLegAlarm c.mixer.legs[l] master.toNat a with uplink := u } })
  | _, _, _ => .refused .badArg

/-- SCENE SAVE (R111). -/
def sceneSave (slot : Byte) (c : Chip) : Verdict :=
  match index8 slot with
  | none => .refused .badArg
  | some n =>
    .completed .done []
      { c with mixer.scenes := c.mixer.scenes.set n (some (currentScene c.mixer)) }

/-- OVERLOAD CLEAR (R109). -/
def overloadClear (leg : Byte) (c : Chip) : Verdict :=
  match index8 leg with
  | none => .refused .badArg
  | some l =>
    .completed .done []
      { c with mixer.legs := c.mixer.legs.set l { c.mixer.legs[l] with latch := false } }

/-! ### Starting and stopping -/

/-- AUDIO START (R96). -/
def audioStart (c : Chip) : Verdict :=
  if (findWindow c .audioIn none).isNone ∨ (findWindow c .mixOut none).isNone then
    .refused .notReady
  else if c.mixer.running then .refused .wrongState
  else
    .completed .done []
      { c with
        mixer.running := true
        mixer.block := .waiting
        mixer.buf := []
        mixer.starved := 0
        mixer.lastSteps := Steps.off
        mixer.frame := none }

/-- AUDIO STOP (R97). A recall it applies completes, with its RESULT and those of the FENCEs it frees,
before AUDIO STOP's own RESULT (DESIGN CHOICE, log 7). The block state is WAITING at once (DESIGN CHOICE, log
37). -/
def audioStop (c : Chip) : Verdict :=
  if !c.mixer.running then .refused .wrongState
  else
    .completed .done []
      (applyRecall
        { c with
          mixer.running := false
          mixer.block := .waiting
          mixer.buf := []
          mixer.fireQ := (c.mixer.fireQ.take 1).map fun b => { b with last := true }
          mixer.frame := none })

/-! ### Gathering and firing -/

/-- The inputs all of whose three lines are unwritten (R101). -/
def starvedInputs (buf : List (Nat × Line)) : BitVec 32 :=
  inputs.foldl
    (fun m i =>
      if wroteLine buf (3 * i.val) || wroteLine buf (3 * i.val + 1) || wroteLine buf (3 * i.val + 2)
      then m else m ||| BitVec.ofNat 32 (2 ^ i.val)) 0

/-- Presence is decided for a fired block, and a change asks for one STARVED report (R101). -/
def updatePresence (n : Count32) (now : BitVec 32) (c : Chip) : Chip :=
  let was := c.mixer.starved
  let c := { c with mixer.starved := now }
  if now = was then c
  else
    askReport .audio (reportBody 0 (le32 n ++ le32 (now &&& ~~~was) ++ le32 (was &&& ~~~now))) c

/-- A block fires: a pending recall is applied, presence is decided, the steps are computed, and the
block joins the fire queue or is discarded MIX_LATE (R98 to R101, R103, R113). -/
def fireBlock (n : Count32) (kind : FireKind) (c : Chip) : Chip :=
  let c := applyRecall c
  let starved := starvedInputs c.mixer.buf
  let c := updatePresence n starved c
  let b : FiredBlock :=
    { number := n, kind := kind, buf := c.mixer.buf, house := c.timing.count,
      steps := effectiveSteps c.mixer c.tally.feeds, starved := starved,
      outBase := ((findWindow c .mixOut none).map (·.base)).getD 0, last := false }
  let c := { c with mixer.buf := [] }
  match c.mixer.fireQ with
  | [] => beginMix { c with mixer.fireQ := [b] }
  | q =>
    if q.length < Config.fireQueueLimit then { c with mixer.fireQ := q ++ [b] }
    else askReport .audio (reportBody 2 (le32 n)) c

/-- A write stored in the block being gathered; the write of its last line fires it COMPLETE (R98). -/
def gatherLine (n : Count32) (o : Nat) (data : Line) (mask : Mask) (c : Chip) : Chip :=
  let c := { c with mixer.buf := storeLine c.mixer.buf o data mask }
  if 96 ≤ c.mixer.buf.length then { fireBlock n .complete c with mixer.block := .fired n } else c

/-- A block begins on a write into its slot (R98). -/
def startBlock (n : Count32) (o : Nat) (data : Line) (mask : Mask) (c : Chip) : Chip :=
  gatherLine n o data mask { c with mixer.block := .gathering n, mixer.buf := [] }

/-- A stray write resynchronises the mixer to block n + d (R99). RESYNC is asked for after the STARVED or
MIX_LATE of a block that the same write fires (R99 does not order them: DESIGN CHOICE, log 7). -/
def resync (n : Count32) (d o : Nat) (data : Line) (mask : Mask) (c : Chip) : Chip :=
  let m := n + BitVec.ofNat 32 d
  let c := askReport .audio (reportBody 1 (le32 n ++ le32 m ++ [byteOf (d - 1)])) c
  startBlock m o data mask c

/-- An AUDIO_IN tap (R95, R98). -/
def audioTap (offset : Nat) (data : Line) (mask : Mask) (c : Chip) : Chip :=
  if !c.mixer.running then c
  else
    let s := offset / 96
    let o := offset % 96
    match c.mixer.block with
    | .waiting => startBlock (BitVec.ofNat 32 s) o data mask c
    | .gathering n =>
      let d := (s + 16 - n.toNat % 16) % 16
      if d = 0 then gatherLine n o data mask c
      else if d = 1 then startBlock (n + 1) o data mask (fireBlock n .next c)
      else if d = 15 then c
      else resync n d o data mask (fireBlock n .stray c)
    | .fired n =>
      let d := (s + 16 - n.toNat % 16) % 16
      if d = 1 then startBlock (n + 1) o data mask c
      else if d = 0 ∨ d = 15 then c
      else resync n d o data mask c

/-! ### Meanings -/

/-- AUDIO_START (R96). -/
def execAudioStart (h : CmdHead) (s : State) : Out :=
  command (.audioStart h) s fun c =>
    conclude 0x20 h c (audioStart c)

/-- AUDIO_STOP (R97). -/
def execAudioStop (h : CmdHead) (s : State) : Out :=
  command (.audioStop h) s fun c =>
    conclude 0x21 h c (audioStop c)

/-- INPUT_SET (R110). -/
def execInputSet (h : CmdHead) (input : Byte) (fader : Byte) (afv : Byte) (depth : Byte) (s : State) : Out :=
  command (.inputSet h input fader afv depth) s fun c =>
    conclude 0x22 h c (inputSet input fader afv depth c)

/-- SEND_SET (R110). -/
def execSendSet (h : CmdHead) (input : Byte) (leg : Byte) (level : Byte) (s : State) : Out :=
  command (.sendSet h input leg level) s fun c =>
    conclude 0x23 h c (sendSet input leg level c)

/-- LEG_SET (R110). -/
def execLegSet (h : CmdHead) (leg : Byte) (master : Byte) (uplink : Byte) (alarm : Byte) (s : State) : Out :=
  command (.legSet h leg master uplink alarm) s fun c =>
    conclude 0x24 h c (legSet leg master uplink alarm c)

/-- SCENE_SAVE (R111). -/
def execSceneSave (h : CmdHead) (slot : Byte) (s : State) : Out :=
  command (.sceneSave h slot) s fun c =>
    conclude 0x25 h c (sceneSave slot c)

/-- OVERLOAD_CLEAR (R109). -/
def execOverloadClear (h : CmdHead) (leg : Byte) (s : State) : Out :=
  command (.overloadClear h leg) s fun c =>
    conclude 0x27 h c (overloadClear leg c)

/-- SCENE RECALL: BUSY at taking while one is in flight (R22), else R112. -/
def sceneRecall (slot : Byte) (c : Chip) : Verdict :=
  if inFlight .mixerRecall c then .refused .busy else recallScene slot true c

/-- SCENE_RECALL (R112). -/
def execSceneRecall (h : CmdHead) (slot : Byte) (s : State) : Out :=
  command (.sceneRecall h slot) s fun c =>
    conclude 0x26 h c (sceneRecall slot c)

/-- MIX_END (R106). -/
def execMixEnd (s : State) : Out := event s (served issueMix)

end Sys2Proof.Machine
end

