-- ==== Sys2Proof/Machine/Tally.lean ====
section
/-! DEFINITION. The tally and signal unit (spec/07): tally states and outputs, CALL, the tally authority,
signal lines and their actions, and MARK IN and MARK OUT. -/

namespace Sys2Proof.Machine

/-! ### Tally outputs -/

/-- The drive a feed's CALL flag and tally state decide (R120). -/
def decideDrive (call : Bool) (s : TallyState) : Drive :=
  if call then .fast
  else
    match s with
    | .program => .steady
    | .preview => .slow
    | .off => .off

/-- Time of each level of a blinking drive in ms (section 7.2). -/
def blinkTime : Drive → Timer
  | .slow => some 500
  | .fast => some 250
  | .off | .steady => none

/-- The output drive decided again: the same drive keeps its phase, another changes at once (R120). -/
def redrive (t : TallyFeed) : TallyFeed :=
  let d := decideDrive t.call t.state
  if d = t.drive then t
  else { t with drive := d, lit := d != .off, blink := blinkTime d }

/-- The blink timer expires: the line turns to the other level (R120). -/
def blinkTally (t : TallyFeed) : TallyFeed :=
  if t.blink.isSome then { t with lit := !t.lit, blink := blinkTime t.drive } else t

/-- CALL set, its timer restarted at 5 seconds (R119). -/
def raiseCall (t : TallyFeed) : TallyFeed := redrive { t with call := true, callTimer := some 5000 }

/-- CALL cleared (R119). -/
def dropCall (t : TallyFeed) : TallyFeed := redrive { t with call := false, callTimer := none }

/-- A feed's CALL flag set (R119). -/
def setCall (f : Fin 8) (c : Chip) : Chip := setTallyFeed c f (raiseCall c.tally.feeds[f])

/-- A feed set to a tally state: at a change the drive is decided again, and a change into or out of
PROGRAM is handed to the clip log (R117, R124, R139). -/
def setTally (f : Fin 8) (s : TallyState) (c : Chip) : Chip :=
  let t := c.tally.feeds[f]
  if t.state = s then c
  else
    let c := setTallyFeed c f (redrive { t with state := s })
    if s = .program then tryOpenAuto f c
    else if t.state = .program then closeAuto f .tally c
    else c

/-- A tally state code, 0 to 2 (section 11.1). -/
def tallyOf (b : Byte) : Option TallyState :=
  if b = 0 then some .off else if b = 1 then some .preview else if b = 2 then some .program else none

/-- Tally states may be set by the host and the lines (section 7.3). -/
def vanMaySet (c : Chip) : Bool := c.tally.authority != .home

/-- TALLY SET with a state, none for KEEP, and a call setting, none for KEEP: the authority check and the
effect (R118). -/
def applyTallySet (f : Fin 8) (s : Option TallyState) (call : Option Bool) (c : Chip) : Verdict :=
  if s.isSome && !vanMaySet c then .refused .authority
  else
    let c' := match s with
      | some s => setTally f s c
      | none => c
    let c' := match call with
      | some true => setCall f c'
      | some false => setTallyFeed c' f (dropCall c'.tally.feeds[f])
      | none => c'
    .completed .done [] c'

/-- TALLY SET (R118, section 11.1). -/
def tallySet (feed tally call : Byte) (c : Chip) : Verdict :=
  match index8 feed with
  | none => .refused .badArg
  | some f =>
    if 3 < tally.toNat ∨ 2 < call.toNat then .refused .badArg
    else
      let k := if call = 0 then some false else if call = 1 then some true else none
      match applyTallySet f (tallyOf tally) k c with
      | .completed r p c' => .completed r p (serveIfNew c c')
      | v => v

/-! ### Authority -/

/-- Fallback time in ms (R121). -/
def fallbackTime : Timer := some 2000

/-- TALLY AUTHORITY (R121, R122). -/
def tallyAuthority (a : Byte) (c : Chip) : Verdict :=
  if a = 0 then .completed .done [] { c with tally.authority := .van, tally.fallback := none }
  else if a = 1 then
    if c.tally.authority = .home then .completed .done [] c
    else
      .completed .done []
        { c with
          tally.authority := .home
          tally.fallback := if c.tally.upCount = 0 then fallbackTime else none }
  else .refused .badArg

/-- A path entered UP: the UP count rises and the fallback timer stops (R122). -/
def pathCameUp (c : Chip) : Chip :=
  { c with tally.upCount := c.tally.upCount + 1, tally.fallback := none }

/-- A path left UP: the UP count falls, and at 0 under HOME the fallback timer starts (R122). -/
def pathWentDown (c : Chip) : Chip :=
  let n := c.tally.upCount - 1
  { c with
    tally.upCount := n
    tally.fallback :=
      if n = 0 ∧ c.tally.authority = .home then fallbackTime else c.tally.fallback }

/-- The fallback timer expires (R122). -/
def fallbackExpires (c : Chip) : Chip :=
  if c.tally.fallback.isSome then
    makePending .home { c with tally.authority := .homeLost, tally.fallback := none }
  else c

/-- Every feed set to the state a home TALLY message gives, feed 0 first (R117, R123). -/
def applyHomeTally (states : List TallyState) (c : Chip) : Chip :=
  (eight.zip states).foldl (fun c x => setTally x.1 x.2 c) c

/-- The HOME report of a TALLY or CALL message (R180). -/
def homeMessageReport (kind : Nat) (p : Fin 4) (number : BitVec 32) (taken : Bool) : Chip → Chip :=
  askReport .home
    (reportBody 0 ([byteOf kind, byteOf p.val] ++ le32 number ++ [byteOf (bitOf (!taken))]))

/-- A home TALLY message (R123, R180). -/
def homeTally (p : Fin 4) (number : BitVec 32) (states : List TallyState) (c : Chip) : Chip :=
  match c.tally.authority with
  | .van => homeMessageReport 0 p number false c
  | .home => homeMessageReport 0 p number true (applyHomeTally states c)
  | .homeLost =>
    let c :=
      { c with
        tally.authority := .home
        tally.fallback := if c.tally.upCount = 0 then fallbackTime else c.tally.fallback }
    homeMessageReport 0 p number true (applyHomeTally states c)

/-- A home CALL message (R123, R180). -/
def homeCall (p : Fin 4) (number : BitVec 32) (feed : Byte) (c : Chip) : Chip :=
  match index8 feed with
  | some f => homeMessageReport 1 p number true (setCall f c)
  | none => homeMessageReport 1 p number false c

/-! ### Marks -/

/-- MARK IN with a feed list and a category (R129). -/
def markIn (feeds category : Byte) (c : Chip) : Verdict :=
  let fs := feedsOf feeds
  if fs.isEmpty then .refused .badArg
  else if fs.any fun f => c.feeds[f].state != .running then .refused .notRunning
  else if Config.stackLimit ≤ c.tally.stack.length then .refused .stackFull
  else
    match createClip .manual fs category c.tally.stack.head? c with
    | none => .refused .logFull
    | some (n, c') =>
      .completed .done (leNat16 n) { c' with tally.stack := n :: c'.tally.stack }

/-- MARK OUT (R130). -/
def markOut (c : Chip) : Verdict :=
  match c.tally.stack with
  | [] => .refused .stackEmpty
  | n :: rest =>
    .completed .done (leNat16 n) (closeClip n .markOut { c with tally.stack := rest })

/-! ### Signal lines -/

/-- A line action's code (section 11.1). -/
def actionOf (b : Byte) : Option LineAction :=
  if b = 0 then some .mark else if b = 1 then some .markIn else if b = 2 then some .markOut
  else if b = 3 then some .program else if b = 4 then some .preview else if b = 5 then some .call
  else if b = 6 then some .signalHome else if b = 7 then some .scene else none

/-- The action's argument and feed list are in range (R125). -/
def actionOk (a : LineAction) (argument feeds : Byte) : Bool :=
  match a with
  | .program | .preview | .call | .scene => decide (argument.toNat < 8)
  | .mark | .markIn => feeds != 0
  | .markOut | .signalHome => true

/-- A level read through a polarity: ACTIVE when true (section 7.5). -/
def readLevel (activeHigh high : Bool) : Bool := high == activeHigh

/-- SIGNAL LINE SET (R125). -/
def signalLineSet (a : SignalLineArgs) (c : Chip) : Verdict :=
  match index8 a.line, flagOf a.enabled, flagOf a.kind, flagOf a.polarity, actionOf a.action with
  | some n, some enabled, some pulse, some low, some action =>
    if actionOk action a.argument a.feeds then
      .completed .done []
        (setLine c n
          { enabled := enabled, pulse := pulse, activeHigh := !low, action := action,
            argument := a.argument, feeds := a.feeds, category := a.category,
            debounced := readLevel (!low) c.linePins[n], pendingLevel := none, debounce := none,
            markOpen := false })
    else .refused .badArg
  | _, _, _, _, _ => .refused .badArg

/-- A line's action that the matching command would refuse asks for a RESULT with tag 0 and source LINE,
and has no effect; an accepted one asks for none (R128, DESIGN CHOICE, log 23). -/
def lineOutcome (n : Fin 8) (kind : BitVec 16) (c : Chip) : Verdict → Chip
  | .refused r => askResult kind 0 (.line n) r [] c
  | .completed _ _ c' => c'
  | .begun _ c' => c'

/-- The line's MARK IN; a PULSE MARK line whose MARK IN is accepted sets mark open (R127). -/
def lineMarkIn (n : Fin 8) (l : SignalLine) (c : Chip) : Chip :=
  match markIn l.feeds l.category c with
  | .completed _ _ c' =>
    if l.pulse && l.action == .mark then setLine c' n { c'.tally.lines[n] with markOpen := true }
    else c'
  | v => lineOutcome n 0x40 c v

/-- The line's MARK OUT; a PULSE MARK line clears mark open, accepted or not (R127). -/
def lineMarkOut (n : Fin 8) (l : SignalLine) (c : Chip) : Chip :=
  let c :=
    if l.pulse && l.action == .mark then setLine c n { c.tally.lines[n] with markOpen := false }
    else c
  lineOutcome n 0x41 c (markOut c)

/-- The line's setting of a feed to a tally state, or of its CALL (R127, R128). -/
def lineTally (n : Fin 8) (feed : Byte) (s : Option TallyState) (call : Option Bool)
    (c : Chip) : Chip :=
  match index8 feed with
  | some f => lineOutcome n 0x30 c (applyTallySet f s call c)
  | none => lineOutcome n 0x30 c (.refused .badArg)

/-- What an activation does (R127). -/
def activate (n : Fin 8) (l : SignalLine) (c : Chip) : Chip :=
  match l.action with
  | .mark => if l.pulse && l.markOpen then lineMarkOut n l c else lineMarkIn n l c
  | .markIn => lineMarkIn n l c
  | .markOut => lineMarkOut n l c
  | .program => lineTally n l.argument (some .program) none c
  | .preview => lineTally n l.argument (some .preview) none c
  | .call => lineTally n l.argument none (some true) c
  | .signalHome => signalHome l.argument (.line n) c
  | .scene => lineOutcome n 0x26 c (recallScene l.argument false c)

/-- What a deactivation does: nothing on a PULSE line (R127). -/
def deactivate (n : Fin 8) (l : SignalLine) (c : Chip) : Chip :=
  if l.pulse then c
  else
    match l.action with
    | .mark => lineMarkOut n l c
    | .program | .preview => lineTally n l.argument (some .off) none c
    | .markIn | .markOut | .call | .signalHome | .scene => c

/-- A line's debounce timer expires: its edge is counted and its action carried out (R126, R127). -/
def debounceExpires (n : Fin 8) (c : Chip) : Chip :=
  let l := c.tally.lines[n]
  match l.enabled, l.pendingLevel, l.debounce with
  | true, some level, some _ =>
    let l := { l with debounced := level, pendingLevel := none, debounce := none }
    let c := setLine c n l
    if level then activate n l c else deactivate n l c
  | _, _, _ => c

/-- A line's input level turns; on an enabled line the new level starts, restarts or stops the debounce
(R126). -/
def lineChanges (n : Fin 8) (high : Bool) (c : Chip) : Chip :=
  let l := c.tally.lines[n]
  if l.enabled then
    let level := readLevel l.activeHigh high
    if level = l.debounced then setLine c n { l with pendingLevel := none, debounce := none }
    else setLine c n { l with pendingLevel := some level, debounce := some 10 }
  else c

/-- A pin's level as it stands (R126). -/
def setPin (n : Fin 8) (high : Bool) (c : Chip) : Chip :=
  { c with linePins := c.linePins.set n high }

/-! ### Meanings -/

/-- TALLY_SET (R118). -/
def execTallySet (h : CmdHead) (feed : Byte) (tally : Byte) (call : Byte) (s : State) : Out :=
  command (.tallySet h feed tally call) s fun c =>
    conclude 0x30 h c (tallySet feed tally call c)

/-- TALLY_AUTHORITY (R121). -/
def execTallyAuthority (h : CmdHead) (authority : Byte) (s : State) : Out :=
  command (.tallyAuthority h authority) s fun c =>
    conclude 0x31 h c (tallyAuthority authority c)

/-- SIGNAL_LINE_SET (R125). -/
def execSignalLineSet (h : CmdHead) (a : SignalLineArgs) (s : State) : Out :=
  command (.signalLineSet h a) s fun c =>
    conclude 0x32 h c (signalLineSet a c)

/-- MARK_IN (R129). -/
def execMarkIn (h : CmdHead) (feeds : Byte) (category : Byte) (s : State) : Out :=
  command (.markIn h feeds category) s fun c =>
    conclude 0x40 h c (markIn feeds category c)

/-- MARK_OUT (R130). -/
def execMarkOut (h : CmdHead) (s : State) : Out :=
  command (.markOut h) s (served fun c => conclude 0x41 h c (markOut c))

/-- The call timer of a feed expires (R119). -/
def callExpires (f : Fin 8) (c : Chip) : Chip :=
  if c.tally.feeds[f].callTimer.isSome then setTallyFeed c f (dropCall c.tally.feeds[f]) else c

/-- CALL_TIMER (R119). -/
def execCallTimer (f : Fin 8) (s : State) : Out := event s (callExpires f)

/-- BLINK_TIMER (R120). -/
def execBlinkTimer (f : Fin 8) (s : State) : Out :=
  event s fun c => setTallyFeed c f (blinkTally c.tally.feeds[f])

/-- FALLBACK_TIMER (R122). -/
def execFallbackTimer (s : State) : Out := event s fallbackExpires

/-- SIGNAL_LINE_CHANGE (R126): the pin follows its wire whether or not the part is held in reset. -/
def execSignalLineChange (n : Fin 8) (high : Bool) (s : State) : Out :=
  event { s with chip := setPin n high s.chip } (lineChanges n high)

/-- DEBOUNCE_TIMER (R126, R127). -/
def execDebounceTimer (n : Fin 8) (s : State) : Out := event s (served (debounceExpires n))

end Sys2Proof.Machine
end

