-- ==== Sys2Proof/Machine/Paths.lean ====
section
/-! DEFINITION. The path links (spec/09): state changes, training and negotiation, going down, control
words, errors, credit, holds, the return filter and its messages, and the reading of a received unit
(R187). -/

namespace Sys2Proof.Machine

/-! ### Codes -/

/-- Path state codes (section 9.2). -/
def pathStateCode : PathState → Nat
  | .disabled => 0
  | .training => 1
  | .negotiating => 2
  | .up => 3
  | .failed => 4

/-- Reasons of a path state change, in the order of section 9.2. -/
inductive PathReason where
  | enabled | trained | accepted | noAccept | attempts | silence | modemTraining | retrain | disabled
  | restart
  deriving DecidableEq, Repr

/-- Path reason codes (section 9.2). -/
def reasonCode : PathReason → Nat
  | .enabled => 0
  | .trained => 1
  | .accepted => 2
  | .noAccept => 3
  | .attempts => 4
  | .silence => 5
  | .modemTraining => 6
  | .retrain => 7
  | .disabled => 8
  | .restart => 9

/-! ### State changes -/

/-- The PATH report STATE: the fields that R153 lists, as section 11.2 lays them out, and after them, as its
last field, the number of fragments that a going-down returned, which R178 has the report name (its place, one
byte as in HOLD_LIMIT: DESIGN CHOICE, log 38); 0 at every other change. The MTU and the ceiling, which R153
names only when the new state is UP, are 0 otherwise (R157, R185). -/
def stateReport (p : Fin 4) (old : PathState) (reason : PathReason) (returned : Nat) (r : PathRec) :
    Chip → Chip :=
  askReport .path
    (reportBody 0
      ([byteOf p.val, byteOf (pathStateCode old), byteOf (pathStateCode r.state),
          byteOf (reasonCode reason), byteOf r.failed, byteOf r.level] ++
        leNat16 r.mtu ++ leNat32 r.ceiling ++ [byteOf returned]))

/-- The tally unit hears of a change into or out of UP (R122, R153). -/
def tellTally (old new : PathState) (c : Chip) : Chip :=
  if new = .up then pathCameUp c else if old = .up then pathWentDown c else c

/-- A PATH RETRAIN in flight completes when the path enters UP, FAILED or DISABLED (R159). -/
def endRetrain (p : Fin 4) (new : PathState) (c : Chip) : Chip :=
  match new with
  | .up | .failed | .disabled => finishObject (.path p) [byteOf (pathStateCode new)] c
  | .training | .negotiating => c

/-- A change of a path's state to the record `r`: the report, the allocation, the tally unit's count,
and the end of a PATH RETRAIN (R153, R159); `returned` is what a going-down returned (R178). STATE is asked
for before the RESULT of the PATH RETRAIN that ends there and those of the FENCEs it frees (R23, R29, R153 and
R159 do not order them: DESIGN CHOICE, log 7). -/
def changeState (p : Fin 4) (reason : PathReason) (returned : Nat) (r : PathRec) (c : Chip) : Chip :=
  let old := c.paths[p].state
  endRetrain p r.state
    (tellTally old r.state
      (allocate (stateReport p old reason returned r (setPath c p { r with due := [] }))))

/-- The record as it enters TRAINING (R155). -/
def trainingRec (r : PathRec) : PathRec :=
  { r with
    state := .training
    good := 0
    trainingTimer := some 1
    window := some 2000
    offerTimer := none
    negotiation := none }

/-- A path enters TRAINING (R155). -/
def enterTraining (p : Fin 4) (reason : PathReason) (returned : Nat) (c : Chip) : Chip :=
  changeState p reason returned (trainingRec c.paths[p]) c

/-- A path enters NEGOTIATING and sends an OFFER at once (R156). The good count is 0, as the worked sequence
of section 9.10 shows it (DEDUCED, log 40). -/
def enterNegotiating (p : Fin 4) (c : Chip) : Chip :=
  sendWord p .offer
    (changeState p .trained 0
      { c.paths[p] with
        state := .negotiating
        good := 0
        trainingTimer := none
        window := none
        offerTimer := some 10
        negotiation := some 100 } c)

/-- A path enters FAILED: it sends nothing and its timers are stopped (R155, R156). Its good count stays as it
stands: R155 makes it 0 only where training begins again, although its last paragraph has the count 0 at an
expiry (DESIGN CHOICE, log 42). -/
def enterFailed (p : Fin 4) (c : Chip) : Chip :=
  changeState p .attempts 0
    { c.paths[p] with
      state := .failed
      link := .quiet
      trainingTimer := none
      window := none
      offerTimer := none
      negotiation := none } c

/-- A path enters UP with an ACCEPT in range (R157). STATE names the failed attempts as they then stand, 0
(DESIGN CHOICE, log 41). -/
def enterUp (p : Fin 4) (level mtu ceiling initial : Nat) (c : Chip) : Chip :=
  changeState p .accepted 0
    { c.paths[p] with
      state := .up
      level := level
      mtu := mtu
      ceiling := ceiling
      reported := if level = 2 then min initial ceiling else 0
      failed := 0
      credit := 0
      held := false
      queue := []
      sent := false
      offerTimer := none
      negotiation := none
      silence := some 250
      pacing := some 10 } c

/-- The frame of a fragment in transmission stops on the link (R157 step 1). -/
def loseFrame (p : Fin 4) (c : Chip) : Chip :=
  match c.paths[p].link with
  | .frame _ _ => setPath c p { c.paths[p] with link := .quiet }
  | .quiet | .word _ => c

/-- Step 3 of going down (R157). -/
def downRec (r : PathRec) : PathRec :=
  { r with
    silence := none
    hold := none
    pacing := none
    credit := 0
    pacingCap := 0
    held := false
    level := 0
    mtu := 0
    ceiling := 0
    reported := 0 }

/-- How many fragments a path's going-down returns: those in the transmit queue of a path that is UP (R157,
R178). -/
def returnCount (p : Fin 4) (c : Chip) : Nat :=
  if c.paths[p].state = .up then c.paths[p].queue.length else 0

/-- A path that is UP goes down; its queued fragments are returned, or discarded at RESTART (R157). -/
def goDown (p : Fin 4) (returning : Bool) (c : Chip) : Chip :=
  if c.paths[p].state = .up then
    let c := loseFrame p c
    let c := if returning then returnQueue p c else setPath c p { c.paths[p] with queue := [] }
    setPath c p (downRec c.paths[p])
  else c

/-- A path's failed attempts set to 0. -/
def clearFailed (p : Fin 4) (c : Chip) : Chip := setPath c p { c.paths[p] with failed := 0 }

/-- An UP path goes down into TRAINING (R157, R158). -/
def dropToTraining (p : Fin 4) (reason : PathReason) (c : Chip) : Chip :=
  enterTraining p reason (returnCount p c) (goDown p true c)

/-! ### Commands -/

/-- PATH SET OFF on a path that is not DISABLED (R154). STATE names the failed attempts as they then stand,
0 (R153 and R154 do not say whether it names them before or after they become 0: DESIGN CHOICE, log 41). -/
def disablePath (p : Fin 4) (c : Chip) : Chip :=
  let returned := returnCount p c
  let c := goDown p true c
  changeState p .disabled returned
    { c.paths[p] with
      state := .disabled
      link := .quiet
      good := 0
      failed := 0
      errors := 0
      degraded := false
      trainingTimer := none
      window := none
      offerTimer := none
      negotiation := none } c

/-- PATH SET (R154). STATE names the failed attempts as they stand after the change, 0 (DESIGN CHOICE, log
41). -/
def pathSet (path enable : Byte) (hostCap : BitVec 32) (c : Chip) : Verdict :=
  match index4 path, flagOf enable with
  | some p, some on =>
    if Config.rateLimit < hostCap.toNat then .refused .badArg
    else
      let c' := setPath c p { c.paths[p] with hostCap := hostCap.toNat }
      let c' :=
        if on then
          if c.paths[p].state = .disabled then enterTraining p .enabled 0 (clearFailed p c') else c'
        else if c.paths[p].state = .disabled then c'
        else disablePath p c'
      .completed .done [] (serveIfNew c c')
  | _, _ => .refused .badArg

/-- PATH RETRAIN (R159). -/
def pathRetrain (path : Byte) (c : Chip) : Verdict :=
  match index4 path with
  | none => .refused .badArg
  | some p =>
    if inFlight (.path p) c then .refused .busy
    else if c.paths[p].state = .disabled then .refused .wrongState
    else
      .begun (.path p)
        (serveIfNew c
          (enterTraining p .retrain (returnCount p c) (clearFailed p (goDown p true c))))

/-- The path links' part of a RESTART for one path, which returns no fragment (R168). -/
def restartPath (c : Chip) (p : Fin 4) : Chip :=
  if c.paths[p].state = .disabled then c
  else enterTraining p .restart 0 (clearFailed p (goDown p false c))

/-! ### Timers -/

/-- The training timer expires: a TRAIN word is sent (R155). -/
def trainingTick (p : Fin 4) (c : Chip) : Chip :=
  if c.paths[p].trainingTimer.isSome then
    sendWord p .train (setPath c p { c.paths[p] with trainingTimer := some 1 })
  else c

/-- A failed attempt is counted (R155, R156). -/
def failAttempt (p : Fin 4) (c : Chip) : Chip :=
  setPath c p { c.paths[p] with failed := c.paths[p].failed + 1 }

/-- The training window expires (R155). The eighth failed attempt keeps the good count (DESIGN CHOICE, log
42). -/
def windowExpires (p : Fin 4) (c : Chip) : Chip :=
  if c.paths[p].window.isSome then
    let c := failAttempt p c
    if Config.attemptLimit ≤ c.paths[p].failed then enterFailed p c
    else setPath c p { c.paths[p] with good := 0, window := some 2000 }
  else c

/-- The offer timer expires: a further OFFER is sent (R156). -/
def offerTick (p : Fin 4) (c : Chip) : Chip :=
  if c.paths[p].offerTimer.isSome then
    sendWord p .offer (setPath c p { c.paths[p] with offerTimer := some 10 })
  else c

/-- The negotiation timer expires (R156). -/
def negotiationExpires (p : Fin 4) (c : Chip) : Chip :=
  if c.paths[p].negotiation.isSome then
    let c := failAttempt p c
    if Config.attemptLimit ≤ c.paths[p].failed then enterFailed p c
    else enterTraining p .noAccept 0 c
  else c

/-- The silence timer expires (R158). -/
def silenceExpires (p : Fin 4) (c : Chip) : Chip :=
  if c.paths[p].silence.isSome then dropToTraining p .silence c else c

/-- The hold timer expires: the queue is returned and HOLD_LIMIT is asked for (R161). -/
def holdExpires (p : Fin 4) (c : Chip) : Chip :=
  if c.paths[p].hold.isSome then
    let n := c.paths[p].queue.length
    let c := returnQueue p (setPath c p { c.paths[p] with hold := none })
    askReport .path (reportBody 1 [byteOf p.val, byteOf n]) c
  else c

/-- Credit after a pacing tick (R163). -/
def tickCredit (r : PathRec) : Int :=
  min ((r.pacingCap * 50 : Nat) : Int) (r.credit + ((r.pacingCap * 10 : Nat) : Int))

/-- The path sent a frame since the tick before, or one is on the link (R165, DESIGN CHOICE, log 15). -/
def wasBusy (r : PathRec) : Bool :=
  r.sent ||
    match r.link with
    | .frame _ _ => true
    | .quiet | .word _ => false

/-- The pacing tick expires: credit rises, and an IDLE word is sent if the path sent nothing since the
tick before (R163, R165). -/
def paceTick (p : Fin 4) (c : Chip) : Chip :=
  let r := c.paths[p]
  if r.pacing.isSome then
    let c := setPath c p { r with credit := tickCredit r, sent := false, pacing := some 10 }
    if wasBusy r then c else sendWord p .idle c
  else c

/-- The link is free: the next word or frame goes out, and the scheduler serves (R163, R165, R176). -/
def moveOn (p : Fin 4) (c : Chip) : Chip := inReadOrder (fun c => serve (linkFree p c)) c

/-- The frame on the link is gone from the path. -/
def frameGone (p : Fin 4) (c : Chip) : Chip :=
  setPath c p { c.paths[p] with link := .quiet, sent := true }

/-- A frame's last byte leaves the link (R165). -/
def frameEnds (p : Fin 4) (c : Chip) : Chip :=
  match c.paths[p].link with
  | .frame _ _ => moveOn p (frameGone p c)
  | .quiet | .word _ => c

/-- A control word's last byte leaves the link (R165). -/
def wordEnds (p : Fin 4) (c : Chip) : Chip :=
  match c.paths[p].link with
  | .word _ => moveOn p c
  | .quiet | .frame _ _ => c

/-! ### Received units -/

/-- An error is counted, local or remote (R162). -/
def countError (p : Fin 4) (c : Chip) : Chip :=
  match c.paths[p].state with
  | .disabled | .failed => c
  | .training | .negotiating | .up =>
    setPath c p { c.paths[p] with errors := min 65535 (c.paths[p].errors + 1) }

/-- A good unit restarts the silence timer of an UP path (R158). -/
def heard (p : Fin 4) (c : Chip) : Chip :=
  if c.paths[p].state = .up then setPath c p { c.paths[p] with silence := some 250 } else c

/-- A received unit fails its check (R155, R156, R160). -/
def failingUnit (p : Fin 4) (c : Chip) : Chip :=
  let c := countError p c
  if c.paths[p].state = .training then setPath c p { c.paths[p] with good := 0 } else c

/-- A good TRAIN word is received (R155, R156, R158). -/
def trainReceived (p : Fin 4) (c : Chip) : Chip :=
  match c.paths[p].state with
  | .training =>
    let n := c.paths[p].good + 1
    let c := setPath c p { c.paths[p] with good := n }
    if 3 ≤ n then enterNegotiating p c else c
  | .up =>
    let c := dropToTraining p .modemTraining c
    setPath c p { c.paths[p] with good := 1 }
  | .disabled | .negotiating | .failed => c

/-- The fields of an ACCEPT are in range (R156). -/
def acceptOk (level mtu ceiling : Nat) : Bool :=
  (level == 1 || level == 2) && decide (256 ≤ mtu ∧ mtu ≤ 1500) &&
    decide (100 ≤ ceiling ∧ ceiling ≤ Config.rateLimit)

/-- A good ACCEPT word is received (R156, R160). -/
def acceptReceived (p : Fin 4) (level mtu ceiling initial : Nat) (c : Chip) : Chip :=
  match c.paths[p].state with
  | .negotiating =>
    if acceptOk level mtu ceiling then enterUp p level mtu ceiling initial c else countError p c
  | .up => heard p c
  | .disabled | .training | .failed => c

/-- The path is UP at level 2. -/
def fullLevel (c : Chip) (p : Fin 4) : Bool :=
  c.paths[p].state == .up && c.paths[p].level == 2

/-- A good CAPACITY word is received (R160). -/
def capacityReceived (p : Fin 4) (value : Nat) (c : Chip) : Chip :=
  let c := heard p c
  if fullLevel c p then
    setPath c p { c.paths[p] with reported := min value c.paths[p].ceiling }
  else c

/-- A good HOLD word is received (R161). -/
def holdReceived (p : Fin 4) (c : Chip) : Chip :=
  let c := heard p c
  if fullLevel c p && !c.paths[p].held then
    setPath c p { c.paths[p] with held := true, hold := some 500 }
  else c

/-- A good RESUME word is received: a waiting fragment may begin, and the scheduler serves (R161, R163,
R165). -/
def resumeReceived (p : Fin 4) (c : Chip) : Chip :=
  let c := heard p c
  if fullLevel c p && c.paths[p].held then
    inReadOrder (fun c => serve (beginTransmission p c))
      (setPath c p { c.paths[p] with held := false, hold := none })
  else c

/-- A good ERROR_NOTICE word is received (R160, R162). -/
def noticeReceived (p : Fin 4) (c : Chip) : Chip := countError p (heard p c)

/-! ### Return messages -/

/-- The return filter's answer to a message: the filter after it, if the message is taken (R166). -/
def filterTake (f : ReturnFilter) (session number : BitVec 32) : Option ReturnFilter :=
  if f.session = some session then
    if seqBefore f.highest number then
      some
        { f with
          highest := number
          taken := (f.taken <<< min 32 (number - f.highest).toNat) ||| 1 }
    else
      let k := (f.highest - number).toNat
      if k < 32 ∧ f.taken.getLsbD k = false then
        some { f with taken := f.taken ||| BitVec.ofNat 32 (2 ^ k) }
      else none
  else
    some
      { session := some session, highest := number, taken := 1, lastTally := none,
        lastRateCap := none }

/-- A number is behind the last one of its kind that was taken (R166). -/
def stale (last : Option (BitVec 32)) (number : BitVec 32) : Bool :=
  match last with
  | some n => seqBefore number n
  | none => false

/-- The longest data a unit may have on the path (R187). -/
def dataLimit (r : PathRec) : Nat :=
  if r.mtu = 0 then Config.dataLimitNoMtu else fragmentLimit r

/-- A good return message is received: too long a body fails the check (DEDUCED, log 22); on a level-2 UP
path a body that gives its kind's values passes the filter, and `take` dispatches it (R160, R166, R187). -/
def messageReceived (p : Fin 4) (session number : BitVec 32) (body : List Byte) (bodyOk : Bool)
    (take : Chip → Chip) (c : Chip) : Chip :=
  if dataLimit c.paths[p] < body.length then failingUnit p c
  else
    let c := heard p c
    if fullLevel c p && bodyOk then
      match filterTake c.filter session number with
      | none => c
      | some f => take { c with filter := f }
    else c

/-- The states of a TALLY body, if each is a state (R187). -/
def tallyStates (body : List Byte) : Option (List TallyState) := (body.take 8).mapM tallyOf

/-- A TALLY message that passed the filter: stale, or the last one and dispatched (R166, R167). -/
def takeTally (p : Fin 4) (number : BitVec 32) (states : List TallyState) (c : Chip) : Chip :=
  if stale c.filter.lastTally number then c
  else homeTally p number states { c with filter.lastTally := some number }

/-- A TALLY message is received (R123, R166, R187). -/
def tallyReceived (p : Fin 4) (session number : BitVec 32) (body : List Byte) (c : Chip) : Chip :=
  messageReceived p session number body (decide (8 ≤ body.length) && (tallyStates body).isSome)
    (takeTally p number ((tallyStates body).getD [])) c

/-- A CALL message is received (R123, R166). -/
def callReceived (p : Fin 4) (session number : BitVec 32) (body : List Byte) (c : Chip) : Chip :=
  messageReceived p session number body (decide (1 ≤ body.length))
    (homeCall p number (body.getD 0 0)) c

/-- A CLIP_REQUEST is received (R149, R166). -/
def requestReceived (p : Fin 4) (session number : BitVec 32) (body : List Byte) (c : Chip) : Chip :=
  messageReceived p session number body (decide (2 ≤ body.length))
    (homeRequest (beNat (body.take 2))) c

/-- A RATE_CAP that passed the filter (R166, R180). -/
def takeRateCap (p : Fin 4) (number : BitVec 32) (rate : Nat) (c : Chip) : Chip :=
  if stale c.filter.lastRateCap number then c
  else
    let v := min Config.rateLimit rate
    askReport .home (reportBody 2 (byteOf p.val :: (le32 number ++ leNat32 v)))
      { c with
        filter.lastRateCap := some number
        sched.rateCap := if v = 0 then none else some v }

/-- A RATE_CAP message is received (R166, R180). -/
def rateCapReceived (p : Fin 4) (session number : BitVec 32) (body : List Byte) (c : Chip) : Chip :=
  messageReceived p session number body (decide (4 ≤ body.length))
    (takeRateCap p number (beNat (body.take 4))) c

/-- A SIGNAL message is received (R167). -/
def signalReceived (p : Fin 4) (session number : BitVec 32) (body : List Byte) (c : Chip) : Chip :=
  messageReceived p session number body (decide (1 ≤ body.length))
    (askReport .home (reportBody 3 [body.getD 0 0, byteOf p.val])) c

/-- A good return message of a kind code above 4 is received: it is discarded (R166, R187). -/
def unknownReceived (p : Fin 4) (body : List Byte) (c : Chip) : Chip :=
  messageReceived p 0 0 body false id c

/-! ### DEGRADED -/

/-- A path decides DEGRADED for the second that follows (R162). -/
def decideDegraded (c : Chip) (p : Fin 4) : Chip :=
  let r := c.paths[p]
  let now := decide (Config.degradedLimit < r.errors)
  let c := setPath c p { r with errors := 0, degraded := now }
  if now = r.degraded then c
  else askReport .path (reportBody 2 ([byteOf p.val, byteOf (bitOf now)] ++ leNat16 r.errors)) c

/-! ### The reading of a received unit -/

/-- The 24 bits in link order from byte `o`. -/
def be24At (bs : List Byte) (o : Nat) : BitVec 24 := BitVec.ofNat 24 (beNat ((bs.drop o).take 3))

/-- The 16 bits in link order from byte `o`. -/
def be16At (bs : List Byte) (o : Nat) : BitVec 16 := BitVec.ofNat 16 (beNat ((bs.drop o).take 2))

/-- The 32 bits in link order from byte `o`. -/
def be32At (bs : List Byte) (o : Nat) : BitVec 32 := BitVec.ofNat 32 (beNat ((bs.drop o).take 4))

/-- A control word with a good check, by its lead (R187). -/
def classifyWord (p : Fin 4) (bs : List Byte) : Instr :=
  let lead := (bs.getD 0 0).toNat
  if lead = 1 then
    if (bs.take 10).drop 1 = wordValues .train then .train p else .unitFailingCheck p
  else if lead = 2 then .offer p
  else if lead = 3 then .accept p (bs.getD 1 0) (be16At bs 2) (be24At bs 4) (be24At bs 7)
  else if lead = 4 then .idle p
  else if lead = 5 then .capacity p (be24At bs 1)
  else if lead = 6 then .hold p
  else if lead = 7 then .resume p
  else .errorNotice p (be16At bs 1)

/-- A return message, by its kind (section 11.5). -/
def classifyMessage (p : Fin 4) (bs body : List Byte) : Instr :=
  let kind := (bs.getD 0 0).toNat - 0x20
  let session := be32At bs 1
  let number := be32At bs 5
  if kind = 0 then .tallyMessage p session number body
  else if kind = 1 then .callMessage p session number body
  else if kind = 2 then .clipRequest p session number body
  else if kind = 3 then .rateCap p session number body
  else if kind = 4 then .signalMessage p session number body
  else .unknownKindReturnMessage p (byteOf kind) body

/-- The row of the table that the first unit of a path's received bytes is, by its lead byte, its length
and its check (R186, R187). Bytes that end before their unit does fail the check (DESIGN CHOICE, log
35). -/
def classifyUnit (p : Fin 4) (r : PathRec) (bs : List Byte) : Instr :=
  let lead := (bs.getD 0 0).toNat
  if 1 ≤ lead ∧ lead ≤ 8 then
    if bs.length < 12 ∨ be16At bs 10 ≠ wordCheck bs then .unitFailingCheck p else classifyWord p bs
  else if 0x10 ≤ lead ∧ lead ≤ 0x2F then
    let n := (be16At bs 22).toNat
    if dataLimit r < n ∨ bs.length < 24 + n + 4 ∨
        (bs.drop (24 + n)).take 4 ≠ le32 (crc32 (bs.take (24 + n))) then .unitFailingCheck p
    else if lead < 0x20 then .fragmentFrameReceived p
    else classifyMessage p bs ((bs.drop 24).take n)
  else .unitFailingCheck p

/-- Bytes of the first unit of a path's received bytes: 12 of a control word, 24 + data length + 4 of a
frame, and the lead byte alone of a unit with any other lead (R187; the last: DESIGN CHOICE, log 35). -/
def unitExtent (bs : List Byte) : Nat :=
  let lead := (bs.getD 0 0).toNat
  if 1 ≤ lead ∧ lead ≤ 8 then 12
  else if 0x10 ≤ lead ∧ lead ≤ 0x2F then 24 + (be16At bs 22).toNat + 4
  else 1

/-- The next unit of a path's received bytes, good or failed, and the bytes after it (R187). -/
def takeUnit (p : Fin 4) (r : PathRec) (bs : List Byte) : Option (Instr × List Byte) :=
  if bs.isEmpty then none else some (classifyUnit p r bs, bs.drop (unitExtent bs))

/-! ### Meanings -/

/-- PATH_SET (R154). -/
def execPathSet (h : CmdHead) (path : Byte) (enable : Byte) (hostCap : BitVec 32) (s : State) : Out :=
  command (.pathSet h path enable hostCap) s fun c =>
    conclude 0x50 h c (pathSet path enable hostCap c)

/-- PATH_RETRAIN (R159). -/
def execPathRetrain (h : CmdHead) (path : Byte) (s : State) : Out :=
  command (.pathRetrain h path) s fun c =>
    conclude 0x51 h c (pathRetrain path c)

/-- TRAINING_TIMER (R155). -/
def execTrainingTimer (p : Fin 4) (s : State) : Out := event s (trainingTick p)

/-- TRAINING_WINDOW (R155). -/
def execTrainingWindow (p : Fin 4) (s : State) : Out := event s (served (windowExpires p))

/-- OFFER_TIMER (R156). -/
def execOfferTimer (p : Fin 4) (s : State) : Out := event s (offerTick p)

/-- NEGOTIATION_TIMER (R156). -/
def execNegotiationTimer (p : Fin 4) (s : State) : Out := event s (served (negotiationExpires p))

/-- PATH_SILENCE_TIMER (R158). -/
def execPathSilenceTimer (p : Fin 4) (s : State) : Out := event s (served (silenceExpires p))

/-- HOLD_TIMER (R161). -/
def execHoldTimer (p : Fin 4) (s : State) : Out := event s (served (holdExpires p))

/-- PACING_TICK (R163). -/
def execPacingTick (p : Fin 4) (s : State) : Out := event s (served (paceTick p))

/-- TRANSMISSION_END (R165). -/
def execTransmissionEnd (p : Fin 4) (s : State) : Out := event s (frameEnds p)

/-- CONTROL_WORD_END (R165). -/
def execControlWordEnd (p : Fin 4) (s : State) : Out := event s (wordEnds p)

/-- TRAIN (R155, R156, R158). -/
def execTrain (p : Fin 4) (s : State) : Out := event s (served (trainReceived p))

/-- OFFER: discarded; in UP it restarts the silence timer (R155, R156, R160). -/
def execOffer (p : Fin 4) (s : State) : Out := event s (heard p)

/-- IDLE: no effect but the silence timer in UP (R155, R156, R160). -/
def execIdle (p : Fin 4) (s : State) : Out := event s (heard p)

/-- HOLD (R161). -/
def execHold (p : Fin 4) (s : State) : Out := event s (holdReceived p)

/-- RESUME (R161). -/
def execResume (p : Fin 4) (s : State) : Out := event s (resumeReceived p)

/-- UNIT_FAILING_CHECK (R187). -/
def execUnitFailingCheck (p : Fin 4) (s : State) : Out := event s (failingUnit p)

/-- FRAGMENT_FRAME_RECEIVED: a good unit that is no return message (R187). -/
def execFragmentFrameReceived (p : Fin 4) (s : State) : Out := event s (heard p)

/-- ACCEPT (R156, R160). -/
def execAccept (p : Fin 4) (level : Byte) (mtu : BitVec 16) (ceiling initial : BitVec 24)
    (s : State) : Out :=
  event s (served (acceptReceived p level.toNat mtu.toNat ceiling.toNat initial.toNat))

/-- CAPACITY (R160). -/
def execCapacity (p : Fin 4) (value : BitVec 24) (s : State) : Out :=
  event s (capacityReceived p value.toNat)

/-- ERROR_NOTICE: one error whatever count it carries (R162). -/
def execErrorNotice (p : Fin 4) (_count : BitVec 16) (s : State) : Out := event s (noticeReceived p)

/-- TALLY_MESSAGE (R123, R166). -/
def execTallyMessage (p : Fin 4) (session number : BitVec 32) (body : List Byte) (s : State) : Out :=
  event s (served (tallyReceived p session number body))

/-- CALL_MESSAGE (R123, R166). -/
def execCallMessage (p : Fin 4) (session number : BitVec 32) (body : List Byte) (s : State) : Out :=
  event s (served (callReceived p session number body))

/-- CLIP_REQUEST (R149, R166). -/
def execClipRequest (p : Fin 4) (session number : BitVec 32) (body : List Byte) (s : State) : Out :=
  event s (served (requestReceived p session number body))

/-- RATE_CAP (R166, R180). -/
def execRateCap (p : Fin 4) (session number : BitVec 32) (body : List Byte) (s : State) : Out :=
  event s (served (rateCapReceived p session number body))

/-- SIGNAL_MESSAGE (R167). -/
def execSignalMessage (p : Fin 4) (session number : BitVec 32) (body : List Byte) (s : State) : Out :=
  event s (served (signalReceived p session number body))

/-- UNKNOWN_KIND_RETURN_MESSAGE (R166, R187). -/
def execUnknownKindReturnMessage (p : Fin 4) (_kind : Byte) (body : List Byte) (s : State) : Out :=
  event s (unknownReceived p body)

end Sys2Proof.Machine
end

