-- ==== Sys2Proof/Machine/Coding.lean ====
section
/-! DEFINITION. The coding of one band (spec/04): the formats, the samples of a band, prediction and
quantisation, the symbols, the band decision and the band's bytes. -/

namespace Sys2Proof.Machine

/-! ### Formats (section 3.2) -/

/-- Width W of a picture in pixels. -/
def widthOf : Format → Nat
  | .sd => 720
  | .hd720 => 1280
  | .hd1080 => 1920

/-- Bands N of a picture. -/
def bandsOf : Format → Nat
  | .sd => 72
  | .hd720 => 90
  | .hd1080 => 135

/-- Memory lines of a band, W / 2. -/
def bandLinesOf (f : Format) : Nat := widthOf f / 2

/-- Memory lines of a slot. -/
def slotLinesOf (f : Format) : Nat := bandsOf f * bandLinesOf f

/-- Bits of a flat band (R64). -/
def flatBits : Format → Nat
  | .sd => 456
  | .hd720 | .hd1080 => 504

/-- Bytes of a flat band (R64). -/
def flatBytes (f : Format) : Nat := flatBits f / 8

/-- Minimum M of a format: the unit header and every band flat (section 3.2). -/
def minUnit (f : Format) : Nat := Config.lineBytes + bandsOf f * flatBytes f

/-- Format codes (section 11.1). -/
def formatCode : Format → Nat
  | .sd => 0
  | .hd720 => 1
  | .hd1080 => 2

/-- A format code (section 11.1). -/
def formatOf (b : Byte) : Option Format :=
  if b = 0 then some .sd else if b = 1 then some .hd720 else if b = 2 then some .hd1080 else none

/-- Mode codes (section 11.1). -/
def modeCode : Mode → Nat
  | .live => 0
  | .record => 1

/-- A mode code (section 11.1). -/
def modeOf (b : Byte) : Option Mode :=
  if b = 0 then some .live else if b = 1 then some .record else none

/-! ### The samples of a band (R58) -/

/-- Word `k` (0 Cb, 1 Y, 2 Cr, 3 Y) of pixel pair `j` of band line `i`: its low 10 bits. -/
def sampleAt (f : Format) (lines : List (Nat × Line)) (i j k : Nat) : Nat :=
  let l := storedLine lines (i * (widthOf f / 16) + j / 8)
  let o := 8 * (j % 8) + 2 * k
  (lineByte l o).toNat + 256 * ((lineByte l (o + 1)).toNat % 4)

/-- The Y line of band line `i`. -/
def lumaLine (f : Format) (lines : List (Nat × Line)) (i : Nat) : List Int :=
  (List.range (widthOf f / 2)).flatMap fun j =>
    [(sampleAt f lines i j 1 : Int), (sampleAt f lines i j 3 : Int)]

/-- The Cb line (`k` = 0) or the Cr line (`k` = 2) of band line `i`. -/
def chromaLine (f : Format) (lines : List (Nat × Line)) (i k : Nat) : List Int :=
  (List.range (widthOf f / 2)).map fun j => (sampleAt f lines i j k : Int)

/-! ### Prediction and quantisation (R59, R60) -/

/-- The quantised residual k of a residual e at index q. -/
def quantise (q : Nat) (e : Int) : Int :=
  if q = 0 then e else e.sign * (((e.natAbs + 2 ^ (q - 1)) / 2 ^ q : Nat) : Int)

/-- The reconstruction from a prediction and a quantised residual, saturated into 0..1023. -/
def rebuild (q : Nat) (p k : Int) : Int := max 0 (min 1023 (p + k * 2 ^ q))

/-- The quantised residuals of a component line from the prediction of its sample 0. -/
def lineResiduals (q : Nat) : Int → List Int → List Int
  | _, [] => []
  | p, s :: r =>
    let k := quantise q (s - p)
    k :: lineResiduals q (rebuild q p k) r

/-- The reconstructed sample 0 of a component line: the prediction of the next band line's. -/
def firstRebuilt (q : Nat) (p : Int) (line : List Int) : Int :=
  match line with
  | [] => p
  | s :: _ => rebuild q p (quantise q (s - p))

/-! ### Symbols (R61, R62) -/

/-- EG(v): floor(log2(v + 1)) zeros, then v + 1 in binary, most significant bit first. -/
def expGolomb (v : Nat) : List Bool :=
  let n := (v + 1).log2
  List.replicate n false ++ (List.range (n + 1)).map fun i => (v + 1).testBit (n - i)

/-- The count m of a nonzero quantised residual. -/
def mapResidual (k : Int) : Nat := if 0 < k then (2 * k - 2).toNat else (-2 * k - 1).toNat

/-- The symbols of a component line, with the run count so far. -/
def lineSymbols : Nat → List Int → List Bool
  | z, [] => if 0 < z then expGolomb z else []
  | z, k :: r =>
    if k = 0 then lineSymbols (z + 1) r
    else expGolomb z ++ expGolomb (mapResidual k) ++ lineSymbols 0 r

/-- The predictions that open the next band line: Y, Cb, Cr. -/
structure Openings where
  y : Int
  cb : Int
  cr : Int
  deriving DecidableEq, Repr

/-- The symbols of band lines `i` .. `i + n - 1` at index q. -/
def bandSymbolsFrom (f : Format) (lines : List (Nat × Line)) (q : Nat) :
    Nat → Nat → Openings → List Bool
  | 0, _, _ => []
  | n + 1, i, o =>
    let y := lumaLine f lines i
    let cb := chromaLine f lines i 0
    let cr := chromaLine f lines i 2
    lineSymbols 0 (lineResiduals q o.y y) ++ lineSymbols 0 (lineResiduals q o.cb cb) ++
      lineSymbols 0 (lineResiduals q o.cr cr) ++
      bandSymbolsFrom f lines q n (i + 1)
        { y := firstRebuilt q o.y y, cb := firstRebuilt q o.cb cb, cr := firstRebuilt q o.cr cr }

/-- The symbols of a band that carries data, coded at index q (R58 to R62). -/
def bandSymbols (f : Format) (lines : List (Nat × Line)) (q : Nat) : List Bool :=
  bandSymbolsFrom f lines q 8 0 { y := 512, cb := 512, cr := 512 }

/-- The symbols of a flat band (R64). -/
def flatSymbols (f : Format) : List Bool :=
  (List.replicate 8
    (expGolomb (widthOf f) ++ expGolomb (widthOf f / 2) ++ expGolomb (widthOf f / 2))).flatten

/-! ### The band decision -/

/-- One coding of a band: its symbols, index and flags (R63). -/
structure Coding where
  symbols : List Bool
  q : Nat
  flat : Bool
  retry : Bool
  deriving DecidableEq, Repr

/-- A coding's size in bytes, its header and padding included (R63). -/
def codingBytes (k : Coding) : Nat := (32 + k.symbols.length + 7) / 8

/-- A coding's bits (R63). -/
def codingBits (k : Coding) : Nat := 8 * codingBytes k

/-- The flat coding with a retry flag (R64). -/
def flatCoding (f : Format) (retry : Bool) : Coding :=
  { symbols := flatSymbols f, q := 0, flat := true, retry := retry }

/-- The coding at an index. -/
def codeAt (f : Format) (lines : List (Nat × Line)) (q : Nat) (retry : Bool) : Coding :=
  { symbols := bandSymbols f lines q, q := q, flat := false, retry := retry }

/-- The decision of a LIVE band that carries data, from its codings at each index (R66). -/
def decideLive (f : Format) (codings : Nat → Bool → Coding) (q qMax ceiling : Nat) : Coding :=
  let first := codings q false
  if codingBits first ≤ ceiling then first
  else
    let qr := min (q + 2) qMax
    if q < qr then
      let again := codings qr true
      if codingBits again ≤ ceiling then again else flatCoding f true
    else flatCoding f false

/-- The space guard: U bytes are in the unit and `after` bands follow this one (R68). -/
def spaceGuard (f : Format) (u after maxUnit : Nat) (k : Coding) : Coding :=
  if u + codingBytes k + after * flatBytes f ≤ maxUnit then k else flatCoding f k.retry

/-- The step of q after a LIVE band, from E, B, D and T (R70). -/
def stepQ (e : Int) (share d t q qMin qMax : Nat) : Nat :=
  if (share : Int) < e ∨ 2 * t < d then min (q + 1) qMax
  else if e < -(share : Int) ∧ d < t / 2 then max (q - 1) qMin
  else q

/-! ### A band's bytes -/

/-- The value of bits, most significant first. -/
def bitsNat (bs : List Bool) : Nat := bs.foldl (fun n b => 2 * n + bitOf b) 0

/-- Bits packed into bytes, most significant bit first, the last byte completed with zeros (R63,
R185). -/
def packBits : List Bool → List Byte
  | b7 :: b6 :: b5 :: b4 :: b3 :: b2 :: b1 :: b0 :: r =>
    byteOf (bitsNat [b7, b6, b5, b4, b3, b2, b1, b0]) :: packBits r
  | [] => []
  | bs => [byteOf (bitsNat ((bs ++ List.replicate 8 false).take 8))]

/-- The four bytes of a band header (section 11.3). -/
def bandHeader (k : Coding) (incomplete : Bool) : List Byte :=
  be32 (BitVec.ofNat 32
    (k.q * 2 ^ 29 + bitOf k.flat * 2 ^ 28 + bitOf k.retry * 2 ^ 27 + bitOf incomplete * 2 ^ 26 +
      codingBytes k))

/-- A coded band's bytes (R63). -/
def bandBytes (k : Coding) (incomplete : Bool) : List Byte :=
  bandHeader k incomplete ++ packBits k.symbols

/-- The own writes of bytes that begin at an address, one for each memory line they touch (R72). -/
def spanWrites (addr : Nat) (bs : List Byte) : List OwnWrite :=
  let first := addr / Config.lineBytes
  let last := (addr + bs.length - 1) / Config.lineBytes
  (List.range (last + 1 - first)).map fun i =>
    let a := (first + i) * Config.lineBytes
    let lo := addr - a
    let skip := a - addr
    let chunk := (bs.drop skip).take (Config.lineBytes - lo)
    { addr := a
      data := lineOf (List.replicate lo 0 ++ chunk)
      mask := maskRange lo chunk.length }

/-! ### The per-picture budget (R65) -/

/-- The budget of a picture from an allocation R and the rate F. -/
def budgetFor (f : Format) (r rate : Nat) : Budget :=
  let p := r * 1000 / rate
  let b := p / bandsOf f
  { pictureBits := p, bandShare := b, ceiling := max (4 * b) (flatBits f), pictureBytes := p / 8 }

end Sys2Proof.Machine
end

