-- ==== Sys2Proof/Machine/BandCoder.lean ====
section
/-! DEFINITION. The band coder at work (spec/04): candidates and the choice among them, the beginning and
the end of a band's coding, the unit header, and the completion of a picture in the capture unit, the
ring and the clip log (R43, R83, R84, R138, R139). -/

namespace Sys2Proof.Machine

/-! ### Pictures in hand -/

/-- A feed's picture in hand by the model's name for it. -/
def findPic (c : Chip) (f : Fin 8) (ident : Nat) : Option Picture :=
  c.feeds[f].pics.find? fun p => p.ident == ident

/-- A feed's picture in hand changed by `g`. -/
def mapPic (f : Fin 8) (ident : Nat) (g : Picture → Picture) (c : Chip) : Chip :=
  setFeed c f
    { c.feeds[f] with
      pics := c.feeds[f].pics.map fun p => if p.ident = ident then g p else p }

/-- The feed record shows the budget and E of the picture at its coding position, the oldest in hand (R55,
R65); with none in hand it shows no budget and E 0 (DESIGN CHOICE, log 36). -/
def showPosition (r : Feed) : Feed :=
  { r with
    budget := r.pics.head?.bind (·.budget)
    errorSum := (r.pics.head?.map (·.errorSum)).getD 0 }

/-- The record of a feed shows its coding position as it stands now (R65). -/
def syncPosition (f : Fin 8) (c : Chip) : Chip := setFeed c f (showPosition c.feeds[f])

/-- A closed band state (section 3.6). -/
def closedState : BandState → Bool
  | .complete | .incomplete | .empty => true
  | .waiting | .opened | .short => false

/-- Closed at capture: every band is closed (section 3.5). -/
def Picture.closed (p : Picture) : Bool := decide (p.bands.length ≤ p.base)

/-! ### The choice (R56) -/

/-- The band at a feed's coding position: that of its oldest picture in hand (R55). -/
def positionBand (c : Chip) (f : Fin 8) : Option (Picture × Band) :=
  match c.feeds[f].pics with
  | [] => none
  | p :: _ => p.bands[p.coded]?.map fun b => (p, b)

/-- A feed's candidate with its close event (R56). -/
def candidate (c : Chip) (f : Fin 8) : Option (Nat × Fin 8) :=
  match positionBand c f with
  | some (_, b) => if closedState b.state then some (b.closeEvent, f) else none
  | none => none

/-- The feed whose candidate closed earliest (R56). -/
def chooseFeed (c : Chip) : Option (Fin 8) :=
  ((eight.filterMap (candidate c)).foldl
    (fun best x =>
      match best with
      | none => some x
      | some b => if x.1 < b.1 then some x else best) none).map (·.2)

/-! ### The coding of the chosen band -/

/-- The coding the coder keeps for a band, and whether it carries data (R66 to R69). -/
def decideBand (c : Chip) (f : Fin 8) (p : Picture) (b : Band) : Coding :=
  let cfg := c.feeds[f].cfg
  let kept :=
    if b.hasBuffer then
      match cfg.mode with
      | .record => codeAt cfg.format b.lines cfg.qRec false
      | .live =>
        decideLive cfg.format (codeAt cfg.format b.lines) c.feeds[f].q cfg.qMax
          ((p.budget.map (·.ceiling)).getD 0)
    else flatCoding cfg.format false
  spaceGuard cfg.format p.bytes (p.bands.length - (p.coded + 1)) cfg.maxUnit kept

/-- The error sum after a band (R70). -/
def errorAfter (p : Picture) (k : Coding) : Int :=
  match p.budget with
  | some g => p.errorSum + (codingBits k : Nat) - (g.bandShare : Nat)
  | none => p.errorSum

/-- The feed's q after a band: the step rule of a LIVE feed, q_rec of a RECORD feed (R67, R70). -/
def qAfter (c : Chip) (f : Fin 8) (p : Picture) (k : Coding) : Nat :=
  let cfg := c.feeds[f].cfg
  match cfg.mode, p.budget with
  | .record, _ => cfg.qRec
  | .live, some g =>
    stepQ (errorAfter p k) g.bandShare (backlog c f) g.pictureBytes c.feeds[f].q cfg.qMin cfg.qMax
  | .live, none => c.feeds[f].q

/-- The picture after a band's bytes are fixed (R70, R72, R73). -/
def picAfter (p : Picture) (k : Coding) (incomplete : Bool) : Picture :=
  { p with
    errorSum := errorAfter p k
    bytes := p.bytes + codingBytes k
    incompleteBands := p.incompleteBands + bitOf incomplete
    flatBands := p.flatBands + bitOf k.flat
    retriedBands := p.retriedBands + bitOf k.retry }

/-- The unit header of a picture whose last band is decided (R73, section 11.3). -/
def unitHeader (c : Chip) (f : Fin 8) (p : Picture) : Line :=
  let cfg := c.feeds[f].cfg
  lineOf
    ([byteOf f.val, byteOf (formatCode cfg.format), byteOf (modeCode cfg.mode),
        byteOf (bitOf p.abandoned)] ++
      le32 c.rings[f].nextSeq ++ le32 p.house ++ leNat32 p.bytes ++ leNat16 p.bands.length ++
      leNat16 p.incompleteBands ++ leNat16 p.flatBands ++ leNat16 p.retriedBands)

/-- The operation's own writes: the band's, and after a picture's last band its unit header (R72,
R73). -/
def opWrites (c : Chip) (f : Fin 8) (p p' : Picture) (k : Coding) (incomplete : Bool) :
    List OwnWrite :=
  let region := codedAddr c f p.start
  let band := spanWrites (region + p.bytes) (bandBytes k incomplete)
  if p.coded + 1 = p.bands.length then
    band ++ [{ addr := region, data := unitHeader c f p', mask := fullMask }]
  else band

/-- A band's coding begins: it leaves the queue, its coding is decided, q is stepped, and the own writes
are fixed (R56, R57; decided at the beginning: DEDUCED, log 9). -/
def beginCoding (f : Fin 8) (c : Chip) : Chip :=
  match positionBand c f with
  | none => c
  | some (p, b) =>
    let k := decideBand c f p b
    let incomplete := b.state != .complete
    let p' := picAfter p k incomplete
    let writes := opWrites c f p p' k incomplete
    let q := qAfter c f p k
    let c :=
      { c with
        coder.queue := c.coder.queue.filter fun x =>
          !(x.feed == f && x.pic == p.ident && x.band == p.coded)
        coder.op :=
          some { feed := f, pic := p.ident, band := p.coded, issued := false, writes := writes } }
    syncPosition f (mapPic f p.ident (fun _ => p') (setFeed c f { c.feeds[f] with q := q }))

/-- An idle coder chooses among the candidates (R56). -/
def coderKick (c : Chip) : Chip :=
  if c.coder.op.isSome then c
  else
    match chooseFeed c with
    | some f => beginCoding f c
    | none => c

/-! ### The completion of a picture -/

/-- Clips in OPEN state that list a feed (R83). -/
def openListing (c : Chip) (f : Fin 8) : Nat :=
  c.clips.list.countP fun k => k.state == .opened && lists k f

/-- The record of a completed unit (R83). -/
def completeRec (c : Chip) (f : Fin 8) (p : Picture) (u : UnitRec) : UnitRec :=
  { u with
    complete := true
    seq := c.rings[f].nextSeq
    length := (p.bytes + 63) / 64
    bytes := p.bytes
    recorded := !c.feeds[f].cfg.recorder
    held := openListing c f
    live := c.feeds[f].cfg.mode == .live }

/-- The first RESERVED record of a list replaced by what `g` makes of it. -/
def mapReserved (g : UnitRec → UnitRec) : List UnitRec → List UnitRec
  | [] => []
  | u :: r => if u.complete then u :: mapReserved g r else g u :: r

/-- A line offset that reached the ring's end is 0 (R77, R78, R83). -/
def wrapLine (size o : Nat) : Nat := if o = size then 0 else o

/-- The ring after a picture's completion; the head moves when the record is the list's last (R83). -/
def completeRing (c : Chip) (f : Fin 8) (p : Picture) (u : UnitRec) : CodedRing :=
  let r := c.rings[f]
  let v := completeRec c f p u
  { r with
    units := mapReserved (completeRec c f p) r.units
    nextSeq := r.nextSeq + 1
    anyCompleted := true
    head :=
      if (r.units.filter fun x => !x.complete).length = 1 then
        wrapLine (ringSize c f) (v.start + v.length)
      else r.head }

/-- The unit of a completed picture: the ring's record, the LIVE queue, the UNIT report, the clips at
their max length and the automatic clip that found no record (R83, R84, R138, R139). UNIT is asked for before
the clip log's reports CLOSED, OPENED and NO_RECORD (these rules do not order them: DESIGN CHOICE, log 7),
and the clips at their max length close before the automatic opening is tried again (R138 and R139 do not
order them: DESIGN CHOICE, log 30). -/
def completeUnit (f : Fin 8) (p : Picture) (c : Chip) : Chip :=
  match c.rings[f].units.find? fun u => !u.complete with
  | none => c
  | some u =>
    let v := completeRec c f p u
    let c := setRing c f (completeRing c f p u)
    let c :=
      if v.live then
        { c with
          sched.live := c.sched.live ++
            [{ feed := f, seq := v.seq, house := v.house, length := v.bytes,
               addr := codedAddr c f v.start, cursor := 0 }] }
      else c
    let c :=
      if c.feeds[f].cfg.recorder then
        askReport .unit
          (reportBody 0
            (byteOf f.val :: (le32 v.seq ++ le32 v.house ++ leNat32 v.start ++ leNat32 v.length))) c
      else c
    let c := closeAtMax (fun g => g == f) c
    if c.clips.autoFailed[f] then tryOpenAuto f c else c

/-- The last picture of a STOPPING feed has completed: the feed becomes READY and FEED STOP completes
(R40). A dropped current picture stands as it is (DESIGN CHOICE, log 33). -/
def settleStop (f : Fin 8) (c : Chip) : Chip :=
  if c.feeds[f].state = .stopping ∧ c.feeds[f].pics = [] then
    finishObject (.feed f) []
      (setFeed c f { c.feeds[f] with state := .ready, curSlot := none, silence := none })
  else c

/-- A picture completes: it leaves the pictures in hand and its unit is recorded (R43, R83). -/
def completePicture (f : Fin 8) (p : Picture) (c : Chip) : Chip :=
  let r := c.feeds[f]
  let c := setFeed c f
    (showPosition
      { r with
        pics := r.pics.filter fun x => x.ident != p.ident
        cur := if r.cur = .present p.ident then .none else r.cur })
  settleStop f (completeUnit f p c)

/-! ### The end of a band's coding -/

/-- The band's buffer returns to the free buffers (R46, R57). -/
def freeBuffer (f : Fin 8) (p : Picture) (b : Band) (n : Nat) (c : Chip) : Chip :=
  if b.hasBuffer then
    let c := mapPic f p.ident
      (fun x => { x with bands := x.bands.set n { b with hasBuffer := false, lines := [] } }) c
    setFeed c f { c.feeds[f] with freeBuffers := c.feeds[f].freeBuffers + 1 }
  else c

/-- The coding operation ends: the buffer is freed, the position moves or the picture completes, and the
next band is chosen (R55, R57, R73), before the scheduler serves a unit that this completes (DESIGN CHOICE,
log 7). -/
def endCoding (o : CodingOp) (c : Chip) : Chip :=
  let c := { c with coder.op := none }
  match findPic c o.feed o.pic with
  | none => coderKick c
  | some p =>
    let c := match p.bands[o.band]? with
      | some b => freeBuffer o.feed p b o.band c
      | none => c
    let c :=
      if p.bands.length ≤ o.band + 1 then completePicture o.feed p c
      else mapPic o.feed o.pic (fun x => { x with coded := o.band + 1 }) c
    coderKick c

/-- The own-write buffer accepts one waiting write of the coder; the last one ends the operation (R11,
R57). -/
def acceptCoder (c : Chip) : Chip :=
  match c.coder.op with
  | none => c
  | some o =>
    match o.writes with
    | [] => endCoding o c
    | w :: rest =>
      let o' := { o with writes := rest }
      let c := pushOwn w { c with coder.op := some o' }
      if rest.isEmpty then endCoding o' c else c

/-- The own-write buffer has room that no waiting write of the mixer or the command unit takes first
(R11; DESIGN CHOICE, log 24). -/
def coderRoom (c : Chip) : Bool :=
  decide (c.mem.buffer.length + (mixerWaiting c).length + c.cmd.staging.length < Config.bufferLimit)

/-- The coder's waiting writes are accepted while there is room (R11). -/
def drainCoder : Nat → Chip → Chip
  | 0, c => c
  | n + 1, c =>
    if (coderWaiting c).isEmpty ∨ coderRoom c = false then c else drainCoder n (acceptCoder c)

/-- The coder has the band's bytes and issues its own writes (R57, R72; DESIGN CHOICE, log 8). -/
def issueCoding (c : Chip) : Chip :=
  match c.coder.op with
  | none => c
  | some o =>
    if o.issued then c
    else drainCoder o.writes.length { c with coder.op := some { o with issued := true } }

/-! ### Meanings -/

/-- BAND_CODED (R57, R72, R73). -/
def execBandCoded (s : State) : Out := event s (served issueCoding)

end Sys2Proof.Machine
end

