-- ==== Sys2Proof/Machine/Reserve.lean ====
section
/-! DEFINITION. Reservation in a coded ring (spec/05): the search, the list check, reclaiming, and hold
pressure (R76 to R82). -/

namespace Sys2Proof.Machine

/-- Lines of a record's region (section 5.1). -/
def regionLen (u : UnitRec) : Nat := if u.complete then u.length else u.reserved

/-- A record's region shares a line with the `n` lines from `s` (R77). -/
def overlaps (s n : Nat) (u : UnitRec) : Bool :=
  decide (u.start < s + n) && decide (s < u.start + regionLen u)

/-- A record that a search may not take (R77). -/
def blocking (u : UnitRec) : Bool := decide (0 < u.held) || !u.complete

/-- A held record, noted when it is stepped over (R77). -/
def heldRec (u : UnitRec) : Bool := u.complete && decide (0 < u.held)

/-- The outcome of a search: the start found, if any, and the starts of the held records noted. -/
structure Search where
  start : Option Nat
  noted : List Nat
  deriving DecidableEq, Repr

/-- A list with the elements of another that it lacks (a record is noted once, DESIGN CHOICE, log 18). -/
def noteAll (noted : List Nat) (more : List Nat) : List Nat :=
  more.foldl (fun l x => if l.contains x then l else l ++ [x]) noted

/-- The line after the record whose region ends furthest. -/
def furthestEnd (us : List UnitRec) : Nat := us.foldl (fun e u => max e (u.start + regionLen u)) 0

/-- The search of R77 for `n` lines in a ring of `size` lines from candidate `s` with advance `a`; the
fuel covers every move of one lap (DESIGN CHOICE, log 18). -/
def searchRing (us : List UnitRec) (n size : Nat) : Nat → Nat → Nat → List Nat → Search
  | 0, _, _, noted => { start := none, noted := noted }
  | fuel + 1, s, a, noted =>
    let a' := if size < s + n then a + (size - s) else a
    let s' := if size < s + n then 0 else s
    if size < a' then { start := none, noted := noted }
    else
      match us.filter fun u => overlaps s' n u && blocking u with
      | [] => { start := some s', noted := noted }
      | bs =>
        let e := furthestEnd bs
        searchRing us n size fuel (if e = size then 0 else e) (a' + (e - s'))
          (noteAll noted ((bs.filter heldRec).map (·.start)))

/-- Lines of a reservation: ceil(M / 64) (R77). -/
def reserveLines (c : Chip) (f : Fin 8) : Nat := (c.feeds[f].cfg.maxUnit + 63) / 64

/-- The search for a feed's next region (R77). -/
def search (c : Chip) (f : Fin 8) : Search :=
  let us := c.rings[f].units
  searchRing us (reserveLines c f) (ringSize c f) (2 * us.length + 8) c.rings[f].head 0 []

/-- The records a reservation at `s` reclaims: those that overlap it, oldest first (R77, R78). -/
def doomed (c : Chip) (f : Fin 8) (s : Nat) : List UnitRec :=
  c.rings[f].units.filter fun u => u.complete && overlaps s (reserveLines c f) u

/-- The list check of R79: failure, or the record chosen to be reclaimed besides, if one is needed. -/
def listCheck (c : Chip) (f : Fin 8) (s : Nat) : Option (Option UnitRec) :=
  let us := c.rings[f].units
  if us.length - (doomed c f s).length < Config.unitListLimit then some none
  else
    match us.find? fun u =>
      u.complete && decide (u.held = 0) && !overlaps s (reserveLines c f) u with
    | some u => some (some u)
    | none => none

/-- A record is reclaimed, with the withdrawal of a live member and the RECORD_OVERRUN report (R82). -/
def reclaim (f : Fin 8) (c : Chip) (u : UnitRec) : Chip :=
  let c := if u.live then withdrawLive f u.seq c else c
  let c :=
    if c.feeds[f].cfg.recorder && !u.recorded then
      askReport .ring
        (reportBody 0 (byteOf f.val :: (le32 u.seq ++ le32 u.house ++ leNat32 u.start))) c
    else c
  setRing c f
    { c.rings[f] with units := c.rings[f].units.filter fun x => !(x.complete && x.seq == u.seq) }

/-- A successful reservation: the reclaims, the RESERVED record and the head (R78). -/
def takeRegion (f : Fin 8) (s : Nat) (extra : Option UnitRec) (c : Chip) : Chip :=
  let n := reserveLines c f
  let c := (doomed c f s ++ extra.toList).foldl (reclaim f) c
  let r := c.rings[f]
  setRing c f
    { r with
      units := r.units ++
        [{ complete := false, seq := 0, house := c.timing.count, start := s, reserved := n,
           length := 0, bytes := 0, recorded := false, held := 0, live := false }]
      head := wrapLine (ringSize c f) (s + n) }

/-- What a reservation request came to: the start given, the number of held records stepped over, and
whether hold pressure follows (R76, R81). -/
structure Request where
  start : Option Nat
  stepped : Nat
  pressed : Bool
  deriving DecidableEq, Repr

/-- The request's outcome, with the record the list check chose (R76 to R80). A failed list check brings
hold pressure (R79, R81) and adds nothing to the number of held records stepped over, which is what the search
noted (R81 names the number the search stepped over, R79 counts the failure 'for R81' as stepping over one:
DEDUCED, log 39). -/
def requestRegion (c : Chip) (f : Fin 8) : Request × Option UnitRec :=
  let s := search c f
  match s.start with
  | none => ({ start := none, stepped := s.noted.length, pressed := !s.noted.isEmpty }, none)
  | some x =>
    match listCheck c f x with
    | none => ({ start := none, stepped := s.noted.length, pressed := true }, none)
    | some e => ({ start := some x, stepped := s.noted.length, pressed := !s.noted.isEmpty }, e)

/-- Hold pressure at the end of a request: the PRESSURE report, then the lapse of the chosen clip
(R81). -/
def holdPressure (f : Fin 8) (r : Request) (c : Chip) : Chip :=
  if r.pressed then
    let k := lapseChoice c f
    let c := askReport .ring
      (reportBody 1
        ([byteOf f.val, byteOf (bitOf r.start.isNone)] ++ leNat16 r.stepped ++
          leNat16 ((k.map (·.number)).getD 0))) c
    match k with
    | some k => lapseClip k f c
    | none => c
  else c

end Sys2Proof.Machine
end

