-- ==== Sys2Proof/Machine/Capture.lean ====
section
/-! DEFINITION. The capture unit (spec/03): beginning, gathering and abandoning pictures, the capture
tap, the feed commands, and house timing. -/

namespace Sys2Proof.Machine

/-! ### Closing bands (R44, R47, R55) -/

/-- The lowest band not closed; the band count once every band is closed (section 3.5). -/
def lowestOpen (bands : List Band) : Nat := bands.findIdx fun b => !closedState b.state

/-- A band of a picture closes: its close event is recorded, a band with a buffer enters the coding
queue, the incomplete-band mark follows, the base moves, and an idle coder may begin (R47, R48, R55,
R56). -/
def closeBand (f : Fin 8) (ident n : Nat) (s : BandState) (c : Chip) : Chip :=
  match (findPic c f ident).bind fun p => p.bands[n]? with
  | none => c
  | some b =>
    let e := c.coder.closeCount
    let queued : List QueuedBand :=
      if b.hasBuffer then [{ feed := f, pic := ident, band := n, closeEvent := e }] else []
    let c :=
      { c with coder.closeCount := e + 1, coder.queue := c.coder.queue ++ queued }
    let c := setFeed c f { c.feeds[f] with incMark := c.feeds[f].incMark || s != .complete }
    let c := mapPic f ident
      (fun p =>
        let bands := p.bands.set n { b with state := s, closeEvent := e }
        { p with bands := bands, base := lowestOpen bands }) c
    coderKick c

/-- What a forced closing makes of a band state (R47). -/
def forcedState : BandState → BandState
  | .waiting => .empty
  | .opened | .short => .incomplete
  | .complete => .complete
  | .incomplete => .incomplete
  | .empty => .empty

/-- A band is closed by force if it is not closed (R44, R47). -/
def forceBand (f : Fin 8) (ident : Nat) (c : Chip) (n : Nat) : Chip :=
  match (findPic c f ident).bind fun p => p.bands[n]? with
  | none => c
  | some b =>
    if closedState b.state then c else closeBand f ident n (forcedState b.state) c

/-- The open current picture of a feed. -/
def openPicture (c : Chip) (f : Fin 8) : Option Picture :=
  match c.feeds[f].cur with
  | .present ident => (findPic c f ident).filter fun p => !p.closed
  | .none | .dropped => none

/-- The open current picture, if any, is abandoned (R44). -/
def abandon (f : Fin 8) (c : Chip) : Chip :=
  match openPicture c f with
  | none => c
  | some p =>
    let c := mapPic f p.ident (fun x => { x with abandoned := true }) c
    let c := (List.range p.bands.length).foldl (forceBand f p.ident) c
    setFeed c f { c.feeds[f] with cur := .none }

/-! ### Beginning a picture (R41) -/

/-- A WAITING band. -/
def waitingBand : Band := { state := .waiting, hasBuffer := false, lines := [], closeEvent := 0 }

/-- The picture that a successful reservation begins (R41, R65). -/
def newPicture (c : Chip) (f : Fin 8) (slot start : Nat) : Picture :=
  let cfg := c.feeds[f].cfg
  { ident := c.coder.picCount
    slot := slot
    house := c.timing.count
    start := start
    base := 0
    bands := List.replicate (bandsOf cfg.format) waitingBand
    abandoned := false
    budget :=
      match cfg.mode with
      | .live => some (budgetFor cfg.format (c.sched.rates[f].getD cfg.rateMin) c.timing.rate)
      | .record => none
    errorSum := 0
    coded := 0
    bytes := Config.lineBytes
    incompleteBands := 0
    flatBands := 0
    retriedBands := 0 }

/-- The picture joins the pictures in hand as the current picture, and its region is taken (R41, R78). -/
def keepPicture (f : Fin 8) (slot start : Nat) (extra : Option UnitRec) (c : Chip) : Chip :=
  let p := newPicture c f slot start
  let c := takeRegion f start extra c
  setFeed { c with coder.picCount := c.coder.picCount + 1 } f
    (showPosition { c.feeds[f] with pics := c.feeds[f].pics ++ [p], cur := .present p.ident })

/-- The picture is dropped, with its FEED report (R41, R80). -/
def dropPicture (f : Fin 8) (slot : Nat) (c : Chip) : Chip :=
  askReport .feed (reportBody 0 [byteOf f.val, byteOf slot])
    (setFeed c f { c.feeds[f] with cur := .dropped })

/-- A picture begins in a slot: the reservation request, its outcome, and hold pressure (R41, R76). -/
def beginPicture (f : Fin 8) (slot : Nat) (c : Chip) : Chip :=
  let (r, extra) := requestRegion c f
  let c := match r.start with
    | some s => keepPicture f slot s extra c
    | none => dropPicture f slot c
  holdPressure f r c

/-! ### Gathering (R45, R46) -/

/-- The late-write mark is set (R48). -/
def markLate (f : Fin 8) (c : Chip) : Chip := setFeed c f { c.feeds[f] with lateMark := true }

/-- A band of a picture replaced. -/
def setBand (f : Fin 8) (ident n : Nat) (b : Band) (c : Chip) : Chip :=
  mapPic f ident (fun p => { p with bands := p.bands.set n b }) c

/-- A write stored in an OPEN band; the last missing line closes it COMPLETE (R46, R47). -/
def storeInBand (f : Fin 8) (ident n : Nat) (b : Band) (o : Nat) (data : Line) (mask : Mask)
    (c : Chip) : Chip :=
  let b := { b with lines := storeLine b.lines o data mask }
  let c := setBand f ident n b c
  if bandLinesOf c.feeds[f].cfg.format ≤ b.lines.length then closeBand f ident n .complete c else c

/-- A write into an open band; the first one asks for a buffer (R46). -/
def writeBand (f : Fin 8) (ident n : Nat) (o : Nat) (data : Line) (mask : Mask) (c : Chip) : Chip :=
  match (findPic c f ident).bind fun p => p.bands[n]? with
  | none => c
  | some b =>
    match b.state with
    | .waiting =>
      if 0 < c.feeds[f].freeBuffers then
        storeInBand f ident n { b with state := .opened, hasBuffer := true } o data mask
          (setFeed c f { c.feeds[f] with freeBuffers := c.feeds[f].freeBuffers - 1 })
      else setBand f ident n { b with state := .short } c
    | .opened => storeInBand f ident n b o data mask c
    | .short | .complete | .incomplete | .empty => c

/-- The bands that a write into band `x` closes by force, against base `b` (R45). -/
def bandsBehind (b x : Nat) : List Nat :=
  if x ≤ b + 1 then []
  else if x = b + 2 then [b]
  else (List.range (x - b)).map fun i => b + i

/-- A write gathered for a picture lands in band `x` at line `o` of it (R45). -/
def gather (f : Fin 8) (ident x o : Nat) (data : Line) (mask : Mask) (c : Chip) : Chip :=
  match findPic c f ident with
  | none => markLate f c
  | some p =>
    match p.bands[x]? with
    | none => c
    | some b =>
      if closedState b.state then markLate f c
      else
        writeBand f ident x o data mask
          ((bandsBehind p.base x).foldl (forceBand f ident) c)

/-! ### The capture tap (R39, R42) -/

/-- The silence timer of a STOPPING feed restarts, whatever becomes of the write (R40; DEDUCED, log 21). -/
def restartSilence (f : Fin 8) (c : Chip) : Chip :=
  if c.feeds[f].state = .stopping then setFeed c f { c.feeds[f] with silence := some 2 } else c

/-- A write into a slot that is not the current one (R42). -/
def otherSlot (f : Fin 8) (slot x o : Nat) (data : Line) (mask : Mask) (c : Chip) : Chip :=
  let c := abandon f c
  if c.feeds[f].state = .running then
    let c := beginPicture f slot (setFeed c f { c.feeds[f] with curSlot := some slot })
    match c.feeds[f].cur with
    | .present ident => gather f ident x o data mask c
    | .none | .dropped => c
  else setFeed c f { c.feeds[f] with curSlot := none }

/-- A write into the current slot (R39). -/
def sameSlot (f : Fin 8) (x o : Nat) (data : Line) (mask : Mask) (c : Chip) : Chip :=
  match c.feeds[f].cur with
  | .present ident => gather f ident x o data mask c
  | .dropped => c
  | .none => markLate f c

/-- The feed gathers writes: RUNNING or STOPPING (section 3.1). -/
def active (c : Chip) (f : Fin 8) : Bool :=
  c.feeds[f].state == .running || c.feeds[f].state == .stopping

/-- A capture tap (R39). -/
def captureTap (f : Fin 8) (offset : Nat) (data : Line) (mask : Mask) (c : Chip) : Chip :=
  let cfg := c.feeds[f].cfg
  let slotLines := slotLinesOf cfg.format
  if active c f = false ∨ cfg.slots * slotLines ≤ offset then c
  else
    let slot := offset / slotLines
    let line := offset % slotLines
    let x := line / bandLinesOf cfg.format
    let o := line % bandLinesOf cfg.format
    let c := restartSilence f c
    if c.feeds[f].curSlot = some slot then sameSlot f x o data mask c
    else otherSlot f slot x o data mask c

/-- The silence timer of a STOPPING feed expires (R40). -/
def silenceEnds (f : Fin 8) (c : Chip) : Chip :=
  if c.feeds[f].silence.isSome then
    abandon f (setFeed c f { c.feeds[f] with silence := none })
  else c

/-! ### Feed commands -/

/-- Size of a feed's window of a kind, if the table holds it. -/
def windowSize (c : Chip) (k : WindowKind) (f : Fin 8) : Option Nat :=
  (findWindow c k (some f)).map (·.size)

/-- The ranges of check 3 of R37, with the flag fields of R184; the configuration if all hold. -/
def feedConfigOf (a : FeedConfigArgs) : Option FeedConfig :=
  match formatOf a.format, modeOf a.mode, flagOf a.recorder, flagOf a.autoLog with
  | some format, some mode, some recorder, some autoLog =>
    if a.qMin.toNat ≤ 7 ∧ a.qMax.toNat ≤ 7 ∧ a.qRec.toNat ≤ 7 ∧ a.qMin.toNat ≤ a.qMax.toNat ∧
        1 ≤ a.weight.toNat ∧ a.weight.toNat ≤ 15 ∧
        500 ≤ a.rateMin.toNat ∧ a.rateMax.toNat ≤ 200000 ∧ a.rateMin.toNat ≤ a.rateMax.toNat ∧
        2 ≤ a.slots.toNat ∧ a.slots.toNat ≤ 4 then
      some
        { format := format, mode := mode, qMin := a.qMin.toNat, qMax := a.qMax.toNat,
          qRec := a.qRec.toNat, weight := a.weight.toNat, rateMin := a.rateMin.toNat,
          rateMax := a.rateMax.toNat, maxUnit := a.maxUnit.toNat, slots := a.slots.toNat,
          recorder := recorder, autoLog := autoLog }
    else none
  | _, _, _, _ => none

/-- Check 5 of R37. -/
def sizesOk (g : FeedConfig) (captureSize codedSize : Nat) : Bool :=
  decide (minUnit g.format ≤ g.maxUnit) && decide (8 * g.maxUnit ≤ codedSize) &&
    decide (g.slots * (slotLinesOf g.format * Config.lineBytes) ≤ captureSize)

/-- The configuration replaces the old one; with a new M the unit list is discarded (R37), its DISCARDED
report before FEED CONFIG's own RESULT (DESIGN CHOICE, log 7). -/
def applyConfig (f : Fin 8) (g : FeedConfig) (c : Chip) : Chip :=
  let was := c.feeds[f]
  let c := setFeed c f { was with state := .ready, cfg := g }
  if was.state = .ready ∧ was.cfg.maxUnit ≠ g.maxUnit then discardList f c else c

/-- FEED CONFIG (R22, R37). -/
def feedConfig (a : FeedConfigArgs) (c : Chip) : Verdict :=
  match index8 a.feed with
  | none => .refused .badArg
  | some f =>
    if inFlight (.feed f) c then .refused .busy
    else if active c f then .refused .busy
    else
      match feedConfigOf a with
      | none => .refused .badArg
      | some g =>
        match windowSize c .capture f, windowSize c .coded f with
        | some captureSize, some codedSize =>
          if sizesOk g captureSize codedSize = false then .refused .badArg
          else if c.feeds[f].state = .ready ∧ c.feeds[f].cfg.maxUnit ≠ g.maxUnit ∧
              feedHeld c f = true then .refused .held
          else .completed .done [] (serveIfNew c (applyConfig f g c))
        | _, _ => .refused .notReady

/-- FEED START (R22, R38, R71, R139, R171). -/
def feedStart (feed : Byte) (c : Chip) : Verdict :=
  match index8 feed with
  | none => .refused .badArg
  | some f =>
    if inFlight (.feed f) c then .refused .busy
    else if c.feeds[f].state = .idle ∨ (windowSize c .capture f).isNone ∨
        (windowSize c .coded f).isNone then .refused .notReady
    else if active c f then .refused .wrongState
    else
      let r := c.feeds[f]
      let c' := setFeed c f
        { r with
          state := .running, curSlot := none, cur := .none, q := r.cfg.qMax, errorSum := 0 }
      .completed .done []
        (tryOpenAuto f { c' with sched.rates := c'.sched.rates.set f none })

/-- FEED STOP (R22, R40, R139). With no picture in hand the current picture becomes none (DESIGN CHOICE,
log 33). -/
def feedStop (feed : Byte) (c : Chip) : Verdict :=
  match index8 feed with
  | none => .refused .badArg
  | some f =>
    let r := c.feeds[f]
    if inFlight (.feed f) c then .refused .busy
    else if r.state = .stopping then .refused .busy
    else if r.state ≠ .running then .refused .notRunning
    else if r.pics = [] then
      .completed .done []
        (serveIfNew c (closeAuto f .stop
          (setFeed c f { r with state := .ready, curSlot := none, cur := .none })))
    else
      .begun (.feed f)
        (serveIfNew c (closeAuto f .stop
          (setFeed c f { r with state := .stopping, silence := some 2 })))

/-! ### House timing (R49 to R52) -/

/-- The model's clock moves on by some nanoseconds (DESIGN CHOICE, log 3). -/
def advanceClock (ns : Nat) (c : Chip) : Chip :=
  { c with timing.clock := c.timing.clock + ns }

/-- The house count advances, at the clock as it stands. -/
def advanceCount (n : Count32) (c : Chip) : Chip :=
  { c with timing.count := c.timing.count + n, timing.lastAdvance := c.timing.clock }

/-- At least half a picture period has passed since the last advance (R51, DESIGN CHOICE, log 3). -/
def halfPeriodPassed (t : Timing) : Bool :=
  decide (1000000000 ≤ (t.clock - t.lastAdvance) * 2 * t.rate)

/-- A frame pulse, `ns` nanoseconds after the clock last moved (R49, R51). A pulse that ends free run advances
the count, if half a period has passed, before REFERENCE_BACK is asked for, so that report carries the count
after the advance (R51 does not order them: DESIGN CHOICE, log 7). -/
def framePulse (ns : Nat) (c : Chip) : Chip :=
  let c := advanceClock ns c
  if c.timing.freeRun then
    let c := if halfPeriodPassed c.timing then advanceCount 1 c else c
    askReport .feed (reportBody 2 [])
      { c with timing.freeRun := false, timing.freeTimer := none, timing.watch := some 2 }
  else
    let c := advanceCount 1 c
    { c with timing.watch := some 2 }

/-- The model's clock at the end of `n` picture periods after the last advance, or as it stands when it
is later (DESIGN CHOICE, log 3). -/
def clockAfter (n : Nat) (t : Timing) : Nat :=
  max t.clock (t.lastAdvance + n * (1000000000 / t.rate))

/-- The watch timer reaches 2 picture periods (R50). -/
def watchExpires (c : Chip) : Chip :=
  if c.timing.watch.isSome then
    let c := { c with timing.clock := clockAfter 2 c.timing }
    let c := advanceCount 2 c
    askReport .feed (reportBody 1 [])
      { c with timing.freeRun := true, timing.watch := none, timing.freeTimer := some 1 }
  else c

/-- The free-run timer expires (R50). -/
def freeRunExpires (c : Chip) : Chip :=
  if c.timing.freeTimer.isSome then
    let c := { c with timing.clock := clockAfter 1 c.timing }
    let c := advanceCount 1 c
    { c with timing.freeTimer := some 1 }
  else c

/-- TIMECODE SET (R52). -/
def timecodeSet (rate : Byte) (start : Count32) (c : Chip) : Verdict :=
  if ¬(rate = 24 ∨ rate = 25 ∨ rate = 30 ∨ rate = 50 ∨ rate = 60) then .refused .badArg
  else if eight.any (active c) then .refused .busy
  else
    .completed .done []
      { c with
        timing.rate := rate.toNat
        timing.count := start
        timing.lastAdvance := c.timing.clock
        timing.watch := if c.timing.freeRun then none else some 2
        timing.freeTimer := if c.timing.freeRun then some 1 else none }

/-! ### Meanings -/

/-- FEED_CONFIG (R37). -/
def execFeedConfig (h : CmdHead) (a : FeedConfigArgs) (s : State) : Out :=
  command (.feedConfig h a) s fun c =>
    conclude 0x10 h c (feedConfig a c)

/-- FEED_START (R38). -/
def execFeedStart (h : CmdHead) (feed : Byte) (s : State) : Out :=
  command (.feedStart h feed) s fun c =>
    conclude 0x11 h c (feedStart feed c)

/-- FEED_STOP (R40). -/
def execFeedStop (h : CmdHead) (feed : Byte) (s : State) : Out :=
  command (.feedStop h feed) s fun c =>
    conclude 0x12 h c (feedStop feed c)

/-- TIMECODE_SET (R52). -/
def execTimecodeSet (h : CmdHead) (rate : Byte) (start : Count32) (s : State) : Out :=
  command (.timecodeSet h rate start) s fun c =>
    conclude 0x13 h c (timecodeSet rate start c)

/-- FEED_SILENCE_TIMER (R40). -/
def execFeedSilenceTimer (f : Fin 8) (s : State) : Out := event s (silenceEnds f)

/-- FRAME_PULSE (R49, R51). -/
def execFramePulse (elapsed : Nat) (s : State) : Out := event s (framePulse elapsed)

/-- WATCH_TIMER (R50). -/
def execWatchTimer (s : State) : Out := event s watchExpires

/-- FREE_RUN_TIMER (R50). -/
def execFreeRunTimer (s : State) : Out := event s freeRunExpires

end Sys2Proof.Machine
end

