-- ==== Sys2Proof/Machine/MemoryPath.lean ====
section
/-! DEFINITION. The memory path (spec/01): host transactions, taps and guarded drops, the downstream
arbiter, the acceptance of waiting own writes, and the window commands. -/

namespace Sys2Proof.Machine

/-! ### Host transactions -/

/-- A host transaction is forwarded to the downstream port (R1). -/
def forward (t : HostTxn) (c : Chip) : Chip := { c with mem.hostQ := c.mem.hostQ ++ [t] }

/-- The line offset of a transaction in a window (section 1.3). -/
def lineOffset (w : Window) (a : Nat) : Nat := (a - w.base) / Config.lineBytes

/-- The command line of a write into the COMMAND window: bytes outside the mask are 0 (R4). -/
def tappedLine (data : Line) (mask : Mask) : Line := mergeLine zeroLine data mask

/-- A guarded drop asks for its GUARD report (R7). -/
def guardReport (entry : Fin 24) (w : Window) (addr : Nat) (mask : Mask) : Chip → Chip :=
  askReport .guard
    (reportBody 0
      ([byteOf entry.val, byteOf (windowKindCode w.kind), feedByte w.feed, byteOf (maskCount mask)] ++
        le64 (BitVec.ofNat 64 addr)))

/-- A command line handed over: it enters the intake queue, or is lost with its report (R18, R19). -/
def intakeLine (l : Line) (s : State) : State :=
  if s.intake.length < Config.intakeLimit then { s with intake := s.intake ++ [l] }
  else
    { s with
      chip := askReport .commandLost
        (reportBody 0 (le16 (word16 l 4) ++ le16 (kindCode l))) s.chip }

/-- The tap of a host write with a nonempty mask at its window's owner (R4, R6). -/
def writeTap (entry : Fin 24) (w : Window) (addr : Nat) (data : Line) (mask : Mask) (s : State) :
    State :=
  match w.kind, w.feed with
  | .command, _ => intakeLine (tappedLine data mask) s
  | .capture, some f => { s with chip := captureTap f (lineOffset w addr) data mask s.chip }
  | .audioIn, _ => { s with chip := audioTap (lineOffset w addr) data mask s.chip }
  | .coded, _ | .mixOut, _ | .report, _ => { s with chip := guardReport entry w addr mask s.chip }
  | .capture, none => s

/-- A host line write arrives (R1, R2, R4, R6, R16). -/
def hostWrite (addr : BitVec 36) (data : Line) (mask : Mask) (s : State) : State :=
  let a := lineAddr addr
  let passed := { s with chip := forward (.write a data mask) s.chip }
  if s.chip.resetHeld then passed
  else
    match classify s.chip a with
    | none => passed
    | some (e, w) =>
      if mask = 0 then (if partOwned w.kind then s else passed)
      else
        let t := writeTap e w a data mask (if partOwned w.kind then s else passed)
        { t with chip := serveIfNew s.chip t.chip }

/-- A read tap at the ring manager (R5). -/
def readTapAt (a : Nat) (c : Chip) : Chip :=
  match classify c a with
  | some (_, w) =>
    match w.kind, w.feed with
    | .coded, some f => readTap f (lineOffset w a) c
    | _, _ => c
  | none => c

/-- A host line read arrives: tapped, and answered at once when pending own writes cover its line, or
forwarded (R1, R5, R13, R16; covered at the arrival, merged at the grant: DEDUCED, log 10). -/
def hostRead (addr : BitVec 36) (c : Chip) : Chip :=
  let a := lineAddr addr
  if c.resetHeld then forward (.read a) c
  else
    let c := readTapAt a c
    if covered c.mem.buffer a then
      { c with mem.answer := some (a, mergePending c.mem.buffer a zeroLine) }
    else forward (.read a) c

/-! ### The downstream arbiter (R15) -/

/-- An own transaction waits. -/
def ownWaits (m : MemPath) : Bool := !m.buffer.isEmpty || !m.ownReads.isEmpty

/-- The grant goes to the host side (R15). -/
def grantsHost (m : MemPath) : Bool :=
  !m.hostQ.isEmpty && !(m.alternating && m.lastHost && ownWaits m)

/-- A line of memory as a read returns it: DRAM with the pending own writes merged in (R13). -/
def readLine (s : State) (addr : Nat) : Line :=
  mergePending s.chip.mem.buffer addr (memReadLine s.dram addr)

/-- The oldest host transaction is granted (R1, R15). -/
def grantHost (s : State) : State :=
  match s.chip.mem.hostQ with
  | [] => s
  | t :: rest =>
    let s' := { s with
      chip.mem.hostQ := rest
      chip.mem.lastHost := s.chip.mem.alternating || s.chip.mem.lastHost }
    match t with
    | .write a d m => { s' with dram := memWriteLine s.dram a d m }
    | .read a => { s' with chip.mem.answer := some (a, readLine s a) }

/-- The data of an own read reaches its path link, if the fragment is still in transmission (R14,
R165). -/
def deliver (r : OwnRead) (l : Line) (c : Chip) : Chip :=
  match c.paths[r.path].link with
  | .frame f fetched =>
    if f.seq = r.seq then
      setPath c r.path { c.paths[r.path] with link := .frame f (fetched.set r.index (some l)) }
    else c
  | .quiet | .word _ => c

/-- The buffer's head drains; HOST_FIRST is entered at 48 lines, and a RESTART completes when the buffer
is empty (R11, R15, R17, R27). -/
def drainHead (w : OwnWrite) (rest : List OwnWrite) (s : State) : State :=
  let low := decide (rest.length ≤ Config.hostFirstLimit)
  let c :=
    { s.chip with
      mem.buffer := rest
      mem.alternating := s.chip.mem.alternating && !low
      mem.lastHost := false }
  { s with
    dram := memWriteLine s.dram w.addr w.data w.mask
    chip := if rest.isEmpty then finishObject .whole [] c else c }

/-- An own transaction is granted: an oldest own read first while the buffer holds 48 lines or fewer
(R15). -/
def grantOwn (s : State) : State :=
  match s.chip.mem.ownReads, s.chip.mem.buffer with
  | r :: rest, buf =>
    match buf with
    | w :: more =>
      if Config.hostFirstLimit < buf.length then drainHead w more s
      else
        { s with
          chip := deliver r (readLine s r.addr)
            { s.chip with mem.ownReads := rest, mem.lastHost := false } }
    | [] =>
      { s with
        chip := deliver r (readLine s r.addr)
          { s.chip with mem.ownReads := rest, mem.lastHost := false } }
  | [], w :: more => drainHead w more s
  | [], [] => s

/-- The downstream port falls free and is granted to one waiting transaction (R15). -/
def downstreamGrant (s : State) : State := if grantsHost s.chip.mem then grantHost s else grantOwn s

/-! ### The acceptance of waiting own writes -/

/-- The staging list's head is accepted (R11, R29, R32). -/
def acceptStaged (c : Chip) : Chip :=
  match c.cmd.staging with
  | [] => c
  | w :: rest => endOverfull (pushOwn w { c with cmd.staging := rest })

/-- The buffer accepts one own write that waited: the mixer's first, then the command unit's, then the
coder's (R11; the acceptance is this step's: DESIGN CHOICE, log 24). -/
def ownWriteAccept (c : Chip) : Chip :=
  if Config.bufferLimit ≤ c.mem.buffer.length then c
  else if !(mixerWaiting c).isEmpty then acceptMixer c
  else if !c.cmd.staging.isEmpty then acceptStaged c
  else if !(coderWaiting c).isEmpty then acceptCoder c
  else c

/-! ### Window commands -/

/-- A window kind code (section 1.2). -/
def windowKindOf (b : Byte) : Option WindowKind :=
  if b = 0 then some .command else if b = 1 then some .capture else if b = 2 then some .audioIn
  else if b = 3 then some .coded else if b = 4 then some .mixOut else if b = 5 then some .report
  else none

/-- An entry number, if it is one. -/
def entryOf (b : Byte) : Option (Fin 24) :=
  if h : b.toNat < 24 then some ⟨b.toNat, h⟩ else none

/-- The kind has a feed (section 1.2). -/
def hasFeed : WindowKind → Bool
  | .capture | .coded => true
  | .command | .audioIn | .mixOut | .report => false

/-- The window a WINDOW SET gives, if its kind and feed are good (R8). -/
def windowOf (kind feed : Byte) (base size : Nat) : Option Window :=
  match windowKindOf kind with
  | none => none
  | some k =>
    if hasFeed k then
      (index8 feed).map fun f => { base := base, size := size, kind := k, feed := some f }
    else some { base := base, size := size, kind := k, feed := none }

/-- Two windows share a line. -/
def windowsMeet (v w : Window) : Bool :=
  decide (v.base < w.base + w.size) && decide (w.base < v.base + v.size)

/-- The bounds of a window (R8). -/
def boundsOk (w : Window) : Bool :=
  decide (w.base % Config.lineBytes = 0) && decide (w.size % Config.lineBytes = 0) &&
    decide (64 ≤ w.size) && decide (w.size ≤ 4294967296) &&
    decide (w.base + w.size ≤ Config.addressSpace)

/-- The size requirement of a window's kind, and of its feed while READY (R8). -/
def kindSizeOk (c : Chip) (w : Window) : Bool :=
  match w.kind, w.feed with
  | .audioIn, _ => decide (w.size = 98304)
  | .mixOut, _ => decide (w.size = 25600)
  | .report, _ => decide (4096 ≤ w.size) && decide (w.size ≤ 262144)
  | .capture, some f =>
    c.feeds[f].state != .ready ||
      decide (c.feeds[f].cfg.slots * (slotLinesOf c.feeds[f].cfg.format * Config.lineBytes) ≤ w.size)
  | .coded, some f =>
    c.feeds[f].state != .ready || decide (8 * c.feeds[f].cfg.maxUnit ≤ w.size)
  | .command, _ | .capture, none | .coded, none => true

/-- No other entry holds a window of the same kind and feed, or one that overlaps against R8. -/
def othersOk (c : Chip) (e : Fin 24) (w : Window) : Bool :=
  entries.all fun i =>
    i == e ||
      match c.mem.windows[i] with
      | none => true
      | some v =>
        !(v.kind == w.kind && v.feed == w.feed) &&
          !((partOwned v.kind || partOwned w.kind) && windowsMeet v w)

/-- The argument checks of R8. -/
def windowArgsOk (c : Chip) (e : Fin 24) (w : Window) : Bool :=
  boundsOk w && (decide (e.val = 0) == decide (w.kind = .command)) && kindSizeOk c w && othersOk c e w

/-- Check 1 of R9 for one window. -/
def feedBusy (c : Chip) (w : Window) : Bool :=
  match w.kind, w.feed with
  | .capture, some f | .coded, some f => active c f
  | _, _ => false

/-- Check 2 of R9 for one window. -/
def mixerBusy (c : Chip) (w : Window) : Bool :=
  (w.kind == .audioIn || w.kind == .mixOut) && c.mixer.running

/-- Check 3 of R9 for an old window. -/
def windowHeld (c : Chip) (w : Window) : Bool :=
  match w.kind, w.feed with
  | .coded, some f => feedHeld c f
  | _, _ => false

/-- The checks of R9 with an old and a new window, in order. -/
def windowState (c : Chip) (old new : Option Window) : Option ResultCode :=
  let ws := old.toList ++ new.toList
  if ws.any (feedBusy c) then some .busy
  else if ws.any (mixerBusy c) then some .busy
  else if old.any (windowHeld c) then some .held
  else none

/-- The feeds whose CODED window an entry change concerns, each once, the old window's first (R91; that
order: DESIGN CHOICE, log 7). -/
def codedFeeds (old new : Option Window) : List (Fin 8) :=
  let fs := (old.toList ++ new.toList).filterMap fun w => if w.kind = .coded then w.feed else none
  fs.dedup

/-- The report ring starts afresh in a new REPORT window (R30). -/
def freshRing (c : Chip) : Chip :=
  { c with cmd.consumer := c.cmd.producer, cmd.overfull := false, cmd.lost := 0 }

/-- An entry takes a window or becomes empty, with the consequences of R9, R10, R30 and R91: a new report
ring starts first, then the unit lists are discarded, and DISCARDED comes before the command's own RESULT
(these orders: DESIGN CHOICE, log 7). -/
def changeEntry (e : Fin 24) (new : Option Window) (c : Chip) : Chip :=
  let old := c.mem.windows[e]
  let c := { c with mem.windows := c.mem.windows.set e new }
  let c := if new.any fun w => w.kind == .report then freshRing c else c
  (codedFeeds old new).foldl (fun c f => discardList f c) c

/-- WINDOW SET (R8, R9). -/
def windowSet (entry kind feed : Byte) (base size : Nat) (c : Chip) : Verdict :=
  match entryOf entry, windowOf kind feed base size with
  | some e, some w =>
    if windowArgsOk c e w then
      match windowState c c.mem.windows[e] (some w) with
      | some r => .refused r
      | none => .completed .done [] (serveIfNew c (changeEntry e (some w) c))
    else .refused .badArg
  | _, _ => .refused .badArg

/-- WINDOW CLEAR (R10). -/
def windowClear (entry : Byte) (c : Chip) : Verdict :=
  match entryOf entry with
  | none => .refused .badArg
  | some e =>
    if e.val = 0 then .refused .badArg
    else if (c.mem.windows[e]).isNone then .completed .done [] c
    else
      match windowState c c.mem.windows[e] none with
      | some r => .refused r
      | none => .completed .done [] (serveIfNew c (changeEntry e none c))

/-! ### Meanings -/

/-- HOST_WRITE (R1). -/
def execHostWrite (addr : BitVec 36) (data : Line) (mask : Mask) (s : State) : Out :=
  .next (hostWrite addr data mask s)

/-- HOST_READ (R1). -/
def execHostRead (addr : BitVec 36) (s : State) : Out :=
  .next { s with chip := hostRead addr s.chip }

/-- OWN_WRITE_ACCEPT (R11). -/
def execOwnWriteAccept (s : State) : Out := event s (served ownWriteAccept)

/-- DOWNSTREAM_GRANT (R15). -/
def execDownstreamGrant (s : State) : Out := .next (downstreamGrant s)

/-- WINDOW_SET (R8, R9). -/
def execWindowSet (h : CmdHead) (entry kind feed : Byte) (base size : BitVec 64) (s : State) : Out :=
  command (.windowSet h entry kind feed base size) s fun c =>
    conclude 0x01 h c (windowSet entry kind feed base.toNat size.toNat c)

/-- WINDOW_CLEAR (R10). -/
def execWindowClear (h : CmdHead) (entry : Byte) (s : State) : Out :=
  command (.windowClear h entry) s fun c =>
    conclude 0x02 h c (windowClear entry c)

end Sys2Proof.Machine
end

