-- ==== Sys2Proof/Machine/CommandUnit.lean ====
section
/-! DEFINITION. The command unit (spec/02) with the uplink settings: the attention commands, REPORTS
TAKEN, FENCE, the STATUS report, UPLINK SET and HOME SIGNAL, RESTART, and the reset input. -/

namespace Sys2Proof.Machine

/-! ### Reports and attention -/

/-- REPORTS TAKEN (R31); ending an overfull period asks for OVERFLOW first (R32). -/
def reportsTaken (index : Count32) (c : Chip) : Verdict :=
  if (reportWindow c).isNone then .refused .notReady
  else if occupancy c < (index - c.cmd.consumer).toNat then .refused .badArg
  else .completed .done [] (endOverfull { c with cmd.consumer := index })

/-- ATTENTION SET (R34). -/
def attentionSet (causes : Byte) (c : Chip) : Verdict :=
  .completed .done [] { c with cmd.enableSet := causes }

/-- ATTENTION CLEAR (R34). -/
def attentionClear (n : Byte) (c : Chip) : Verdict :=
  match index8 n with
  | none => .refused .badArg
  | some n =>
    .completed .done []
      { c with cmd.pendingSet := c.cmd.pendingSet &&& ~~~(BitVec.ofNat 8 (2 ^ n.val)) }

/-- FENCE (R22, R24). -/
def fence (c : Chip) : Verdict :=
  if c.cmd.inflight.isEmpty then .completed .done [] c
  else if Config.fenceLimit ≤ c.cmd.inflight.countP (fun e => e.object == .fence) then
    .refused .limit
  else .begun .fence c

/-! ### The status report -/

/-- Feed state codes (section 3.1). -/
def feedStateCode : FeedState → Nat
  | .idle => 0
  | .ready => 1
  | .running => 2
  | .stopping => 3

/-- The four bytes of a feed in the STATUS report (R35, section 11.2). -/
def feedStatus (c : Chip) (f : Fin 8) : List Byte :=
  let r := c.feeds[f]
  leNat32
    (feedStateCode r.state + r.q * 2 ^ 2 + bitOf r.lateMark * 2 ^ 5 + bitOf r.incMark * 2 ^ 6 +
      (c.sched.rates[f].getD 0) / 100 * 2 ^ 7 + min 16383 (backlog c f / 1024) * 2 ^ 18)

/-- The two bytes of a path in the STATUS report (R35, section 11.2). -/
def pathStatus (c : Chip) (p : Fin 4) : List Byte :=
  let r := c.paths[p]
  leNat16
    (pathStateCode r.state + bitOf r.held * 2 ^ 3 + bitOf r.degraded * 2 ^ 4 +
      min 2047 (r.pacingCap / 100) * 2 ^ 5)

/-- Bytes 12..63 of the STATUS report (section 11.2). -/
def statusBody (intake : Nat) (c : Chip) : List Byte :=
  eight.flatMap (feedStatus c) ++ four.flatMap (pathStatus c) ++ [byteOf intake] ++
    leNat16 (occupancy c) ++
    [byteOf c.mem.buffer.length, byteOf c.sched.audio.length, byteOf c.sched.label.length,
      byteOf c.sched.clipQ.length, byteOf c.sched.returns.length] ++
    leNat16 c.clips.list.length ++ [byteOf c.tally.stack.length, byteOf (bitOf c.timing.freeRun)]

/-- Every late-write and incomplete-band mark cleared (R35, R48). -/
def clearMarks (c : Chip) : Chip :=
  { c with feeds := c.feeds.map fun r => { r with lateMark := false, incMark := false } }

/-- The status second timer expires: the STATUS report, the marks, and then DEGRADED path by path in rising
number (R35, R162; STATUS before DEGRADED and the paths' order: DESIGN CHOICE, log 7). -/
def statusSecond (intake : Nat) (c : Chip) : Chip :=
  let c := { c with cmd.statusTimer := some 1000 }
  let c := clearMarks (askReport .status (statusBody intake c) c)
  four.foldl decideDegraded c

/-! ### The uplink settings and signals -/

/-- UPLINK SET (R138, R181). -/
def uplinkSet (headroom share age notify : Byte) (maxLen : BitVec 16) (c : Chip) : Verdict :=
  match flagOf notify with
  | none => .refused .badArg
  | some on =>
    if 50 ≤ headroom.toNat ∧ headroom.toNat ≤ 100 ∧ share.toNat ≤ 50 ∧ 2 ≤ age.toNat ∧
        age.toNat ≤ 100 ∧ 25 ≤ maxLen.toNat ∧ maxLen.toNat ≤ 30000 then
      .completed .done []
        (serveIfNew c
          (closeAtMax (fun _ => true)
            { c with
              sched.headroom := headroom.toNat
              sched.share := share.toNat
              sched.ageLimit := age.toNat
              sched.notify := on
              clips.maxLen := maxLen.toNat }))
    else .refused .badArg

/-- HOME SIGNAL (R175). -/
def homeSignal (code : BitVec 16) (c : Chip) : Verdict :=
  if 255 < code.toNat then .refused .badArg
  else .completed .done [] (serveIfNew c (signalHome (code.setWidth 8) .host c))

/-! ### RESTART -/

/-- The scheduler's part of a RESTART (R183), with the live memberships (R94). -/
def restartScheduler (c : Chip) : Chip :=
  { c with
    sched.audio := []
    sched.label := []
    sched.live := []
    sched.clipQ := []
    sched.returns := []
    rings := c.rings.map fun r =>
      { r with units := r.units.map fun u => { u with live := false } } }

/-- A feed after a RESTART (R54). -/
def restartFeed (r : Feed) : Feed :=
  { r with
    state :=
      match r.state with
      | .idle => .idle
      | .ready | .running | .stopping => .ready
    curSlot := none
    cur := .none
    pics := []
    freeBuffers := Config.bandBuffers
    silence := none
    budget := none
    errorSum := 0 }

/-- The capture unit's part of a RESTART (R54). -/
def restartCapture (c : Chip) : Chip := { c with feeds := c.feeds.map restartFeed }

/-- The band coder's part of a RESTART (R75). -/
def restartCoder (c : Chip) : Chip := { c with coder.queue := [], coder.op := none }

/-- A ring after a RESTART: its RESERVED records are removed and the head moves to the start of the
oldest of them (R92). -/
def restartRing (r : CodedRing) : CodedRing :=
  { r with
    units := r.units.filter fun u => u.complete
    head := ((r.units.find? fun u => !u.complete).map (·.start)).getD r.head }

/-- The ring manager's part of a RESTART (R92, R94). -/
def restartRings (c : Chip) : Chip := { c with rings := c.rings.map restartRing }

/-- The sound mixer's part of a RESTART (R116), the block state set to WAITING at once (DESIGN CHOICE, log
37). -/
def restartMixer (c : Chip) : Chip :=
  { c with
    mixer.running := false
    mixer.block := .waiting
    mixer.buf := []
    mixer.fireQ := []
    mixer.mix := none
    mixer.recalling := none
    mixer.frame := none }

/-- The tally and signal unit's part of a RESTART (R133). -/
def restartTally (c : Chip) : Chip :=
  let c := closeStack .restart c.tally.stack c
  { c with tally.lines := c.tally.lines.map fun l => { l with markOpen := false } }

/-- A SENDING clip at a RESTART (R152). -/
def restartSend (c : Chip) (n : Nat) : Chip :=
  askReport .clip (reportBody 3 (leNat16 n))
    (mapClip n (fun x => { x with state := .closed }) (abortSend n c))

/-- The trim session at a RESTART (R152). -/
def restartTrim (c : Chip) : Chip :=
  match c.clips.trim with
  | none => c
  | some t => askReport .clip (reportBody 4 (leNat16 t.clip)) { c with clips.trim := none }

/-- The clip log's part of a RESTART (R152). The open automatic clips close by rising feed, then the sends
abort in creation order, then the trim session ends (R152 does not order them: DESIGN CHOICE, log 17). -/
def restartClips (c : Chip) : Chip :=
  let c := eight.foldl (fun c f => closeAuto f .restart c) c
  let sending := (c.clips.list.filter fun k => k.state == .sending).map (·.number)
  restartTrim (sending.foldl restartSend c)

/-- Every other in-flight entry is ended with BUSY, in the order taken (R26). -/
def endOthers (c : Chip) : Chip :=
  (c.cmd.inflight.filter fun e => e.object != .whole).foldl (fun c e => endEntry e .busy [] c) c

/-- The blocks' parts of a RESTART (R27; their order: DESIGN CHOICE, log 17). -/
def restartBlocks (c : Chip) : Chip :=
  four.foldl restartPath
    (restartClips (restartTally (restartMixer (restartRings (restartCoder
      (restartCapture (restartScheduler c)))))))

/-- RESTART is taken; it completes at once if the own-write buffer is empty (R17, R26, R27). -/
def restart (h : CmdHead) (c : Chip) : Chip :=
  let c := restartBlocks (endOthers (conclude 0x71 h c (.begun .whole c)))
  if c.mem.buffer.isEmpty then finishObject .whole [] c else c

/-! ### The reset input -/

/-- The reset input is asserted: every block takes its full-reset state (R16, R28, R36); the pins, the
host's waiting transactions, the last answer and the clock are not the part's to reset (DESIGN CHOICE, log
4). -/
def fullReset (c : Chip) : Chip :=
  Chip.held c.straps c.linePins c.mem.hostQ c.mem.answer c.timing.clock

/-- The reset input is released (R3, R16, R28). -/
def resetRelease (straps : Bool × Bool) (c : Chip) : Chip :=
  if c.resetHeld then c.release straps else c

/-! ### Meanings -/

/-- UNKNOWN_KIND_COMMAND (R20, R184). -/
def execUnknownKindCommand (h : CmdHead) (kind : BitVec 16) (s : State) : Out :=
  command (.unknownKindCommand h kind) s fun c => conclude kind h c (.refused .badKind)

/-- UPLINK_SET (R181). -/
def execUplinkSet (h : CmdHead) (headroom share ageLimit notify : Byte) (maxLength : BitVec 16)
    (s : State) : Out :=
  command (.uplinkSet h headroom share ageLimit notify maxLength) s fun c =>
    conclude 0x52 h c (uplinkSet headroom share ageLimit notify maxLength c)

/-- HOME_SIGNAL (R175). -/
def execHomeSignal (h : CmdHead) (code : BitVec 16) (s : State) : Out :=
  command (.homeSignal h code) s fun c =>
    conclude 0x53 h c (homeSignal code c)

/-- REPORTS_TAKEN (R31). -/
def execReportsTaken (h : CmdHead) (index : Count32) (s : State) : Out :=
  command (.reportsTaken h index) s fun c =>
    conclude 0x60 h c (reportsTaken index c)

/-- ATTENTION_SET (R34). -/
def execAttentionSet (h : CmdHead) (causes : Byte) (s : State) : Out :=
  command (.attentionSet h causes) s fun c =>
    conclude 0x61 h c (attentionSet causes c)

/-- ATTENTION_CLEAR (R34). -/
def execAttentionClear (h : CmdHead) (cause : Byte) (s : State) : Out :=
  command (.attentionClear h cause) s fun c =>
    conclude 0x62 h c (attentionClear cause c)

/-- FENCE (R24). -/
def execFence (h : CmdHead) (s : State) : Out :=
  command (.fence h) s fun c =>
    conclude 0x70 h c (fence c)

/-- RESTART (R26): taken from the head of the intake queue, which it empties. -/
def execRestart (h : CmdHead) (s : State) : Out :=
  if takes (.restart h) s then .next { s with intake := [], chip := restart h s.chip } else .next s

/-- STATUS_SECOND_TIMER (R35). -/
def execStatusSecondTimer (s : State) : Out := event s (statusSecond s.intake.length)

/-- The allocation timer expires (R169). -/
def allocationExpires (c : Chip) : Chip := allocate { c with sched.allocTimer := some 100 }

/-- ALLOCATION_TIMER (R169). -/
def execAllocationTimer (s : State) : Out := event s allocationExpires

/-- FULL_RESET (R16, R28, R36). -/
def execFullReset (s : State) : Out := .next { s with intake := [], chip := fullReset s.chip }

/-- RESET_RELEASE (R3, R28). -/
def execResetRelease (strap1 strap0 : Bool) (s : State) : Out :=
  .next { s with chip := resetRelease (strap1, strap0) s.chip }

end Sys2Proof.Machine
end

