-- ==== Sys2Proof/Machine/Dispatch.lean ====
section
/-! DEFINITION. The dispatch: one arm for each row of the table. -/

namespace Sys2Proof.Machine

/-- The effect of a command or event on everything but the queue. -/
def exec (i : Instr) (s : State) : Host.Outcome State Fault Refusal :=
  match i with
  | .hostWrite addr data mask => Sys2Proof.Machine.execHostWrite addr data mask s
  | .hostRead addr => Sys2Proof.Machine.execHostRead addr s
  | .ownWriteAccept => Sys2Proof.Machine.execOwnWriteAccept s
  | .downstreamGrant => Sys2Proof.Machine.execDownstreamGrant s
  | .unknownKindCommand h kind => Sys2Proof.Machine.execUnknownKindCommand h kind s
  | .windowSet h entry kind feed base size => Sys2Proof.Machine.execWindowSet h entry kind feed base size s
  | .windowClear h entry => Sys2Proof.Machine.execWindowClear h entry s
  | .feedConfig h a => Sys2Proof.Machine.execFeedConfig h a s
  | .feedStart h feed => Sys2Proof.Machine.execFeedStart h feed s
  | .feedStop h feed => Sys2Proof.Machine.execFeedStop h feed s
  | .timecodeSet h rate start => Sys2Proof.Machine.execTimecodeSet h rate start s
  | .audioStart h => Sys2Proof.Machine.execAudioStart h s
  | .audioStop h => Sys2Proof.Machine.execAudioStop h s
  | .inputSet h input fader afv depth => Sys2Proof.Machine.execInputSet h input fader afv depth s
  | .sendSet h input leg level => Sys2Proof.Machine.execSendSet h input leg level s
  | .legSet h leg master uplink alarm => Sys2Proof.Machine.execLegSet h leg master uplink alarm s
  | .sceneSave h slot => Sys2Proof.Machine.execSceneSave h slot s
  | .sceneRecall h slot => Sys2Proof.Machine.execSceneRecall h slot s
  | .overloadClear h leg => Sys2Proof.Machine.execOverloadClear h leg s
  | .tallySet h feed tally call => Sys2Proof.Machine.execTallySet h feed tally call s
  | .tallyAuthority h authority => Sys2Proof.Machine.execTallyAuthority h authority s
  | .signalLineSet h a => Sys2Proof.Machine.execSignalLineSet h a s
  | .markIn h feeds category => Sys2Proof.Machine.execMarkIn h feeds category s
  | .markOut h => Sys2Proof.Machine.execMarkOut h s
  | .clipLabel h a => Sys2Proof.Machine.execClipLabel h a s
  | .clipProtect h clip => Sys2Proof.Machine.execClipProtect h clip s
  | .clipUnprotect h clip => Sys2Proof.Machine.execClipUnprotect h clip s
  | .clipRelease h clip => Sys2Proof.Machine.execClipRelease h clip s
  | .clipSend h clip => Sys2Proof.Machine.execClipSend h clip s
  | .trimBegin h clip => Sys2Proof.Machine.execTrimBegin h clip s
  | .trimMove h point delta => Sys2Proof.Machine.execTrimMove h point delta s
  | .trimEnd h => Sys2Proof.Machine.execTrimEnd h s
  | .trimAbandon h => Sys2Proof.Machine.execTrimAbandon h s
  | .pathSet h path enable hostCap => Sys2Proof.Machine.execPathSet h path enable hostCap s
  | .pathRetrain h path => Sys2Proof.Machine.execPathRetrain h path s
  | .uplinkSet h headroom share ageLimit notify maxLength => Sys2Proof.Machine.execUplinkSet h headroom share ageLimit notify maxLength s
  | .homeSignal h code => Sys2Proof.Machine.execHomeSignal h code s
  | .reportsTaken h index => Sys2Proof.Machine.execReportsTaken h index s
  | .attentionSet h causes => Sys2Proof.Machine.execAttentionSet h causes s
  | .attentionClear h cause => Sys2Proof.Machine.execAttentionClear h cause s
  | .fence h => Sys2Proof.Machine.execFence h s
  | .restart h => Sys2Proof.Machine.execRestart h s
  | .statusSecondTimer => Sys2Proof.Machine.execStatusSecondTimer s
  | .bandCoded => Sys2Proof.Machine.execBandCoded s
  | .feedSilenceTimer f => Sys2Proof.Machine.execFeedSilenceTimer f s
  | .framePulse elapsed => Sys2Proof.Machine.execFramePulse elapsed s
  | .watchTimer => Sys2Proof.Machine.execWatchTimer s
  | .freeRunTimer => Sys2Proof.Machine.execFreeRunTimer s
  | .mixEnd => Sys2Proof.Machine.execMixEnd s
  | .callTimer f => Sys2Proof.Machine.execCallTimer f s
  | .blinkTimer f => Sys2Proof.Machine.execBlinkTimer f s
  | .fallbackTimer => Sys2Proof.Machine.execFallbackTimer s
  | .signalLineChange n high => Sys2Proof.Machine.execSignalLineChange n high s
  | .debounceTimer n => Sys2Proof.Machine.execDebounceTimer n s
  | .trainingTimer p => Sys2Proof.Machine.execTrainingTimer p s
  | .trainingWindow p => Sys2Proof.Machine.execTrainingWindow p s
  | .offerTimer p => Sys2Proof.Machine.execOfferTimer p s
  | .negotiationTimer p => Sys2Proof.Machine.execNegotiationTimer p s
  | .pathSilenceTimer p => Sys2Proof.Machine.execPathSilenceTimer p s
  | .holdTimer p => Sys2Proof.Machine.execHoldTimer p s
  | .pacingTick p => Sys2Proof.Machine.execPacingTick p s
  | .transmissionEnd p => Sys2Proof.Machine.execTransmissionEnd p s
  | .allocationTimer => Sys2Proof.Machine.execAllocationTimer s
  | .train p => Sys2Proof.Machine.execTrain p s
  | .offer p => Sys2Proof.Machine.execOffer p s
  | .accept p level mtu ceiling initial => Sys2Proof.Machine.execAccept p level mtu ceiling initial s
  | .idle p => Sys2Proof.Machine.execIdle p s
  | .capacity p value => Sys2Proof.Machine.execCapacity p value s
  | .hold p => Sys2Proof.Machine.execHold p s
  | .resume p => Sys2Proof.Machine.execResume p s
  | .errorNotice p count => Sys2Proof.Machine.execErrorNotice p count s
  | .unitFailingCheck p => Sys2Proof.Machine.execUnitFailingCheck p s
  | .fragmentFrameReceived p => Sys2Proof.Machine.execFragmentFrameReceived p s
  | .tallyMessage p session number body => Sys2Proof.Machine.execTallyMessage p session number body s
  | .callMessage p session number body => Sys2Proof.Machine.execCallMessage p session number body s
  | .clipRequest p session number body => Sys2Proof.Machine.execClipRequest p session number body s
  | .rateCap p session number body => Sys2Proof.Machine.execRateCap p session number body s
  | .signalMessage p session number body => Sys2Proof.Machine.execSignalMessage p session number body s
  | .fullReset => Sys2Proof.Machine.execFullReset s
  | .resetRelease strap1 strap0 => Sys2Proof.Machine.execResetRelease strap1 strap0 s
  | .unknownKindReturnMessage p kind body => Sys2Proof.Machine.execUnknownKindReturnMessage p kind body s
  | .controlWordEnd p => Sys2Proof.Machine.execControlWordEnd p s

end Sys2Proof.Machine
end

