-- ==== Sys2Proof/Machine/Step.lean ====
section
/-! DEFINITION. The step: the command or event at the front of the queue. -/

namespace Sys2Proof.Machine

/-- One step: the front of the queue is taken and carried out with the queue's rest; on an empty queue
the block idles (DESIGN CHOICE, log 2). -/
def step (s : State) : Host.Outcome State Fault Refusal :=
  match s.pending with
  | [] => .next s
  | i :: rest => exec i { s with pending := rest }

/-- The state with the command that a table word spells at the front of its queue. -/
def State.withFetchWord (s : State) (nbits w : Nat) : State :=
  match decodeTableWord nbits w with
  | some i => { s with pending := i :: s.pending }
  | none => s

end Sys2Proof.Machine
end

