-- ==== Sys2Proof/Machine/Receive.lean ====
section
/-! DEFINITION. What a path link makes of the bytes that come in on its link: one event of the table for
each unit, in the order received (R187). -/

namespace Sys2Proof.Machine

/-- The units of a path's received bytes, taken one after another by the path as it stands at each; the
link goes on with the byte after a unit, good or failed (R187). `fuel` bounds the units by the bytes. -/
def receiveFrom (p : Fin 4) : Nat → List Byte → State → Out
  | 0, _, s => .next s
  | fuel + 1, bs, s =>
    match takeUnit p s.chip.paths[p] bs with
    | none => .next s
    | some (i, rest) =>
      match exec i s with
      | .next t => receiveFrom p fuel rest t
      | o => o

/-- A path link receives bytes (R187). -/
def receive (p : Fin 4) (bs : List Byte) (s : State) : Out := receiveFrom p bs.length bs s

end Sys2Proof.Machine
end

