-- ==== Sys2Proof/Safety.lean ====
section
/-! DEFINITION. What counts as a safe run, and the words the statements use: the invariant every step
keeps, the state after a command's taking, and what writing reports may change. -/

namespace Sys2Proof.Machine

/-- The bounds of the scheduler's lists: at most 8 audio frames (R172), 32 messages (R175), 16 clips being
sent (R144) and 16 returned fragments (section 10.4). -/
structure Scheduler.Inv (s : Scheduler) : Prop where
  audio : s.audio.length ≤ Config.audioLimit
  label : s.label.length ≤ Config.labelLimit
  clipQ : s.clipQ.length ≤ Config.clipQueueLimit
  returns : s.returns.length ≤ Config.returnLimit

/-- Every transmit queue holds at most 4 fragments (section 9.1), and the UP count is the number of paths that
are UP (R122). -/
structure PathsInv (paths : Vector PathRec 4) (upCount : Nat) : Prop where
  queues : ∀ p : Fin 4, paths[p].queue.length ≤ Config.transmitLimit
  upCount : upCount = four.countP fun p => paths[p].state == .up

/-- The clip records are at most 256 with distinct numbers (R135), send progress belongs to a SENDING clip
(section 8.1), and the mark stack holds at most 8 clips, each once: exactly the OPEN MANUAL clips (R129). -/
structure ClipsInv (clips : List Clip) (stack : List Nat) : Prop where
  records : clips.length ≤ Config.clipLimit
  numbers : (clips.map (·.number)).Nodup
  sending : ∀ k ∈ clips, k.progress.isSome = true → k.state = .sending
  depth : stack.length ≤ Config.stackLimit
  once : stack.Nodup
  marks : ∀ n ∈ stack, ∃ k ∈ clips, k.number = n ∧ k.origin = .manual ∧ k.state = .opened
  marked : ∀ k ∈ clips, k.origin = .manual → k.state = .opened → k.number ∈ stack

/-- The part is within these bounds of the manual: the own-write buffer holds at most 64 lines (R11), the
staging list 8 reports (section 2.6) and the fire queue 2 blocks (R100), and the scheduler, the paths and the
clip log are within theirs. -/
structure Chip.Inv (c : Chip) : Prop where
  buffer : c.mem.buffer.length ≤ Config.bufferLimit
  staging : c.cmd.staging.length ≤ Config.stagingLimit
  fired : c.mixer.fireQ.length ≤ Config.fireQueueLimit
  sched : c.sched.Inv
  paths : PathsInv c.paths c.tally.upCount
  clips : ClipsInv c.clips.list c.tally.stack

/-- The invariant: DRAM is in its canonical form (DESIGN CHOICE, log 5), the intake queue holds at most 32
lines (R18), and the part is within the bounds of `Chip.Inv`. -/
structure State.Inv (s : State) : Prop where
  canonical : Memory.wf s.dram = true
  intakeBound : s.intake.length ≤ Config.intakeLimit
  chip : s.chip.Inv

/-- The state after a command has been taken: its line has left the intake queue (R20). -/
def State.taken (s : State) (c : Chip) : State := { s with intake := s.intake.tail, chip := c }

/-- A command completed at once: its RESULT is asked for if its report-always flag is set (R25). -/
def completedBy (kind : BitVec 16) (h : CmdHead) (r : ResultCode) (payload : List Byte) (c : Chip) :
    Chip :=
  if h.always then askResult kind h.tag .host r payload c else c

/-- A command refused: nothing but its RESULT is asked for (R20, R25). -/
def refusedBy (kind : BitVec 16) (h : CmdHead) (r : ResultCode) (c : Chip) : Chip :=
  askResult kind h.tag .host r [] c

/-- `d` is `c` after reports were written: only the report ring's indices and marks, the pending set, the
staging list and the own-write buffer may differ, and the buffer only grew (R29, R32, R33). -/
structure ReportOnly (c d : Chip) : Prop where
  same : d =
    { c with
      mem.buffer := d.mem.buffer
      mem.alternating := d.mem.alternating
      cmd.producer := d.cmd.producer
      cmd.overfull := d.cmd.overfull
      cmd.lost := d.cmd.lost
      cmd.staging := d.cmd.staging
      cmd.pendingSet := d.cmd.pendingSet }
  grew : c.mem.buffer <+: d.mem.buffer

/-- The address lies in the masked bytes of a line (R1). -/
def inLine (a : Nat) (mask : Mask) (b : Nat) : Bool :=
  decide (a ≤ b) && decide (b < a + Config.lineBytes) && inMask mask (b - a)

/-- A write into band `x` closes band `i` by force when the base is `b`: at `b + 2` the base alone, further up
every band from the base to the one below it (R45). -/
def forcedBy (b x i : Nat) : Bool :=
  decide (x = b + 2 ∧ i = b ∨ b + 3 ≤ x ∧ b ≤ i ∧ i < x)

/-- What becomes of a block that fires, with the fire queue `q` after it (R100, R101, R103): with two blocks
there the queue stays, and else the block joins its tail, with steps from the settings as they stand when no
recall is pending. -/
def BlockFires (c : Chip) (n : Count32) (kind : FireKind) (buf : List (Nat × Line))
    (q : List FiredBlock) : Prop :=
  (2 ≤ c.mixer.fireQ.length → q = c.mixer.fireQ) ∧
  (c.mixer.fireQ.length < 2 → ∃ b : FiredBlock, q = c.mixer.fireQ ++ [b] ∧ b.number = n ∧
    b.kind = kind ∧ b.buf = buf ∧ b.house = c.timing.count ∧ b.starved = starvedInputs buf ∧
    (c.mixer.recalling = none → b.steps = effectiveSteps c.mixer c.tally.feeds))

/-- A unit's record after the hold changes of one event: a COMPLETE unit newly inside the span gains one hold
up to 256, one newly outside it loses one (R86, R140). -/
def holdsMoved (was now : Count32 → Bool) (u : UnitRec) : UnitRec :=
  { u with
    held :=
      if u.complete = true ∧ was u.seq = false ∧ now u.seq = true then min 256 (u.held + 1)
      else if u.complete = true ∧ was u.seq = true ∧ now u.seq = false then u.held - 1
      else u.held }

/-- `d` is `c` after clip `k`'s points became those of `y` (R140, R148): `y` keeps all else but its house
counts, which are those of its first feed's in and out units where these have records; each listed feed's
units have the hold changes, and no other feed's ring changes. -/
structure TrimEffect (c : Chip) (k y : Clip) (d : Chip) : Prop where
  same : d =
    { c with
      clips.list := c.clips.list.map (fun z => if z.number = k.number then y else z)
      rings := d.rings }
  clip : y = { k with feeds := y.feeds, inHouse := y.inHouse, outHouse := y.outHouse }
  houses : ∀ x xs, nonBare y = x :: xs →
    (∀ g, x.inSeq.bind (unitHouse c x.feed) = some g → y.inHouse = some g) ∧
    (x.inSeq.bind (unitHouse c x.feed) = none → y.inHouse = k.inHouse) ∧
    (∀ g, x.outSeq.bind (unitHouse c x.feed) = some g → y.outHouse = some g) ∧
    (x.outSeq.bind (unitHouse c x.feed) = none → y.outHouse = k.outHouse)
  holds : (k.feeds.map (·.feed)).Nodup → ∀ x z, (x, z) ∈ k.feeds.zip y.feeds →
    d.rings[x.feed] =
      { c.rings[x.feed] with
        units := c.rings[x.feed].units.map (holdsMoved (spanIncludes x) (spanIncludes z)) }
  others : ∀ f : Fin 8, (∀ x ∈ k.feeds, x.feed ≠ f) → d.rings[f] = c.rings[f]

/-- `c` with the bytes of clip `n` withdrawn from the CLIP queue, the return list and every transmit
queue (R143, R145, R179). -/
def withoutClip (n : Nat) (c : Chip) : Chip :=
  { c with
    sched.clipQ := c.sched.clipQ.filter fun q => q.clip != n
    sched.returns := c.sched.returns.filter fun r => !ofClip n r.item
    paths := c.paths.map fun r => { r with queue := r.queue.filter fun f => !ofClip n f.item } }

/-- The rings after a clip's holds have dropped: one hold fewer on exactly the COMPLETE units its spans
include, in every feed it lists (R86, R140). -/
def HoldsDropped (c : Chip) (k : Clip) (d : Chip) : Prop :=
  ∀ f : Fin 8, d.rings[f] =
    { c.rings[f] with
      units := c.rings[f].units.map fun u =>
        if u.complete && k.feeds.any (fun x => x.feed == f && spanIncludes x u.seq) then
          { u with held := u.held - 1 }
        else u }

/-- The return list's entry of a fragment handed back (R178). -/
def returned (f : Fragment) : ReturnEntry :=
  { cls := f.cls, item := f.item, addr := f.addr, offset := f.offset, itemLength := f.itemLength,
    length := f.length, data := f.data }

/-- A run of steps with no fault and no refusal (the machine never stops, INVENTORY.md, Faults). -/
def answersNext (s : State) : Prop := ∃ t, step s = .next t

end Sys2Proof.Machine
end

