-- ==== Sys2Proof/WellFormed.lean ====
section
/-! DEFINITION. The well-formed commands and events: what an operand must meet to be one the spec's rows
can carry. Every other operand is bounded by its type. -/

namespace Sys2Proof

/-- The kind codes of section 11.1. -/
def knownKinds : List (BitVec 16) :=
  [0x01, 0x02, 0x10, 0x11, 0x12, 0x13, 0x20, 0x21, 0x22, 0x23, 0x24, 0x25, 0x26, 0x27, 0x30, 0x31,
   0x32, 0x40, 0x41, 0x42, 0x43, 0x44, 0x45, 0x46, 0x47, 0x48, 0x49, 0x4A, 0x50, 0x51, 0x52, 0x53,
   0x60, 0x61, 0x62, 0x70, 0x71]

/-- A line address: a multiple of 64 (section 1.1). -/
def alignedAddr (a : BitVec 36) : Bool := a.extractLsb' 0 6 == 0

/-- A body that some path could carry (R187). -/
def bodyOk (body : List Byte) : Bool := decide (body.length ≤ Config.dataLimitNoMtu)

/-- A well-formed command or event. -/
def wellFormed : Instr → Bool
  | .hostWrite addr _ _ => alignedAddr addr
  | .hostRead addr => alignedAddr addr
  | .unknownKindCommand _ kind => !knownKinds.contains kind
  | .tallyMessage _ _ _ body => bodyOk body
  | .callMessage _ _ _ body => bodyOk body
  | .clipRequest _ _ _ body => bodyOk body
  | .rateCap _ _ _ body => bodyOk body
  | .signalMessage _ _ _ body => bodyOk body
  | .unknownKindReturnMessage _ kind body =>
    bodyOk body && decide (4 < kind.toNat) && decide (kind.toNat < 16)
  | .ownWriteAccept | .downstreamGrant | .windowSet _ _ _ _ _ _ | .windowClear _ _
  | .feedConfig _ _ | .feedStart _ _ | .feedStop _ _ | .timecodeSet _ _ _ | .audioStart _
  | .audioStop _ | .inputSet _ _ _ _ _ | .sendSet _ _ _ _ | .legSet _ _ _ _ _ | .sceneSave _ _
  | .sceneRecall _ _ | .overloadClear _ _ | .tallySet _ _ _ _ | .tallyAuthority _ _
  | .signalLineSet _ _ | .markIn _ _ _ | .markOut _ | .clipLabel _ _ | .clipProtect _ _
  | .clipUnprotect _ _ | .clipRelease _ _ | .clipSend _ _ | .trimBegin _ _ | .trimMove _ _ _
  | .trimEnd _ | .trimAbandon _ | .pathSet _ _ _ _ | .pathRetrain _ _ | .uplinkSet _ _ _ _ _ _
  | .homeSignal _ _ | .reportsTaken _ _ | .attentionSet _ _ | .attentionClear _ _ | .fence _
  | .restart _ | .statusSecondTimer | .bandCoded | .feedSilenceTimer _ | .framePulse _
  | .watchTimer | .freeRunTimer | .mixEnd | .callTimer _ | .blinkTimer _ | .fallbackTimer
  | .signalLineChange _ _ | .debounceTimer _ | .trainingTimer _ | .trainingWindow _
  | .offerTimer _ | .negotiationTimer _ | .pathSilenceTimer _ | .holdTimer _ | .pacingTick _
  | .transmissionEnd _ | .allocationTimer | .train _ | .offer _ | .accept _ _ _ _ _ | .idle _
  | .capacity _ _ | .hold _ | .resume _ | .errorNotice _ _ | .unitFailingCheck _
  | .fragmentFrameReceived _ | .fullReset | .resetRelease _ _ | .controlWordEnd _ => true

end Sys2Proof
end

