-- ==== Sys2Proof/Certificates/Slice0/Obligations.lean ====
section
/-! DEFINITION. The statements for the provers. -/

open Sys2Proof Sys2Proof.Machine

/-! ### The machine -/

/-- A step takes the command or event at the front of the queue and is `exec` of it on the state with the
queue's rest. The queue is the model's (DESIGN CHOICE, logs 1 and 2). -/
def Obligations.StepRunsTheFront : Prop :=
  ∀ (i : Instr) (rest : List Instr) (s : State), s.pending = i :: rest →
    step s = exec i { s with pending := rest }

/-- The command line the host writes for a well-formed command by section 11.1 is read back as that
command, with every parameter at every value its field can hold. -/
def Obligations.CommandLineRoundTrip : Prop :=
  ∀ (i : Instr) (l : Line), wellFormed i = true → encodeLine i = some l → decodeLine l = i

/-- Every step keeps the invariant, from any state that has it: DRAM in its canonical form (DESIGN CHOICE, log
5), at most 32 lines in the intake queue (R18), 64 in the own-write buffer (R11), 8 reports in the staging
list (section 2.6), 2 blocks in the fire queue (R100), 8 frames, 32 messages, 16 clips and 16 entries in
the AUDIO, LABEL and CLIP queues and the return list (R172, R175, R144, R178), 4 fragments in each
transmit queue (section 9.1), the UP count equal to the number of UP paths (R122), at most 256 clip
records with distinct numbers (R135), send progress with SENDING clips only (section 8.1), and a mark
stack of at most 8 clips, each once, that are exactly the OPEN MANUAL clips (R129). These are all the
bounds it holds: the in-flight list, the unit lists, the band buffers, the lost count and a path's error
count and attempts are not among them. -/
def Obligations.StepKeepsInvariant : Prop :=
  ∀ s t : State, s.Inv → step s = .next t → t.Inv

/-- The invariant holds right after reset: every queue and list is empty, no path is UP, the log and the mark
stack hold no clip (R36, R132, R151, R168, R182; the empty DRAM: DESIGN CHOICE, log 5). -/
def Obligations.ResetHasInvariant : Prop :=
  State.reset.Inv

/-- DRAM changes only at a grant of the downstream port: no other command or event changes a byte of it
(the last paragraph of section 1.1). -/
def Obligations.DramChangesOnlyAtGrant : Prop :=
  ∀ (i : Instr) (s t : State), i ≠ .downstreamGrant → exec i s = .next t →
    ∀ a, memRead t.dram a = memRead s.dram a

/-- FULL_RESET then RESET_RELEASE, from every state: each block's state after a full reset and the timers
that the release starts (R3, R16, R36, R53, R74, R93, R115, R132, R151, R168, R182), with DRAM untouched. The
words that wait for a link are the model's (log 15), and so is a feed's budget with no picture in hand
(DESIGN CHOICE, log 36). -/
def Obligations.FullResetState : Prop :=
  ∀ (a b : Bool) (s : State), ∃ t u : State,
    exec .fullReset s = .next t ∧ exec (.resetRelease a b) t = .next u ∧
    t.chip.resetHeld = true ∧ u.chip.resetHeld = false ∧
    u.dram = s.dram ∧ u.intake = [] ∧
    u.chip.mem.windows[0] =
      some { base := bootstrapBase (a, b), size := 4096, kind := .command, feed := none } ∧
    (∀ i : Fin 24, i ≠ 0 → u.chip.mem.windows[i] = none) ∧
    u.chip.mem.buffer = [] ∧ u.chip.mem.ownReads = [] ∧ u.chip.mem.alternating = false ∧
    u.chip.mem.lastHost = false ∧
    u.chip.cmd.inflight = [] ∧ u.chip.cmd.producer = 0 ∧ u.chip.cmd.consumer = 0 ∧
    u.chip.cmd.overfull = false ∧ u.chip.cmd.lost = 0 ∧ u.chip.cmd.staging = [] ∧
    u.chip.cmd.pendingSet = 0 ∧ u.chip.cmd.enableSet = 0 ∧ u.chip.attention = false ∧
    u.chip.cmd.statusTimer = some 1000 ∧
    (∀ f : Fin 8, u.chip.feeds[f].state = .idle ∧ u.chip.feeds[f].pics = [] ∧
      u.chip.feeds[f].curSlot = none ∧ u.chip.feeds[f].cur = .none ∧
      u.chip.feeds[f].freeBuffers = 4 ∧ u.chip.feeds[f].silence = none ∧ u.chip.feeds[f].q = 0 ∧
      u.chip.feeds[f].errorSum = 0 ∧ u.chip.feeds[f].budget = none ∧
      u.chip.feeds[f].lateMark = false ∧ u.chip.feeds[f].incMark = false) ∧
    u.chip.timing.count = 0 ∧ u.chip.timing.rate = 25 ∧ u.chip.timing.freeRun = false ∧
    u.chip.timing.watch = some 2 ∧ u.chip.timing.freeTimer = none ∧
    u.chip.coder.queue = [] ∧ u.chip.coder.op = none ∧
    (∀ f : Fin 8, u.chip.rings[f].units = [] ∧ u.chip.rings[f].head = 0 ∧
      u.chip.rings[f].nextSeq = 0) ∧
    u.chip.mixer.running = false ∧ u.chip.mixer.block = .waiting ∧ u.chip.mixer.buf = [] ∧
    u.chip.mixer.fireQ = [] ∧ u.chip.mixer.mix = none ∧ u.chip.mixer.starved = 0 ∧
    u.chip.mixer.recalling = none ∧ u.chip.mixer.frame = none ∧
    (∀ i : Fin 32, u.chip.mixer.inputs[i] = { fader := 0, afv := none, depth := 0 }) ∧
    (∀ (i : Fin 32) (l : Fin 8), u.chip.mixer.sends[i][l] = 0 ∧ u.chip.mixer.lastSteps[i][l] = 0) ∧
    (∀ l : Fin 8, u.chip.mixer.legs[l] =
      { master := 0, uplink := false, alarm := false, latch := false }) ∧
    (∀ n : Fin 8, u.chip.mixer.scenes[n] = none) ∧
    (∀ f : Fin 8, u.chip.tally.feeds[f].state = .off ∧ u.chip.tally.feeds[f].call = false ∧
      u.chip.tally.feeds[f].drive = .off ∧ u.chip.tally.feeds[f].lit = false ∧
      u.chip.tally.feeds[f].callTimer = none ∧ u.chip.tally.feeds[f].blink = none) ∧
    u.chip.tally.authority = .van ∧ u.chip.tally.fallback = none ∧ u.chip.tally.upCount = 0 ∧
    (∀ n : Fin 8, u.chip.tally.lines[n].enabled = false ∧ u.chip.tally.lines[n].debounced = false ∧
      u.chip.tally.lines[n].pendingLevel = none ∧ u.chip.tally.lines[n].debounce = none ∧
      u.chip.tally.lines[n].markOpen = false) ∧
    u.chip.tally.stack = [] ∧
    u.chip.clips.list = [] ∧ u.chip.clips.counter = 1 ∧ u.chip.clips.maxLen = 9000 ∧
    u.chip.clips.trim = none ∧
    (∀ p : Fin 4, u.chip.paths[p].state = .disabled ∧ u.chip.paths[p].hostCap = 0 ∧
      u.chip.paths[p].good = 0 ∧ u.chip.paths[p].failed = 0 ∧ u.chip.paths[p].level = 0 ∧
      u.chip.paths[p].mtu = 0 ∧ u.chip.paths[p].ceiling = 0 ∧ u.chip.paths[p].reported = 0 ∧
      u.chip.paths[p].pacingCap = 0 ∧ u.chip.paths[p].credit = 0 ∧ u.chip.paths[p].held = false ∧
      u.chip.paths[p].errors = 0 ∧ u.chip.paths[p].degraded = false ∧
      u.chip.paths[p].queue = [] ∧ u.chip.paths[p].link = .quiet ∧ u.chip.paths[p].due = [] ∧
      u.chip.paths[p].trainingTimer = none ∧ u.chip.paths[p].window = none ∧
      u.chip.paths[p].offerTimer = none ∧ u.chip.paths[p].negotiation = none ∧
      u.chip.paths[p].silence = none ∧ u.chip.paths[p].hold = none ∧
      u.chip.paths[p].pacing = none) ∧
    u.chip.filter.session = none ∧
    u.chip.sched.audio = [] ∧ u.chip.sched.label = [] ∧ u.chip.sched.live = [] ∧
    u.chip.sched.clipQ = [] ∧ u.chip.sched.returns = [] ∧
    (∀ f : Fin 8, u.chip.sched.rates[f] = none) ∧ u.chip.sched.allocTimer = some 100 ∧
    u.chip.sched.headroom = 90 ∧ u.chip.sched.share = 20 ∧ u.chip.sched.ageLimit = 20 ∧
    u.chip.sched.notify = true ∧ u.chip.sched.rateCap = none ∧ u.chip.sched.seq = 0

/-! ### The memory path -/

/-- A host write with a nonempty mask into a part-owned window is dropped: it is not forwarded, no byte of
DRAM changes, the own writes pending stay, nothing of the part changes but its report's writing, and cause
FAULT is pending. The report is one GUARD that names the entry, the window kind, the feed or none, the
number of bytes in the mask and the line address, in the places of section 11.2 (R6, R7). -/
def Obligations.GuardedWriteDropped : Prop :=
  ∀ (addr : BitVec 36) (data : Line) (mask : Mask) (s : State) (e : Fin 24) (w : Window),
    s.chip.resetHeld = false → mask ≠ 0 → classify s.chip (lineAddr addr) = some (e, w) →
    partOwned w.kind = true →
    ∃ t, exec (.hostWrite addr data mask) s = .next t ∧
      t.dram = s.dram ∧ t.intake = s.intake ∧ t.chip.mem.hostQ = s.chip.mem.hostQ ∧
      s.chip.mem.buffer <+: t.chip.mem.buffer ∧ ReportOnly s.chip t.chip ∧
      t.chip.cmd.pendingSet.getLsbD 0 = true ∧
      t.chip =
        askReport .guard
          ([0, 0, 0, 0, byteOf e.val,
              if w.kind = .coded then 3 else if w.kind = .mixOut then 4 else 5,
              match w.feed with
              | some f => byteOf f.val
              | none => 0xFF,
              byteOf ((List.range 64).countP fun i => mask.getLsbD i)] ++
            (List.range 8).map fun i => BitVec.ofNat 8 (addr.toNat / 64 * 64 / 256 ^ i)) s.chip

/-- A host write outside every window, and any host transaction under reset, is forwarded and changes nothing
else; one with an empty mask is no more than forwarded, and into a part-owned window not even that; a
write into the COMMAND window is forwarded and enters the intake queue with its unwritten bytes 0, or
at 32 lines is lost with a COMMAND_LOST report. A host read is answered at once from the pending own
writes that cover its line, and otherwise waits for the port; it marks the unit whose last line it
reads as recorded, in a feed with its recorder on (R1, R4 to R6, R13, R18, R19, R89). -/
def Obligations.HostTransactions : Prop :=
  (∀ (addr : BitVec 36) (data : Line) (mask : Mask) (s : State),
     (s.chip.resetHeld = true →
       exec (.hostWrite addr data mask) s =
         .next { s with chip := forward (.write (lineAddr addr) data mask) s.chip } ∧
       exec (.hostRead addr) s =
         .next { s with chip := forward (.read (lineAddr addr)) s.chip }) ∧
     (s.chip.resetHeld = false → classify s.chip (lineAddr addr) = none →
       exec (.hostWrite addr data mask) s =
         .next { s with chip := forward (.write (lineAddr addr) data mask) s.chip }) ∧
     (∀ e w, s.chip.resetHeld = false → classify s.chip (lineAddr addr) = some (e, w) → mask = 0 →
       exec (.hostWrite addr data mask) s =
         .next
           (if partOwned w.kind then s
           else { s with chip := forward (.write (lineAddr addr) data mask) s.chip })) ∧
     (∀ e w, s.chip.resetHeld = false → classify s.chip (lineAddr addr) = some (e, w) →
       w.kind = .command → mask ≠ 0 →
       exec (.hostWrite addr data mask) s =
         .next
           (if s.intake.length < 32 then
             { s with
               intake := s.intake ++ [mergeLine zeroLine data mask]
               chip := forward (.write (lineAddr addr) data mask) s.chip }
           else
             { s with
               chip :=
                 askReport .commandLost
                   (reportBody 0
                     (le16 (word16 (mergeLine zeroLine data mask) 4) ++
                       le16 (word16 (mergeLine zeroLine data mask) 0)))
                   (forward (.write (lineAddr addr) data mask) s.chip) }))) ∧
  (∀ (addr : BitVec 36) (s : State), s.chip.resetHeld = false →
     ∃ t, exec (.hostRead addr) s = .next t ∧ t.dram = s.dram ∧ t.intake = s.intake ∧
       t.chip.feeds = s.chip.feeds ∧ t.chip.sched = s.chip.sched ∧ t.chip.cmd = s.chip.cmd ∧
       t.chip.mem.buffer = s.chip.mem.buffer ∧
       (covered s.chip.mem.buffer (lineAddr addr) = true →
         t.chip.mem.hostQ = s.chip.mem.hostQ ∧
         t.chip.mem.answer =
           some (lineAddr addr, mergePending s.chip.mem.buffer (lineAddr addr) zeroLine)) ∧
       (covered s.chip.mem.buffer (lineAddr addr) = false →
         t.chip.mem.hostQ = s.chip.mem.hostQ ++ [.read (lineAddr addr)] ∧
         t.chip.mem.answer = s.chip.mem.answer) ∧
       (∀ e w f, classify s.chip (lineAddr addr) = some (e, w) → w.kind = .coded → w.feed = some f →
         s.chip.feeds[f].cfg.recorder = true →
         t.chip.rings[f].units =
           s.chip.rings[f].units.map fun u =>
             if u.complete ∧ u.start + u.length - 1 = (lineAddr addr - w.base) / 64 then
               { u with recorded := true }
             else u))

/-- With room in the own-write buffer the mixer's waiting write is accepted first, then the command unit's,
then the coder's; each joins the tail (R11). The mixer has none waiting before its mix has issued its
writes and after the last is accepted. The last write of a mix ends it as MIX_END with room for that one
write would: the block leaves the fire queue. A staged report's acceptance ends an overfull period where
the ring has a free line and the staging list room, OVERFLOW being asked for with the lost count, which
becomes 0 (R29, R32). The last write of a coding operation ends it as BAND_CODED with room for that one
write would: with a band still to come the coding position moves past the band (R55, R57). A full buffer
accepts nothing. That the acceptance is a step of its own is the model's choice (log 24). -/
def Obligations.OwnWriteAcceptOrder : Prop :=
  (∀ (s : State) (w : OwnWrite) (rest : List OwnWrite), s.chip.resetHeld = false →
    s.chip.mem.buffer.length < 64 →
    (∀ m, s.chip.mixer.mix = some m → m.issued = true → m.writes = w :: rest →
      (rest ≠ [] →
        exec .ownWriteAccept s =
          .next { s with
            chip := pushOwn w { s.chip with mixer.mix := some { m with writes := rest } } }) ∧
      (rest = [] →
        exec .ownWriteAccept s =
          exec .mixEnd { s with chip.mixer.mix := some { m with issued := false } } ∧
        ∀ b q, s.chip.mixer.fireQ = b :: q →
          ∃ t, exec .ownWriteAccept s = .next t ∧ t.dram = s.dram ∧ t.intake = s.intake ∧
            s.chip.mem.buffer ++ [w] <+: t.chip.mem.buffer ∧ t.chip.mixer.fireQ = q ∧
            (q = [] → t.chip.mixer.mix = none))) ∧
    (mixerWaiting s.chip = [] → s.chip.cmd.staging = w :: rest →
      (s.chip.cmd.overfull = true → ∀ v, reportWindow s.chip = some v →
        occupancy s.chip < ringLines v → rest.length < 8 →
        exec .ownWriteAccept s =
          .next { s with
            chip := askReport .overflow (reportBody 0 (leNat16 s.chip.cmd.lost))
              (pushOwn w
                { s.chip with cmd.staging := rest, cmd.overfull := false, cmd.lost := 0 }) }) ∧
      ((s.chip.cmd.overfull = false ∨ reportWindow s.chip = none ∨ 8 ≤ rest.length ∨
          ∃ v, reportWindow s.chip = some v ∧ ringLines v ≤ occupancy s.chip) →
        exec .ownWriteAccept s =
          .next { s with chip := pushOwn w { s.chip with cmd.staging := rest } })) ∧
    (∀ o, mixerWaiting s.chip = [] → s.chip.cmd.staging = [] → s.chip.coder.op = some o →
      o.issued = true → o.writes = w :: rest →
      (rest ≠ [] →
        exec .ownWriteAccept s =
          .next { s with
            chip := pushOwn w { s.chip with coder.op := some { o with writes := rest } } }) ∧
      (rest = [] →
        exec .ownWriteAccept s =
          exec .bandCoded { s with chip.coder.op := some { o with issued := false } } ∧
        ∀ p, findPic s.chip o.feed o.pic = some p → o.band + 1 < p.bands.length →
          ∃ t q, exec .ownWriteAccept s = .next t ∧ t.dram = s.dram ∧ t.intake = s.intake ∧
            t.chip.mem.buffer = s.chip.mem.buffer ++ [w] ∧
            findPic t.chip o.feed o.pic = some q ∧ q.coded = o.band + 1))) ∧
  (∀ s : State, 64 ≤ s.chip.mem.buffer.length → exec .ownWriteAccept s = .next s) ∧
  (∀ c : Chip, mixerWaiting c = [] ↔
    ∀ m, c.mixer.mix = some m → m.issued = true → m.writes = [])

/-- A grant to the host side: under HOST_FIRST whenever a host transaction waits, and under ALTERNATING when
the last grant there went to the own side or no own transaction waits; under ALTERNATING the grant is then
the host's (R15). A waiting host write: the masked bytes of its line are written and every other byte of
memory reads as before. A waiting host read is answered with DRAM's line, each byte that a pending own
write of the line covers taken from the newest such write (R1, R13, R15). -/
def Obligations.GrantServesHost : Prop :=
  (∀ (s : State) (a : Nat) (d : Line) (m : Mask) (rest : List HostTxn),
     Memory.wf s.dram = true → s.chip.mem.hostQ = .write a d m :: rest →
     (s.chip.mem.alternating = true → s.chip.mem.lastHost = true →
       s.chip.mem.buffer = [] ∧ s.chip.mem.ownReads = []) →
     ∃ t, exec .downstreamGrant s = .next t ∧
       t.chip =
         { s.chip with
           mem.hostQ := rest
           mem.lastHost := s.chip.mem.alternating || s.chip.mem.lastHost } ∧
       t.intake = s.intake ∧
       ∀ b, memRead t.dram b = if inLine a m b then lineByte d (b - a) else memRead s.dram b) ∧
  (∀ (s : State) (a : Nat) (rest : List HostTxn),
     s.chip.mem.hostQ = .read a :: rest →
     (s.chip.mem.alternating = true → s.chip.mem.lastHost = true →
       s.chip.mem.buffer = [] ∧ s.chip.mem.ownReads = []) →
     ∃ t l, exec .downstreamGrant s = .next t ∧ t.dram = s.dram ∧ t.intake = s.intake ∧
       t.chip =
         { s.chip with
           mem.hostQ := rest
           mem.lastHost := s.chip.mem.alternating || s.chip.mem.lastHost
           mem.answer := some (a, l) } ∧
       ∀ i, i < 64 → lineByte l i =
         match s.chip.mem.buffer.reverse.find? fun w => w.addr == a && inMask w.mask i with
         | some w => lineByte w.data i
         | none => memRead s.dram (a + i))

/-- A grant to the own side, when no host transaction waits or the last grant under ALTERNATING went to the
host. The buffer's head, with no own read before it: its masked bytes reach DRAM, every other byte
reads as before, and HOST_FIRST is entered at 48 lines (R11, R15); the drain of the last line completes
a RESTART in flight (R17, R27). An own read, with 48 lines or fewer in the buffer: its line reaches the
frame on its link, merged with the pending own writes (R13 to R15). -/
def Obligations.GrantServesOwn : Prop :=
  ∀ s : State, Memory.wf s.dram = true →
    (s.chip.mem.hostQ = [] ∨ (s.chip.mem.alternating = true ∧ s.chip.mem.lastHost = true)) →
    (∀ (w : OwnWrite) (rest : List OwnWrite), s.chip.mem.buffer = w :: rest →
      (s.chip.mem.ownReads = [] ∨ 48 < (w :: rest).length) →
      ∃ t, exec .downstreamGrant s = .next t ∧ t.intake = s.intake ∧
        (∀ b, memRead t.dram b =
          if inLine w.addr w.mask b then lineByte w.data (b - w.addr) else memRead s.dram b) ∧
        (inFlight .whole s.chip = false →
          t.chip =
            { s.chip with
              mem.buffer := rest
              mem.lastHost := false
              mem.alternating := s.chip.mem.alternating && decide (48 < rest.length) }) ∧
        (∀ e, rest = [] → s.chip.cmd.inflight = [e] → e.object = .whole →
          t.chip.cmd.inflight = [] ∧ t.chip.cmd.pendingSet.getLsbD 1 = true)) ∧
    (∀ (r : OwnRead) (rest : List OwnRead) (f : Fragment) (got : List (Option Line)),
      s.chip.mem.ownReads = r :: rest → s.chip.mem.buffer.length ≤ 48 →
      s.chip.paths[r.path].link = .frame f got → f.seq = r.seq →
      exec .downstreamGrant s =
        .next { s with
          chip := setPath { s.chip with mem.ownReads := rest, mem.lastHost := false } r.path
            { s.chip.paths[r.path] with
              link := .frame f (got.set r.index
                (some (mergePending s.chip.mem.buffer r.addr (memReadLine s.dram r.addr)))) } })

/-- WINDOW SET is refused with BAD_ARG for an entry above 23, an unknown kind, a feed above 7 of a CAPTURE or
CODED window, and where an argument check fails, those of R8: multiples of 64, size and end, entry 0 for
COMMAND alone, the sizes of a kind and of a READY feed, one window of a kind and feed, and no line shared
with another entry's window where one of the two is part-owned; then with BUSY, BUSY or HELD by the checks
of R9 in order. One that passes gives the entry the window; a new REPORT window starts its ring afresh
(R30); a CODED window that fills an entry or becomes the entry's in place of another discards its feed's
unit list, and one that is replaced its own feed's: the old window's first, each once, after a new report
ring has started, DISCARDED being asked for before the RESULT (R91; these orders: DESIGN CHOICE, log 7).
WINDOW CLEAR of entry 0 or above 23 is refused with BAD_ARG, of an empty entry it changes nothing, and of
another it is refused by R9 with the window as the old one, or empties the entry, discarding the unit list
with a CODED window (R10). Discarding leaves the list empty and the head 0, the next sequence as it was,
and the other feeds' rings as they were (R91). -/
def Obligations.WindowTable : Prop :=
  (∀ (h : CmdHead) (entry kind feed : Byte) (base size : BitVec 64) (s : State) (e : Fin 24)
     (w : Window),
     takes (.windowSet h entry kind feed base size) s = true → entryOf entry = some e →
     windowOf kind feed base.toNat size.toNat = some w → windowArgsOk s.chip e w = true →
     windowState s.chip s.chip.mem.windows[e] (some w) = none →
     (w.kind ≠ .coded → w.kind ≠ .report →
       (∀ v, s.chip.mem.windows[e] = some v → v.kind ≠ .coded) →
       exec (.windowSet h entry kind feed base size) s =
         .next (s.taken (completedBy 0x01 h .done []
           { s.chip with mem.windows := s.chip.mem.windows.set e (some w) }))) ∧
     (w.kind = .report → (∀ v, s.chip.mem.windows[e] = some v → v.kind ≠ .coded) →
       exec (.windowSet h entry kind feed base size) s =
         .next (s.taken (completedBy 0x01 h .done []
           { s.chip with
             mem.windows := s.chip.mem.windows.set e (some w)
             cmd.consumer := s.chip.cmd.producer
             cmd.overfull := false
             cmd.lost := 0 }))) ∧
     (∀ f, w.kind = .coded → w.feed = some f →
       (s.chip.mem.windows[e] = none ∨
         ∃ v, s.chip.mem.windows[e] = some v ∧ (v.kind ≠ .coded ∨ v.feed = some f)) →
       exec (.windowSet h entry kind feed base size) s =
         .next (s.taken (completedBy 0x01 h .done []
           (serveIfNew s.chip
             (discardList f
               { s.chip with mem.windows := s.chip.mem.windows.set e (some w) }))))) ∧
     (∀ v f, s.chip.mem.windows[e] = some v → v.kind = .coded → v.feed = some f →
       (w.kind ≠ .coded → w.kind ≠ .report →
         exec (.windowSet h entry kind feed base size) s =
           .next (s.taken (completedBy 0x01 h .done []
             (serveIfNew s.chip
               (discardList f
                 { s.chip with mem.windows := s.chip.mem.windows.set e (some w) }))))) ∧
       (w.kind = .report →
         exec (.windowSet h entry kind feed base size) s =
           .next (s.taken (completedBy 0x01 h .done []
             (serveIfNew s.chip
               (discardList f
                 { s.chip with
                   mem.windows := s.chip.mem.windows.set e (some w)
                   cmd.consumer := s.chip.cmd.producer
                   cmd.overfull := false
                   cmd.lost := 0 }))))) ∧
       (∀ g, w.kind = .coded → w.feed = some g → g ≠ f →
         exec (.windowSet h entry kind feed base size) s =
           .next (s.taken (completedBy 0x01 h .done []
             (serveIfNew s.chip
               (discardList g
                 (discardList f
                   { s.chip with mem.windows := s.chip.mem.windows.set e (some w) })))))))) ∧
  (∀ (h : CmdHead) (entry kind feed : Byte) (base size : BitVec 64) (s : State),
     takes (.windowSet h entry kind feed base size) s = true →
     ((23 < entry.toNat ∨ 5 < kind.toNat ∨ (kind = 1 ∨ kind = 3) ∧ 7 < feed.toNat) →
       exec (.windowSet h entry kind feed base size) s =
         .next (s.taken (refusedBy 0x01 h .badArg s.chip))) ∧
     (∀ e w, entryOf entry = some e → windowOf kind feed base.toNat size.toNat = some w →
       (windowArgsOk s.chip e w = false →
         exec (.windowSet h entry kind feed base size) s =
           .next (s.taken (refusedBy 0x01 h .badArg s.chip))) ∧
       (∀ r, windowArgsOk s.chip e w = true →
         windowState s.chip s.chip.mem.windows[e] (some w) = some r →
         exec (.windowSet h entry kind feed base size) s =
           .next (s.taken (refusedBy 0x01 h r s.chip))))) ∧
  (∀ (feed : Byte) (base size : Nat),
     windowOf 0 feed base size = some { base := base, size := size, kind := .command, feed := none } ∧
     windowOf 2 feed base size = some { base := base, size := size, kind := .audioIn, feed := none } ∧
     windowOf 4 feed base size = some { base := base, size := size, kind := .mixOut, feed := none } ∧
     windowOf 5 feed base size = some { base := base, size := size, kind := .report, feed := none } ∧
     ∀ f : Fin 8, feed.toNat = f.val →
       windowOf 1 feed base size =
         some { base := base, size := size, kind := .capture, feed := some f } ∧
       windowOf 3 feed base size =
         some { base := base, size := size, kind := .coded, feed := some f }) ∧
  (∀ (c : Chip) (e : Fin 24) (w : Window), windowArgsOk c e w = true ↔
     w.base % 64 = 0 ∧ w.size % 64 = 0 ∧ 64 ≤ w.size ∧ w.size ≤ 4294967296 ∧
     w.base + w.size ≤ 68719476736 ∧ (e = 0 ↔ w.kind = .command) ∧
     (w.kind = .audioIn → w.size = 98304) ∧ (w.kind = .mixOut → w.size = 25600) ∧
     (w.kind = .report → 4096 ≤ w.size ∧ w.size ≤ 262144) ∧
     (∀ f, w.feed = some f → c.feeds[f].state = .ready →
       (w.kind = .capture →
         c.feeds[f].cfg.slots * (slotLinesOf c.feeds[f].cfg.format * 64) ≤ w.size) ∧
       (w.kind = .coded → 8 * c.feeds[f].cfg.maxUnit ≤ w.size)) ∧
     (∀ (i : Fin 24) (v : Window), i ≠ e → c.mem.windows[i] = some v →
       (v.kind ≠ w.kind ∨ v.feed ≠ w.feed) ∧
       ((partOwned v.kind = true ∨ partOwned w.kind = true) →
         v.base + v.size ≤ w.base ∨ w.base + w.size ≤ v.base))) ∧
  (∀ (c : Chip) (old new : Option Window) (busy holds : Prop),
     (busy ↔ ∃ v, (old = some v ∨ new = some v) ∧
       ((v.kind = .capture ∨ v.kind = .coded) ∧
           (∃ f, v.feed = some f ∧
             (c.feeds[f].state = .running ∨ c.feeds[f].state = .stopping)) ∨
         (v.kind = .audioIn ∨ v.kind = .mixOut) ∧ c.mixer.running = true)) →
     (holds ↔ ∃ v f, old = some v ∧ v.kind = .coded ∧ v.feed = some f ∧
       ∃ k ∈ c.clips.list, holding k.state = true ∧
         ∃ u ∈ c.rings[f].units, u.complete = true ∧
           ∃ x ∈ k.feeds, x.feed = f ∧ spanIncludes x u.seq = true) →
     (windowState c old new = some .busy ↔ busy) ∧
     (windowState c old new = some .held ↔ ¬busy ∧ holds) ∧
     (windowState c old new = none ↔ ¬busy ∧ ¬holds)) ∧
  (∀ (h : CmdHead) (entry : Byte) (s : State), takes (.windowClear h entry) s = true →
     ((entry = 0 ∨ 23 < entry.toNat) →
       exec (.windowClear h entry) s = .next (s.taken (refusedBy 0x02 h .badArg s.chip))) ∧
     (∀ e : Fin 24, entry.toNat = e.val → e ≠ 0 →
       (∀ v r, s.chip.mem.windows[e] = some v → windowState s.chip (some v) none = some r →
         exec (.windowClear h entry) s = .next (s.taken (refusedBy 0x02 h r s.chip))) ∧
       (s.chip.mem.windows[e] = none →
         exec (.windowClear h entry) s = .next (s.taken (completedBy 0x02 h .done [] s.chip))) ∧
       (∀ v, s.chip.mem.windows[e] = some v → windowState s.chip (some v) none = none →
         (v.kind ≠ .coded →
           exec (.windowClear h entry) s =
             .next (s.taken (completedBy 0x02 h .done []
               { s.chip with mem.windows := s.chip.mem.windows.set e none }))) ∧
         (∀ f, v.kind = .coded → v.feed = some f →
           exec (.windowClear h entry) s =
             .next (s.taken (completedBy 0x02 h .done []
               (serveIfNew s.chip
                 (discardList f
                   { s.chip with mem.windows := s.chip.mem.windows.set e none })))))))) ∧
  (∀ (f : Fin 8) (c : Chip),
     (discardList f c).rings[f].units = [] ∧ (discardList f c).rings[f].head = 0 ∧
     (discardList f c).rings[f].nextSeq = c.rings[f].nextSeq ∧
     ∀ g : Fin 8, g ≠ f → (discardList f c).rings[g] = c.rings[g])

/-! ### Commands and reports -/

/-- A command line of unknown kind is refused with BAD_KIND and the kind as written (R20, R184). The RESULT
names the HOST as its source with line byte 0xFF (DEDUCED, log 11). -/
def Obligations.UnknownKindRefused : Prop :=
  ∀ (h : CmdHead) (kind : BitVec 16) (s : State),
    wellFormed (.unknownKindCommand h kind) = true → takes (.unknownKindCommand h kind) s = true →
    ∃ t, exec (.unknownKindCommand h kind) s = .next t ∧
      t = s.taken (askReport .result
        (reportBody 0 (le16 h.tag ++ le16 kind ++ [0, 0xFF, 1, 4])) s.chip) ∧
      ReportOnly s.chip t.chip ∧ t.chip.cmd.pendingSet.getLsbD 1 = true

/-- A report that finds room takes index p and line p mod N, makes its cause pending, and stands as one own
write of the whole line in the staging list or the own-write buffer, its bytes from 12 on those asked for
and 0 after them (section 11.2, R185). One that finds no room is lost: it takes no index, the lost count
rises, stopping at 65535, the overfull mark is set, its cause stands pending, and cause REPORTS with it
when the mark is first set (R29, R32, R33). -/
def Obligations.ReportPlacedOrLost : Prop :=
  (∀ (k : ReportKind) (x : Cause) (body : List Byte) (c : Chip) (w : Window),
     reportCause k = some x → reportWindow c = some w →
     c.cmd.overfull = false → occupancy c < ringLines w → c.cmd.staging.length < 8 →
     (askReport k body c).cmd.producer = c.cmd.producer + 1 ∧
     (askReport k body c).cmd.pendingSet.getLsbD (causeCode x) = true ∧
     ∃ own ∈ (askReport k body c).mem.buffer ++ (askReport k body c).cmd.staging,
       own.addr = w.base + c.cmd.producer.toNat % ringLines w * 64 ∧ own.mask = fullMask ∧
       word32 own.data 0 = c.cmd.producer ∧ word32 own.data 8 = c.timing.count ∧
       lineByte own.data 4 = byteOf (reportCode k) ∧ lineByte own.data 5 = byteOf (causeCode x) ∧
       ∀ i, 12 ≤ i → i < 64 → lineByte own.data i = body.getD (i - 12) 0) ∧
  (∀ (k : ReportKind) (x : Cause) (body : List Byte) (c : Chip) (w : Window),
     reportCause k = some x → reportWindow c = some w →
     (c.cmd.overfull = true ∨ ringLines w ≤ occupancy c ∨ 8 ≤ c.cmd.staging.length) →
     (askReport k body c).cmd.producer = c.cmd.producer ∧
     (askReport k body c).mem.buffer = c.mem.buffer ∧
     (askReport k body c).cmd.overfull = true ∧
     (askReport k body c).cmd.lost = min 65535 (c.cmd.lost + 1) ∧
     (askReport k body c).cmd.pendingSet.getLsbD (causeCode x) = true ∧
     (c.cmd.overfull = false → (askReport k body c).cmd.pendingSet.getLsbD 7 = true))

/-- The attention line is asserted exactly when some cause is both pending and enabled; ATTENTION SET
replaces the enable set, ATTENTION CLEAR removes one cause from the pending set and is refused with
BAD_ARG above 7 (R34). -/
def Obligations.AttentionCommands : Prop :=
  (∀ c : Chip, c.attention = true ↔
    ∃ n, n < 8 ∧ c.cmd.pendingSet.getLsbD n = true ∧ c.cmd.enableSet.getLsbD n = true) ∧
  (∀ (h : CmdHead) (causes : Byte) (s : State), takes (.attentionSet h causes) s = true →
    exec (.attentionSet h causes) s =
      .next (s.taken (completedBy 0x61 h .done [] { s.chip with cmd.enableSet := causes }))) ∧
  (∀ (h : CmdHead) (cause : Byte) (s : State), takes (.attentionClear h cause) s = true →
    (7 < cause.toNat →
      exec (.attentionClear h cause) s = .next (s.taken (refusedBy 0x62 h .badArg s.chip))) ∧
    (cause.toNat ≤ 7 →
      ∃ d : Chip, exec (.attentionClear h cause) s = .next (s.taken (completedBy 0x62 h .done [] d)) ∧
        d = { s.chip with cmd.pendingSet := d.cmd.pendingSet } ∧
        ∀ n, n < 8 → d.cmd.pendingSet.getLsbD n =
          (s.chip.cmd.pendingSet.getLsbD n && decide (n ≠ cause.toNat))))

/-- REPORTS TAKEN: NOT_READY without a REPORT window, BAD_ARG outside c to p, else the consumer index becomes
c' (R31); with the ring not overfull nothing else changes. On an overfull ring that then has a free line
and room in the staging list the period ends: mark and count are cleared and OVERFLOW with the count is
asked for before the command's RESULT; without that room the period goes on (R31, R32). FENCE completes at
once when nothing is in flight, joins the list with every entry as its wait set otherwise, and is refused
with LIMIT while 8 stand (R22, R24). An entry that ends leaves the list and every wait set and asks for
its RESULT if its report-always flag is set, RESTART always (R23). When the entry on an object completes,
with no FENCE in flight nothing more happens; a FENCE that waits for it alone completes after it, its
RESULT after the entry's. In general, with no two entries of one name: no FENCE with an empty wait set
remains, a FENCE whose wait set was that entry leaves, with COMMAND pending if it reports always, a FENCE
that waits for another entry that stands stays, every entry that is no FENCE stays, and what stays has its
fields but for the wait set (R24). -/
def Obligations.ReportsTakenAndFence : Prop :=
  (∀ (h : CmdHead) (index : Count32) (s : State), takes (.reportsTaken h index) s = true →
     (reportWindow s.chip = none →
       exec (.reportsTaken h index) s = .next (s.taken (refusedBy 0x60 h .notReady s.chip))) ∧
     (∀ w, reportWindow s.chip = some w →
       (s.chip.cmd.producer - s.chip.cmd.consumer).toNat < (index - s.chip.cmd.consumer).toNat →
       exec (.reportsTaken h index) s = .next (s.taken (refusedBy 0x60 h .badArg s.chip))) ∧
     (∀ w, reportWindow s.chip = some w → s.chip.cmd.overfull = false →
       (index - s.chip.cmd.consumer).toNat ≤ (s.chip.cmd.producer - s.chip.cmd.consumer).toNat →
       exec (.reportsTaken h index) s =
         .next (s.taken (completedBy 0x60 h .done []
           { s.chip with cmd.consumer := index }))) ∧
     (∀ w, reportWindow s.chip = some w → s.chip.cmd.overfull = true →
       (index - s.chip.cmd.consumer).toNat ≤ (s.chip.cmd.producer - s.chip.cmd.consumer).toNat →
       ((s.chip.cmd.producer - index).toNat < w.size / 64 → s.chip.cmd.staging.length < 8 →
         exec (.reportsTaken h index) s =
           .next (s.taken (completedBy 0x60 h .done []
             (askReport .overflow (reportBody 0 (leNat16 s.chip.cmd.lost))
               { s.chip with cmd.consumer := index, cmd.overfull := false, cmd.lost := 0 })))) ∧
       ((w.size / 64 ≤ (s.chip.cmd.producer - index).toNat ∨ 8 ≤ s.chip.cmd.staging.length) →
         exec (.reportsTaken h index) s =
           .next (s.taken (completedBy 0x60 h .done []
             { s.chip with cmd.consumer := index }))))) ∧
  (∀ (h : CmdHead) (s : State), takes (.fence h) s = true →
     (s.chip.cmd.inflight = [] →
       exec (.fence h) s = .next (s.taken (completedBy 0x70 h .done [] s.chip))) ∧
     (8 ≤ s.chip.cmd.inflight.countP (fun e => e.object == .fence) →
       exec (.fence h) s = .next (s.taken (refusedBy 0x70 h .limit s.chip))) ∧
     (s.chip.cmd.inflight ≠ [] →
       s.chip.cmd.inflight.countP (fun e => e.object == .fence) < 8 →
       exec (.fence h) s =
         .next (s.taken
           { s.chip with
             cmd.nextEntry := s.chip.cmd.nextEntry + 1
             cmd.inflight := s.chip.cmd.inflight ++
               [{ ident := s.chip.cmd.nextEntry, kind := 0x70, tag := h.tag, always := h.always,
                  object := .fence, waits := s.chip.cmd.inflight.map (·.ident) }] }))) ∧
  (∀ (e : InFlight) (payload : List Byte) (c d : Chip),
     d = { c with
       cmd.inflight := (c.cmd.inflight.filter (fun x => x.ident != e.ident)).map fun x =>
         { x with waits := x.waits.filter fun i => i != e.ident } } →
     (e.always = false → e.object ≠ .whole → endEntry e .done payload c = d) ∧
     ((e.always = true ∨ e.object = .whole) →
       endEntry e .done payload c = askResult e.kind e.tag .host .done payload d)) ∧
  (∀ (o : Object) (payload : List Byte) (c : Chip),
     (c.cmd.inflight.find? (fun e => e.object == o) = none → finishObject o payload c = c) ∧
     (∀ e, c.cmd.inflight.find? (fun x => x.object == o) = some e →
       ((∀ x ∈ c.cmd.inflight, x.object ≠ .fence) →
         finishObject o payload c = endEntry e .done payload c) ∧
       (∀ x ∈ c.cmd.inflight, (c.cmd.inflight.map (·.ident)).Nodup → e.object ≠ .fence →
         x.object = .fence → x.waits = [e.ident] →
         (∀ y ∈ c.cmd.inflight, y.object = .fence → y = x) →
         finishObject o payload c = endEntry x .done [] (endEntry e .done payload c)) ∧
       ((c.cmd.inflight.map (·.ident)).Nodup →
         (∀ y ∈ (finishObject o payload c).cmd.inflight,
           (y.object = .fence → y.waits ≠ []) ∧ y.ident ≠ e.ident ∧
           ∃ x ∈ c.cmd.inflight, y = { x with waits := y.waits } ∧
             y.waits.Sublist (x.waits.filter fun i => i != e.ident)) ∧
         (∀ x ∈ c.cmd.inflight, x.ident ≠ e.ident →
           (x.object ≠ .fence →
             x.ident ∈ (finishObject o payload c).cmd.inflight.map (·.ident)) ∧
           (x.object = .fence → (∀ i ∈ x.waits, i = e.ident) →
             x.ident ∉ (finishObject o payload c).cmd.inflight.map (·.ident) ∧
             (x.always = true → (finishObject o payload c).cmd.pendingSet.getLsbD 1 = true)) ∧
           (x.object = .fence →
             (∃ i ∈ x.waits, i ≠ e.ident ∧
               ∀ z ∈ c.cmd.inflight, z.object = .fence → z.ident ≠ i) →
             x.ident ∈ (finishObject o payload c).cmd.inflight.map (·.ident))))))

/-- RESTART: taken, it empties the intake queue and leaves every feed IDLE or READY with no picture in
hand, no coding, no RESERVED record, no live membership, a STOPPED mixer, an empty mark stack, no trim
session, empty AUDIO, LIVE and CLIP queues and return list, every enabled path TRAINING, and no other
command in flight; the window table, DRAM and house timing are kept (R17, R26, R27, R54, R75, R94,
R116, R133, R152, R168, R183). -/
def Obligations.RestartLeaves : Prop :=
  ∀ (h : CmdHead) (s : State), takes (.restart h) s = true →
    ∃ t, exec (.restart h) s = .next t ∧ t.intake = [] ∧ t.dram = s.dram ∧
      t.chip.mem.windows = s.chip.mem.windows ∧ t.chip.timing = s.chip.timing ∧
      (∀ f : Fin 8, (t.chip.feeds[f].state = .idle ∨ t.chip.feeds[f].state = .ready) ∧
        t.chip.feeds[f].pics = [] ∧ t.chip.feeds[f].freeBuffers = 4 ∧
        t.chip.feeds[f].cfg = s.chip.feeds[f].cfg ∧ t.chip.feeds[f].q = s.chip.feeds[f].q) ∧
      t.chip.coder.queue = [] ∧ t.chip.coder.op = none ∧
      (∀ f : Fin 8, (∀ u ∈ t.chip.rings[f].units, u.complete = true ∧ u.live = false) ∧
        t.chip.rings[f].nextSeq = s.chip.rings[f].nextSeq) ∧
      t.chip.mixer.running = false ∧ t.chip.mixer.mix = none ∧ t.chip.mixer.fireQ = [] ∧
      t.chip.mixer.inputs = s.chip.mixer.inputs ∧ t.chip.mixer.scenes = s.chip.mixer.scenes ∧
      t.chip.tally.stack = [] ∧ t.chip.clips.trim = none ∧
      t.chip.sched.audio = [] ∧ t.chip.sched.live = [] ∧ t.chip.sched.clipQ = [] ∧
      t.chip.sched.returns = [] ∧ t.chip.sched.seq = s.chip.sched.seq ∧
      (∀ p : Fin 4, (s.chip.paths[p].state = .disabled → t.chip.paths[p].state = .disabled) ∧
        (s.chip.paths[p].state ≠ .disabled → t.chip.paths[p].state = .training) ∧
        t.chip.paths[p].hostCap = s.chip.paths[p].hostCap) ∧
      (∀ e ∈ t.chip.cmd.inflight, e.object = .whole)

/-- STATUS_SECOND_TIMER: the STATUS report is asked for and every late-write and incomplete-band mark is
cleared; each path is DEGRADED exactly when it counted more than 16 errors, and its count is 0 (R35, R162;
STATUS before the DEGRADED reports, these by path: DESIGN CHOICE, log 7). -/
def Obligations.StatusSecond : Prop :=
  ∀ s : State, s.chip.resetHeld = false →
    ∃ t, exec .statusSecondTimer s = .next t ∧ t.dram = s.dram ∧ t.intake = s.intake ∧
      (∀ f : Fin 8, t.chip.feeds[f] =
        { s.chip.feeds[f] with lateMark := false, incMark := false }) ∧
      (∀ p : Fin 4, t.chip.paths[p] =
        { s.chip.paths[p] with errors := 0, degraded := decide (16 < s.chip.paths[p].errors) }) ∧
      t.chip.sched = s.chip.sched ∧ t.chip.mixer = s.chip.mixer ∧ t.chip.tally = s.chip.tally ∧
      t.chip.clips = s.chip.clips ∧ t.chip.timing = s.chip.timing ∧
      (∀ w, reportWindow s.chip = some w → s.chip.cmd.overfull = false →
        occupancy s.chip < ringLines w → s.chip.cmd.staging.length < 8 →
        ∃ own ∈ t.chip.mem.buffer ++ t.chip.cmd.staging,
          own.addr = w.base + s.chip.cmd.producer.toNat % ringLines w * 64 ∧
          word32 own.data 0 = s.chip.cmd.producer ∧ lineByte own.data 4 = 10)

/-! ### Feeds and capture -/

/-- A tapped host write into a feed's CAPTURE window (R39 to R47). RUNNING, into the current slot: at or one
past the base, an OPEN band stores it, the missing bytes 0; a WAITING band opens with a free buffer or
becomes SHORT without one; a SHORT band drops it; a closed band, or no current picture, sets the
late-write mark; a dropped picture passes it over. RUNNING, into another slot: an open current picture is
abandoned, the slot becomes the current one, a picture begins in it or is dropped, and the write is
gathered. STOPPING: every write restarts the silence timer (whatever becomes of it: DEDUCED, log 21); one
into another slot abandons the open picture and leaves no current slot. IDLE or READY, or past the slots:
forwarded alone. A serve comes after the write's own effects and reports (DESIGN CHOICE, log 7). RUNNING
or STOPPING, the last missing line of an OPEN band closes it COMPLETE with no mark set; a write two past
the base closes the base by force, and one further up every band below it down to the base: OPEN and SHORT
bands become INCOMPLETE, WAITING ones EMPTY, closed ones stay, the incomplete-band mark is set, and the
write is then gathered in its WAITING band. The base moves to the lowest band not closed, and while the
coder works each band closed with a buffer joins the coding queue's tail, in band order (R45 to R48). -/
def Obligations.CaptureWrites : Prop :=
  ∀ (addr : BitVec 36) (data : Line) (mask : Mask) (s : State) (e : Fin 24) (w : Window) (f : Fin 8),
    s.chip.resetHeld = false → mask ≠ 0 → classify s.chip (lineAddr addr) = some (e, w) →
    w.kind = .capture → w.feed = some f →
    ∀ (slot x o : Nat) (format : Format) (d : Chip) (r : Feed),
    format = s.chip.feeds[f].cfg.format →
    slot = lineOffset w (lineAddr addr) / slotLinesOf format →
    x = lineOffset w (lineAddr addr) % slotLinesOf format / bandLinesOf format →
    o = lineOffset w (lineAddr addr) % slotLinesOf format % bandLinesOf format →
    d = forward (.write (lineAddr addr) data mask) s.chip → r = s.chip.feeds[f] →
    ((r.state = .idle ∨ r.state = .ready ∨
        r.cfg.slots * slotLinesOf format ≤ lineOffset w (lineAddr addr)) →
      exec (.hostWrite addr data mask) s = .next { s with chip := d }) ∧
    (r.state = .running → lineOffset w (lineAddr addr) < r.cfg.slots * slotLinesOf format →
      (∀ ident p b, r.curSlot = some slot → r.cur = .present ident →
        findPic s.chip f ident = some p → p.bands[x]? = some b →
        (closedState b.state = true →
          exec (.hostWrite addr data mask) s =
            .next { s with chip := setFeed d f { r with lateMark := true } }) ∧
        (x ≤ p.base + 1 →
          (b.state = .opened → (storeLine b.lines o data mask).length < bandLinesOf format →
            exec (.hostWrite addr data mask) s =
              .next { s with
                chip := setBand f ident x { b with lines := storeLine b.lines o data mask } d }) ∧
          (b.state = .waiting → r.freeBuffers = 0 →
            exec (.hostWrite addr data mask) s =
              .next { s with chip := setBand f ident x { b with state := .short } d }) ∧
          (b.state = .waiting → b.lines = [] → 0 < r.freeBuffers →
            exec (.hostWrite addr data mask) s =
              .next { s with
                chip := setBand f ident x
                  { b with
                    state := .opened, hasBuffer := true,
                    lines := [(o, mergeLine zeroLine data mask)] }
                  (setFeed d f { r with freeBuffers := r.freeBuffers - 1 }) }) ∧
          (b.state = .short → exec (.hostWrite addr data mask) s = .next { s with chip := d }))) ∧
      (r.curSlot ≠ some slot → openPicture s.chip f = none →
        ∃ t, exec (.hostWrite addr data mask) s = .next t ∧ t.dram = s.dram ∧ t.intake = s.intake ∧
          t.chip.feeds[f].state = .running ∧ t.chip.feeds[f].curSlot = some slot ∧
          t.chip.feeds[f].cur =
            (match (requestRegion s.chip f).1.start with
            | some _ => .present s.chip.coder.picCount
            | none => .dropped) ∧
          t.chip.mem.hostQ = s.chip.mem.hostQ ++ [.write (lineAddr addr) data mask]) ∧
      (∀ a g, r.curSlot ≠ some slot → a = abandon f d →
        g = beginPicture f slot (setFeed a f { a.feeds[f] with curSlot := some slot }) →
        exec (.hostWrite addr data mask) s =
          .next { s with
            chip := serveIfNew s.chip
              (match g.feeds[f].cur with
              | .present ident => gather f ident x o data mask g
              | .none | .dropped => g) }) ∧
      (r.curSlot = some slot → r.cur = .dropped →
        exec (.hostWrite addr data mask) s = .next { s with chip := d }) ∧
      (r.curSlot = some slot → r.cur = .none →
        exec (.hostWrite addr data mask) s =
          .next { s with chip := setFeed d f { r with lateMark := true } })) ∧
    (r.state = .stopping → lineOffset w (lineAddr addr) < r.cfg.slots * slotLinesOf format →
      (r.curSlot = some slot → r.cur = .none →
        exec (.hostWrite addr data mask) s =
          .next { s with chip := setFeed d f { r with silence := some 2, lateMark := true } }) ∧
      (r.curSlot = some slot → r.cur = .dropped →
        exec (.hostWrite addr data mask) s =
          .next { s with chip := setFeed d f { r with silence := some 2 } }) ∧
      (∀ ident p b, r.curSlot = some slot → r.cur = .present ident →
        findPic s.chip f ident = some p → p.bands[x]? = some b → x ≤ p.base + 1 →
        b.state = .opened → (storeLine b.lines o data mask).length < bandLinesOf format →
        exec (.hostWrite addr data mask) s =
          .next { s with
            chip := setBand f ident x { b with lines := storeLine b.lines o data mask }
              (setFeed d f { r with silence := some 2 }) }) ∧
      (∀ a, r.curSlot ≠ some slot → a = abandon f (setFeed d f { r with silence := some 2 }) →
        exec (.hostWrite addr data mask) s =
          .next { s with
            chip := serveIfNew s.chip (setFeed a f { a.feeds[f] with curSlot := none }) })) ∧
    (openPicture s.chip f = none → abandon f d = d) ∧
    (∀ p, openPicture s.chip f = some p → (abandon f d).feeds[f].cur = .none ∧
      ∃ q, findPic (abandon f d) f p.ident = some q ∧ q.abandoned = true ∧
        ∀ b ∈ q.bands, closedState b.state = true) ∧
    ((r.state = .running ∨ r.state = .stopping) →
      lineOffset w (lineAddr addr) < r.cfg.slots * slotLinesOf format →
      ∀ ident p b, r.curSlot = some slot → r.cur = .present ident →
      findPic s.chip f ident = some p → p.bands[x]? = some b →
      (x ≤ p.base + 1 → b.state = .opened →
        bandLinesOf format ≤ (storeLine b.lines o data mask).length →
        ∃ t q, exec (.hostWrite addr data mask) s = .next t ∧ t.dram = s.dram ∧
          t.intake = s.intake ∧
          t.chip.mem.hostQ = s.chip.mem.hostQ ++ [.write (lineAddr addr) data mask] ∧
          t.chip.feeds[f].curSlot = r.curSlot ∧ t.chip.feeds[f].cur = r.cur ∧
          t.chip.feeds[f].incMark = r.incMark ∧ t.chip.feeds[f].lateMark = r.lateMark ∧
          findPic t.chip f ident = some q ∧ q.base = lowestOpen q.bands ∧
          q.bands = p.bands.set x
            { b with
              state := .complete, lines := storeLine b.lines o data mask,
              closeEvent := s.chip.coder.closeCount } ∧
          t.chip.coder.closeCount = s.chip.coder.closeCount + 1 ∧
          (s.chip.coder.op.isSome = true →
            t.chip.coder.queue = s.chip.coder.queue ++
              if b.hasBuffer = true then
                [{ feed := f, pic := ident, band := x, closeEvent := s.chip.coder.closeCount }]
              else [])) ∧
      (∀ u, p.base + 2 ≤ x → b.state = .waiting → b.lines = [] →
        p.bands[p.base]? = some u → closedState u.state = false →
        ∃ t q, exec (.hostWrite addr data mask) s = .next t ∧ t.dram = s.dram ∧
          t.intake = s.intake ∧
          t.chip.mem.hostQ = s.chip.mem.hostQ ++ [.write (lineAddr addr) data mask] ∧
          t.chip.feeds[f].curSlot = r.curSlot ∧ t.chip.feeds[f].cur = r.cur ∧
          t.chip.feeds[f].incMark = true ∧ t.chip.feeds[f].lateMark = r.lateMark ∧
          t.chip.feeds[f].freeBuffers = r.freeBuffers - 1 ∧
          findPic t.chip f ident = some q ∧ q.base = lowestOpen q.bands ∧
          q.bands[x]? = some
            (if 0 < r.freeBuffers then
              { b with
                state := .opened, hasBuffer := true, lines := [(o, mergeLine zeroLine data mask)] }
            else { b with state := .short }) ∧
          (∀ i z, i ≠ x → p.bands[i]? = some z → ∃ v, q.bands[i]? = some v ∧
            (forcedBy p.base x i = false → v = z) ∧
            (forcedBy p.base x i = true → v =
              { z with
                state :=
                  if z.state = .opened ∨ z.state = .short then .incomplete
                  else if z.state = .waiting then .empty else z.state
                closeEvent := v.closeEvent })) ∧
          (s.chip.coder.op.isSome = true →
            t.chip.coder.queue.map (fun y => (y.feed, y.pic, y.band)) =
              s.chip.coder.queue.map (fun y => (y.feed, y.pic, y.band)) ++
                ((List.range x).filter fun i =>
                  forcedBy p.base x i &&
                    p.bands[i]?.any fun z => !closedState z.state && z.hasBuffer).map
                  fun i => (f, ident, i))))

/-- FEED CONFIG makes the checks of R37 in order and is refused by the first that fails: with BAD_ARG for a
feed above 7; with BUSY for a FEED STOP of the feed in flight (R22) and for a RUNNING or STOPPING feed;
with BAD_ARG for a field outside its range or a flag that is not 0 or 1 (R184); with NOT_READY where the
table holds no CAPTURE or no CODED window of the feed; with BAD_ARG where M is below the format's minimum,
the CODED window is smaller than 8 M or the CAPTURE window smaller than its slots; with HELD where M
changes on a READY feed of which a clip in a holding state holds a unit. One that passes: the feed becomes
READY with the configuration the command gives and its running fields untouched; a READY feed whose M
changes has its unit list discarded (R91), DISCARDED before the command's RESULT (DESIGN CHOICE, log 7).
-/
def Obligations.FeedConfigured : Prop :=
  (∀ (h : CmdHead) (a : FeedConfigArgs) (s : State) (f : Fin 8) (g : FeedConfig) (x y : Nat),
    takes (.feedConfig h a) s = true → index8 a.feed = some f →
    inFlight (.feed f) s.chip = false → active s.chip f = false → feedConfigOf a = some g →
    windowSize s.chip .capture f = some x → windowSize s.chip .coded f = some y →
    sizesOk g x y = true →
    ((s.chip.feeds[f].state = .ready → s.chip.feeds[f].cfg.maxUnit = g.maxUnit) →
      exec (.feedConfig h a) s =
        .next (s.taken (completedBy 0x10 h .done []
          (setFeed s.chip f { s.chip.feeds[f] with state := .ready, cfg := g })))) ∧
    (s.chip.feeds[f].state = .ready → s.chip.feeds[f].cfg.maxUnit ≠ g.maxUnit →
      (feedHeld s.chip f = true →
        exec (.feedConfig h a) s = .next (s.taken (refusedBy 0x10 h .held s.chip))) ∧
      (feedHeld s.chip f = false →
        exec (.feedConfig h a) s =
          .next (s.taken (completedBy 0x10 h .done []
            (serveIfNew s.chip
              (discardList f
                (setFeed s.chip f { s.chip.feeds[f] with state := .ready, cfg := g })))))))) ∧
  (∀ (h : CmdHead) (a : FeedConfigArgs) (s : State), takes (.feedConfig h a) s = true →
    (7 < a.feed.toNat →
      exec (.feedConfig h a) s = .next (s.taken (refusedBy 0x10 h .badArg s.chip))) ∧
    (∀ f : Fin 8, a.feed.toNat = f.val →
      ((inFlight (.feed f) s.chip = true ∨ s.chip.feeds[f].state = .running ∨
          s.chip.feeds[f].state = .stopping) →
        exec (.feedConfig h a) s = .next (s.taken (refusedBy 0x10 h .busy s.chip))) ∧
      (inFlight (.feed f) s.chip = false → s.chip.feeds[f].state ≠ .running →
        s.chip.feeds[f].state ≠ .stopping →
        (feedConfigOf a = none →
          exec (.feedConfig h a) s = .next (s.taken (refusedBy 0x10 h .badArg s.chip))) ∧
        (∀ g, feedConfigOf a = some g →
          ((windowSize s.chip .capture f = none ∨ windowSize s.chip .coded f = none) →
            exec (.feedConfig h a) s = .next (s.taken (refusedBy 0x10 h .notReady s.chip))) ∧
          (∀ x y, windowSize s.chip .capture f = some x → windowSize s.chip .coded f = some y →
            sizesOk g x y = false →
            exec (.feedConfig h a) s = .next (s.taken (refusedBy 0x10 h .badArg s.chip))))))) ∧
  (∀ a : FeedConfigArgs,
    ((feedConfigOf a).isSome = true ↔
      a.format.toNat ≤ 2 ∧ a.mode.toNat ≤ 1 ∧ a.recorder.toNat ≤ 1 ∧ a.autoLog.toNat ≤ 1 ∧
      a.qMin.toNat ≤ 7 ∧ a.qMax.toNat ≤ 7 ∧ a.qRec.toNat ≤ 7 ∧ a.qMin.toNat ≤ a.qMax.toNat ∧
      1 ≤ a.weight.toNat ∧ a.weight.toNat ≤ 15 ∧ 500 ≤ a.rateMin.toNat ∧
      a.rateMax.toNat ≤ 200000 ∧ a.rateMin.toNat ≤ a.rateMax.toNat ∧
      2 ≤ a.slots.toNat ∧ a.slots.toNat ≤ 4) ∧
    ∀ g, feedConfigOf a = some g →
      (a.format = 0 ∧ g.format = .sd ∨ a.format = 1 ∧ g.format = .hd720 ∨
        a.format = 2 ∧ g.format = .hd1080) ∧
      (a.mode = 0 ∧ g.mode = .live ∨ a.mode = 1 ∧ g.mode = .record) ∧
      g.recorder = decide (a.recorder = 1) ∧ g.autoLog = decide (a.autoLog = 1) ∧
      g.qMin = a.qMin.toNat ∧ g.qMax = a.qMax.toNat ∧ g.qRec = a.qRec.toNat ∧
      g.weight = a.weight.toNat ∧ g.rateMin = a.rateMin.toNat ∧ g.rateMax = a.rateMax.toNat ∧
      g.maxUnit = a.maxUnit.toNat ∧ g.slots = a.slots.toNat) ∧
  (∀ (g : FeedConfig) (x y : Nat), sizesOk g x y = true ↔
    (g.format = .sd → 4168 ≤ g.maxUnit ∧ g.slots * 1658880 ≤ x) ∧
    (g.format = .hd720 → 5734 ≤ g.maxUnit ∧ g.slots * 3686400 ≤ x) ∧
    (g.format = .hd1080 → 8569 ≤ g.maxUnit ∧ g.slots * 8294400 ≤ x) ∧ 8 * g.maxUnit ≤ y) ∧
  (∀ (c : Chip) (k : WindowKind) (f : Fin 8),
    (windowSize c k f = none ↔
      ∀ (i : Fin 24) (v : Window), c.mem.windows[i] = some v → v.kind = k → v.feed ≠ some f) ∧
    ∀ x, windowSize c k f = some x →
      ∃ (i : Fin 24) (v : Window),
        c.mem.windows[i] = some v ∧ v.kind = k ∧ v.feed = some f ∧ v.size = x) ∧
  (∀ (c : Chip) (f : Fin 8), feedHeld c f = true ↔
    ∃ k ∈ c.clips.list,
      (k.state = .opened ∨ k.state = .closed ∨ k.state = .sending ∨ k.state = .sent) ∧
      ∃ u ∈ c.rings[f].units, u.complete = true ∧
        ∃ x ∈ k.feeds, x.feed = f ∧ spanIncludes x u.seq = true)

/-- FEED START of a READY feed with both windows: RUNNING, no current slot or picture, q at q_max, E 0, R
none, and the feed's automatic clip opened if it calls for one (R38, R71, R139, R171). The opening: a feed
that is RUNNING with auto-log on and its tally PROGRAM and has no OPEN automatic clip gets one; with no
record to be had, NO_RECORD is reported once (R139). FEED STOP of a RUNNING feed: READY and completed at
once when no picture is in hand, the current picture none (DESIGN CHOICE, log 33); otherwise STOPPING with
its silence timer at 2 picture periods and the command in flight on the feed; in both the feed's automatic
clip closes with reason STOP and the scheduler serves what that frees (R22, R40, R139). The clip log's
reports and the serve come before the command's own RESULT (DESIGN CHOICE, log 7). -/
def Obligations.FeedStartStop : Prop :=
  (∀ (h : CmdHead) (feed : Byte) (s : State) (f : Fin 8) (x y : Nat),
     takes (.feedStart h feed) s = true → index8 feed = some f →
     inFlight (.feed f) s.chip = false → s.chip.feeds[f].state = .ready →
     windowSize s.chip .capture f = some x → windowSize s.chip .coded f = some y →
     ∃ d c, exec (.feedStart h feed) s = .next (s.taken (completedBy 0x11 h .done [] d)) ∧
       c = { setFeed s.chip f
           { s.chip.feeds[f] with
             state := .running
             curSlot := none
             cur := .none
             q := s.chip.feeds[f].cfg.qMax
             errorSum := 0 } with
         sched.rates := s.chip.sched.rates.set f none } ∧
       d = tryOpenAuto f c ∧
       d.feeds = c.feeds ∧ d.sched = c.sched ∧
       d.rings = s.chip.rings ∧ d.paths = s.chip.paths ∧ d.tally = s.chip.tally ∧
       (s.chip.feeds[f].cfg.autoLog = false → d.clips = s.chip.clips)) ∧
  (∀ (f : Fin 8) (c : Chip),
     ((callsForAuto c f = false ∨ (openAuto c f).isSome = true) → tryOpenAuto f c = c) ∧
     (callsForAuto c f = true ↔
       c.feeds[f].state = .running ∧ c.feeds[f].cfg.autoLog = true ∧
         c.tally.feeds[f].state = .program) ∧
     (callsForAuto c f = true → openAuto c f = none →
       (c.clips.list.length < 256 →
         ∃ k, (tryOpenAuto f c).clips.list = c.clips.list ++ [k] ∧ k.origin = .auto ∧
           k.state = .opened ∧ k.parent = none ∧
           k.feeds = [{ feed := f, inSeq := some c.rings[f].nextSeq, outSeq := none }] ∧
           (tryOpenAuto f c).clips.autoFailed[f] = false ∧
           ReportOnly { c with clips := (tryOpenAuto f c).clips } (tryOpenAuto f c)) ∧
       (256 ≤ c.clips.list.length → (∀ k ∈ c.clips.list, holding k.state = true) →
         (c.clips.autoFailed[f] = true → tryOpenAuto f c = c) ∧
         (c.clips.autoFailed[f] = false →
           tryOpenAuto f c =
             askReport .clip (reportBody 6 [byteOf f.val])
               { c with clips.autoFailed := c.clips.autoFailed.set f true })))) ∧
  (∀ (h : CmdHead) (feed : Byte) (s : State) (f : Fin 8),
     takes (.feedStop h feed) s = true → index8 feed = some f →
     inFlight (.feed f) s.chip = false → s.chip.feeds[f].state = .running →
     (s.chip.feeds[f].pics = [] →
       exec (.feedStop h feed) s =
         .next (s.taken (completedBy 0x12 h .done []
           (serveIfNew s.chip (closeAuto f .stop
             (setFeed s.chip f
               { s.chip.feeds[f] with state := .ready, curSlot := none, cur := .none })))))) ∧
     (s.chip.feeds[f].pics ≠ [] →
       ∃ d, exec (.feedStop h feed) s = .next (s.taken d) ∧
         d = conclude 0x12 h s.chip (.begun (.feed f)
           (serveIfNew s.chip (closeAuto f .stop
             (setFeed s.chip f
               { s.chip.feeds[f] with state := .stopping, silence := some 2 })))) ∧
         d.feeds[f] = { s.chip.feeds[f] with state := .stopping, silence := some 2 } ∧
         inFlight (.feed f) d = true)) ∧
  (∀ (f : Fin 8) (reason : CloseReason) (c : Chip),
     (openAuto c f = none →
       closeAuto f reason c = { c with clips.autoFailed := c.clips.autoFailed.set f false }) ∧
     (∀ k, openAuto c f = some k →
       closeAuto f reason c =
         closeClip k.number reason
           { c with clips.autoFailed := c.clips.autoFailed.set f false }))

/-- TIMECODE SET: BAD_ARG for an F that is no rate, BUSY while a feed is RUNNING or STOPPING; else the rate
and the count take the values given and the running timer restarts (R52). FRAME_PULSE: in LOCKED the count
advances by 1 and the watch timer restarts; in FREE_RUN the state becomes LOCKED, the count advances
exactly when at least half a picture period has passed since the last advance, and REFERENCE_BACK is asked
for with the count as it stands after that (R51; this order: DESIGN CHOICE, log 7). WATCH_TIMER enters
FREE_RUN, advances the count by 2, starts the free-run timer and asks for REFERENCE_LOST; FREE_RUN_TIMER
advances the count by 1 and restarts (R49 to R51; time: DESIGN CHOICE, log 3). -/
def Obligations.HouseTimingCommands : Prop :=
  (∀ (h : CmdHead) (rate : Byte) (start : Count32) (s : State),
     takes (.timecodeSet h rate start) s = true →
     (rate ≠ 24 → rate ≠ 25 → rate ≠ 30 → rate ≠ 50 → rate ≠ 60 →
       exec (.timecodeSet h rate start) s = .next (s.taken (refusedBy 0x13 h .badArg s.chip))) ∧
     ((rate = 24 ∨ rate = 25 ∨ rate = 30 ∨ rate = 50 ∨ rate = 60) →
       (∃ f : Fin 8, s.chip.feeds[f].state = .running ∨ s.chip.feeds[f].state = .stopping) →
       exec (.timecodeSet h rate start) s = .next (s.taken (refusedBy 0x13 h .busy s.chip))) ∧
     ((rate = 24 ∨ rate = 25 ∨ rate = 30 ∨ rate = 50 ∨ rate = 60) →
       (∀ f : Fin 8, s.chip.feeds[f].state ≠ .running ∧ s.chip.feeds[f].state ≠ .stopping) →
       exec (.timecodeSet h rate start) s =
         .next (s.taken (completedBy 0x13 h .done []
           { s.chip with
             timing :=
               { s.chip.timing with
                 rate := rate.toNat
                 count := start
                 lastAdvance := s.chip.timing.clock
                 watch := if s.chip.timing.freeRun then none else some 2
                 freeTimer := if s.chip.timing.freeRun then some 1 else none } })))) ∧
  (∀ (ns : Nat) (s : State), s.chip.resetHeld = false →
     (s.chip.timing.freeRun = false →
       exec (.framePulse ns) s =
         .next { s with
           chip := { s.chip with
             timing :=
               { s.chip.timing with
                 count := s.chip.timing.count + 1
                 clock := s.chip.timing.clock + ns
                 lastAdvance := s.chip.timing.clock + ns
                 watch := some 2 } } }) ∧
     (s.chip.timing.freeRun = true →
       ∃ t n a, exec (.framePulse ns) s = .next t ∧ t.dram = s.dram ∧
         (if 1000000000 ≤
             2 * s.chip.timing.rate * (s.chip.timing.clock + ns - s.chip.timing.lastAdvance) then
           n = s.chip.timing.count + 1 ∧ a = s.chip.timing.clock + ns
         else n = s.chip.timing.count ∧ a = s.chip.timing.lastAdvance) ∧
         t = { s with
           chip := askReport .feed (reportBody 2 [])
             { s.chip with
               timing :=
                 { s.chip.timing with
                   freeRun := false
                   count := n
                   clock := s.chip.timing.clock + ns
                   lastAdvance := a
                   watch := some 2
                   freeTimer := none } } } ∧
         t.chip.timing.freeRun = false ∧ t.chip.timing.freeTimer = none ∧
         t.chip.timing.watch = some 2 ∧ t.chip.cmd.pendingSet.getLsbD 0 = true ∧
         t.chip.feeds = s.chip.feeds ∧ t.chip.sched = s.chip.sched ∧
         t.chip.timing.count =
           if 1000000000 ≤
               2 * s.chip.timing.rate * (s.chip.timing.clock + ns - s.chip.timing.lastAdvance) then
             s.chip.timing.count + 1
           else s.chip.timing.count)) ∧
  (∀ s : State, s.chip.resetHeld = false →
     (s.chip.timing.watch.isSome = true →
       ∃ t, exec .watchTimer s = .next t ∧
         t = { s with
           chip := askReport .feed (reportBody 1 [])
             { s.chip with
               timing :=
                 { s.chip.timing with
                   freeRun := true
                   count := s.chip.timing.count + 2
                   clock := clockAfter 2 s.chip.timing
                   lastAdvance := clockAfter 2 s.chip.timing
                   watch := none
                   freeTimer := some 1 } } } ∧
         t.dram = s.dram ∧ t.chip.timing.freeRun = true ∧
         t.chip.timing.count = s.chip.timing.count + 2 ∧ t.chip.timing.freeTimer = some 1 ∧
         t.chip.timing.watch = none ∧ t.chip.timing.rate = s.chip.timing.rate ∧
         t.chip.cmd.pendingSet.getLsbD 0 = true ∧ t.chip.feeds = s.chip.feeds ∧
         t.chip.paths = s.chip.paths ∧ t.chip.sched = s.chip.sched) ∧
     (s.chip.timing.freeTimer.isSome = true →
       ∃ t, exec .freeRunTimer s = .next t ∧ t.dram = s.dram ∧
         t.chip = { s.chip with timing := t.chip.timing } ∧
         t.chip.timing =
           { s.chip.timing with
             count := s.chip.timing.count + 1
             clock := clockAfter 1 s.chip.timing
             lastAdvance := clockAfter 1 s.chip.timing
             freeTimer := some 1 } ∧
         t.chip.timing.count = s.chip.timing.count + 1 ∧ t.chip.timing.freeTimer = some 1 ∧
         t.chip.timing.freeRun = s.chip.timing.freeRun))

/-- FEED_SILENCE_TIMER: the timer stops; without an open current picture nothing else happens, and an open
one is abandoned: every band of it is closed and the current picture becomes none (R40, R44). -/
def Obligations.SilenceAbandons : Prop :=
  ∀ (f : Fin 8) (s : State), s.chip.resetHeld = false → s.chip.feeds[f].silence.isSome = true →
    (openPicture s.chip f = none →
      exec (.feedSilenceTimer f) s =
        .next { s with chip := setFeed s.chip f { s.chip.feeds[f] with silence := none } }) ∧
    (∀ p, openPicture s.chip f = some p →
      ∃ t, exec (.feedSilenceTimer f) s = .next t ∧ t.dram = s.dram ∧ t.intake = s.intake ∧
        t.chip.feeds[f].silence = none ∧ t.chip.feeds[f].cur = .none ∧
        t.chip.feeds[f].state = s.chip.feeds[f].state ∧ t.chip.rings = s.chip.rings ∧
        ∃ q, findPic t.chip f p.ident = some q ∧ q.abandoned = true ∧
          ∀ b ∈ q.bands, closedState b.state = true)

/-- BAND_CODED: the operation's own writes are issued and accepted in their order while the own-write
buffer has room (when they are issued: DESIGN CHOICE, log 8). With room for every one of them, none of another
block waiting: with the picture's last band still to come, the buffer gains exactly the operation's writes
in order, and the feed's coding position moves past the band (R11, R55, R57, R72). With the picture's last
band, and no path ready, the picture completes: it leaves the pictures in hand, its RESERVED record is
COMPLETE, the unit joins the LIVE queue in a LIVE feed, a recorder's feed gets its UNIT report (cause RING
pending), and a STOPPING feed with no picture left is READY (R40, R43, R73, R83, R84). The current picture
becomes none if it is the one that completes and else stays as it was, also a dropped one of a feed that
becomes READY (that case: DESIGN CHOICE, log 33). -/
def Obligations.BandCodedWrites : Prop :=
  (∀ (s : State) (o : CodingOp) (p : Picture), s.chip.resetHeld = false →
    s.chip.coder.op = some o → o.issued = false → o.writes ≠ [] →
    mixerWaiting s.chip = [] → s.chip.cmd.staging = [] →
    s.chip.mem.buffer.length + o.writes.length ≤ 64 →
    findPic s.chip o.feed o.pic = some p → o.band + 1 < p.bands.length →
    ∃ t q, exec .bandCoded s = .next t ∧ t.dram = s.dram ∧ t.intake = s.intake ∧
      t.chip.mem.buffer = s.chip.mem.buffer ++ o.writes ∧
      findPic t.chip o.feed o.pic = some q ∧ q.coded = o.band + 1 ∧
      t.chip.rings = s.chip.rings ∧ t.chip.clips = s.chip.clips) ∧
  (∀ (s : State) (o : CodingOp) (p : Picture) (u : UnitRec) (r : Feed), s.chip.resetHeld = false →
    s.chip.coder.op = some o → o.issued = false → o.writes ≠ [] →
    mixerWaiting s.chip = [] → s.chip.cmd.staging = [] →
    s.chip.mem.buffer.length + o.writes.length ≤ 64 →
    findPic s.chip o.feed o.pic = some p → o.band + 1 = p.bands.length →
    (∀ q : Fin 4, ready s.chip.paths[q] = false) → r = s.chip.feeds[o.feed] →
    s.chip.rings[o.feed].units.find? (fun x => !x.complete) = some u →
    ∃ t, exec .bandCoded s = .next t ∧ t.dram = s.dram ∧ t.intake = s.intake ∧
      s.chip.mem.buffer ++ o.writes <+: t.chip.mem.buffer ∧
      findPic t.chip o.feed o.pic = none ∧
      (r.cur = .present o.pic → t.chip.feeds[o.feed].cur = .none) ∧
      (r.cur ≠ .present o.pic → t.chip.feeds[o.feed].cur = r.cur) ∧
      t.chip.rings = s.chip.rings.set o.feed (completeRing s.chip o.feed p u) ∧
      t.chip.sched.live = s.chip.sched.live ++
        (if r.cfg.mode = .live then
          [{ feed := o.feed, seq := s.chip.rings[o.feed].nextSeq, house := u.house,
             length := p.bytes, addr := codedAddr s.chip o.feed u.start, cursor := 0 }]
        else []) ∧
      (r.cfg.recorder = true → t.chip.cmd.pendingSet.getLsbD 3 = true) ∧
      t.chip.feeds[o.feed].state =
        if r.state = .stopping ∧ r.pics.all (fun x => x.ident == o.pic) = true then .ready
        else r.state)

/-! ### Band coding and the rings -/

/-- EG(v) is floor(log2(v + 1)) zero bits followed by v + 1 in binary, most significant bit first, in
2 floor(log2(v + 1)) + 1 bits. The symbols of a component line of at most 1920 samples are codes EG(v) of
run counts, at most the line's length, and of mapped residuals, at most 2045, none longer than 21 bits
(R62). -/
def Obligations.ExpGolombCode : Prop :=
  (∀ v : Nat, ∃ bs : List Bool,
    expGolomb v = List.replicate (Nat.log 2 (v + 1)) false ++ bs ∧ bs.head? = some true ∧
    bitsNat bs = v + 1 ∧ (expGolomb v).length = 2 * Nat.log 2 (v + 1) + 1) ∧
  (∀ ks : List Int, ks.length ≤ 1920 → (∀ k ∈ ks, -1023 ≤ k ∧ k ≤ 1023) →
    ∃ vs : List Nat, lineSymbols 0 ks = (vs.map expGolomb).flatten ∧
      ∀ v ∈ vs, (v ≤ ks.length ∨ ∃ k ∈ ks, k ≠ 0 ∧ v = mapResidual k) ∧ v ≤ 2045 ∧
        (expGolomb v).length ≤ 21)

/-- At q = 0 the reconstruction of a sample is the sample; at q in 1..7 it lies in 0..1023 and differs
from the sample by at most 2^(q-1) where saturation does not act (R60). -/
def Obligations.ReconstructionError : Prop :=
  ∀ (q : Nat) (s p : Int), 0 ≤ s → s ≤ 1023 → 0 ≤ p → p ≤ 1023 →
    (q = 0 → rebuild q p (quantise q (s - p)) = s) ∧
    (1 ≤ q → q ≤ 7 →
      0 ≤ rebuild q p (quantise q (s - p)) ∧ rebuild q p (quantise q (s - p)) ≤ 1023 ∧
      (0 ≤ p + quantise q (s - p) * 2 ^ q → p + quantise q (s - p) * 2 ^ q ≤ 1023 →
        (s - rebuild q p (quantise q (s - p))).natAbs ≤ 2 ^ (q - 1)))

/-- The space guard: while the bands still to come fit flat, the guarded band leaves room for those after
it; so a picture that begins with M at least the format's minimum keeps its bytes and its bands still to
come, each flat, within its feed's M through every band, and its unit is never longer than M (R64, R68). -/
def Obligations.UnitNeverExceedsM : Prop :=
  (∀ (f : Format) (u after m : Nat) (k : Coding), u + (after + 1) * flatBytes f ≤ m →
    u + codingBytes (spaceGuard f u after m k) + after * flatBytes f ≤ m) ∧
  (∀ (c : Chip) (f : Fin 8) (slot start : Nat) (p : Picture), p = newPicture c f slot start →
    minUnit c.feeds[f].cfg.format ≤ c.feeds[f].cfg.maxUnit →
    p.coded < p.bands.length ∧
    p.bytes + (p.bands.length - p.coded) * flatBytes c.feeds[f].cfg.format ≤
      c.feeds[f].cfg.maxUnit) ∧
  (∀ (c : Chip) (f : Fin 8) (p q : Picture) (b : Band) (incomplete : Bool),
    p.coded < p.bands.length →
    p.bytes + (p.bands.length - p.coded) * flatBytes c.feeds[f].cfg.format ≤
      c.feeds[f].cfg.maxUnit →
    q = picAfter p (decideBand c f p b) incomplete →
    q.bytes + (q.bands.length - (q.coded + 1)) * flatBytes c.feeds[f].cfg.format ≤
        c.feeds[f].cfg.maxUnit ∧
      q.bytes ≤ c.feeds[f].cfg.maxUnit)

/-- A kept LIVE coding obeys its ceiling or is flat, and its index lies in q..q_max. Which coding R66 keeps,
each row of its table: the coding at q if its bits are at most K; else, with q_r = min(q + 2, q_max) above
q, the coding at q_r with retry set if its bits are at most K, and a flat band with retry set if they are
not; with q_r = q a flat band with retry clear. The coder keeps it, before the space guard, for a band
that carries data in a LIVE feed, at the feed's q and the picture's ceiling (R66, R68). -/
def Obligations.LiveBandWithinCeiling : Prop :=
  (∀ (f : Format) (lines : List (Nat × Line)) (q qMax ceiling : Nat), q ≤ qMax →
    ((decideLive f (codeAt f lines) q qMax ceiling).flat = true ∨
      (codingBits (decideLive f (codeAt f lines) q qMax ceiling) ≤ ceiling ∧
        q ≤ (decideLive f (codeAt f lines) q qMax ceiling).q ∧
        (decideLive f (codeAt f lines) q qMax ceiling).q ≤ qMax)) ∧
    ((decideLive f (codeAt f lines) q qMax ceiling).retry = true → q < qMax)) ∧
  (∀ (f : Format) (lines : List (Nat × Line)) (q qMax ceiling : Nat) (at' : Nat → Bool → Coding)
    (flat' : Bool → Coding), q ≤ qMax →
    at' = (fun i retry =>
      { symbols := bandSymbols f lines i, q := i, flat := false, retry := retry }) →
    flat' = (fun retry => { symbols := flatSymbols f, q := 0, flat := true, retry := retry }) →
    (codingBits (at' q false) ≤ ceiling →
      decideLive f (codeAt f lines) q qMax ceiling = at' q false) ∧
    (ceiling < codingBits (at' q false) → q < qMax →
      (codingBits (at' (min (q + 2) qMax) true) ≤ ceiling →
        decideLive f (codeAt f lines) q qMax ceiling = at' (min (q + 2) qMax) true) ∧
      (ceiling < codingBits (at' (min (q + 2) qMax) true) →
        decideLive f (codeAt f lines) q qMax ceiling = flat' true)) ∧
    (ceiling < codingBits (at' q false) → q = qMax →
      decideLive f (codeAt f lines) q qMax ceiling = flat' false)) ∧
  (∀ (c : Chip) (f : Fin 8) (p : Picture) (b : Band) (g : Budget),
    c.feeds[f].cfg.mode = .live → b.hasBuffer = true → p.budget = some g →
    decideBand c f p b =
      spaceGuard c.feeds[f].cfg.format p.bytes (p.bands.length - (p.coded + 1))
        c.feeds[f].cfg.maxUnit
        (decideLive c.feeds[f].cfg.format (codeAt c.feeds[f].cfg.format b.lines) c.feeds[f].q
          c.feeds[f].cfg.qMax g.ceiling))

/-- A search that succeeds gives lines inside the ring that no held and no RESERVED record's region shares
(R77), so a held unit is never written over. A request that succeeds, with no held record stepped over:
exactly the COMPLETE records that share a line with the region, and the one the list check chose, leave
the unit list, the RESERVED record joins its end, and the head stands after it (R78, R79); one that fails
changes nothing of the ring and drops the picture (R80). A reclaimed live unit is withdrawn, and an
unrecorded one of a recorder's feed makes cause RING pending (R82). Where a held record was stepped over
or the list check failed, PRESSURE is asked for and the chosen clip lapses (R81; a record noted once:
DESIGN CHOICE, log 18; the number in PRESSURE the search's own: DEDUCED, log 39). -/
def Obligations.SearchAvoidsHeld : Prop :=
  (∀ (us : List UnitRec) (n size fuel h a : Nat) (noted : List Nat) (s : Nat), n ≤ size →
    (searchRing us n size fuel h a noted).start = some s →
    s + n ≤ size ∧
      ∀ u ∈ us, (0 < u.held ∨ u.complete = false) →
        u.start + regionLen u ≤ s ∨ s + n ≤ u.start) ∧
  (∀ (c : Chip) (f : Fin 8) (slot : Nat) (r : Request) (e : Option UnitRec),
    requestRegion c f = (r, e) →
    (∀ x, r.start = some x → (search c f).start = some x ∧ listCheck c f x = some e) ∧
    (∀ u, e = some u →
      u ∈ c.rings[f].units ∧ u.complete = true ∧ u.held = 0 ∧
        ∀ x, r.start = some x → overlaps x (reserveLines c f) u = false) ∧
    (∀ x, r.start = some x → r.pressed = false →
      (beginPicture f slot c).rings[f].units =
        (c.rings[f].units.filter fun y =>
          !(y.complete && (doomed c f x ++ e.toList).any fun z => z.seq == y.seq)) ++
          [{ complete := false, seq := 0, house := c.timing.count, start := x,
             reserved := (c.feeds[f].cfg.maxUnit + 63) / 64, length := 0, bytes := 0,
             recorded := false, held := 0, live := false }] ∧
      (beginPicture f slot c).rings[f].head =
        (if x + (c.feeds[f].cfg.maxUnit + 63) / 64 = ringSize c f then 0
        else x + (c.feeds[f].cfg.maxUnit + 63) / 64) ∧
      (beginPicture f slot c).rings[f].nextSeq = c.rings[f].nextSeq ∧
      (∀ g : Fin 8, g ≠ f → (beginPicture f slot c).rings[g] = c.rings[g]) ∧
      (beginPicture f slot c).feeds[f].pics =
        c.feeds[f].pics ++ [newPicture c f slot x] ∧
      (beginPicture f slot c).feeds[f].cur = .present c.coder.picCount) ∧
    (r.start = none → r.pressed = false →
      beginPicture f slot c =
        askReport .feed (reportBody 0 [byteOf f.val, byteOf slot])
          (setFeed c f { c.feeds[f] with cur := .dropped })) ∧
    (r.pressed = true →
      beginPicture f slot c =
        holdPressure f r
          (match r.start with
          | some x => keepPicture f slot x e c
          | none => dropPicture f slot c))) ∧
  (∀ (f : Fin 8) (c : Chip) (u : UnitRec),
    (u.live = true →
      (∀ i ∈ (reclaim f c u).sched.live, ¬(i.feed = f ∧ i.seq = u.seq)) ∧
      (∀ i ∈ (reclaim f c u).sched.returns, i.item ≠ .liveUnit f u.seq) ∧
      (∀ p : Fin 4, ∀ i ∈ (reclaim f c u).paths[p].queue, i.item ≠ .liveUnit f u.seq)) ∧
    (u.live = false → (reclaim f c u).sched = c.sched ∧ (reclaim f c u).paths = c.paths) ∧
    (c.feeds[f].cfg.recorder = true → u.recorded = false →
      (reclaim f c u).cmd.pendingSet.getLsbD 3 = true)) ∧
  (∀ (f : Fin 8) (r : Request) (c d : Chip) (n : Nat), r.pressed = true →
    n = ((lapseChoice c f).map (·.number)).getD 0 →
    d = askReport .ring
      (reportBody 1
        ([byteOf f.val, byteOf (bitOf r.start.isNone)] ++ leNat16 r.stepped ++ leNat16 n)) c →
    (lapseChoice c f = none → holdPressure f r c = d) ∧
    (∀ k, lapseChoice c f = some k → holdPressure f r c = lapseClip k f d))

/-- The completion of a picture turns the first RESERVED record COMPLETE with the feed's next sequence,
which advances by 1, the unit's length, a held count of the OPEN clips that list the feed, the recorded
flag set unless the feed has a recorder, and live membership in a LIVE feed; the head moves to the unit's
end when the record is the list's last, and stays when a later picture has reserved (R83, R86). No other
feed's ring changes. The unit joins the LIVE queue in a LIVE feed (R87), and with the recorder flag on a UNIT
report with its feed, sequence, house count, start and length is asked for (R84); where no clip is at its max
length and the feed's automatic clip has not failed to open, that is all the completion does. -/
def Obligations.CompletionTakesSequence : Prop :=
  (∀ (c : Chip) (f : Fin 8) (p : Picture) (before after : List UnitRec) (u : UnitRec),
    c.rings[f].units = before ++ u :: after → (∀ x ∈ before, x.complete = true) →
    u.complete = false →
    (completeRing c f p u).units = before ++ completeRec c f p u :: after ∧
    (completeRec c f p u).complete = true ∧ (completeRec c f p u).seq = c.rings[f].nextSeq ∧
    (completeRec c f p u).bytes = p.bytes ∧ 64 * (completeRec c f p u).length < p.bytes + 64 ∧
    p.bytes ≤ 64 * (completeRec c f p u).length ∧
    (completeRec c f p u).start = u.start ∧ (completeRec c f p u).house = u.house ∧
    (completeRec c f p u).held =
      c.clips.list.countP (fun k => k.state == .opened && k.feeds.any fun x => x.feed == f) ∧
    (completeRec c f p u).recorded = !c.feeds[f].cfg.recorder ∧
    (completeRec c f p u).live = decide (c.feeds[f].cfg.mode = .live) ∧
    (completeRing c f p u).nextSeq = c.rings[f].nextSeq + 1 ∧
    (completeRing c f p u).anyCompleted = true ∧
    (after = [] →
      (completeRing c f p u).head =
        if u.start + (p.bytes + 63) / 64 = ringSize c f then 0
        else u.start + (p.bytes + 63) / 64) ∧
    ((∃ x ∈ after, x.complete = false) → (completeRing c f p u).head = c.rings[f].head)) ∧
  (∀ (c : Chip) (f : Fin 8) (p : Picture) (u : UnitRec) (d : Chip),
    c.rings[f].units.find? (fun x => !x.complete) = some u →
    (completeUnit f p c).rings = c.rings.set f (completeRing c f p u) ∧
    (d = { setRing c f (completeRing c f p u) with
        sched.live := c.sched.live ++
          if c.feeds[f].cfg.mode = .live then
            [{ feed := f, seq := c.rings[f].nextSeq, house := u.house, length := p.bytes,
               addr := codedAddr c f u.start, cursor := 0 }]
          else [] } →
      (∀ k ∈ c.clips.list, reachedMax d (fun g => g == f) k = false) →
      c.clips.autoFailed[f] = false →
      (c.feeds[f].cfg.recorder = false → completeUnit f p c = d) ∧
      (c.feeds[f].cfg.recorder = true →
        completeUnit f p c =
          askReport .unit
            (reportBody 0
              ([byteOf f.val] ++ le32 c.rings[f].nextSeq ++ le32 u.house ++ leNat32 u.start ++
                leNat32 ((p.bytes + 63) / 64))) d)))

/-! ### The sound mixer -/

/-- A leg sample is the nearest integer to A / 2^15, the even one at a tie; INEXACT and ROUNDED_UP are
taken on it before the range check, and SATURATED marks exactly the samples outside the range (R105). -/
def Obligations.LegSampleRounding : Prop :=
  ∀ a : Int,
    2 * (a - roundSample a * 32768).natAbs ≤ 32768 ∧
    (2 * (a - roundSample a * 32768).natAbs = 32768 → roundSample a % 2 = 0) ∧
    ((mixedSample a).inexact = true ↔ a % 32768 ≠ 0) ∧
    ((mixedSample a).roundedUp = true ↔ a < roundSample a * 32768) ∧
    ((mixedSample a).saturated = true ↔ roundSample a < -8388608 ∨ 8388607 < roundSample a) ∧
    -8388608 ≤ (mixedSample a).value ∧ (mixedSample a).value ≤ 8388607 ∧
    ((mixedSample a).saturated = false → (mixedSample a).value = roundSample a)

/-- A tapped host write into the AUDIO_IN window, at the slot's distance from the current block. STOPPED: it
is forwarded alone. WAITING: it begins the block of its slot. GATHERING n: in n's slot it is stored, and the
write of the 96th line fires the block COMPLETE; in the next slot the block fires NEXT and n + 1 begins; in
the slot before it is ignored; 2 to 14 slots on, the block fires STRAY, RESYNC is asked for (cause AUDIO
pending), and that block begins. FIRED n: the same without a firing, and n's own slot is ignored (R95, R98,
R99). A block that fires joins the fire queue with its number, kind, buffer, house count, starved inputs and
steps, or, with two blocks there, is discarded with MIX_LATE (R100, R101, R103). -/
def Obligations.AudioWrites : Prop :=
  ∀ (addr : BitVec 36) (data : Line) (mask : Mask) (s : State) (e : Fin 24) (w : Window),
    s.chip.resetHeld = false → mask ≠ 0 → classify s.chip (lineAddr addr) = some (e, w) →
    w.kind = .audioIn →
    ∀ (slot o : Nat) (d : Chip) (first : List (Nat × Line)),
    slot = lineOffset w (lineAddr addr) / 96 →
    o = lineOffset w (lineAddr addr) % 96 →
    d = forward (.write (lineAddr addr) data mask) s.chip →
    first = [(o, mergeLine zeroLine data mask)] →
    (s.chip.mixer.running = false → exec (.hostWrite addr data mask) s = .next { s with chip := d }) ∧
    (s.chip.mixer.running = true →
      (s.chip.mixer.block = .waiting →
        exec (.hostWrite addr data mask) s =
          .next { s with
            chip := { d with
              mixer.block := .gathering (BitVec.ofNat 32 slot), mixer.buf := first } }) ∧
      (∀ n, s.chip.mixer.block = .gathering n → slot = n.toNat % 16 →
        ((storeLine s.chip.mixer.buf o data mask).length < 96 →
          exec (.hostWrite addr data mask) s =
            .next { s with
              chip := { d with mixer.buf := storeLine s.chip.mixer.buf o data mask } }) ∧
        (96 ≤ (storeLine s.chip.mixer.buf o data mask).length →
          ∃ t, exec (.hostWrite addr data mask) s = .next t ∧ t.dram = s.dram ∧
            t.chip.mixer.block = .fired n ∧ t.chip.mixer.buf = [] ∧
            BlockFires s.chip n .complete (storeLine s.chip.mixer.buf o data mask)
              t.chip.mixer.fireQ ∧
            t.chip.mixer.recalling = none ∧
            (2 ≤ s.chip.mixer.fireQ.length → t.chip.cmd.pendingSet.getLsbD 4 = true))) ∧
      (∀ n k, s.chip.mixer.block = .gathering n → 1 ≤ k → k ≤ 14 → slot = (n.toNat + k) % 16 →
        ∃ t, exec (.hostWrite addr data mask) s = .next t ∧ t.dram = s.dram ∧
          t.intake = s.intake ∧ t.chip.mixer.block = .gathering (n + BitVec.ofNat 32 k) ∧
          t.chip.mixer.buf = first ∧
          BlockFires s.chip n (if k = 1 then .next else .stray) s.chip.mixer.buf
            t.chip.mixer.fireQ ∧
          t.chip.mixer.recalling = none ∧
          (2 ≤ k ∨ 2 ≤ s.chip.mixer.fireQ.length → t.chip.cmd.pendingSet.getLsbD 4 = true)) ∧
      (∀ n, s.chip.mixer.block = .fired n → slot = (n.toNat + 1) % 16 →
        exec (.hostWrite addr data mask) s =
          .next { s with
            chip := { d with mixer.block := .gathering (n + 1), mixer.buf := first } }) ∧
      (∀ n k, s.chip.mixer.block = .fired n → 2 ≤ k → k ≤ 14 → slot = (n.toNat + k) % 16 →
        exec (.hostWrite addr data mask) s =
          .next { s with
            chip :=
              { askReport .audio
                  (reportBody 1
                    (le32 n ++ le32 (n + BitVec.ofNat 32 k) ++ [byteOf (k - 1)])) d with
                mixer.block := .gathering (n + BitVec.ofNat 32 k), mixer.buf := first } }) ∧
      (∀ n, s.chip.mixer.block = .fired n → slot = n.toNat % 16 →
        exec (.hostWrite addr data mask) s = .next { s with chip := d }) ∧
      (∀ n, (s.chip.mixer.block = .gathering n ∨ s.chip.mixer.block = .fired n) → slot < 16 →
        (slot + 1) % 16 = n.toNat % 16 →
        exec (.hostWrite addr data mask) s = .next { s with chip := d }))

/-- INPUT SET, SEND SET and LEG SET write the record they name and complete at once, in either mixer
state; a pending recall's copy takes the same change (R110, R112). LEG SET meets the limit of four
uplinked legs, and turning the alarm off clears the latch (R109). -/
def Obligations.MixerSettings : Prop :=
  (∀ (h : CmdHead) (input fader afv depth : Byte) (s : State) (i : Fin 32) (a : Option (Fin 8))
    (r : InputRec),
    takes (.inputSet h input fader afv depth) s = true → index32 input = some i →
    afvOf afv = some a → fader.toNat ≤ 63 → depth.toNat ≤ 63 →
    r = { fader := fader.toNat, afv := a, depth := depth.toNat } →
    exec (.inputSet h input fader afv depth) s =
      .next (s.taken (completedBy 0x22 h .done []
        { s.chip with
          mixer.inputs := s.chip.mixer.inputs.set i r
          mixer.recalling := s.chip.mixer.recalling.map fun x =>
            { x with scene := { x.scene with inputs := x.scene.inputs.set i r } } }))) ∧
  (∀ (h : CmdHead) (input leg level : Byte) (s : State) (i : Fin 32) (l : Fin 8),
    takes (.sendSet h input leg level) s = true → index32 input = some i → index8 leg = some l →
    level.toNat ≤ 63 →
    exec (.sendSet h input leg level) s =
      .next (s.taken (completedBy 0x23 h .done []
        { s.chip with
          mixer.sends := s.chip.mixer.sends.set i (s.chip.mixer.sends[i].set l level.toNat)
          mixer.recalling := s.chip.mixer.recalling.map fun x =>
            { x with
              scene := { x.scene with
                sends := x.scene.sends.set i (x.scene.sends[i].set l level.toNat) } } }))) ∧
  (∀ (h : CmdHead) (leg master uplink alarm : Byte) (s : State) (l : Fin 8) (u a : Bool),
    takes (.legSet h leg master uplink alarm) s = true → index8 leg = some l →
    flagOf uplink = some u → flagOf alarm = some a → master.toNat ≤ 63 →
    (u = true → s.chip.mixer.legs[l].uplink = false → 4 ≤ (uplinkLegs s.chip.mixer).length →
      exec (.legSet h leg master uplink alarm) s =
        .next (s.taken (refusedBy 0x24 h .limit s.chip))) ∧
    ((u = false ∨ s.chip.mixer.legs[l].uplink = true ∨ (uplinkLegs s.chip.mixer).length < 4) →
      exec (.legSet h leg master uplink alarm) s =
        .next (s.taken (completedBy 0x24 h .done []
          { s.chip with
            mixer.legs := s.chip.mixer.legs.set l
              { master := master.toNat, uplink := u, alarm := a,
                latch := s.chip.mixer.legs[l].latch && a }
            mixer.recalling := s.chip.mixer.recalling.map fun x =>
              { x with
                scene := { x.scene with legs := x.scene.legs.set l (master.toNat, a) } } }))))

/-- SCENE SAVE is refused with BAD_ARG for a slot above 7, and otherwise copies the settings a scene holds,
as they stand in the records, into the slot, replacing any scene it held, and completes with DONE; a
pending recall changes nothing of this (R111). -/
def Obligations.SceneSaveCopies : Prop :=
  ∀ (h : CmdHead) (slot : Byte) (s : State), takes (.sceneSave h slot) s = true →
    (7 < slot.toNat →
      exec (.sceneSave h slot) s = .next (s.taken (refusedBy 0x25 h .badArg s.chip))) ∧
    (∀ n : Fin 8, slot.toNat = n.val →
      exec (.sceneSave h slot) s =
        .next (s.taken (completedBy 0x25 h .done []
          { s.chip with
            mixer.scenes := s.chip.mixer.scenes.set n
              (some
                { inputs := s.chip.mixer.inputs, sends := s.chip.mixer.sends,
                  legs := s.chip.mixer.legs.map fun l => (l.master, l.alarm) }) })))

/-- SCENE RECALL is refused with EMPTY for an empty slot and BUSY
while a recall is pending, and otherwise replaces the settings at once while the mixer is STOPPED, and
while it is RUNNING keeps a copy pending and joins the in-flight list; OVERLOAD CLEAR clears a leg's
latch (R109, R112). -/
def Obligations.ScenesAndLatches : Prop :=
  (∀ (h : CmdHead) (slot : Byte) (s : State) (n : Fin 8) (x : Scene),
    takes (.sceneRecall h slot) s = true → index8 slot = some n →
    inFlight .mixerRecall s.chip = false →
    (s.chip.mixer.scenes[n] = none →
      exec (.sceneRecall h slot) s = .next (s.taken (refusedBy 0x26 h .empty s.chip))) ∧
    (s.chip.mixer.scenes[n] = some x → s.chip.mixer.recalling.isSome = true →
      exec (.sceneRecall h slot) s = .next (s.taken (refusedBy 0x26 h .busy s.chip))) ∧
    (s.chip.mixer.scenes[n] = some x → s.chip.mixer.recalling = none →
      s.chip.mixer.running = false →
      ∃ d, exec (.sceneRecall h slot) s = .next (s.taken (completedBy 0x26 h .done [] d)) ∧
        d.mixer.inputs = x.inputs ∧ d.mixer.sends = x.sends ∧
        (∀ l : Fin 8, d.mixer.legs[l] =
          { s.chip.mixer.legs[l] with
            master := x.legs[l].1
            alarm := x.legs[l].2
            latch := s.chip.mixer.legs[l].latch && x.legs[l].2 }) ∧
        d = { s.chip with
          mixer.inputs := d.mixer.inputs, mixer.sends := d.mixer.sends,
          mixer.legs := d.mixer.legs }) ∧
    (s.chip.mixer.scenes[n] = some x → s.chip.mixer.recalling = none →
      s.chip.mixer.running = true →
      exec (.sceneRecall h slot) s =
        .next (s.taken
          { s.chip with
            mixer.recalling := some { scene := x, fromCommand := true }
            cmd.nextEntry := s.chip.cmd.nextEntry + 1
            cmd.inflight := s.chip.cmd.inflight ++
              [{ ident := s.chip.cmd.nextEntry, kind := 0x26, tag := h.tag, always := h.always,
                 object := .mixerRecall, waits := [] }] }))) ∧
  (∀ (h : CmdHead) (leg : Byte) (s : State) (l : Fin 8),
    takes (.overloadClear h leg) s = true → index8 leg = some l →
    exec (.overloadClear h leg) s =
      .next (s.taken (completedBy 0x27 h .done []
        { s.chip with
          mixer.legs := s.chip.mixer.legs.set l { s.chip.mixer.legs[l] with latch := false } })))

/-- AUDIO START with both windows makes a STOPPED mixer RUNNING, WAITING, with every input PRESENT, every last
step off and no frame in assembly; AUDIO STOP is refused with WRONG_STATE while it is STOPPED, and makes a
RUNNING mixer STOPPED, leaves at most the block being mixed in the fire queue, marked as the last mix,
discards the frame, and applies a pending recall, which completes if a command asked for it (R96, R97,
R109, R113; the recall's RESULT before AUDIO STOP's own: DESIGN CHOICE, log 7; the block state WAITING
after AUDIO STOP: DESIGN CHOICE, log 37). -/
def Obligations.AudioStartStop : Prop :=
  (∀ (h : CmdHead) (s : State) (v w : Window), takes (.audioStart h) s = true →
    findWindow s.chip .audioIn none = some v → findWindow s.chip .mixOut none = some w →
    s.chip.mixer.running = false →
    exec (.audioStart h) s =
      .next (s.taken (completedBy 0x20 h .done []
        { s.chip with
          mixer.running := true
          mixer.block := .waiting
          mixer.buf := []
          mixer.starved := 0
          mixer.lastSteps := Steps.off
          mixer.frame := none }))) ∧
  (∀ (h : CmdHead) (s : State), takes (.audioStop h) s = true →
    (s.chip.mixer.running = false →
      exec (.audioStop h) s = .next (s.taken (refusedBy 0x21 h .wrongState s.chip))) ∧
    (s.chip.mixer.running = true → s.chip.mixer.recalling = none →
      exec (.audioStop h) s =
        .next (s.taken (completedBy 0x21 h .done []
          { s.chip with
            mixer.running := false
            mixer.block := .waiting
            mixer.buf := []
            mixer.fireQ := (s.chip.mixer.fireQ.take 1).map fun b => { b with last := true }
            mixer.frame := none }))) ∧
    (∀ r, s.chip.mixer.running = true → s.chip.mixer.recalling = some r →
      ∃ d e : Chip, exec (.audioStop h) s = .next (s.taken (completedBy 0x21 h .done [] d)) ∧
        d = (if r.fromCommand then finishObject .mixerRecall [] e else e) ∧
        e = { s.chip with
          mixer.running := false
          mixer.block := .waiting
          mixer.buf := []
          mixer.fireQ := (s.chip.mixer.fireQ.take 1).map fun b => { b with last := true }
          mixer.frame := none
          mixer.recalling := none
          mixer.inputs := r.scene.inputs
          mixer.sends := r.scene.sends
          mixer.legs := e.mixer.legs } ∧
        d.mixer = e.mixer ∧
        ∀ l : Fin 8, e.mixer.legs[l] =
          { s.chip.mixer.legs[l] with
            master := r.scene.legs[l].1
            alarm := r.scene.legs[l].2
            latch := s.chip.mixer.legs[l].latch && r.scene.legs[l].2 }))

/-- MIX_END: the mix's own writes are issued and accepted in order while the buffer has room (when they are
issued: DESIGN CHOICE, log 8). With room for some of them, the buffer fills to 64 and the rest wait. With room
for all, the buffer gains them all, the block leaves the fire queue, the next one's mix begins, the latch
of each SATURATED leg whose alarm is on is set (R11, R106, R108), and the block's uplinked legs join the frame
in assembly, unless it is the last mix of an AUDIO STOP (R97). The frame begins with the legs uplinked then,
or does not begin without one, carries a gap mark when the numbers are not consecutive, and with its tenth
block joins the tail of the AUDIO queue, whose head is dropped first at 8 frames (R114, R172; the bytes'
order: DESIGN CHOICE, log 13). A mix has 25 own writes, of whole lines, at the lines of slot n mod 16, the
trailer last (R106, R107). -/
def Obligations.MixEnds : Prop :=
  (∀ (s : State) (m : MixOp), s.chip.resetHeld = false → s.chip.mixer.mix = some m →
    m.issued = false →
    (s.chip.mem.buffer.length ≤ 64 → 64 < s.chip.mem.buffer.length + m.writes.length →
      ∃ t, exec .mixEnd s = .next t ∧ t.dram = s.dram ∧ t.intake = s.intake ∧
        t.chip.mem.buffer =
          s.chip.mem.buffer ++ m.writes.take (64 - s.chip.mem.buffer.length) ∧
        t.chip.mixer.mix =
          some { m with
            issued := true, writes := m.writes.drop (64 - s.chip.mem.buffer.length) } ∧
        t.chip.mixer.fireQ = s.chip.mixer.fireQ ∧ t.chip.cmd = s.chip.cmd ∧
        t.chip.tally = s.chip.tally ∧ t.chip.feeds = s.chip.feeds) ∧
    (∀ b rest, s.chip.mixer.fireQ = b :: rest → m.writes ≠ [] →
      s.chip.mem.buffer.length + m.writes.length ≤ 64 →
      ∃ t, exec .mixEnd s = .next t ∧ t.dram = s.dram ∧ t.intake = s.intake ∧
        s.chip.mem.buffer ++ m.writes <+: t.chip.mem.buffer ∧ t.chip.mixer.fireQ = rest ∧
        t.chip.tally = s.chip.tally ∧ t.chip.feeds = s.chip.feeds ∧
        (rest = [] → t.chip.mixer.mix = none) ∧
        (∀ a more, rest = a :: more →
          t.chip.mixer.mix.map (·.issued) = some false ∧ t.chip.mixer.lastSteps = a.steps) ∧
        (b.last = true →
          t.chip.mixer.frame = s.chip.mixer.frame ∧ t.chip.sched = s.chip.sched) ∧
        (b.last = false →
          t.chip.mixer.frame = (uplinkBlock b m.legs s.chip).mixer.frame ∧
          ((∀ p : Fin 4, ready s.chip.paths[p] = false) →
            t.chip.sched = (uplinkBlock b m.legs s.chip).sched)) ∧
        ∀ (l : Fin 8) (x : LegMix), m.legs[l.val]? = some x →
          t.chip.mixer.legs[l] =
            { s.chip.mixer.legs[l] with
              latch := s.chip.mixer.legs[l].latch || x.saturated && s.chip.mixer.legs[l].alarm })) ∧
  (∀ (b : FiredBlock) (legs : List LegMix) (c : Chip) (ls : List (Fin 8)),
    ls = eight.filter (fun l => c.mixer.legs[l].uplink) →
    (c.mixer.frame = none → ls = [] → uplinkBlock b legs c = c) ∧
    (c.mixer.frame = none → ls ≠ [] →
      uplinkBlock b legs c =
        { c with
          mixer.frame := some
            { legs := ls, first := b.number, house := b.house, lastBlock := b.number, gap := false,
              blocks := 1, samples := listedSamples ls legs } }) ∧
    (∀ a a', c.mixer.frame = some a →
      a' = { a with
        lastBlock := b.number
        gap := a.gap || decide (b.number ≠ a.lastBlock + 1)
        blocks := a.blocks + 1
        samples := List.zipWith (· ++ ·) a.samples (listedSamples a.legs legs) } →
      (a.blocks + 1 < 10 → uplinkBlock b legs c = { c with mixer.frame := some a' }) ∧
      (10 ≤ a.blocks + 1 →
        uplinkBlock b legs c =
          { c with
            mixer.frame := none
            sched.audio :=
              (if 8 ≤ c.sched.audio.length then c.sched.audio.tail else c.sched.audio) ++
                [{ legs := a.legs, first := a.first, house := a.house, gap := a'.gap,
                   data := frameBytes a', cursor := 0 }] }))) ∧
  (∀ (b : FiredBlock) (last : Steps),
    (mixWrites b (mixLegs b last)).length = 25 ∧
    (∀ w ∈ mixWrites b (mixLegs b last), w.mask = fullMask) ∧
    (∀ i, i < 25 → ((mixWrites b (mixLegs b last))[i]?.map (·.addr)) =
      some (b.outBase + (b.number.toNat % 16 * 25 + i) * 64)) ∧
    ((mixWrites b (mixLegs b last))[24]?.map (·.data)) =
      some (trailerLine b (mixLegs b last)))

/-! ### Tally, signal lines and marks -/

/-- TALLY SET: BAD_ARG for a feed above 7 or a setting that is none of its values; a state is refused with
AUTHORITY under HOME; otherwise the tally state and the CALL flag take their values, and for a feed with
no automatic clip to open or close the clip log stands; with state KEEP the call setting alone acts, under
any authority: SET and CLEAR act on the CALL flag, KEEP changes nothing (R117 to R119); the clips a state
closes or opens are reported before the RESULT (DESIGN CHOICE, log 7). TALLY AUTHORITY: LOCAL stops the
fallback timer; HOME from another authority starts it exactly when no path is UP; HOME under HOME changes
nothing; any other value is refused with BAD_ARG (R121, R122). -/
def Obligations.TallyCommands : Prop :=
  (∀ (h : CmdHead) (feed tally call : Byte) (s : State) (f : Fin 8),
     takes (.tallySet h feed tally call) s = true → index8 feed = some f → call.toNat ≤ 2 →
     (tally.toNat ≤ 2 → s.chip.tally.authority = .home →
       exec (.tallySet h feed tally call) s =
         .next (s.taken (refusedBy 0x30 h .authority s.chip))) ∧
     (∀ x, tallyOf tally = some x → s.chip.tally.authority ≠ .home →
       ∃ d, exec (.tallySet h feed tally call) s =
           .next (s.taken (completedBy 0x30 h .done [] d)) ∧
         d.tally.feeds[f].state = x ∧ d.feeds = s.chip.feeds ∧
         (call = 0 → d.tally.feeds[f].call = false ∧ d.tally.feeds[f].callTimer = none) ∧
         (call = 1 → d.tally.feeds[f].call = true ∧ d.tally.feeds[f].callTimer = some 5000) ∧
         (call = 2 → d.tally.feeds[f].call = s.chip.tally.feeds[f].call) ∧
         (s.chip.feeds[f].cfg.autoLog = false → openAuto s.chip f = none →
           d.clips.list = s.chip.clips.list ∧ d.paths = s.chip.paths) ∧
         (∀ g : Fin 8, g ≠ f → d.tally.feeds[g] = s.chip.tally.feeds[g])) ∧
     (tally = 3 → call = 1 →
       exec (.tallySet h feed tally call) s =
         .next (s.taken (completedBy 0x30 h .done []
           (setTallyFeed s.chip f (raiseCall s.chip.tally.feeds[f]))))) ∧
     (tally = 3 → call = 0 →
       exec (.tallySet h feed tally call) s =
         .next (s.taken (completedBy 0x30 h .done []
           (setTallyFeed s.chip f (dropCall s.chip.tally.feeds[f]))))) ∧
     (tally = 3 → call = 2 →
       exec (.tallySet h feed tally call) s =
         .next (s.taken (completedBy 0x30 h .done [] s.chip)))) ∧
  (∀ (h : CmdHead) (feed tally call : Byte) (s : State),
     takes (.tallySet h feed tally call) s = true →
     (7 < feed.toNat ∨ 3 < tally.toNat ∨ 2 < call.toNat) →
     exec (.tallySet h feed tally call) s =
       .next (s.taken (refusedBy 0x30 h .badArg s.chip))) ∧
  (∀ (h : CmdHead) (a : Byte) (s : State), takes (.tallyAuthority h a) s = true →
     (a = 0 → exec (.tallyAuthority h a) s =
       .next (s.taken (completedBy 0x31 h .done []
         { s.chip with tally.authority := .van, tally.fallback := none }))) ∧
     (a = 1 → s.chip.tally.authority ≠ .home → exec (.tallyAuthority h a) s =
       .next (s.taken (completedBy 0x31 h .done []
         { s.chip with
           tally.authority := .home
           tally.fallback := if s.chip.tally.upCount = 0 then some 2000 else none }))) ∧
     (a = 1 → s.chip.tally.authority = .home → exec (.tallyAuthority h a) s =
       .next (s.taken (completedBy 0x31 h .done [] s.chip))) ∧
     (1 < a.toNat → exec (.tallyAuthority h a) s =
       .next (s.taken (refusedBy 0x31 h .badArg s.chip))))

/-- The output drive is FAST with CALL set, else STEADY, SLOW or off by the tally state; the same drive keeps
its phase and another starts lit. CALL_TIMER clears the feed's CALL flag; BLINK_TIMER turns a blinking
line to its other level for the same time again; FALLBACK_TIMER makes the authority HOME_LOST and cause
HOME pending (R119, R120, R122). -/
def Obligations.TallyOutputsAndTimers : Prop :=
  (∀ t : TallyFeed,
     (redrive t).drive =
       (if t.call then .fast
        else if t.state = .program then .steady else if t.state = .preview then .slow else .off) ∧
     ((redrive t).drive = t.drive → redrive t = t) ∧
     ((redrive t).drive ≠ t.drive → (redrive t).lit = decide ((redrive t).drive ≠ .off)) ∧
     (redrive t).state = t.state ∧ (redrive t).call = t.call ∧ (redrive t).callTimer = t.callTimer) ∧
  (∀ (f : Fin 8) (s : State), s.chip.resetHeld = false →
     (s.chip.tally.feeds[f].callTimer.isSome = true →
       ∃ x, exec (.callTimer f) s = .next { s with chip := setTallyFeed s.chip f x } ∧
         x.call = false ∧ x.callTimer = none ∧ x.state = s.chip.tally.feeds[f].state ∧
         x.drive ≠ .fast) ∧
     (s.chip.tally.feeds[f].blink.isSome = true →
       exec (.blinkTimer f) s =
         .next { s with
           chip := setTallyFeed s.chip f
             { s.chip.tally.feeds[f] with
               lit := !s.chip.tally.feeds[f].lit
               blink := blinkTime s.chip.tally.feeds[f].drive } }) ∧
     (s.chip.tally.fallback.isSome = true →
       ∃ d : Chip, exec .fallbackTimer s = .next { s with chip := d } ∧
         d = { s.chip with
           tally.authority := .homeLost, tally.fallback := none,
           cmd.pendingSet := d.cmd.pendingSet } ∧
         ∀ n, n < 8 → d.cmd.pendingSet.getLsbD n =
           (s.chip.cmd.pendingSet.getLsbD n || decide (n = 6))))

/-- SIGNAL LINE SET with every field in range replaces the record, takes the debounced level from the pin and
clears the pending level and mark open (R125). SIGNAL_LINE_CHANGE on an enabled line: a level other than the
debounced one becomes pending and starts the debounce timer at 10 ms, a return to it stops both (R126).
DEBOUNCE_TIMER makes the pending level the debounced one and does the line's action: at an activation MARK IN,
MARK OUT, a feed to PROGRAM or PREVIEW, CALL, signal home or a scene recall; at a LEVEL line's deactivation
MARK OUT for MARK, the feed to OFF for PROGRAM and PREVIEW, and else nothing; a PULSE MARK line alternates
by its mark open (R127). An action that would be refused as a command has no effect but a RESULT with tag 0,
source LINE and the code (R128; the matching command's kind code: DESIGN CHOICE, log 23); an accepted one asks
for none. -/
def Obligations.SignalLines : Prop :=
  (∀ (h : CmdHead) (a : SignalLineArgs) (s : State) (n : Fin 8) (on pulse low : Bool)
     (act : LineAction),
     takes (.signalLineSet h a) s = true → index8 a.line = some n → flagOf a.enabled = some on →
     flagOf a.kind = some pulse → flagOf a.polarity = some low → actionOf a.action = some act →
     (actionOk act a.argument a.feeds = false →
       exec (.signalLineSet h a) s = .next (s.taken (refusedBy 0x32 h .badArg s.chip))) ∧
     (actionOk act a.argument a.feeds = true →
       exec (.signalLineSet h a) s =
         .next (s.taken (completedBy 0x32 h .done []
           (setLine s.chip n
             { enabled := on, pulse := pulse, activeHigh := !low, action := act,
               argument := a.argument, feeds := a.feeds, category := a.category,
               debounced := s.chip.linePins[n] == !low, pendingLevel := none, debounce := none,
               markOpen := false }))))) ∧
  (∀ (n : Fin 8) (high : Bool) (s : State), s.chip.resetHeld = false →
     s.chip.tally.lines[n].enabled = true →
       exec (.signalLineChange n high) s =
         .next { s with
           chip :=
             setLine { s.chip with linePins := s.chip.linePins.set n high } n
               (if (high == s.chip.tally.lines[n].activeHigh) = s.chip.tally.lines[n].debounced then
                 { s.chip.tally.lines[n] with pendingLevel := none, debounce := none }
               else
                 { s.chip.tally.lines[n] with
                   pendingLevel := some (high == s.chip.tally.lines[n].activeHigh)
                   debounce := some 10 }) }) ∧
  (∀ (n : Fin 8) (s : State) (l : SignalLine) (level : Bool) (c : Chip), s.chip.resetHeld = false →
     l = s.chip.tally.lines[n] → l.enabled = true → l.pendingLevel = some level →
     l.debounce.isSome = true →
     c = setLine s.chip n { l with debounced := level, pendingLevel := none, debounce := none } →
     (∃ t, exec (.debounceTimer n) s = .next t ∧ t.dram = s.dram ∧ t.intake = s.intake ∧
       t.chip.tally.lines[n].debounced = level ∧ t.chip.tally.lines[n].pendingLevel = none ∧
       t.chip.tally.lines[n].debounce = none) ∧
     ((level = false ∧
         (l.pulse = true ∨ l.action = .markIn ∨ l.action = .markOut ∨ l.action = .call ∨
           l.action = .signalHome ∨ l.action = .scene)) →
       exec (.debounceTimer n) s = .next { s with chip := c }) ∧
     ((level = true ∧
         (l.action = .markIn ∨ l.action = .mark ∧ (l.pulse = false ∨ l.markOpen = false))) →
       (∀ r, markIn l.feeds l.category c = .refused r →
         exec (.debounceTimer n) s =
           .next { s with chip := askResult 0x40 0 (.line n) r [] c }) ∧
       (∀ r pay d, markIn l.feeds l.category c = .completed r pay d →
         exec (.debounceTimer n) s =
           .next { s with
             chip :=
               if l.pulse = true ∧ l.action = .mark then
                 setLine d n { d.tally.lines[n] with markOpen := true }
               else d })) ∧
     (∀ d, (level = true ∧ (l.action = .markOut ∨
           l.action = .mark ∧ l.pulse = true ∧ l.markOpen = true) ∨
         level = false ∧ l.pulse = false ∧ l.action = .mark) →
       d = (if l.pulse = true ∧ l.action = .mark then
           setLine c n { c.tally.lines[n] with markOpen := false }
         else c) →
       (d.tally.stack = [] →
         exec (.debounceTimer n) s =
           .next { s with chip := askResult 0x41 0 (.line n) .stackEmpty [] d }) ∧
       (∀ k rest, d.tally.stack = k :: rest →
         exec (.debounceTimer n) s =
           .next { s with
             chip := serveIfNew s.chip
               (closeClip k .markOut { d with tally.stack := rest }) })) ∧
     (∀ (f : Fin 8) (x : TallyState), l.argument.toNat = f.val →
       (level = true ∧ l.action = .program ∧ x = .program ∨
         level = true ∧ l.action = .preview ∧ x = .preview ∨
         level = false ∧ l.pulse = false ∧ (l.action = .program ∨ l.action = .preview) ∧
           x = .off) →
       (s.chip.tally.authority = .home →
         exec (.debounceTimer n) s =
           .next { s with chip := askResult 0x30 0 (.line n) .authority [] c }) ∧
       (s.chip.tally.authority ≠ .home →
         exec (.debounceTimer n) s =
           .next { s with chip := serveIfNew s.chip (setTally f x c) })) ∧
     (∀ f : Fin 8, level = true → l.action = .call → l.argument.toNat = f.val →
       exec (.debounceTimer n) s =
         .next { s with chip := setTallyFeed c f (raiseCall c.tally.feeds[f]) }) ∧
     (level = true → l.action = .signalHome →
       exec (.debounceTimer n) s =
         .next { s with chip := serveIfNew s.chip (signalHome l.argument (.line n) c) }) ∧
     (level = true → l.action = .scene →
       (∀ r, recallScene l.argument false c = .refused r →
         exec (.debounceTimer n) s =
           .next { s with chip := askResult 0x26 0 (.line n) r [] c }) ∧
       (∀ d, (∃ o, recallScene l.argument false c = .begun o d) ∨
           (∃ r pay, recallScene l.argument false c = .completed r pay d) →
         exec (.debounceTimer n) s = .next { s with chip := d }))) ∧
  (∀ (f : Fin 8) (x : TallyState) (c : Chip),
     (c.tally.feeds[f].state = x → setTally f x c = c) ∧
     (c.tally.feeds[f].state ≠ x → (setTally f x c).tally.feeds[f].state = x)) ∧
  (∀ t : TallyFeed, (raiseCall t).call = true ∧ (raiseCall t).callTimer = some 5000 ∧
     (raiseCall t).state = t.state ∧ (raiseCall t).drive = .fast)

/-- MARK IN: BAD_ARG for no feed, NOT_RUNNING with a feed that is not RUNNING, STACK_FULL at 8 clips, LOG_FULL
with no record to be had; else it creates an OPEN MANUAL clip, in a free record or that of the oldest
RELEASED or LAPSED clip, with the first number from the counter that no clip of the log holds, its in
sequences the feeds' next sequences and its parent the clip on top, pushes it and returns its number
(R129, R135). MARK OUT: STACK_EMPTY on an empty stack; else the top clip is popped and closed with
MARK_OUT (OPENED before MARK IN's RESULT, the close before MARK OUT's RESULT, the serve that the notice
brings after it, and CLOSED before a LABEL_DROPPED of the notice: DESIGN CHOICE, log 7). A close gives
each listed feed that completed no unit since no points, and each other feed its newest sequence as out
sequence; with such a feed the clip is CLOSED with the reason, the house counts of the first one's in and
out units and a notice while notify is on, and with none it is RELEASED as EMPTY (R130, R136, R150). -/
def Obligations.MarkCommands : Prop :=
  (∀ (h : CmdHead) (feeds category : Byte) (s : State),
     takes (.markIn h feeds category) s = true →
     (feedsOf feeds = [] →
       exec (.markIn h feeds category) s = .next (s.taken (refusedBy 0x40 h .badArg s.chip))) ∧
     (feedsOf feeds ≠ [] → (∃ f ∈ feedsOf feeds, s.chip.feeds[f].state ≠ .running) →
       exec (.markIn h feeds category) s =
         .next (s.taken (refusedBy 0x40 h .notRunning s.chip))) ∧
     (feedsOf feeds ≠ [] → (∀ f ∈ feedsOf feeds, s.chip.feeds[f].state = .running) →
       (8 ≤ s.chip.tally.stack.length →
         exec (.markIn h feeds category) s =
           .next (s.taken (refusedBy 0x40 h .stackFull s.chip))) ∧
       (s.chip.tally.stack.length < 8 →
         (256 ≤ s.chip.clips.list.length → (∀ k ∈ s.chip.clips.list, holding k.state = true) →
           exec (.markIn h feeds category) s =
             .next (s.taken (refusedBy 0x40 h .logFull s.chip))) ∧
         (∀ l : List Clip,
           (s.chip.clips.list.length < 256 ∧ l = s.chip.clips.list ∨
             256 ≤ s.chip.clips.list.length ∧
               ∃ k, s.chip.clips.list.find? (fun k => !holding k.state) = some k ∧
                 l = s.chip.clips.list.filter fun x => x.number != k.number) →
           ∃ n d, exec (.markIn h feeds category) s =
               .next (s.taken (completedBy 0x40 h .done (leNat16 n) d)) ∧
             n = freeNumber l 256 s.chip.clips.counter ∧
             (l.length < 256 → ∀ k ∈ l, k.number ≠ n) ∧
             d.clips.counter = (if n = 65535 then 1 else n + 1) ∧
             d.tally.stack = n :: s.chip.tally.stack ∧
             d.clips.list = l ++
               [{ number := n, origin := .manual, state := .opened, guarded := false,
                  parent := s.chip.tally.stack.head?,
                  feeds := (feedsOf feeds).map fun f =>
                    { feed := f, inSeq := some s.chip.rings[f].nextSeq, outSeq := none },
                  inHouse := none, outHouse := none, category := category, rating := 0, note := [],
                  reason := none, progress := none }] ∧
             d.rings = s.chip.rings ∧ d.feeds = s.chip.feeds ∧ d.sched = s.chip.sched ∧
             d.cmd.pendingSet.getLsbD 5 = true)))) ∧
  (∀ (h : CmdHead) (s : State), takes (.markOut h) s = true →
     (s.chip.tally.stack = [] →
       exec (.markOut h) s = .next (s.taken (refusedBy 0x41 h .stackEmpty s.chip))) ∧
     (∀ n rest, s.chip.tally.stack = n :: rest →
       exec (.markOut h) s =
         .next (s.taken (serveIfNew s.chip
           (completedBy 0x41 h .done (leNat16 n)
             (closeClip n .markOut { s.chip with tally.stack := rest })))) ∧
       ∃ t, exec (.markOut h) s = .next t ∧ t.dram = s.dram ∧ t.intake = s.intake.tail ∧
         t.chip.tally.stack = rest ∧ t.chip.feeds = s.chip.feeds ∧
         ∀ k, findClip s.chip n = some k → s.chip.sched.notify = false →
           t.chip.rings = s.chip.rings ∧ t.chip.paths = s.chip.paths ∧
           findClip t.chip n = some (closedClip s.chip .markOut k))) ∧
  (∀ (n : Nat) (reason : CloseReason) (c : Chip) (k x : Clip), findClip c n = some k →
     x = closedClip c reason k →
     x = { k with
       feeds := x.feeds, state := x.state, reason := x.reason, inHouse := x.inHouse,
       outHouse := x.outHouse } ∧
     x.feeds = k.feeds.map (fun y =>
       if y.inSeq = some c.rings[y.feed].nextSeq then { y with inSeq := none, outSeq := none }
       else { y with outSeq := some (c.rings[y.feed].nextSeq - 1) }) ∧
     (nonBare x = [] → x.state = .released ∧ x.reason = some .empty) ∧
     (∀ y ys, nonBare x = y :: ys →
       x.state = .closed ∧ x.reason = some reason ∧
       x.inHouse = y.inSeq.bind (unitHouse c y.feed) ∧
       x.outHouse = y.outSeq.bind (unitHouse c y.feed)) ∧
     (closeClip n reason c).clips.list =
       c.clips.list.map (fun z => if z.number = n then x else z) ∧
     (closeClip n reason c).rings = c.rings ∧ (closeClip n reason c).paths = c.paths ∧
     (closeClip n reason c).cmd.pendingSet.getLsbD 5 = true ∧
     (closeClip n reason c).sched.label = c.sched.label ++
       (if x.state = .closed ∧ c.sched.notify = true ∧ c.sched.label.length < 32 then
         [{ kind := 0, number := n, data := noticeBody x, cursor := 0 }]
       else []))

/-! ### The clip log -/

/-- CLIP LABEL is refused with BAD_ARG, NO_SUCH_CLIP or WRONG_STATE by its checks in order, and gives a clip
that is not RELEASED or LAPSED its category, rating and note (R141). With notify on, a clip that is not
OPEN has a notice due, with the clip as it then stands: the CLIP_NOTICE joins the LABEL queue, or is
dropped with LABEL_DROPPED at 32 messages (R150, R175), before the command's RESULT (DESIGN CHOICE, log
7). CLIP PROTECT and CLIP UNPROTECT are refused with NO_SUCH_CLIP, BUSY (CLIP PROTECT in the trim session)
or WRONG_STATE by their checks in order; CLIP PROTECT then sets the protected flag, or is refused with
LIMIT where the flag is clear and the ring manager answers no; CLIP UNPROTECT clears the flag (R142). The
answer is yes exactly when, for each feed the clip lists, the bytes of its COMPLETE units held by the clip
or by a protected one come to at most half the ring (R88). -/
def Obligations.ClipLabelAndProtection : Prop :=
  (∀ (h : CmdHead) (a : ClipLabelArgs) (s : State), takes (.clipLabel h a) s = true →
     ((3 < a.rating.toNat ∨ 40 < a.noteLength.toNat) →
       exec (.clipLabel h a) s = .next (s.taken (refusedBy 0x42 h .badArg s.chip))) ∧
     (a.rating.toNat ≤ 3 → a.noteLength.toNat ≤ 40 → findClip s.chip a.clip.toNat = none →
       exec (.clipLabel h a) s = .next (s.taken (refusedBy 0x42 h .noSuchClip s.chip))) ∧
     (∀ k y c, a.rating.toNat ≤ 3 → a.noteLength.toNat ≤ 40 →
       findClip s.chip a.clip.toNat = some k →
       y = { k with
         category := a.category
         rating := a.rating
         note := a.note.toList.take a.noteLength.toNat } →
       c = mapClip a.clip.toNat
         (fun x =>
           { x with
             category := a.category
             rating := a.rating
             note := a.note.toList.take a.noteLength.toNat }) s.chip →
       ((k.state = .released ∨ k.state = .lapsed) →
         exec (.clipLabel h a) s = .next (s.taken (refusedBy 0x42 h .wrongState s.chip))) ∧
       (k.state ≠ .released → k.state ≠ .lapsed →
         ((k.state = .opened ∨ s.chip.sched.notify = false) →
           exec (.clipLabel h a) s = .next (s.taken (completedBy 0x42 h .done [] c))) ∧
         (k.state ≠ .opened → s.chip.sched.notify = true →
           (s.chip.sched.label.length < 32 →
             exec (.clipLabel h a) s =
               .next (s.taken (completedBy 0x42 h .done []
                 (serveIfNew s.chip
                   { c with
                     sched.label := c.sched.label ++
                       [{ kind := 0, number := k.number, data := noticeBody y, cursor := 0 }] })))) ∧
           (32 ≤ s.chip.sched.label.length →
             exec (.clipLabel h a) s =
               .next (s.taken (completedBy 0x42 h .done []
                 (askReport .home (reportBody 4 (0 :: leNat16 k.number)) c)))))))) ∧
  (∀ (h : CmdHead) (clip : BitVec 16) (s : State),
     (findClip s.chip clip.toNat = none →
       (takes (.clipProtect h clip) s = true →
         exec (.clipProtect h clip) s = .next (s.taken (refusedBy 0x43 h .noSuchClip s.chip))) ∧
       (takes (.clipUnprotect h clip) s = true →
         exec (.clipUnprotect h clip) s =
           .next (s.taken (refusedBy 0x44 h .noSuchClip s.chip)))) ∧
     (∀ k, findClip s.chip clip.toNat = some k → takes (.clipProtect h clip) s = true →
       (inTrim s.chip clip.toNat = true →
         exec (.clipProtect h clip) s = .next (s.taken (refusedBy 0x43 h .busy s.chip))) ∧
       (inTrim s.chip clip.toNat = false →
         ((k.state = .opened ∨ k.state = .released ∨ k.state = .lapsed) →
           exec (.clipProtect h clip) s =
             .next (s.taken (refusedBy 0x43 h .wrongState s.chip))) ∧
         ((k.state = .closed ∨ k.state = .sending ∨ k.state = .sent) →
           (k.guarded = false → mayProtect s.chip k = false →
             exec (.clipProtect h clip) s = .next (s.taken (refusedBy 0x43 h .limit s.chip))) ∧
           ((k.guarded = true ∨ mayProtect s.chip k = true) →
             exec (.clipProtect h clip) s =
               .next (s.taken (completedBy 0x43 h .done []
                 (mapClip clip.toNat (fun x => { x with guarded := true }) s.chip))))))) ∧
     (∀ k, findClip s.chip clip.toNat = some k → takes (.clipUnprotect h clip) s = true →
       ((k.state = .opened ∨ k.state = .released ∨ k.state = .lapsed) →
         exec (.clipUnprotect h clip) s =
           .next (s.taken (refusedBy 0x44 h .wrongState s.chip))) ∧
       ((k.state = .closed ∨ k.state = .sending ∨ k.state = .sent) →
         exec (.clipUnprotect h clip) s =
           .next (s.taken (completedBy 0x44 h .done []
             (mapClip clip.toNat (fun x => { x with guarded := false }) s.chip)))))) ∧
  (∀ (c : Chip) (k : Clip) (kept : Fin 8 → UnitRec → Bool),
     (∀ f u, kept f u = true ↔ u.complete = true ∧
       ∃ y, (y = k ∨ y ∈ c.clips.list ∧ y.guarded = true) ∧
         (y.state = .opened ∨ y.state = .closed ∨ y.state = .sending ∨ y.state = .sent) ∧
         ∃ x ∈ y.feeds, x.feed = f ∧ spanIncludes x u.seq = true) →
     (mayProtect c k = true ↔ ∀ x ∈ k.feeds,
       ((c.rings[x.feed].units.filter (kept x.feed)).map fun u => u.length * 64).sum ≤
         ringSize c x.feed * 64 / 2)) ∧
  (∀ (c : Chip) (f : Fin 8) (w : Window), findWindow c .coded (some f) = some w →
     ringSize c f = w.size / 64)

/-- CLIP RELEASE of a clip that is not protected and not in the trim session. A CLOSED one becomes RELEASED,
and the held count of exactly the COMPLETE units its spans include falls by 1, in every feed it lists; a
SENDING or SENT one so too, its send progress dropped and its bytes withdrawn from the CLIP queue, the
return list and every transmit queue (R86, R140, R143, R145, R179), the serve before the RESULT (DESIGN
CHOICE, log 7). Hold pressure's choice among the clips that hold a unit of the feed and are not protected,
in creation order: the first CLOSED or SENT one, else the first SENDING one, else none (R81, R140). Its
lapse withdraws a sent clip's bytes the same way, ends a trim session on it, drops its holds and reports
LAPSED with the feed, its state, whether a send was aborted and whether a session ended (R146). -/
def Obligations.ClipReleaseDropsHolds : Prop :=
  (∀ (h : CmdHead) (clip : BitVec 16) (s : State) (k : Clip),
    takes (.clipRelease h clip) s = true → findClip s.chip clip.toNat = some k →
    inTrim s.chip clip.toNat = false → k.guarded = false →
    ((k.state = .sending ∨ k.state = .sent) →
      ∃ d, exec (.clipRelease h clip) s = .next (s.taken (completedBy 0x45 h .done [] d)) ∧
        (∀ q ∈ d.sched.clipQ, q.clip ≠ clip.toNat) ∧ d.feeds = s.chip.feeds ∧
        ∀ x ∈ d.clips.list, x.number = clip.toNat → x.state = .released) ∧
    ((k.state = .sending ∨ k.state = .sent) → (k.feeds.map (·.feed)).Nodup →
      ∃ d, exec (.clipRelease h clip) s =
          .next (s.taken (completedBy 0x45 h .done [] (serveIfNew s.chip d))) ∧
        d = { withoutClip clip.toNat s.chip with
          clips.list := s.chip.clips.list.map fun x =>
            if x.number = clip.toNat then { x with state := .released, progress := none } else x
          rings := d.rings } ∧
        HoldsDropped s.chip k d) ∧
    (k.state = .closed → (k.feeds.map (·.feed)).Nodup →
    ∃ d, exec (.clipRelease h clip) s = .next (s.taken (completedBy 0x45 h .done [] d)) ∧
      d.clips.list =
        (s.chip.clips.list.map fun x =>
          if x.number = clip.toNat then { x with state := .released } else x) ∧
      d.sched = s.chip.sched ∧ d.paths = s.chip.paths ∧ d.feeds = s.chip.feeds ∧
      ∀ f : Fin 8, d.rings[f].units =
        s.chip.rings[f].units.map fun u =>
          if u.complete && k.feeds.any (fun x => x.feed == f && spanIncludes x u.seq) then
            { u with held := u.held - 1 }
          else u)) ∧
  (∀ (c : Chip) (f : Fin 8) (can : Clip → Prop),
    can = (fun x => x.guarded = false ∧ holdsUnitOf c x f = true) →
    (∀ before k after, c.clips.list = before ++ k :: after → can k →
      (k.state = .closed ∨ k.state = .sent) →
      (∀ x ∈ before, can x → x.state ≠ .closed ∧ x.state ≠ .sent) →
      lapseChoice c f = some k) ∧
    ((∀ x ∈ c.clips.list, can x → x.state ≠ .closed ∧ x.state ≠ .sent) →
      (∀ before k after, c.clips.list = before ++ k :: after → can k → k.state = .sending →
        (∀ x ∈ before, can x → x.state ≠ .sending) → lapseChoice c f = some k) ∧
      ((∀ x ∈ c.clips.list, can x → x.state ≠ .sending) → lapseChoice c f = none))) ∧
  (∀ (c : Chip) (k : Clip) (f : Fin 8), (k.feeds.map (·.feed)).Nodup →
    ∃ d, lapseClip k f c =
        askReport .clip
          (reportBody 5 (leNat16 k.number ++
            [byteOf f.val, byteOf (clipStateCode k.state),
              byteOf ((if k.state = .sending then 1 else 0) +
                if inTrim c k.number = true then 2 else 0)])) d ∧
      HoldsDropped c k d ∧
      ((k.state = .sending ∨ k.state = .sent) →
        d = { withoutClip k.number c with
          clips.list := c.clips.list.map fun x =>
            if x.number = k.number then { x with state := .lapsed, progress := none } else x
          clips.trim := if inTrim c k.number = true then none else c.clips.trim
          rings := d.rings }) ∧
      (k.state ≠ .sending → k.state ≠ .sent →
        d = { c with
          clips.list := c.clips.list.map fun x =>
            if x.number = k.number then { x with state := .lapsed } else x
          clips.trim := if inTrim c k.number = true then none else c.clips.trim
          rings := d.rings }))

/-- CLIP SEND: the refusals in the order of R144, and an accepted clip becomes SENDING with the bytes of the
units of its spans that have records, joins the CLIP queue, and the scheduler serves (R144, R174), before
the command's own RESULT (DESIGN CHOICE, log 7). With no byte to send it is SENT at once with its SENT
report, since the bytes handed are then the bytes in all (DEDUCED, log 31). The units sent are exactly the
COMPLETE units in the span of each feed that is not bare, by feed and then in the unit list's order
(R144). Bytes handed grow by each cut's bytes; when they reach the bytes in all the clip is SENT, its
progress is dropped and SENT is reported; a clip with no send in progress does not change (R145). -/
def Obligations.ClipSendQueues : Prop :=
  (∀ (h : CmdHead) (clip : BitVec 16) (s : State), takes (.clipSend h clip) s = true →
    (findClip s.chip clip.toNat = none →
      exec (.clipSend h clip) s = .next (s.taken (refusedBy 0x46 h .noSuchClip s.chip))) ∧
    (∀ k, findClip s.chip clip.toNat = some k →
      (inTrim s.chip k.number = true →
        exec (.clipSend h clip) s = .next (s.taken (refusedBy 0x46 h .busy s.chip))) ∧
      (inTrim s.chip k.number = false → k.state ≠ .closed → k.state ≠ .sent →
        exec (.clipSend h clip) s = .next (s.taken (refusedBy 0x46 h .wrongState s.chip)))) ∧
    (∀ k, findClip s.chip clip.toNat = some k → inTrim s.chip k.number = false →
      (k.state = .closed ∨ k.state = .sent) → 16 ≤ s.chip.sched.clipQ.length →
      exec (.clipSend h clip) s = .next (s.taken (refusedBy 0x46 h .queueFull s.chip))) ∧
    (∀ k, findClip s.chip clip.toNat = some k → inTrim s.chip k.number = false →
      (k.state = .closed ∨ k.state = .sent) → s.chip.sched.clipQ.length < 16 →
      (((clipUnits s.chip k).map (·.length)).sum ≠ 0 →
        exec (.clipSend h clip) s =
          .next (s.taken (completedBy 0x46 h .done []
            (serve
              { mapClip k.number
                  (fun x =>
                    { x with
                      state := .sending
                      progress := some (((clipUnits s.chip k).map (·.length)).sum, 0) }) s.chip with
                sched.clipQ := s.chip.sched.clipQ ++
                  [{ clip := k.number, units := clipUnits s.chip k }] })))) ∧
      (((clipUnits s.chip k).map (·.length)).sum = 0 →
        exec (.clipSend h clip) s =
          .next (s.taken (completedBy 0x46 h .done []
            (askReport .clip (reportBody 2 (leNat16 k.number))
              (mapClip k.number (fun x => { x with state := .sent, progress := none })
                s.chip))))))) ∧
  (∀ (c : Chip) (k : Clip),
    (∀ u, u ∈ clipUnits c k ↔
      ∃ x a b r, x ∈ k.feeds ∧ x.inSeq = some a ∧ x.outSeq = some b ∧
        r ∈ c.rings[x.feed].units ∧ r.complete = true ∧ inSpan a b r.seq = true ∧
        u = { feed := x.feed, seq := r.seq, length := r.bytes, addr := codedAddr c x.feed r.start,
              cursor := 0 }) ∧
    ((k.feeds.map (·.feed.val)).Pairwise (· < ·) →
      ((clipUnits c k).map (·.feed.val)).Pairwise (· ≤ ·) ∧
      ∀ f : Fin 8, (((clipUnits c k).filter fun u => u.feed == f).map (·.seq)).Sublist
        (c.rings[f].units.map (·.seq)))) ∧
  (∀ (c : Chip) (n k total handed : Nat) (x : Clip), findClip c n = some x →
    (x.progress = none → clipHanded n k c = c) ∧
    (x.progress = some (total, handed) →
      (handed + k < total →
        clipHanded n k c = mapClip n (fun y => { y with progress := some (total, handed + k) }) c) ∧
      (total ≤ handed + k →
        clipHanded n k c =
          askReport .clip (reportBody 2 (leNat16 n))
            (mapClip n (fun y => { y with state := .sent, progress := none }) c))))

/-- TRIM BEGIN: NO_SUCH_CLIP, BUSY and WRONG_STATE in the order of R147, else the session opens with the
points of every feed that is not bare saved. TRIM END without a session is refused with WRONG_STATE; it ends
the session, with a notice while notify is on if a point changed (R147, R150). TRIM MOVE: a delta outside
-30000..30000 or an unknown point is refused with BAD_ARG, no session with WRONG_STATE; delta 0 completes
EXACT with nothing clamped and nothing changed (R148). TRIM ABANDON without a session is refused with
WRONG_STATE; else every saved point is restored and clamped with the hold changes, house counts and result
code of a move, the session ends, and a point that differs from its saved value gives a notice (R148, R150).
A saved point between its bounds is restored; an in point before the oldest sequence stops there, and both do
when the out point is before it too; an out point past the newest completed one stops there; whatever was
saved, the restored span lies within the list as it now stands (R148; absent bounds and the order of
restoring: DESIGN CHOICE, log 16). Notices and serves come before the RESULT (DESIGN CHOICE, log 7). -/
def Obligations.TrimCommands : Prop :=
  ((∀ (h : CmdHead) (clip : BitVec 16) (s : State),
     takes (.trimBegin h clip) s = true →
     (findClip s.chip clip.toNat = none →
       exec (.trimBegin h clip) s = .next (s.taken (refusedBy 0x47 h .noSuchClip s.chip))) ∧
     (∀ k, findClip s.chip clip.toNat = some k →
       (s.chip.clips.trim.isSome = true →
         exec (.trimBegin h clip) s = .next (s.taken (refusedBy 0x47 h .busy s.chip))) ∧
       (s.chip.clips.trim = none → k.state ≠ .closed → k.state ≠ .sent →
         exec (.trimBegin h clip) s = .next (s.taken (refusedBy 0x47 h .wrongState s.chip))) ∧
       (s.chip.clips.trim = none → (k.state = .closed ∨ k.state = .sent) →
         exec (.trimBegin h clip) s =
           .next (s.taken (completedBy 0x47 h .done []
             { s.chip with
               clips.trim := some { clip := clip.toNat, saved := nonBare k } }))))) ∧
   (∀ (h : CmdHead) (s : State), takes (.trimEnd h) s = true →
     (s.chip.clips.trim = none →
       exec (.trimEnd h) s = .next (s.taken (refusedBy 0x49 h .wrongState s.chip))) ∧
     (∀ x k, s.chip.clips.trim = some x → findClip s.chip x.clip = some k →
       (nonBare k = x.saved →
         exec (.trimEnd h) s =
           .next (s.taken (completedBy 0x49 h .done [] { s.chip with clips.trim := none }))) ∧
       (nonBare k ≠ x.saved →
         exec (.trimEnd h) s =
           .next (s.taken (completedBy 0x49 h .done []
             (serveIfNew s.chip
               (if s.chip.sched.notify = true then
                 joinLabel { kind := 0, number := x.clip, data := noticeBody k, cursor := 0 }
                   { s.chip with clips.trim := none }
               else { s.chip with clips.trim := none })))))))) ∧
  (∀ (h : CmdHead) (point : Byte) (delta : BitVec 32) (s : State),
     takes (.trimMove h point delta) s = true →
     ((delta.toInt < -30000 ∨ 30000 < delta.toInt ∨ 1 < point.toNat) →
       exec (.trimMove h point delta) s = .next (s.taken (refusedBy 0x48 h .badArg s.chip))) ∧
     (-30000 ≤ delta.toInt → delta.toInt ≤ 30000 → point.toNat ≤ 1 → s.chip.clips.trim = none →
       exec (.trimMove h point delta) s =
         .next (s.taken (refusedBy 0x48 h .wrongState s.chip))) ∧
     (delta = 0 → point.toNat ≤ 1 → s.chip.clips.trim.isSome = true →
       exec (.trimMove h point delta) s =
         .next (s.taken (completedBy 0x48 h .exact [0] s.chip)))) ∧
  (∀ (h : CmdHead) (s : State), takes (.trimAbandon h) s = true →
     (s.chip.clips.trim = none →
       exec (.trimAbandon h) s = .next (s.taken (refusedBy 0x4A h .wrongState s.chip))) ∧
     (∀ (t : TrimSession) (k : Clip) (cl : List Clamp), s.chip.clips.trim = some t →
       findClip s.chip t.clip = some k →
       cl = k.feeds.flatMap (fun x => (restoreFeed s.chip t.saved x).2) →
       ∃ y d, TrimEffect { s.chip with clips.trim := none } k y d ∧
         y.feeds = k.feeds.map (fun x => (restoreFeed s.chip t.saved x).1) ∧
         exec (.trimAbandon h) s =
           .next (s.taken (completedBy 0x4A h (trimCode cl) [byteOf (clampedFeeds cl)]
             (serveIfNew s.chip
               (if nonBare y ≠ t.saved ∧ s.chip.sched.notify = true then
                 joinLabel { kind := 0, number := t.clip, data := noticeBody y, cursor := 0 } d
               else d)))))) ∧
  (∀ (c : Chip) (saved : List ClipFeed) (x y : ClipFeed) (a b lo hi : Count32),
     (saved.find? (fun z => z.feed == x.feed) = none → restoreFeed c saved x = (x, [])) ∧
     (saved.find? (fun z => z.feed == x.feed) = some y → y.inSeq = some a → y.outSeq = some b →
       oldestSeq c x.feed = some lo → newestSeq c x.feed = some hi →
       (seqBefore a lo = false → seqBefore b a = false → seqBefore hi b = false →
         restoreFeed c saved x = ({ x with inSeq := some a, outSeq := some b }, [])) ∧
       (seqBefore a lo = true → seqBefore b lo = false → seqBefore hi b = false →
         restoreFeed c saved x =
           ({ x with inSeq := some lo, outSeq := some b },
             [{ feed := x.feed, amount := (lo - a).toNat, low := true }])) ∧
       (seqBefore a lo = false → seqBefore hi b = true → seqBefore hi a = false →
         restoreFeed c saved x =
           ({ x with inSeq := some a, outSeq := some hi },
             [{ feed := x.feed, amount := (b - hi).toNat, low := false }])) ∧
       (seqBefore a lo = true → seqBefore b lo = true → seqBefore hi b = false →
         restoreFeed c saved x =
           ({ x with inSeq := some lo, outSeq := some lo },
             [{ feed := x.feed, amount := (lo - a).toNat, low := true },
              { feed := x.feed, amount := (lo - b).toNat, low := true }])) ∧
       (seqBefore hi lo = false → ∃ i j, (restoreFeed c saved x).1 =
           { x with inSeq := some i, outSeq := some j } ∧
         seqBefore i lo = false ∧ seqBefore j i = false ∧ seqBefore hi j = false)))

/-- TRIM MOVE in a session: in every feed of the clip that is not bare the point moves by delta and stops at
a bound it passes, IN between the oldest sequence and the out point, OUT between the in point and the newest
completed one; a bare feed keeps its points. Each feed's units have the hold changes at once, the house
counts are renewed from the first such feed, and the command completes EXACT with no feed clamped, else
CLAMPED_LOW or CLAMPED_HIGH by the point clamped by the most sequences, ties to the lowest feed; the payload
counts the feeds clamped (R140, R148, in the order of R134). The clauses for one listed feed say the same of
a clip that lists it alone. Bounds that contradict each other are left out (DESIGN CHOICE, log 16). -/
def Obligations.TrimMovePoints : Prop :=
  (∀ (h : CmdHead) (point : Byte) (delta : BitVec 32) (s : State) (t : TrimSession) (k : Clip)
    (x : ClipFeed) (a b lo hi : Count32),
    takes (.trimMove h point delta) s = true → s.chip.clips.trim = some t →
    findClip s.chip t.clip = some k → k.feeds = [x] → x.inSeq = some a → x.outSeq = some b →
    oldestSeq s.chip x.feed = some lo → newestSeq s.chip x.feed = some hi →
    point.toNat ≤ 1 → delta ≠ 0 → -30000 ≤ delta.toInt → delta.toInt ≤ 30000 →
    ∃ code n d y, exec (.trimMove h point delta) s =
        .next (s.taken (completedBy 0x48 h code [n] d)) ∧
      d.clips.list = s.chip.clips.list.map (fun z => if z.number = k.number then y else z) ∧
      d.sched = s.chip.sched ∧ d.paths = s.chip.paths ∧ d.feeds = s.chip.feeds ∧
      d.clips.trim = some t ∧
      y = { k with feeds := y.feeds, inHouse := y.inHouse, outHouse := y.outHouse } ∧
      (point = 0 → seqBefore (a + delta) lo = false → seqBefore b (a + delta) = false →
        y.feeds = [{ x with inSeq := some (a + delta) }] ∧ code = .exact ∧ n = 0) ∧
      (point = 0 → seqBefore (a + delta) lo = true → seqBefore b lo = false →
        y.feeds = [{ x with inSeq := some lo }] ∧ code = .clampedLow ∧ n = 1) ∧
      (point = 0 → seqBefore (a + delta) lo = false → seqBefore b (a + delta) = true →
        seqBefore b lo = false →
        y.feeds = [{ x with inSeq := some b }] ∧ code = .clampedHigh ∧ n = 1) ∧
      (point = 1 → seqBefore (b + delta) a = false → seqBefore hi (b + delta) = false →
        y.feeds = [{ x with outSeq := some (b + delta) }] ∧ code = .exact ∧ n = 0) ∧
      (point = 1 → seqBefore (b + delta) a = true → seqBefore hi a = false →
        y.feeds = [{ x with outSeq := some a }] ∧ code = .clampedLow ∧ n = 1) ∧
      (point = 1 → seqBefore (b + delta) a = false → seqBefore hi (b + delta) = true →
        seqBefore hi a = false →
        y.feeds = [{ x with outSeq := some hi }] ∧
        code = .clampedHigh ∧ n = 1)) ∧
  (∀ (h : CmdHead) (point : Byte) (delta : BitVec 32) (s : State) (t : TrimSession) (k : Clip)
    (cl : List Clamp),
    takes (.trimMove h point delta) s = true → s.chip.clips.trim = some t →
    findClip s.chip t.clip = some k → point.toNat ≤ 1 → delta ≠ 0 →
    -30000 ≤ delta.toInt → delta.toInt ≤ 30000 →
    cl = k.feeds.flatMap (fun x => (moveFeed s.chip (point == 0) delta x).2) →
    ∃ y d, TrimEffect s.chip k y d ∧
      y.feeds = k.feeds.map (fun x => (moveFeed s.chip (point == 0) delta x).1) ∧
      exec (.trimMove h point delta) s =
        .next (s.taken (completedBy 0x48 h (trimCode cl) [byteOf (clampedFeeds cl)] d))) ∧
  (∀ (c : Chip) (x : ClipFeed) (a b lo hi delta : Count32),
    ((x.inSeq = none ∨ x.outSeq = none) → ∀ isIn, moveFeed c isIn delta x = (x, [])) ∧
    (x.inSeq = some a → x.outSeq = some b →
      oldestSeq c x.feed = some lo → newestSeq c x.feed = some hi →
      (seqBefore (a + delta) lo = false → seqBefore b (a + delta) = false →
        moveFeed c true delta x = ({ x with inSeq := some (a + delta) }, [])) ∧
      (seqBefore (a + delta) lo = true → seqBefore b lo = false →
        moveFeed c true delta x =
          ({ x with inSeq := some lo },
            [{ feed := x.feed, amount := (lo - (a + delta)).toNat, low := true }])) ∧
      (seqBefore (a + delta) lo = false → seqBefore b (a + delta) = true → seqBefore b lo = false →
        moveFeed c true delta x =
          ({ x with inSeq := some b },
            [{ feed := x.feed, amount := (a + delta - b).toNat, low := false }])) ∧
      (seqBefore (b + delta) a = false → seqBefore hi (b + delta) = false →
        moveFeed c false delta x = ({ x with outSeq := some (b + delta) }, [])) ∧
      (seqBefore (b + delta) a = true → seqBefore hi a = false →
        moveFeed c false delta x =
          ({ x with outSeq := some a },
            [{ feed := x.feed, amount := (a - (b + delta)).toNat, low := true }])) ∧
      (seqBefore (b + delta) a = false → seqBefore hi (b + delta) = true → seqBefore hi a = false →
        moveFeed c false delta x =
          ({ x with outSeq := some hi },
            [{ feed := x.feed, amount := (b + delta - hi).toNat, low := false }])))) ∧
  (∀ cl : List Clamp,
    (cl = [] → trimCode cl = .exact) ∧
    (∀ m ∈ cl,
      (∀ x ∈ cl, x = m ∨ x.amount < m.amount ∨ (x.amount = m.amount ∧ m.feed < x.feed)) →
      trimCode cl = if m.low = true then .clampedLow else .clampedHigh) ∧
    ((cl.map (·.feed)).Nodup → clampedFeeds cl = cl.length))

/-! ### Uplink paths -/

/-- PATH SET: BAD_ARG for a path above 3, an enable above 1 or a host cap above 400000; ON from DISABLED
enters TRAINING with reason ENABLED; ON in another state sets the host cap alone, and so does OFF in
DISABLED; OFF in another state disables the path (R154). PATH RETRAIN: BAD_ARG, BUSY and WRONG_STATE as
R159 orders them; in any other state the command joins the in-flight list on the path, which goes down if
it was UP and enters TRAINING with reason RETRAIN and failed attempts 0 (R159), its STATE naming how many
fragments were returned (R178; its place: DESIGN CHOICE, log 38; failed attempts in STATE 0: DESIGN
CHOICE, log 41). The PATH reports and the serve come before a completed PATH SET's own RESULT (DESIGN
CHOICE, log 7). -/
def Obligations.PathCommands : Prop :=
  (∀ (h : CmdHead) (path enable : Byte) (cap : BitVec 32) (s : State),
     takes (.pathSet h path enable cap) s = true →
     ((3 < path.toNat ∨ 1 < enable.toNat ∨ 400000 < cap.toNat) →
       exec (.pathSet h path enable cap) s = .next (s.taken (refusedBy 0x50 h .badArg s.chip))) ∧
     (∀ p : Fin 4, path.toNat = p.val → cap.toNat ≤ 400000 →
       (enable = 1 → s.chip.paths[p].state = .disabled →
         exec (.pathSet h path enable cap) s =
           .next (s.taken (completedBy 0x50 h .done []
             (serveIfNew s.chip
               (changeState p .enabled 0
                 { s.chip.paths[p] with
                   hostCap := cap.toNat, failed := 0, state := .training, good := 0,
                   trainingTimer := some 1, window := some 2000, offerTimer := none,
                   negotiation := none }
                 (setPath s.chip p
                   { s.chip.paths[p] with hostCap := cap.toNat, failed := 0 })))))) ∧
       ((enable = 1 ∧ s.chip.paths[p].state ≠ .disabled ∨
           enable = 0 ∧ s.chip.paths[p].state = .disabled) →
         exec (.pathSet h path enable cap) s =
           .next (s.taken (completedBy 0x50 h .done []
             (serveIfNew s.chip
               (setPath s.chip p { s.chip.paths[p] with hostCap := cap.toNat }))))) ∧
       (enable = 0 → s.chip.paths[p].state ≠ .disabled →
         exec (.pathSet h path enable cap) s =
           .next (s.taken (completedBy 0x50 h .done []
             (serveIfNew s.chip
               (disablePath p
                 (setPath s.chip p { s.chip.paths[p] with hostCap := cap.toNat })))))))) ∧
  (∀ (h : CmdHead) (path : Byte) (s : State), takes (.pathRetrain h path) s = true →
     (3 < path.toNat →
       exec (.pathRetrain h path) s = .next (s.taken (refusedBy 0x51 h .badArg s.chip))) ∧
     (∀ p : Fin 4, path.toNat = p.val →
       (inFlight (.path p) s.chip = true →
         exec (.pathRetrain h path) s = .next (s.taken (refusedBy 0x51 h .busy s.chip))) ∧
       (inFlight (.path p) s.chip = false → s.chip.paths[p].state = .disabled →
         exec (.pathRetrain h path) s = .next (s.taken (refusedBy 0x51 h .wrongState s.chip))) ∧
       (inFlight (.path p) s.chip = false → s.chip.paths[p].state ≠ .disabled →
         exec (.pathRetrain h path) s =
           .next (s.taken (conclude 0x51 h s.chip (.begun (.path p)
             (serveIfNew s.chip
               (enterTraining p .retrain (returnCount p s.chip)
                 (clearFailed p (goDown p true s.chip))))))))))

/-- A change of a path's state: the record takes the new state's values with the pacing cap of the allocation
run at the change, cause PATH is pending, and the UP count follows a change into or out of UP (R122, R153,
R169); the control words that waited are dropped (DESIGN CHOICE, log 15). A change to UP, FAILED or
DISABLED completes the path's PATH RETRAIN in flight with that state as payload, after STATE was asked for
(this order: DESIGN CHOICE, log 7), and a change to another state leaves it in flight (R159). Going down:
the frame on the link stops, a control word goes on (log 15), the queue leaves the path, the timers of UP
stop, credit and pacing cap are 0, held is clear, and level, MTU, ceiling and reported capacity are
dropped (R157). STATE names the path, both states, the reason, the failed attempts, level, MTU and ceiling
as the new record holds them, so after PATH SET OFF and on entering UP the failed attempts 0 (R153; DESIGN
CHOICE, log 41), and the number of fragments a going-down returned (R178; its place: DESIGN CHOICE, log
38). What the states leave in the record: TRAINING the good count 0 with its timer and window; NEGOTIATING
the good count 0 (DEDUCED, log 40), its two timers and an OFFER sent at once or waiting for the link;
FAILED a quiet link, no timer and the good count as it stood (DESIGN CHOICE, log 42); DISABLED by PATH SET
OFF a quiet link and no timer, with the good count, failed attempts and errors 0 and DEGRADED clear (R154
to R156). -/
def Obligations.PathStateChanges : Prop :=
  (∀ (p : Fin 4) (reason : PathReason) (n : Nat) (r : PathRec) (c : Chip),
     (changeState p reason n r c).paths[p] =
       { r with due := [], pacingCap := pathCap r } ∧
     (∀ q : Fin 4, q ≠ p → (changeState p reason n r c).paths[q] =
       { c.paths[q] with pacingCap := pathCap c.paths[q] }) ∧
     (changeState p reason n r c).cmd.pendingSet.getLsbD 2 = true ∧
     (changeState p reason n r c).feeds = c.feeds ∧ (changeState p reason n r c).rings = c.rings ∧
     (changeState p reason n r c).tally.upCount =
       if r.state = .up then c.tally.upCount + 1
       else if c.paths[p].state = .up then c.tally.upCount - 1 else c.tally.upCount) ∧
  (∀ (p : Fin 4) (reason : PathReason) (n : Nat) (r : PathRec) (c : Chip),
     ((r.state = .training ∨ r.state = .negotiating) →
       (changeState p reason n r c).cmd.inflight = c.cmd.inflight) ∧
     (∀ k : Byte,
       (r.state = .up ∧ k = 3 ∨ r.state = .failed ∧ k = 4 ∨ r.state = .disabled ∧ k = 0) →
       (∃ d, changeState p reason n r c = finishObject (.path p) [k] d ∧
         d.cmd.inflight = c.cmd.inflight ∧ d.cmd.pendingSet.getLsbD 2 = true) ∧
       ∀ e, c.cmd.inflight.find? (fun x => x.object == .path p) = some e →
         (∀ x ∈ c.cmd.inflight, x.object = .path p → x.ident = e.ident) →
         (∀ x ∈ (changeState p reason n r c).cmd.inflight, x.object ≠ .path p) ∧
         (e.always = true → (changeState p reason n r c).cmd.pendingSet.getLsbD 1 = true) ∧
         ((∀ x ∈ c.cmd.inflight, x.object ≠ .fence) →
           ∃ d, d.cmd.inflight = c.cmd.inflight ∧ d.cmd.pendingSet.getLsbD 2 = true ∧
             changeState p reason n r c = endEntry e .done [k] d))) ∧
  (∀ (p : Fin 4) (reason : PathReason) (n : Nat) (old : PathState) (r : PathRec) (c d : Chip),
     old = c.paths[p].state →
     d = allocate
       (askReport .path
         (reportBody 0
           ([byteOf p.val, byteOf (pathStateCode old), byteOf (pathStateCode r.state),
               byteOf (reasonCode reason), byteOf r.failed, byteOf r.level] ++
             leNat16 r.mtu ++ leNat32 r.ceiling ++ [byteOf n]))
         (setPath c p { r with due := [] })) →
     ((r.state = .training ∨ r.state = .negotiating) →
       changeState p reason n r c = if old = .up then pathWentDown d else d) ∧
     ((r.state = .failed ∨ r.state = .disabled) →
       changeState p reason n r c =
         finishObject (.path p) [byteOf (pathStateCode r.state)]
           (if old = .up then pathWentDown d else d)) ∧
     (r.state = .up → changeState p reason n r c = finishObject (.path p) [3] (pathCameUp d))) ∧
  (∀ (p : Fin 4) (c : Chip),
     (c.paths[p].state = .up → returnCount p c = c.paths[p].queue.length) ∧
     (c.paths[p].state ≠ .up → returnCount p c = 0) ∧
     disablePath p c =
       changeState p .disabled (returnCount p c)
         { (goDown p true c).paths[p] with
           state := .disabled, link := .quiet, good := 0, failed := 0, errors := 0,
           degraded := false, trainingTimer := none, window := none, offerTimer := none,
           negotiation := none }
         (goDown p true c)) ∧
  (∀ (p : Fin 4) (returning : Bool) (c : Chip), c.paths[p].state = .up →
     (goDown p returning c).paths[p] =
       { c.paths[p] with
         link := match c.paths[p].link with
           | .frame _ _ => .quiet
           | .quiet => .quiet
           | .word w => .word w
         queue := [], silence := none, hold := none, pacing := none, credit := 0, pacingCap := 0,
         held := false, level := 0, mtu := 0, ceiling := 0, reported := 0 } ∧
     (returning = false → (goDown p returning c).sched = c.sched) ∧
     ∀ q : Fin 4, q ≠ p → (goDown p returning c).paths[q] = c.paths[q]) ∧
  (∀ (p : Fin 4) (reason : PathReason) (n : Nat) (c : Chip) (r : PathRec), r = c.paths[p] →
     (enterTraining p reason n c).paths[p] =
       { r with
         state := .training, good := 0, trainingTimer := some 1, window := some 2000,
         offerTimer := none, negotiation := none, due := [], pacingCap := 0 } ∧
     (enterNegotiating p c).paths[p] =
       { r with
         state := .negotiating, good := 0, trainingTimer := none, window := none,
         offerTimer := some 10, negotiation := some 100, pacingCap := 0,
         link := if r.link = .quiet then .word .offer else r.link,
         due := if r.link = .quiet then [] else [.offer] } ∧
     (enterFailed p c).paths[p] =
       { r with
         state := .failed, link := .quiet, trainingTimer := none, window := none,
         offerTimer := none, negotiation := none, due := [], pacingCap := 0 } ∧
     (r.state ≠ .up →
       (disablePath p c).paths[p] =
         { r with
           state := .disabled, link := .quiet, good := 0, failed := 0, errors := 0,
           degraded := false, trainingTimer := none, window := none, offerTimer := none,
           negotiation := none, due := [], pacingCap := 0 }) ∧
     (r.state = .up →
       (disablePath p c).paths[p] =
         { r with
           state := .disabled, link := .quiet, good := 0, failed := 0, errors := 0,
           degraded := false, trainingTimer := none, window := none, offerTimer := none,
           negotiation := none, due := [], pacingCap := 0, queue := [], silence := none,
           hold := none, pacing := none, credit := 0, held := false, level := 0, mtu := 0,
           ceiling := 0, reported := 0 }))

/-- TRAINING_TIMER and OFFER_TIMER send a TRAIN word and an OFFER on a quiet link and restart at 1 ms and 10
ms; on a busy link the word waits (R155, R156, R165). TRAINING_WINDOW before the 8th failed attempt counts
one, with the good count 0 and the window restarted; at the 8th, and so for NEGOTIATION_TIMER, the path
enters FAILED with reason ATTEMPTS, its good count kept (DESIGN CHOICE, log 42); before it
NEGOTIATION_TIMER takes the path back to TRAINING with reason NO_ACCEPT (R155, R156); a serve comes after
the event's reports (DESIGN CHOICE, log 7). -/
def Obligations.HandshakeTimers : Prop :=
  (∀ (p : Fin 4) (s : State), s.chip.resetHeld = false →
     (s.chip.paths[p].trainingTimer.isSome = true →
       exec (.trainingTimer p) s =
         .next { s with
           chip := setPath s.chip p
             (if s.chip.paths[p].link = .quiet then
               { s.chip.paths[p] with trainingTimer := some 1, link := .word .train }
             else
               { s.chip.paths[p] with
                 trainingTimer := some 1, due := s.chip.paths[p].due ++ [.train] }) }) ∧
     (s.chip.paths[p].offerTimer.isSome = true →
       exec (.offerTimer p) s =
         .next { s with
           chip := setPath s.chip p
             (if s.chip.paths[p].link = .quiet then
               { s.chip.paths[p] with offerTimer := some 10, link := .word .offer }
             else
               { s.chip.paths[p] with
                 offerTimer := some 10, due := s.chip.paths[p].due ++ [.offer] }) })) ∧
  (∀ (p : Fin 4) (s : State), s.chip.resetHeld = false →
     (s.chip.paths[p].window.isSome = true →
       (s.chip.paths[p].failed + 1 < 8 →
         exec (.trainingWindow p) s =
           .next { s with
             chip := serveIfNew s.chip (setPath s.chip p
               { s.chip.paths[p] with
                 failed := s.chip.paths[p].failed + 1, good := 0, window := some 2000 }) }) ∧
       (8 ≤ s.chip.paths[p].failed + 1 →
         exec (.trainingWindow p) s =
           .next { s with
             chip := serveIfNew s.chip
               (enterFailed p (setPath s.chip p
                 { s.chip.paths[p] with failed := s.chip.paths[p].failed + 1 })) })) ∧
     (s.chip.paths[p].negotiation.isSome = true →
       exec (.negotiationTimer p) s =
         .next { s with
           chip := serveIfNew s.chip
             (if s.chip.paths[p].failed + 1 < 8 then
               enterTraining p .noAccept 0 (setPath s.chip p
                 { s.chip.paths[p] with failed := s.chip.paths[p].failed + 1 })
             else
               enterFailed p (setPath s.chip p
                 { s.chip.paths[p] with failed := s.chip.paths[p].failed + 1 })) }))

/-- PATH_SILENCE_TIMER takes an UP path down into TRAINING with reason SILENCE, its STATE naming how many
fragments were returned; HOLD_TIMER hands the queue to the return list and asks for HOLD_LIMIT with its
length, the path staying as it is; the scheduler serves after the event's reports (R158, R161; that order:
DESIGN CHOICE, log 7; the place of the number in STATE: DESIGN CHOICE, log 38). The return list: a
fragment of a unit whose record has gone is discarded; any other joins the tail as one entry with its
item, offset and bytes, a live unit becoming a member again; at 16 entries the oldest is dropped first. A
queue is handed back oldest first and leaves the path (R157, R178). -/
def Obligations.SilenceAndHoldLimit : Prop :=
  (∀ (p : Fin 4) (s : State), s.chip.resetHeld = false →
    (s.chip.paths[p].silence.isSome = true →
      exec (.pathSilenceTimer p) s =
        .next { s with
          chip := serveIfNew s.chip
            (enterTraining p .silence (returnCount p s.chip) (goDown p true s.chip)) }) ∧
    (s.chip.paths[p].hold.isSome = true →
      exec (.holdTimer p) s =
        .next { s with
          chip := serveIfNew s.chip
            (askReport .path
              (reportBody 1 [byteOf p.val, byteOf s.chip.paths[p].queue.length])
              (returnQueue p (setPath s.chip p { s.chip.paths[p] with hold := none }))) })) ∧
  (∀ (f : Fragment) (c : Chip),
    (∀ g q n, (f.item = .liveUnit g q ∨ f.item = .clipUnit n g q) → findUnit c g q = none →
      returnFragment f c = c) ∧
    ((∀ g q, f.item ≠ .liveUnit g q) →
      (∀ n g q, f.item = .clipUnit n g q → findUnit c g q ≠ none) →
      (c.sched.returns.length < 16 →
        returnFragment f c = { c with sched.returns := c.sched.returns ++ [returned f] }) ∧
      (∀ r rest, c.sched.returns = r :: rest → 16 ≤ c.sched.returns.length →
        (returnFragment f c).sched = { c.sched with returns := rest ++ [returned f] } ∧
        (returnFragment f c).paths = c.paths)) ∧
    (∀ g q, f.item = .liveUnit g q → findUnit c g q ≠ none →
      (∀ u ∈ (returnFragment f c).rings[g].units, u.complete = true → u.seq = q → u.live = true) ∧
      (returnFragment f c).paths = c.paths ∧
      (c.sched.returns.length < 16 →
        (returnFragment f c).sched = { c.sched with returns := c.sched.returns ++ [returned f] }) ∧
      (∀ r rest, c.sched.returns = r :: rest → 16 ≤ c.sched.returns.length →
        (returnFragment f c).sched = { c.sched with returns := rest ++ [returned f] }))) ∧
  (∀ (p : Fin 4) (c : Chip),
    (returnQueue p c).paths[p] = { c.paths[p] with queue := [] } ∧
    (∀ q : Fin 4, q ≠ p → (returnQueue p c).paths[q] = c.paths[q]) ∧
    (c.sched.returns.length + c.paths[p].queue.length ≤ 16 →
      (returnQueue p c).sched =
        { c.sched with
          returns := c.sched.returns ++
            (c.paths[p].queue.filter fun f => itemStands c f.item).map returned }))

/-- PACING_TICK: credit rises by pacing cap times 10, limited to pacing cap times 50; a path that sent nothing
since the tick before and has no frame on its link sends an IDLE word, which waits while another word is
on the link; the scheduler serves (R163, R165; what counts as sent: DESIGN CHOICE, log 15; the IDLE word is
decided before the scheduler serves: DESIGN CHOICE, log 7). -/
def Obligations.PacingTickCredit : Prop :=
  ∀ (p : Fin 4) (s : State) (r : PathRec), s.chip.resetHeld = false →
    s.chip.paths[p].pacing.isSome = true →
    r = { s.chip.paths[p] with
      credit := min (50 * s.chip.paths[p].pacingCap)
        (s.chip.paths[p].credit + 10 * s.chip.paths[p].pacingCap)
      sent := false
      pacing := some 10 } →
    ((s.chip.paths[p].sent = true ∨ ∃ f got, s.chip.paths[p].link = .frame f got) →
      exec (.pacingTick p) s = .next { s with chip := serveIfNew s.chip (setPath s.chip p r) }) ∧
    (s.chip.paths[p].sent = false → s.chip.paths[p].link = .quiet →
      exec (.pacingTick p) s =
        .next { s with
          chip := serveIfNew s.chip (setPath s.chip p { r with link := .word .idle }) }) ∧
    (∀ w, s.chip.paths[p].sent = false → s.chip.paths[p].link = .word w →
      exec (.pacingTick p) s =
        .next { s with
          chip := serveIfNew s.chip (setPath s.chip p { r with due := r.due ++ [.idle] }) })

/-- TRANSMISSION_END and CONTROL_WORD_END, with no path able to take more: the link falls quiet, a waiting
word goes out first, and else the head fragment of an UP path that is not held (R163, R165; the order of a
word and a frame: DESIGN CHOICE, log 15). A transmission begins only on an UP path that is not held, with
a quiet link, no word waiting and a fragment queued; for the memory lines of a unit fragment's data in
address order, an own read with the path, the uplink sequence and the line is issued for each that pending
own writes do not cover, and a covered line is taken from them, judged at the beginning (R13, R14, R165;
DEDUCED, log 10). A serve goes to the ready path of the greatest credit, the lower number among equals,
and to the first source with bytes: the return list's head, the AUDIO frame, the LABEL message, the LIVE
queue's unit after ageing, the head clip's unit. The cut is the item's remainder, at most the path's MTU -
28; the fragment takes the next uplink sequence, joins that path's queue, and the credit falls by the
frame's bits (R163, R164, R172 to R176). -/
def Obligations.LinkTransmits : Prop :=
  (∀ (p : Fin 4) (s : State) (r : PathRec), s.chip.resetHeld = false →
     (∀ q : Fin 4, ready s.chip.paths[q] = false) →
     (∀ i : Instr, (i = .transmissionEnd p ∧ (∃ f got, s.chip.paths[p].link = .frame f got) ∧
           r = { s.chip.paths[p] with sent := true }) ∨
         (i = .controlWordEnd p ∧ (∃ w, s.chip.paths[p].link = .word w) ∧ r = s.chip.paths[p]) →
       (∀ w more, r.due = w :: more →
         exec i s =
           .next { s with
             chip := setPath s.chip p { r with link := .word w, due := more, sent := true } }) ∧
       (r.due = [] → (r.queue = [] ∨ r.state ≠ .up ∨ r.held = true) →
         exec i s = .next { s with chip := setPath s.chip p { r with link := .quiet } }) ∧
       (∀ f rest, r.due = [] → r.queue = f :: rest → r.state = .up → r.held = false →
         r.credit ≤ 0 →
         ∃ t got, exec i s = .next t ∧ t.dram = s.dram ∧ t.intake = s.intake ∧
           t.chip.paths[p] = { r with queue := rest, link := .frame f got, sent := true } ∧
           t.chip.sched = s.chip.sched))) ∧
  (∀ (p : Fin 4) (c : Chip) (f : Fragment) (rest : List Fragment),
     c.paths[p].queue = f :: rest → c.paths[p].state = .up → c.paths[p].held = false →
     c.paths[p].link = .quiet → c.paths[p].due = [] →
     (beginTransmission p c).paths[p].queue = rest ∧
     (∃ got, (beginTransmission p c).paths[p].link = .frame f got ∧
       got.length = (fragmentLines f).length ∧
       got = (fragmentLines f).map fun a =>
         if covered c.mem.buffer a then some (mergePending c.mem.buffer a zeroLine) else none) ∧
     (beginTransmission p c).mem.ownReads.length =
       c.mem.ownReads.length +
         (fragmentLines f).countP (fun a => !covered c.mem.buffer a) ∧
     (beginTransmission p c).mem.ownReads =
       c.mem.ownReads ++ (fragmentLines f).zipIdx.filterMap (fun x =>
         if covered c.mem.buffer x.1 then none
         else some { path := p, seq := f.seq, addr := x.1, index := x.2 }) ∧
     (beginTransmission p c).mem.buffer = c.mem.buffer ∧
     (fragmentLines f).Pairwise (· < ·) ∧
     ((∀ n, f.item ≠ .audio n) → (∀ k n, f.item ≠ .message k n) → 0 < f.length →
       ∀ a, a ∈ fragmentLines f ↔
         a % 64 = 0 ∧ a < f.addr + f.offset + f.length ∧ f.addr + f.offset < a + 64) ∧
     (((∃ n, f.item = .audio n) ∨ ∃ k n, f.item = .message k n) → fragmentLines f = []) ∧
     (beginTransmission p c).sched = c.sched) ∧
  (∀ c : Chip,
     (∀ r : PathRec, ready r = true ↔
       r.state = .up ∧ r.held = false ∧ r.queue.length < 4 ∧ 0 < r.credit) ∧
     (bestReady c = none ↔ ∀ q : Fin 4, ready c.paths[q] = false) ∧
     ∀ p : Fin 4, bestReady c = some p ↔ ready c.paths[p] = true ∧
       ∀ q : Fin 4, ready c.paths[q] = true → q ≠ p →
         c.paths[q].credit < c.paths[p].credit ∨ c.paths[q].credit = c.paths[p].credit ∧ p < q) ∧
  (∀ (p : Fin 4) (cls : UplinkClass) (item : Item) (addr off total k : Nat) (data : List Byte)
     (c : Chip),
     hand p cls item addr off total k data c =
       beginTransmission p
         (setPath { c with sched.seq := c.sched.seq + 1 } p
           { c.paths[p] with
             queue := c.paths[p].queue ++
               [{ seq := c.sched.seq, cls := cls, item := item, addr := addr, offset := off,
                  itemLength := total, length := k, data := data }]
             credit := c.paths[p].credit - 8 * ((k : Int) + 28) })) ∧
  (∀ (c : Chip) (p : Fin 4) (k : Nat),
     (bestReady c = none → serveOnce c = (c, false)) ∧
     (bestReady c = some p →
       (∀ r rest, c.sched.returns = r :: rest → k = min (c.paths[p].mtu - 28) r.length →
         serveOnce c =
           (settleMember r.item
             (hand p r.cls r.item r.addr r.offset r.itemLength k (r.data.take k)
               { c with
                 sched.returns :=
                   if k < r.length then
                     { r with
                       offset := r.offset + k, length := r.length - k, data := r.data.drop k } :: rest
                   else rest }), true)) ∧
       (∀ a rest, c.sched.returns = [] → c.sched.audio = a :: rest →
         k = min (c.paths[p].mtu - 28) (a.data.length - a.cursor) →
         serveOnce c =
           (hand p .audio (.audio a.first) 0 a.cursor a.data.length k ((a.data.drop a.cursor).take k)
             { c with
               sched.audio :=
                 if a.cursor + k < a.data.length then { a with cursor := a.cursor + k } :: rest
                 else rest }, true)) ∧
       (∀ m rest, c.sched.returns = [] → c.sched.audio = [] → c.sched.label = m :: rest →
         k = min (c.paths[p].mtu - 28) (m.data.length - m.cursor) →
         serveOnce c =
           (hand p .label (.message m.kind m.number) 0 m.cursor m.data.length k
             ((m.data.drop m.cursor).take k)
             { c with
               sched.label :=
                 if m.cursor + k < m.data.length then { m with cursor := m.cursor + k } :: rest
                 else rest }, true)) ∧
       (∀ d, c.sched.returns = [] → c.sched.audio = [] → c.sched.label = [] →
         d = ageLive c.sched.live.length c →
         (∀ i, earliestLive d = some i → k = min (c.paths[p].mtu - 28) (i.length - i.cursor) →
           serveOnce c =
             (settleMember (.liveUnit i.feed i.seq)
               (hand p .live (.liveUnit i.feed i.seq) i.addr i.cursor i.length k []
                 { d with
                   sched.live :=
                     if i.cursor + k < i.length then
                       d.sched.live.map fun x =>
                         if x.feed = i.feed ∧ x.seq = i.seq then { x with cursor := i.cursor + k }
                         else x
                     else d.sched.live.filter fun x => !(x.feed == i.feed && x.seq == i.seq) }),
               true)) ∧
         (earliestLive d = none → c.sched.clipQ = [] → serveOnce c = (d, false)) ∧
         (∀ q rest u us, earliestLive d = none → c.sched.clipQ = q :: rest → q.units = u :: us →
           k = min (c.paths[p].mtu - 28) (u.length - u.cursor) →
           serveOnce c =
             (clipHanded q.clip k
               (hand p .clip (.clipUnit q.clip u.feed u.seq) u.addr u.cursor u.length k []
                 { d with
                   sched.clipQ :=
                     if u.cursor + k < u.length then
                       { q with units := { u with cursor := u.cursor + k } :: us } :: rest
                     else if us = [] then rest else { q with units := us } :: rest }), true)))))

/-- TRAIN received: in TRAINING the good count rises and the third word takes the path to NEGOTIATING, where
the good count is 0 (DEDUCED, log 40); in UP the path goes down into TRAINING with the good count at 1,
its STATE naming how many fragments were returned (R178); in the other states it is discarded (R155, R156,
R158). ACCEPT received in NEGOTIATING: in range it takes the path UP with its level, MTU and ceiling, the
initial capacity limited to the ceiling at level 2, credit 0, held clear and failed attempts 0, as its
STATE names them (DESIGN CHOICE, log 41); out of range it is one local error; in UP it restarts the
silence timer; elsewhere it is discarded (R156, R157, R160, R162). A serve comes after the event's reports
(DESIGN CHOICE, log 7; the number in STATE: log 38). -/
def Obligations.HandshakeReceived : Prop :=
  (∀ (p : Fin 4) (s : State), s.chip.resetHeld = false →
     (s.chip.paths[p].state = .training → s.chip.paths[p].good < 2 →
       exec (.train p) s =
         .next { s with
           chip := serveIfNew s.chip (setPath s.chip p
             { s.chip.paths[p] with good := s.chip.paths[p].good + 1 }) }) ∧
     (s.chip.paths[p].state = .training → 2 ≤ s.chip.paths[p].good →
       exec (.train p) s =
         .next { s with
           chip := serveIfNew s.chip (enterNegotiating p (setPath s.chip p
             { s.chip.paths[p] with good := s.chip.paths[p].good + 1 })) }) ∧
     (∀ d, s.chip.paths[p].state = .up →
       d = enterTraining p .modemTraining (returnCount p s.chip) (goDown p true s.chip) →
       exec (.train p) s =
         .next { s with
           chip := serveIfNew s.chip (setPath d p { d.paths[p] with good := 1 }) }) ∧
     ((s.chip.paths[p].state = .disabled ∨ s.chip.paths[p].state = .negotiating ∨
         s.chip.paths[p].state = .failed) → exec (.train p) s = .next s)) ∧
  (∀ (p : Fin 4) (level : Byte) (mtu : BitVec 16) (ceiling initial : BitVec 24) (s : State),
     s.chip.resetHeld = false →
     (s.chip.paths[p].state = .negotiating →
       (level = 1 ∨ level = 2) → 256 ≤ mtu.toNat → mtu.toNat ≤ 1500 → 100 ≤ ceiling.toNat →
       ceiling.toNat ≤ 400000 →
       exec (.accept p level mtu ceiling initial) s =
         .next { s with
           chip := serveIfNew s.chip (changeState p .accepted 0
             { s.chip.paths[p] with
               state := .up, level := level.toNat, mtu := mtu.toNat, ceiling := ceiling.toNat,
               reported := if level = 2 then min initial.toNat ceiling.toNat else 0,
               failed := 0, credit := 0, held := false, queue := [], sent := false,
               offerTimer := none, negotiation := none, silence := some 250, pacing := some 10 }
             s.chip) }) ∧
     (s.chip.paths[p].state = .negotiating →
       ((level ≠ 1 ∧ level ≠ 2) ∨ mtu.toNat < 256 ∨ 1500 < mtu.toNat ∨ ceiling.toNat < 100 ∨
         400000 < ceiling.toNat) →
       exec (.accept p level mtu ceiling initial) s =
         .next { s with
           chip := serveIfNew s.chip (setPath s.chip p
             { s.chip.paths[p] with errors := min 65535 (s.chip.paths[p].errors + 1) }) }) ∧
     ((s.chip.paths[p].state = .disabled ∨ s.chip.paths[p].state = .training ∨
         s.chip.paths[p].state = .failed) →
       exec (.accept p level mtu ceiling initial) s = .next s) ∧
     (s.chip.paths[p].state = .up → (∀ q : Fin 4, ready s.chip.paths[q] = false) →
       exec (.accept p level mtu ceiling initial) s =
         .next { s with
           chip := setPath s.chip p { s.chip.paths[p] with silence := some 250 } }))

/-- OFFER, IDLE, a good fragment frame and a good return message of unknown kind have no effect but the
restart of an UP path's silence timer (R155, R156, R158, R160, R166, R187); such a message longer than the
path's data limit fails its check (R187; DEDUCED, log 22). A unit that fails its check
counts one error in TRAINING, where it clears the good count, in NEGOTIATING and in UP; an ERROR_NOTICE
counts one whatever count it carries; the count stops at 65535, and in DISABLED and FAILED nothing is
counted (R155, R162; an ERROR_NOTICE outside UP: DEDUCED, log 32). Received bytes are taken unit by unit: the
lead byte gives the unit's kind and length, a good check and a data length within the path's limit make it a
control word, a fragment frame or a return message, and anything else fails; the link goes on with the byte
after the unit, good or failed (R187; bytes that end before their unit does, and one byte for a unit with any
other lead: DESIGN CHOICE, log 35). -/
def Obligations.DiscardedAndFailingUnits : Prop :=
  (∀ (p : Fin 4) (s : State) (i : Instr), s.chip.resetHeld = false →
     (i = .offer p ∨ i = .idle p ∨ i = .fragmentFrameReceived p ∨
       ∃ kind body, i = .unknownKindReturnMessage p kind body ∧
         body.length ≤ dataLimit s.chip.paths[p]) →
     (s.chip.paths[p].state ≠ .up → exec i s = .next s) ∧
     (s.chip.paths[p].state = .up →
       exec i s =
         .next { s with
           chip := setPath s.chip p { s.chip.paths[p] with silence := some 250 } })) ∧
  (∀ (p : Fin 4) (kind : Byte) (body : List Byte) (s : State), s.chip.resetHeld = false →
     dataLimit s.chip.paths[p] < body.length →
     exec (.unknownKindReturnMessage p kind body) s = exec (.unitFailingCheck p) s) ∧
  (∀ (p : Fin 4) (count : BitVec 16) (s : State), s.chip.resetHeld = false →
     ((s.chip.paths[p].state = .disabled ∨ s.chip.paths[p].state = .failed) →
       exec (.unitFailingCheck p) s = .next s ∧ exec (.errorNotice p count) s = .next s) ∧
     ((s.chip.paths[p].state = .training ∨ s.chip.paths[p].state = .negotiating ∨
         s.chip.paths[p].state = .up) →
       exec (.unitFailingCheck p) s =
         .next { s with
           chip := setPath s.chip p
             { s.chip.paths[p] with
               errors := min 65535 (s.chip.paths[p].errors + 1)
               good :=
                 if s.chip.paths[p].state = .training then 0 else s.chip.paths[p].good } } ∧
       exec (.errorNotice p count) s =
         .next { s with
           chip := setPath s.chip p
             { s.chip.paths[p] with
               errors := min 65535 (s.chip.paths[p].errors + 1)
               silence :=
                 if s.chip.paths[p].state = .up then some 250 else s.chip.paths[p].silence } })) ∧
  (∀ (p : Fin 4) (r : PathRec) (lead : Byte) (more : List Byte) (bs : List Byte), bs = lead :: more →
     takeUnit p r [] = none ∧
     takeUnit p r bs = some (classifyUnit p r bs, bs.drop (unitExtent bs)) ∧
     (1 ≤ lead.toNat → lead.toNat ≤ 8 →
       unitExtent bs = 12 ∧
       (12 ≤ bs.length → be16At bs 10 = wordCheck bs → classifyUnit p r bs = classifyWord p bs) ∧
       ((bs.length < 12 ∨ be16At bs 10 ≠ wordCheck bs) →
         classifyUnit p r bs = .unitFailingCheck p)) ∧
     (∀ n, 0x10 ≤ lead.toNat → lead.toNat ≤ 0x2F → n = (be16At bs 22).toNat →
       unitExtent bs = 24 + n + 4 ∧
       (n ≤ dataLimit r → 24 + n + 4 ≤ bs.length →
         (bs.drop (24 + n)).take 4 = le32 (crc32 (bs.take (24 + n))) →
         (lead.toNat < 0x20 → classifyUnit p r bs = .fragmentFrameReceived p) ∧
         (0x20 ≤ lead.toNat →
           classifyUnit p r bs = classifyMessage p bs ((bs.drop 24).take n))) ∧
       ((dataLimit r < n ∨ bs.length < 24 + n + 4 ∨
           (bs.drop (24 + n)).take 4 ≠ le32 (crc32 (bs.take (24 + n)))) →
         classifyUnit p r bs = .unitFailingCheck p)) ∧
     ((lead.toNat = 0 ∨ 8 < lead.toNat ∧ lead.toNat < 0x10 ∨ 0x2F < lead.toNat) →
       unitExtent bs = 1 ∧ classifyUnit p r bs = .unitFailingCheck p)) ∧
  (∀ (p : Fin 4) (bs rest : List Byte) (i : Instr) (s t : State),
     (bs = [] → receive p bs s = .next s) ∧
     (takeUnit p s.chip.paths[p] bs = some (i, rest) → exec i s = .next t →
       receive p bs s = receive p rest t))

/-- CAPACITY, HOLD and RESUME on an UP path at level 2: the reported capacity limited to the ceiling; held
with the hold timer at 500 ms, once; held clear with the hold timer stopped, and the head fragment begun on
a quiet link. At level 1 they have no effect but the silence timer, and on a path that is not UP none
(R155, R156, R158, R160, R161). -/
def Obligations.FlowControlWords : Prop :=
  ∀ (p : Fin 4) (v : BitVec 24) (s : State) (r : PathRec), s.chip.resetHeld = false →
    r = { s.chip.paths[p] with silence := some 250 } →
    (s.chip.paths[p].state ≠ .up →
      exec (.capacity p v) s = .next s ∧ exec (.hold p) s = .next s ∧
        exec (.resume p) s = .next s) ∧
    (s.chip.paths[p].state = .up → s.chip.paths[p].level ≠ 2 →
      exec (.capacity p v) s = .next { s with chip := setPath s.chip p r } ∧
      exec (.hold p) s = .next { s with chip := setPath s.chip p r } ∧
      exec (.resume p) s = .next { s with chip := setPath s.chip p r }) ∧
    (s.chip.paths[p].state = .up → s.chip.paths[p].level = 2 →
      exec (.capacity p v) s =
        .next { s with
          chip := setPath s.chip p { r with reported := min v.toNat r.ceiling } } ∧
      (r.held = false →
        exec (.hold p) s =
          .next { s with chip := setPath s.chip p { r with held := true, hold := some 500 } } ∧
        exec (.resume p) s = .next { s with chip := setPath s.chip p r }) ∧
      (r.held = true → exec (.hold p) s = .next { s with chip := setPath s.chip p r }) ∧
      (r.held = true → r.credit ≤ 0 → (∀ q : Fin 4, q ≠ p → ready s.chip.paths[q] = false) →
        (r.queue = [] →
          exec (.resume p) s =
            .next { s with chip := setPath s.chip p { r with held := false, hold := none } }) ∧
        (∀ f rest, r.queue = f :: rest → r.link = .quiet → r.due = [] →
          ∃ t got, exec (.resume p) s = .next t ∧ t.dram = s.dram ∧
            t.chip.paths[p] =
              { r with
                held := false, hold := none, queue := rest, link := .frame f got,
                sent := true })))

/-- The return filter lets a message through once: the number just taken is refused afterwards, and a number
it refuses stays refused after any other message of the session is taken that does not leave it ahead of the
highest; a message of another session always starts the filter afresh, and a taken message's session is the
filter's. A number after the highest is taken and becomes the highest; one within the 32 that end there is
taken once; an older one never (R166, in the order of R134). -/
def Obligations.FilterTakesOnce : Prop :=
  (∀ (f g : ReturnFilter) (session number : BitVec 32),
    (filterTake f session number = some g →
      filterTake g session number = none ∧ g.session = some session ∧
      g.taken.getLsbD (g.highest - number).toNat = true) ∧
    (f.session ≠ some session →
      filterTake f session number =
        some { session := some session, highest := number, taken := 1, lastTally := none,
               lastRateCap := none })) ∧
  (∀ (f g : ReturnFilter) (session number m : BitVec 32), f.session = some session →
    filterTake f session number = none → filterTake f session m = some g →
    seqBefore g.highest number = false → filterTake g session number = none) ∧
  (∀ (f : ReturnFilter) (session number : BitVec 32), f.session = some session →
    (seqBefore f.highest number = true →
      ∃ g, filterTake f session number = some g ∧ g.highest = number ∧
        g.lastTally = f.lastTally ∧ g.lastRateCap = f.lastRateCap) ∧
    (seqBefore f.highest number = false →
      (filterTake f session number = none ↔
        32 ≤ (f.highest - number).toNat ∨ f.taken.getLsbD (f.highest - number).toNat = true) ∧
      ∀ g, filterTake f session number = some g →
        g = { f with taken := g.taken } ∧
        ∀ j, g.taken.getLsbD j =
          (f.taken.getLsbD j || decide (j = (f.highest - number).toNat))))

/-- Messages that pass the filter on an UP path at level 2, with their bodies whole: a TALLY under LOCAL
authority is IGNORED, and otherwise sets every feed's tally under authority HOME; a CALL sets the feed's
CALL flag and is IGNORED for a feed above 7; a RATE_CAP sets the cap (0 removes it, above 400000 is
400000); a SIGNAL is reported with its path; a stale TALLY or RATE_CAP does nothing; cause HOME is pending
after each of the others, with the report's words (R123, R166, R167, R180). A CLIP_REQUEST of a CLOSED or
SENT clip outside the trim session with room in the CLIP queue makes it SENDING as CLIP SEND does (one
with no byte to send is SENT at once, DEDUCED, log 31); of a SENDING clip it is IGNORED; else a NAK goes
home: BUSY in the trim session or with 16 clips queued, NOT_READY for an OPEN clip, GONE for a RELEASED,
LAPSED or unknown one; each answer is reported (R149). The effects, with a NAK, a LABEL_DROPPED and the
clips a TALLY closes and opens, come before the message's own HOME report and the serve after it (DESIGN
CHOICE, log 7). A message that the filter refuses, or one on a level-1 path, restarts the silence timer
alone (R158, R160, R166). -/
def Obligations.MessagesDispatched : Prop :=
  (∀ (p : Fin 4) (session number : BitVec 32) (body : List Byte) (s : State) (g : ReturnFilter),
    s.chip.resetHeld = false → s.chip.paths[p].state = .up → s.chip.paths[p].level = 2 →
    body.length ≤ dataLimit s.chip.paths[p] → filterTake s.chip.filter session number = some g →
    (8 ≤ body.length → (∀ b ∈ body.take 8, b.toNat ≤ 2) → s.chip.tally.authority = .van →
      stale g.lastTally number = false →
      ∃ t, exec (.tallyMessage p session number body) s = .next t ∧ t.dram = s.dram ∧
        t.chip.filter = { g with lastTally := some number } ∧ t.chip.tally = s.chip.tally ∧
        t.chip.cmd.pendingSet.getLsbD 6 = true) ∧
    (8 ≤ body.length → (∀ b ∈ body.take 8, b.toNat ≤ 2) → s.chip.tally.authority ≠ .van →
      stale g.lastTally number = false →
      ∃ t, exec (.tallyMessage p session number body) s = .next t ∧ t.dram = s.dram ∧
        t.chip.filter = { g with lastTally := some number } ∧
        t.chip.tally.authority = .home ∧ t.chip.cmd.pendingSet.getLsbD 6 = true ∧
        ∀ f : Fin 8, tallyOf (body.getD f.val 0) = some t.chip.tally.feeds[f].state) ∧
    (∀ f : Fin 8, 1 ≤ body.length → (body.getD 0 0).toNat = f.val →
      ∃ t, exec (.callMessage p session number body) s = .next t ∧ t.dram = s.dram ∧
        t.chip.filter = g ∧ t.chip.tally.feeds[f].call = true ∧
        t.chip.tally.feeds[f].callTimer = some 5000 ∧
        t.chip.cmd.pendingSet.getLsbD 6 = true) ∧
    (4 ≤ body.length → stale g.lastRateCap number = false →
      ∃ t, exec (.rateCap p session number body) s = .next t ∧ t.dram = s.dram ∧
        t.chip.filter = { g with lastRateCap := some number } ∧
        t.chip.sched.rateCap =
          (if beNat (body.take 4) = 0 then none else some (min 400000 (beNat (body.take 4)))) ∧
        t.chip.cmd.pendingSet.getLsbD 6 = true) ∧
    (1 ≤ body.length →
      ∃ t, exec (.signalMessage p session number body) s = .next t ∧ t.dram = s.dram ∧
        t.chip.filter = g ∧ t.chip.tally = s.chip.tally ∧
        t.chip.cmd.pendingSet.getLsbD 6 = true) ∧
    (2 ≤ body.length → findClip s.chip (beNat (body.take 2)) = none →
      ∃ t, exec (.clipRequest p session number body) s = .next t ∧ t.dram = s.dram ∧
        t.chip.filter = g ∧ t.chip.cmd.pendingSet.getLsbD 6 = true)) ∧
  (∀ (p : Fin 4) (session number : BitVec 32) (body : List Byte) (s : State) (g : ReturnFilter)
    (on : ReturnFilter → Chip),
    s.chip.resetHeld = false → s.chip.paths[p].state = .up → s.chip.paths[p].level = 2 →
    body.length ≤ dataLimit s.chip.paths[p] → filterTake s.chip.filter session number = some g →
    on = (fun x =>
      { setPath s.chip p { s.chip.paths[p] with silence := some 250 } with filter := x }) →
    (8 ≤ body.length → (∀ b ∈ body.take 8, b.toNat ≤ 2) →
      (stale g.lastTally number = true →
        exec (.tallyMessage p session number body) s =
          .next { s with chip := serveIfNew s.chip (on g) }) ∧
      (stale g.lastTally number = false → s.chip.tally.authority = .van →
        exec (.tallyMessage p session number body) s =
          .next { s with
            chip := serveIfNew s.chip
              (askReport .home (reportBody 0 ([0, byteOf p.val] ++ le32 number ++ [1]))
                (on { g with lastTally := some number })) }) ∧
      (stale g.lastTally number = false → s.chip.tally.authority ≠ .van →
        ∃ d, exec (.tallyMessage p session number body) s =
            .next { s with
              chip := serveIfNew s.chip
                (askReport .home (reportBody 0 ([0, byteOf p.val] ++ le32 number ++ [0])) d) } ∧
          d.filter = { g with lastTally := some number } ∧ d.tally.authority = .home ∧
          d.feeds = s.chip.feeds ∧ d.rings = s.chip.rings ∧
          ∀ f : Fin 8, tallyOf (body.getD f.val 0) = some d.tally.feeds[f].state)) ∧
    (1 ≤ body.length →
      (∀ f : Fin 8, (body.getD 0 0).toNat = f.val →
        exec (.callMessage p session number body) s =
          .next { s with
            chip := serveIfNew s.chip
              (askReport .home (reportBody 0 ([1, byteOf p.val] ++ le32 number ++ [0]))
                (setCall f (on g))) }) ∧
      (8 ≤ (body.getD 0 0).toNat →
        exec (.callMessage p session number body) s =
          .next { s with
            chip := serveIfNew s.chip
              (askReport .home (reportBody 0 ([1, byteOf p.val] ++ le32 number ++ [1]))
                (on g)) }) ∧
      exec (.signalMessage p session number body) s =
        .next { s with
          chip := serveIfNew s.chip
            (askReport .home (reportBody 3 [body.getD 0 0, byteOf p.val]) (on g)) }) ∧
    (∀ v, 4 ≤ body.length → v = min 400000 (beNat (body.take 4)) →
      (stale g.lastRateCap number = true →
        exec (.rateCap p session number body) s =
          .next { s with chip := serveIfNew s.chip (on g) }) ∧
      (stale g.lastRateCap number = false →
        exec (.rateCap p session number body) s =
          .next { s with
            chip := serveIfNew s.chip
              (askReport .home (reportBody 2 (byteOf p.val :: (le32 number ++ leNat32 v)))
                { on { g with lastRateCap := some number } with
                  sched.rateCap := if v = 0 then none else some v }) })) ∧
    (∀ (n : Nat) (answer : Nat → Chip → Chip) (nak : Byte → Chip), 2 ≤ body.length →
      n = beNat (body.take 2) →
      answer = (fun code => askReport .home (reportBody 1 (leNat16 n ++ [byteOf code]))) →
      nak = (fun code =>
        joinLabel
          { kind := 1, number := n, data := be16 (BitVec.ofNat 16 n) ++ [code], cursor := 0 }
          (on g)) →
      ((findClip s.chip n = none ∨
          ∃ k, findClip s.chip n = some k ∧ (k.state = .released ∨ k.state = .lapsed)) →
        exec (.clipRequest p session number body) s =
          .next { s with chip := serveIfNew s.chip (answer 4 (nak 1)) }) ∧
      (∀ k, findClip s.chip n = some k →
        (k.state = .opened →
          exec (.clipRequest p session number body) s =
            .next { s with chip := serveIfNew s.chip (answer 3 (nak 0)) }) ∧
        (k.state = .sending →
          exec (.clipRequest p session number body) s =
            .next { s with chip := serveIfNew s.chip (answer 1 (on g)) }) ∧
        ((k.state = .closed ∨ k.state = .sent) →
          ((inTrim s.chip n = true ∨ 16 ≤ s.chip.sched.clipQ.length) →
            exec (.clipRequest p session number body) s =
              .next { s with chip := serveIfNew s.chip (answer 2 (nak 2)) }) ∧
          (∀ total, inTrim s.chip n = false → s.chip.sched.clipQ.length < 16 →
            total = ((clipUnits s.chip k).map (·.length)).sum →
            (total ≠ 0 →
              exec (.clipRequest p session number body) s =
                .next { s with
                  chip := serveIfNew s.chip (answer 0
                    { mapClip n
                        (fun x => { x with state := .sending, progress := some (total, 0) })
                        (on g) with
                      sched.clipQ := s.chip.sched.clipQ ++
                        [{ clip := n, units := clipUnits s.chip k }] }) }) ∧
            (total = 0 →
              exec (.clipRequest p session number body) s =
                .next { s with
                  chip := serveIfNew s.chip (answer 0
                    (askReport .clip (reportBody 2 (leNat16 n))
                      (mapClip n (fun x => { x with state := .sent, progress := none })
                        (on g)))) })))))) ∧
  (∀ (p : Fin 4) (session number : BitVec 32) (body : List Byte) (s : State) (i : Instr),
    s.chip.resetHeld = false → s.chip.paths[p].state = .up →
    body.length ≤ dataLimit s.chip.paths[p] →
    (s.chip.paths[p].level ≠ 2 ∨ filterTake s.chip.filter session number = none) →
    (i = .tallyMessage p session number body ∨ i = .callMessage p session number body ∨
      i = .clipRequest p session number body ∨ i = .rateCap p session number body ∨
      i = .signalMessage p session number body) →
    exec i s =
      .next { s with
        chip := serveIfNew s.chip
          (setPath s.chip p { s.chip.paths[p] with silence := some 250 }) })

/-! ### Uplink scheduling -/

/-- UPLINK SET: BAD_ARG with any field out of its range, and otherwise all five settings, and the OPEN clips
at or over the new max length close (R138, R181). At the max length the mark stack is popped down to the
lowest clip that reached it, each clip closing, and an automatic clip closes and the next one opens (R131,
R138, R139; stacked clips first: DESIGN CHOICE, log 30). HOME SIGNAL: BAD_ARG for a code above 255; else
the SIGNAL message joins the LABEL queue, or at 32 messages is dropped with LABEL_DROPPED; SIGNAL_OUT is
asked for, and the scheduler serves (R175, R176; the line byte 0xFF of source HOST: DEDUCED, log 11;
LABEL_DROPPED before SIGNAL_OUT, and these, the closings' reports and the serve before the RESULT: DESIGN
CHOICE, log 7). The LIVE queue's unit is the one of the earliest house count, then of the lower feed
(R173; counts compared unsigned: DEDUCED, log 29; then the first that completed: DESIGN CHOICE, log 34);
ageing drops exactly units older than the live age limit until that unit is young enough, and ends the
live membership of a dropped unit with no bytes on the return list (R87, R177). -/
def Obligations.UplinkCommands : Prop :=
  (∀ (h : CmdHead) (headroom share age notify : Byte) (len : BitVec 16) (s : State),
     takes (.uplinkSet h headroom share age notify len) s = true →
     ((headroom.toNat < 50 ∨ 100 < headroom.toNat ∨ 50 < share.toNat ∨ age.toNat < 2 ∨
         100 < age.toNat ∨ 1 < notify.toNat ∨ len.toNat < 25 ∨ 30000 < len.toNat) →
       exec (.uplinkSet h headroom share age notify len) s =
         .next (s.taken (refusedBy 0x52 h .badArg s.chip))) ∧
     (∀ on, 50 ≤ headroom.toNat → headroom.toNat ≤ 100 → share.toNat ≤ 50 → 2 ≤ age.toNat →
       age.toNat ≤ 100 → flagOf notify = some on → 25 ≤ len.toNat → len.toNat ≤ 30000 →
       (∀ k ∈ s.chip.clips.list, k.state = .opened →
         ∀ x ∈ k.feeds, clipLength s.chip x < len.toNat) →
       exec (.uplinkSet h headroom share age notify len) s =
         .next (s.taken (completedBy 0x52 h .done []
           { s.chip with
             sched.headroom := headroom.toNat
             sched.share := share.toNat
             sched.ageLimit := age.toNat
             sched.notify := on
             clips.maxLen := len.toNat }))) ∧
     (∀ on, 50 ≤ headroom.toNat → headroom.toNat ≤ 100 → share.toNat ≤ 50 → 2 ≤ age.toNat →
       age.toNat ≤ 100 → flagOf notify = some on → 25 ≤ len.toNat → len.toNat ≤ 30000 →
       exec (.uplinkSet h headroom share age notify len) s =
         .next (s.taken (completedBy 0x52 h .done []
           (serveIfNew s.chip
             (closeAtMax (fun _ => true)
               { s.chip with
                 sched.headroom := headroom.toNat
                 sched.share := share.toNat
                 sched.ageLimit := age.toNat
                 sched.notify := on
                 clips.maxLen := len.toNat })))))) ∧
  (∀ (h : CmdHead) (code : BitVec 16) (s : State), takes (.homeSignal h code) s = true →
     (255 < code.toNat →
       exec (.homeSignal h code) s = .next (s.taken (refusedBy 0x53 h .badArg s.chip))) ∧
     (code.toNat ≤ 255 → s.chip.sched.label.length < 32 →
       exec (.homeSignal h code) s =
         .next (s.taken (completedBy 0x53 h .done []
           (serve
             (askReport .home (reportBody 5 [code.setWidth 8, 0, 0xFF, 0])
               { s.chip with
                 sched.label := s.chip.sched.label ++
                   [{ kind := 2, number := code.toNat, data := [code.setWidth 8],
                      cursor := 0 }] }))))) ∧
     (code.toNat ≤ 255 → 32 ≤ s.chip.sched.label.length →
       exec (.homeSignal h code) s =
         .next (s.taken (completedBy 0x53 h .done []
           (askReport .home (reportBody 5 [code.setWidth 8, 0, 0xFF, 1])
             (askReport .home (reportBody 4 (2 :: leNat16 code.toNat)) s.chip)))))) ∧
  (∀ (among : Fin 8 → Bool) (c : Chip) (reached : Clip → Prop),
    reached = (fun k => k.state = .opened ∧
      ∃ x ∈ k.feeds, among x.feed = true ∧ c.clips.maxLen ≤ clipLength c x) →
    ((∀ k ∈ c.clips.list, ¬ reached k) → closeAtMax among c = c) ∧
    (∀ n above below k, c.tally.stack = above ++ n :: below → findClip c n = some k → reached k →
      (∀ m ∈ below, ∀ x, findClip c m = some x → ¬ reached x) →
      (∀ x ∈ c.clips.list, x.origin = .auto → ¬ reached x) →
      closeAtMax among c = closeStackTo n .maxLength c.tally.stack c) ∧
    (∀ f, (∀ k, openAuto c f = some k → ¬ reached k) → closeAutoAtMax among f c = c) ∧
    (∀ f k, openAuto c f = some k → reached k →
      closeAutoAtMax among f c = tryOpenAuto f (closeClip k.number .maxLength c))) ∧
  (∀ (n : Nat) (reason : CloseReason) (above below : List Nat) (c d : Chip),
    (above ++ [n]).Nodup → c.tally.stack = above ++ n :: below →
    d = closeStackTo n reason c.tally.stack c →
    d.tally = { c.tally with stack := below } ∧ d.rings = c.rings ∧ d.feeds = c.feeds ∧
    d.paths = c.paths ∧
    ((c.clips.list.map (·.number)).Nodup →
      d.clips.list = c.clips.list.map fun x =>
        if x.number ∈ above ++ [n] then closedClip c reason x else x)) ∧
  (∀ c : Chip,
    (earliestLive c = none ↔ c.sched.live = []) ∧
    (∀ before i after, c.sched.live = before ++ i :: after →
      (∀ x ∈ before,
        i.house.toNat < x.house.toNat ∨ (i.house = x.house ∧ i.feed < x.feed)) →
      (∀ x ∈ after,
        ¬(x.house.toNat < i.house.toNat ∨ (x.house = i.house ∧ x.feed < i.feed))) →
      earliestLive c = some i)) ∧
  (∀ (c d : Chip), d = ageLive c.sched.live.length c →
    d.sched = { c.sched with live := d.sched.live } ∧ d.paths = c.paths ∧
    d.sched.live.Sublist c.sched.live ∧
    (∀ i, earliestLive d = some i → (c.timing.count - i.house).toNat ≤ c.sched.ageLimit) ∧
    ((c.sched.live.map fun i => (i.feed, i.seq)).Nodup →
      ∀ i ∈ c.sched.live, i ∉ d.sched.live →
        c.sched.ageLimit < (c.timing.count - i.house).toNat ∧
        ((∀ r ∈ c.sched.returns, r.item ≠ .liveUnit i.feed i.seq) →
          ∀ u ∈ d.rings[i.feed].units, u.complete = true → u.seq = i.seq → u.live = false)))

/-- ALLOCATION_TIMER: every R and every pacing cap is replaced, a feed that is not RUNNING and LIVE gets
none, a path that is not UP gets 0, nothing else changes and the timer restarts (R169 to R171). The pacing cap
of an UP path is its ceiling at level 1 and at level 2 the reported capacity if less, then limited to a host
cap, and halved while DEGRADED; the live pool comes from their sum, the RATE_CAP, the headroom, the audio and
label reserves and the clip share in the steps of R170; a RUNNING LIVE feed gets its share of the pool by
weight, doubled in PROGRAM, clamped into rate_min..rate_max (R171). -/
def Obligations.AllocationReplaces : Prop :=
  (∀ s : State, s.chip.resetHeld = false →
    ∃ t, exec .allocationTimer s = .next t ∧ t.dram = s.dram ∧ t.intake = s.intake ∧
      t.chip =
        { s.chip with
          sched.rates := t.chip.sched.rates
          sched.allocTimer := some 100
          paths := t.chip.paths } ∧
      (∀ f : Fin 8, (s.chip.feeds[f].state ≠ .running ∨ s.chip.feeds[f].cfg.mode ≠ .live) →
        t.chip.sched.rates[f] = none) ∧
      (∀ p : Fin 4, t.chip.paths[p] =
        { s.chip.paths[p] with pacingCap := t.chip.paths[p].pacingCap }) ∧
      (∀ p : Fin 4, s.chip.paths[p].state ≠ .up → t.chip.paths[p].pacingCap = 0) ∧
      (∀ f : Fin 8, t.chip.sched.rates[f] = feedRate s.chip f) ∧
      (∀ p : Fin 4, t.chip.paths[p].pacingCap = pathCap s.chip.paths[p])) ∧
  (∀ r : PathRec,
    (r.state ≠ .up → pathCap r = 0) ∧
    (∀ a b, r.state = .up → a = (if r.level = 1 then r.ceiling else min r.reported r.ceiling) →
      b = (if r.hostCap = 0 then a else min a r.hostCap) →
      pathCap r = if r.degraded = true then b / 2 else b)) ∧
  (∀ (c : Chip) (caps limit : Nat),
    caps = pathCap c.paths[0] + pathCap c.paths[1] + pathCap c.paths[2] + pathCap c.paths[3] →
    (c.sched.rateCap = none → limit = caps) →
    (∀ v, c.sched.rateCap = some v → limit = min caps v) →
    livePool c =
      (limit * c.sched.headroom / 100 -
        (if c.mixer.running = true then
          1200 * (eight.filter fun l => c.mixer.legs[l].uplink).length else 0) - 64) *
        (100 - c.sched.share) / 100) ∧
  (∀ (c : Chip) (weight : Fin 8 → Nat) (sum : Nat),
    weight = (fun f =>
      if c.feeds[f].state = .running ∧ c.feeds[f].cfg.mode = .live then
        (if c.tally.feeds[f].state = .program then 2 else 1) * c.feeds[f].cfg.weight
      else 0) →
    sum = (eight.map weight).sum →
    ∀ f : Fin 8,
      ((c.feeds[f].state ≠ .running ∨ c.feeds[f].cfg.mode ≠ .live) → feedRate c f = none) ∧
      (c.feeds[f].state = .running → c.feeds[f].cfg.mode = .live →
        feedRate c f =
          some (min c.feeds[f].cfg.rateMax
            (max c.feeds[f].cfg.rateMin (livePool c * weight f / sum)))))

/-- The sum of the rates of the RUNNING LIVE feeds after an allocation is at most the live pool plus the
sum of those feeds' rate_min, whatever the tallies and the weights (R171). -/
def Obligations.RatesWithinPool : Prop :=
  ∀ c : Chip,
    (eight.map fun f => (feedRate c f).getD 0).sum ≤
      livePool c +
        (eight.map fun f => if sharesPool c f then c.feeds[f].cfg.rateMin else 0).sum
end

