-- ==== Sys2Proof/Laws/Lines.lean ====
section
/-! SUPPORT. The laws of lines and of the fields in them. -/

namespace Sys2Proof.Machine

/-- A byte of a line built from a list. -/
theorem lineByte_lineOf (bs : List Byte) (i : Nat) :
    lineByte (lineOf bs) i = if i < 64 then bs.getD i 0 else 0 := by
  unfold lineByte lineOf
  by_cases h : i < 64
  · rw [if_pos h, List.getD_eq_getElem?_getD, Vector.getElem?_toList, Vector.getElem?_eq_getElem h,
      Vector.getElem_ofFn]
    rfl
  · rw [if_neg h, List.getD_eq_getElem?_getD, Vector.getElem?_toList,
      Vector.getElem?_eq_none (Nat.le_of_not_lt h)]
    rfl

/-- A byte of a line below 64 is the vector's element. -/
theorem lineByte_getElem (l : Line) (i : Nat) (h : i < 64) : lineByte l i = l[i] := by
  unfold lineByte
  rw [List.getD_eq_getElem?_getD, Vector.getElem?_toList, Vector.getElem?_eq_getElem h]
  rfl

/-- A byte of a merged line comes from the write where the mask names it. -/
theorem lineByte_mergeLine (old new : Line) (m : Mask) (i : Nat) (h : i < 64) :
    lineByte (mergeLine old new m) i = if inMask m i then lineByte new i else lineByte old i := by
  rw [lineByte_getElem _ _ h, lineByte_getElem _ _ h, lineByte_getElem _ _ h]
  unfold mergeLine
  rw [Vector.getElem_ofFn]
  rfl

/-- Two bytes in memory order, read back. -/
theorem word16_le16 (x : BitVec 16) :
    (x.extractLsb' 8 8 ++ x.extractLsb' 0 8 : BitVec 16) = x := by
  apply BitVec.eq_of_getLsbD_eq
  intro i hi
  rw [BitVec.getLsbD_append]
  by_cases h : i < 8
  · simp [h]
  · have : i - 8 < 8 := by omega
    have e : 8 + (i - 8) = i := by omega
    simp [h, this, e]

/-- Four bytes in memory order, read back. -/
theorem word32_le32 (x : BitVec 32) :
    (x.extractLsb' 16 16 ++ x.extractLsb' 0 16 : BitVec 32) = x := by
  apply BitVec.eq_of_getLsbD_eq
  intro i hi
  rw [BitVec.getLsbD_append]
  by_cases h : i < 16
  · simp [h]
  · have : i - 16 < 16 := by omega
    have e : 16 + (i - 16) = i := by omega
    simp [h, this, e]

/-- Eight bytes in memory order, read back. -/
theorem word64_le64 (x : BitVec 64) :
    (x.extractLsb' 32 32 ++ x.extractLsb' 0 32 : BitVec 64) = x := by
  apply BitVec.eq_of_getLsbD_eq
  intro i hi
  rw [BitVec.getLsbD_append]
  by_cases h : i < 32
  · simp [h]
  · have : i - 32 < 32 := by omega
    have e : 32 + (i - 32) = i := by omega
    simp [h, this, e]

/-- A byte of a number of eight bytes. -/
theorem byte_ofNat (n i : Nat) (h : i < 8) :
    (BitVec.ofNat 64 n).extractLsb' (8 * i) 8 = BitVec.ofNat 8 (n / 256 ^ i) := by
  apply BitVec.eq_of_toNat_eq
  have e : 256 ^ i = 2 ^ (8 * i) := by rw [pow_mul]; norm_num
  simp [BitVec.extractLsb', Nat.shiftRight_eq_div_pow, e]
  interval_cases i <;> omega

/-- A field of a field. -/
theorem extract_extract (x : BitVec 64) (k b w v : Nat) (h : b + v ≤ w) :
    (x.extractLsb' k w).extractLsb' b v = x.extractLsb' (k + b) v := by
  apply BitVec.eq_of_getLsbD_eq
  intro i hi
  have : b + i < w := by omega
  simp [hi, this, Nat.add_assoc]

/-- The eight bytes of a number in memory order, each by its weight. -/
theorem le64_bytes (n : Nat) :
    le64 (BitVec.ofNat 64 n) = (List.range 8).map fun i => BitVec.ofNat 8 (n / 256 ^ i) := by
  have h := byte_ofNat n
  simp only [le64, le32, le16, List.range, List.range.loop, List.map, List.cons_append,
    List.nil_append, extract_extract _ _ _ _ _ (by decide : 0 + 16 ≤ 32),
    extract_extract _ _ _ _ _ (by decide : 16 + 16 ≤ 32),
    extract_extract _ _ _ _ _ (by decide : 0 + 8 ≤ 16),
    extract_extract _ _ _ _ _ (by decide : 8 + 8 ≤ 16)]
  simp only [← h 0 (by decide), ← h 1 (by decide), ← h 2 (by decide), ← h 3 (by decide),
    ← h 4 (by decide), ← h 5 (by decide), ← h 6 (by decide), ← h 7 (by decide)]

/-- The kind code a command line carries is the one it was written with. -/
theorem commandLine_kind (k : BitVec 16) (h : CmdHead) (ps : List Byte) :
    kindCode (commandLine k h ps) = k := by
  simp only [kindCode, word16, commandLine, lineByte_lineOf]
  simp [le16]
  exact word16_le16 k

/-- A command line carries its tag and its report-always flag. -/
theorem commandLine_head (k : BitVec 16) (h : CmdHead) (ps : List Byte) :
    headOf (commandLine k h ps) = h := by
  simp only [headOf, word16, commandLine, lineByte_lineOf]
  simp [le16]
  cases h with
  | mk t a =>
    simp
    refine ⟨word16_le16 t, ?_⟩
    cases a <;> decide

/-- The parameters of a command line stand from byte 8 on, and the bytes after them are 0. -/
theorem commandLine_byte (k : BitVec 16) (h : CmdHead) (ps : List Byte) (i : Nat) (lo : 8 ≤ i)
    (hi : i < 64) : lineByte (commandLine k h ps) i = ps.getD (i - 8) 0 := by
  simp only [commandLine, lineByte_lineOf, if_pos hi]
  rw [List.getD_eq_getElem?_getD, List.getD_eq_getElem?_getD,
    List.getElem?_append_right (by simpa [le16] using lo)]
  simp [le16]

/-- The reserved bytes of a command line are 0 (section 11.1). -/
theorem commandLine_reserved (k : BitVec 16) (h : CmdHead) (ps : List Byte) :
    lineByte (commandLine k h ps) 3 = 0 ∧ lineByte (commandLine k h ps) 6 = 0 ∧
      lineByte (commandLine k h ps) 7 = 0 := by
  simp only [commandLine, lineByte_lineOf]
  simp [le16]

end Sys2Proof.Machine
end

