-- ==== Sys2Proof/Laws/Reports.lean ====
section
/-! SUPPORT. What writing reports may change: `ReportOnly` holds of every operation that asks for reports
and of nothing else, so a statement's frame follows from one lemma. -/

namespace Sys2Proof.Machine

/-- The bytes of a report line from 12 on are those asked for, and 0 after them (R185). -/
theorem lineByte_reportLine (c : Chip) (k : ReportKind) (body : List Byte) (i : Nat) (h : 12 ≤ i)
    (hi : i < 64) : lineByte (reportLine c k body) i = body.getD (i - 12) 0 := by
  simp only [reportLine, lineByte_lineOf, if_pos hi]
  rw [List.getD_eq_getElem?_getD, List.getD_eq_getElem?_getD,
    List.getElem?_append_right (by simpa [le32, le16] using h)]
  simp [le32, le16]

/-- Nothing changed. -/
theorem ReportOnly.refl (c : Chip) : ReportOnly c c := ⟨rfl, List.prefix_refl _⟩

/-- One report operation after another. -/
theorem ReportOnly.trans {a b c : Chip} (h : ReportOnly a b) (k : ReportOnly b c) :
    ReportOnly a c :=
  ⟨by rw [k.same, h.same], h.grew.trans k.grew⟩

/-- A cause made pending. -/
theorem makePending_reportOnly (k : Cause) (c : Chip) : ReportOnly c (makePending k c) :=
  ⟨rfl, List.prefix_refl _⟩

/-- A report lost. -/
theorem loseReport_reportOnly (c : Chip) : ReportOnly c (loseReport c) := by
  unfold loseReport
  split
  · exact ⟨rfl, List.prefix_refl _⟩
  · exact ⟨rfl, List.prefix_refl _⟩

/-- The staging list drained into the own-write buffer. -/
theorem drainStaging_reportOnly (n : Nat) (c : Chip) : ReportOnly c (drainStaging n c) := by
  induction n generalizing c with
  | zero => exact .refl c
  | succ n ih =>
    rw [drainStaging]
    split
    · exact .refl c
    · split
      · refine ReportOnly.trans ⟨rfl, ?_⟩ (ih _)
        exact List.prefix_append _ _
      · exact .refl c

/-- A report placed. -/
theorem placeReport_reportOnly (w : Window) (k : ReportKind) (body : List Byte) (c : Chip) :
    ReportOnly c (placeReport w k body c) := by
  unfold placeReport
  refine ReportOnly.trans ?_ (drainStaging_reportOnly _ _)
  split
  · exact ⟨rfl, List.prefix_refl _⟩
  · exact ⟨rfl, List.prefix_refl _⟩

/-- A report's cause made pending. -/
theorem raiseCause_reportOnly (k : ReportKind) (c : Chip) : ReportOnly c (raiseCause k c) := by
  unfold raiseCause
  split
  · exact makePending_reportOnly _ _
  · exact .refl c

/-- A report discarded, lost or placed. -/
theorem putReport_reportOnly (k : ReportKind) (body : List Byte) (c : Chip) :
    ReportOnly c (putReport k body c) := by
  unfold putReport
  split
  · exact .refl c
  · split
    · exact loseReport_reportOnly _
    · exact placeReport_reportOnly _ _ _ _

/-- A report asked for changes the report ring's state and nothing else (R29). -/
theorem askReport_reportOnly (k : ReportKind) (body : List Byte) (c : Chip) :
    ReportOnly c (askReport k body c) :=
  (raiseCause_reportOnly k c).trans (putReport_reportOnly k body _)

/-- A RESULT asked for. -/
theorem askResult_reportOnly (kind tag : BitVec 16) (src : Source) (r : ResultCode)
    (payload : List Byte) (c : Chip) : ReportOnly c (askResult kind tag src r payload c) :=
  askReport_reportOnly _ _ _

/-- The end of an overfull period. -/
theorem endOverfull_reportOnly (c : Chip) : ReportOnly c (endOverfull c) := by
  unfold endOverfull
  split
  · exact .refl c
  · split
    · exact ReportOnly.trans (b := { c with cmd.overfull := false, cmd.lost := 0 })
        ⟨rfl, List.prefix_refl _⟩ (askReport_reportOnly _ _ _)
    · exact .refl c

/-- A refused command changes no state of any block (R20). -/
theorem refusedBy_reportOnly (kind : BitVec 16) (h : CmdHead) (r : ResultCode) (c : Chip) :
    ReportOnly c (refusedBy kind h r c) :=
  askResult_reportOnly _ _ _ _ _ _

variable {c d : Chip}

theorem ReportOnly.feeds (h : ReportOnly c d) : d.feeds = c.feeds := by rw [h.same]
theorem ReportOnly.coder (h : ReportOnly c d) : d.coder = c.coder := by rw [h.same]
theorem ReportOnly.rings (h : ReportOnly c d) : d.rings = c.rings := by rw [h.same]
theorem ReportOnly.mixer (h : ReportOnly c d) : d.mixer = c.mixer := by rw [h.same]
theorem ReportOnly.tally (h : ReportOnly c d) : d.tally = c.tally := by rw [h.same]
theorem ReportOnly.clips (h : ReportOnly c d) : d.clips = c.clips := by rw [h.same]
theorem ReportOnly.paths (h : ReportOnly c d) : d.paths = c.paths := by rw [h.same]
theorem ReportOnly.filter (h : ReportOnly c d) : d.filter = c.filter := by rw [h.same]
theorem ReportOnly.sched (h : ReportOnly c d) : d.sched = c.sched := by rw [h.same]
theorem ReportOnly.timing (h : ReportOnly c d) : d.timing = c.timing := by rw [h.same]
theorem ReportOnly.windows (h : ReportOnly c d) : d.mem.windows = c.mem.windows := by rw [h.same]
theorem ReportOnly.hostQ (h : ReportOnly c d) : d.mem.hostQ = c.mem.hostQ := by rw [h.same]
theorem ReportOnly.inflight (h : ReportOnly c d) : d.cmd.inflight = c.cmd.inflight := by rw [h.same]

end Sys2Proof.Machine
end

