-- ==== Sys2Proof/Laws/Memory.lean ====
section
/-! SUPPORT. The laws of DRAM: a read after a write, the canonical form kept by every memory operation,
and the canonical form of the memory after reset. -/

namespace Sys2Proof.Machine

/-- The canonical form as a proposition. -/
theorem memWf_iff (m : Memory) :
    Memory.wf m = true ↔ m.Pairwise (fun x y => x.1 < y.1) ∧ ∀ x ∈ m, x.2 ≠ 0 := by
  rw [Memory.wf, Bool.and_eq_true, decide_eq_true_eq, List.all_eq_true]
  simp only [bne_iff_ne]

/-- A byte below every listed address reads 0. -/
theorem memRead_fresh (m : Memory) (a : Nat) (h : ∀ x ∈ m, a < x.1) : memRead m a = 0 := by
  induction m with
  | nil => rfl
  | cons x r ih =>
    have h1 : x.1 ≠ a := fun e => Nat.lt_irrefl a (e ▸ h x (List.mem_cons_self ..))
    simp only [memRead, if_neg h1]
    exact ih fun y hy => h y (List.mem_cons_of_mem _ hy)

/-- A byte just written reads back. -/
theorem memRead_memWrite_same (m : Memory) (a : Nat) (b : Byte) (h : Memory.wf m = true) :
    memRead (memWrite m a b) a = b := by
  rw [memWf_iff] at h
  induction m with
  | nil =>
    rw [memWrite]
    split
    · next hb => rw [hb]; rfl
    · simp only [memRead, if_true]
  | cons x r ih =>
    obtain ⟨y, v⟩ := x
    obtain ⟨hp, hz⟩ := h
    rw [List.pairwise_cons] at hp
    rw [memWrite]
    split
    · next hlt =>
      split
      · next hb =>
        rw [hb]
        refine memRead_fresh _ _ fun z hm => ?_
        rcases List.mem_cons.1 hm with rfl | hm
        · exact hlt
        · exact Nat.lt_trans hlt (hp.1 z hm)
      · simp only [memRead, if_true]
    · split
      · next hay =>
        split
        · next hb =>
          rw [hb]
          exact memRead_fresh _ _ fun z hm => by simpa only [hay] using hp.1 z hm
        · simp only [memRead, if_true]
      · next hne =>
        simp only [memRead, if_neg (Ne.symm hne)]
        exact ih ⟨hp.2, fun z hm => hz z (List.mem_cons_of_mem _ hm)⟩

/-- A write leaves every other byte alone. -/
theorem memRead_memWrite_other (m : Memory) (a : Nat) (b : Byte) (x : Nat) (hx : x ≠ a) :
    memRead (memWrite m a b) x = memRead m x := by
  induction m with
  | nil =>
    rw [memWrite]
    split
    · rfl
    · simp only [memRead, if_neg (Ne.symm hx)]
  | cons y r ih =>
    obtain ⟨y, v⟩ := y
    rw [memWrite]
    split
    · split
      · rfl
      · simp only [memRead, if_neg (Ne.symm hx)]
    · split
      · next hay =>
        subst hay
        split <;> simp only [memRead, if_neg (Ne.symm hx)]
      · simp only [memRead]
        split
        · rfl
        · exact ih

/-- Every cell of a written memory is the written one or an old one. -/
theorem memWrite_mem {m : Memory} {a : Nat} {b : Byte} {x : Host.Cell} (h : x ∈ memWrite m a b) :
    (x = (a, b) ∧ b ≠ 0) ∨ x ∈ m := by
  induction m with
  | nil =>
    rw [memWrite] at h
    split at h
    · exact .inr h
    · next hb => exact .inl ⟨List.mem_singleton.1 h, hb⟩
  | cons y r ih =>
    obtain ⟨y, v⟩ := y
    rw [memWrite] at h
    split at h
    · split at h
      · exact .inr h
      · next hb =>
        rcases List.mem_cons.1 h with h | h
        · exact .inl ⟨h, hb⟩
        · exact .inr h
    · split at h
      · split at h
        · exact .inr (List.mem_cons_of_mem _ h)
        · next hb =>
          rcases List.mem_cons.1 h with h | h
          · exact .inl ⟨h, hb⟩
          · exact .inr (List.mem_cons_of_mem _ h)
      · rcases List.mem_cons.1 h with h | h
        · exact .inr (h ▸ List.mem_cons_self ..)
        · rcases ih h with h | h
          · exact .inl h
          · exact .inr (List.mem_cons_of_mem _ h)

/-- A write keeps the canonical form. -/
theorem memWrite_wf {m : Memory} (a : Nat) (b : Byte) (h : Memory.wf m = true) :
    Memory.wf (memWrite m a b) = true := by
  rw [memWf_iff] at h ⊢
  refine ⟨?_, fun x hx => ?_⟩
  · induction m with
    | nil =>
      rw [memWrite]
      split
      · exact .nil
      · exact List.pairwise_singleton ..
    | cons y r ih =>
      obtain ⟨y, v⟩ := y
      obtain ⟨hp, hz⟩ := h
      have hpc := List.pairwise_cons.1 hp
      rw [memWrite]
      split
      · next hlt =>
        split
        · exact hp
        · refine List.pairwise_cons.2 ⟨fun z hm => ?_, hp⟩
          rcases List.mem_cons.1 hm with rfl | hm
          · exact hlt
          · exact Nat.lt_trans hlt (hpc.1 z hm)
      · split
        · next hay =>
          split
          · exact hpc.2
          · exact List.pairwise_cons.2 ⟨fun z hm => by simpa only [hay] using hpc.1 z hm, hpc.2⟩
        · next hge hne =>
          refine List.pairwise_cons.2
            ⟨fun z hm => ?_, ih ⟨hpc.2, fun z hm => hz z (List.mem_cons_of_mem _ hm)⟩⟩
          rcases memWrite_mem hm with ⟨rfl, -⟩ | hm
          · exact Nat.lt_of_le_of_ne (Nat.le_of_not_lt hge) (Ne.symm hne)
          · exact hpc.1 z hm
  · rcases memWrite_mem hx with ⟨rfl, hb⟩ | hx
    · exact hb
    · exact h.2 x hx

/-- Writing a line keeps the canonical form. -/
theorem memWriteLine_wf {m : Memory} (a : Nat) (d : Line) (mask : Mask) (h : Memory.wf m = true) :
    Memory.wf (memWriteLine m a d mask) = true := by
  unfold memWriteLine
  generalize List.range 64 = l
  induction l generalizing m with
  | nil => exact h
  | cons i r ih =>
    rw [List.foldl_cons]
    split
    · exact ih (memWrite_wf _ _ h)
    · exact ih h

/-- Bytes `is` of a line written one after another, as `memWriteLine` writes them. -/
theorem memRead_writeBytes (is : List Nat) (hd : is.Nodup) (m : Memory) (a : Nat) (d : Line)
    (mask : Mask) (h : Memory.wf m = true) (x : Nat) :
    memRead (is.foldl
        (fun m i => if inMask mask i then memWrite m (a + i) (lineByte d i) else m) m) x =
      if (∃ i ∈ is, x = a + i ∧ inMask mask i = true) then lineByte d (x - a) else memRead m x := by
  induction is generalizing m with
  | nil => simp
  | cons i r ih =>
    rw [List.nodup_cons] at hd
    have step : Memory.wf (if inMask mask i then memWrite m (a + i) (lineByte d i) else m) = true := by
      split
      · exact memWrite_wf _ _ h
      · exact h
    rw [List.foldl_cons, ih hd.2 _ step]
    by_cases hr : ∃ j ∈ r, x = a + j ∧ inMask mask j = true
    · obtain ⟨j, hj, hx⟩ := hr
      rw [if_pos ⟨j, hj, hx⟩, if_pos ⟨j, List.mem_cons_of_mem _ hj, hx⟩]
    · rw [if_neg hr]
      by_cases hi : x = a + i ∧ inMask mask i = true
      · have he : ∃ j ∈ i :: r, x = a + j ∧ inMask mask j = true :=
          ⟨i, List.mem_cons_self .., hi⟩
        simp only [if_pos he, if_pos hi.2]
        rw [hi.1, memRead_memWrite_same _ _ _ h, Nat.add_sub_cancel_left]
      · have hn : ¬∃ j ∈ i :: r, x = a + j ∧ inMask mask j = true := by
          rintro ⟨j, hj, hx⟩
          rcases List.mem_cons.1 hj with rfl | hj
          · exact hi hx
          · exact hr ⟨j, hj, hx⟩
        rw [if_neg hn]
        split
        · next hm =>
          exact memRead_memWrite_other _ _ _ _ fun e => hi ⟨e, hm⟩
        · rfl

/-- Every byte after a line is written: the masked bytes of the line, and every other byte as before
(R1). -/
theorem memRead_memWriteLine (m : Memory) (a : Nat) (d : Line) (mask : Mask)
    (h : Memory.wf m = true) (x : Nat) :
    memRead (memWriteLine m a d mask) x =
      if (∃ i ∈ List.range 64, x = a + i ∧ inMask mask i = true) then lineByte d (x - a)
      else memRead m x :=
  memRead_writeBytes _ List.nodup_range m a d mask h x

/-- The memory after reset has the canonical form. -/
theorem reset_dram_wf : Memory.wf State.reset.dram = true := by decide

end Sys2Proof.Machine
end

