-- ==== Sys2Proof/Laws/State.lean ====
section
/-! SUPPORT. One lemma for each field a named update sets or keeps, so that no later proof unfolds a
record update. -/

namespace Sys2Proof.Machine

variable (c : Chip) (s : State)

/-! ### Feeds -/

@[simp] theorem setFeed_same (f : Fin 8) (r : Feed) : (setFeed c f r).feeds[f] = r := by
  simp [setFeed]

@[simp] theorem setFeed_other (f g : Fin 8) (r : Feed) (h : g ≠ f) :
    (setFeed c f r).feeds[g] = c.feeds[g] := by
  have : (f : Nat) ≠ (g : Nat) := fun e => h (Fin.ext e.symm)
  simp [setFeed, this]

@[simp] theorem setFeed_mem (f : Fin 8) (r : Feed) : (setFeed c f r).mem = c.mem := rfl
@[simp] theorem setFeed_cmd (f : Fin 8) (r : Feed) : (setFeed c f r).cmd = c.cmd := rfl
@[simp] theorem setFeed_timing (f : Fin 8) (r : Feed) : (setFeed c f r).timing = c.timing := rfl
@[simp] theorem setFeed_coder (f : Fin 8) (r : Feed) : (setFeed c f r).coder = c.coder := rfl
@[simp] theorem setFeed_rings (f : Fin 8) (r : Feed) : (setFeed c f r).rings = c.rings := rfl
@[simp] theorem setFeed_mixer (f : Fin 8) (r : Feed) : (setFeed c f r).mixer = c.mixer := rfl
@[simp] theorem setFeed_tally (f : Fin 8) (r : Feed) : (setFeed c f r).tally = c.tally := rfl
@[simp] theorem setFeed_clips (f : Fin 8) (r : Feed) : (setFeed c f r).clips = c.clips := rfl
@[simp] theorem setFeed_paths (f : Fin 8) (r : Feed) : (setFeed c f r).paths = c.paths := rfl
@[simp] theorem setFeed_filter (f : Fin 8) (r : Feed) : (setFeed c f r).filter = c.filter := rfl
@[simp] theorem setFeed_sched (f : Fin 8) (r : Feed) : (setFeed c f r).sched = c.sched := rfl

/-! ### Rings -/

@[simp] theorem setRing_same (f : Fin 8) (r : CodedRing) : (setRing c f r).rings[f] = r := by
  simp [setRing]

@[simp] theorem setRing_other (f g : Fin 8) (r : CodedRing) (h : g ≠ f) :
    (setRing c f r).rings[g] = c.rings[g] := by
  have : (f : Nat) ≠ (g : Nat) := fun e => h (Fin.ext e.symm)
  simp [setRing, this]

@[simp] theorem setRing_mem (f : Fin 8) (r : CodedRing) : (setRing c f r).mem = c.mem := rfl
@[simp] theorem setRing_cmd (f : Fin 8) (r : CodedRing) : (setRing c f r).cmd = c.cmd := rfl
@[simp] theorem setRing_timing (f : Fin 8) (r : CodedRing) : (setRing c f r).timing = c.timing := rfl
@[simp] theorem setRing_feeds (f : Fin 8) (r : CodedRing) : (setRing c f r).feeds = c.feeds := rfl
@[simp] theorem setRing_coder (f : Fin 8) (r : CodedRing) : (setRing c f r).coder = c.coder := rfl
@[simp] theorem setRing_mixer (f : Fin 8) (r : CodedRing) : (setRing c f r).mixer = c.mixer := rfl
@[simp] theorem setRing_tally (f : Fin 8) (r : CodedRing) : (setRing c f r).tally = c.tally := rfl
@[simp] theorem setRing_clips (f : Fin 8) (r : CodedRing) : (setRing c f r).clips = c.clips := rfl
@[simp] theorem setRing_paths (f : Fin 8) (r : CodedRing) : (setRing c f r).paths = c.paths := rfl
@[simp] theorem setRing_sched (f : Fin 8) (r : CodedRing) : (setRing c f r).sched = c.sched := rfl

/-! ### Paths -/

@[simp] theorem setPath_same (p : Fin 4) (r : PathRec) : (setPath c p r).paths[p] = r := by
  simp [setPath]

@[simp] theorem setPath_other (p q : Fin 4) (r : PathRec) (h : q ≠ p) :
    (setPath c p r).paths[q] = c.paths[q] := by
  have : (p : Nat) ≠ (q : Nat) := fun e => h (Fin.ext e.symm)
  simp [setPath, this]

@[simp] theorem setPath_mem (p : Fin 4) (r : PathRec) : (setPath c p r).mem = c.mem := rfl
@[simp] theorem setPath_cmd (p : Fin 4) (r : PathRec) : (setPath c p r).cmd = c.cmd := rfl
@[simp] theorem setPath_timing (p : Fin 4) (r : PathRec) : (setPath c p r).timing = c.timing := rfl
@[simp] theorem setPath_feeds (p : Fin 4) (r : PathRec) : (setPath c p r).feeds = c.feeds := rfl
@[simp] theorem setPath_rings (p : Fin 4) (r : PathRec) : (setPath c p r).rings = c.rings := rfl
@[simp] theorem setPath_mixer (p : Fin 4) (r : PathRec) : (setPath c p r).mixer = c.mixer := rfl
@[simp] theorem setPath_tally (p : Fin 4) (r : PathRec) : (setPath c p r).tally = c.tally := rfl
@[simp] theorem setPath_clips (p : Fin 4) (r : PathRec) : (setPath c p r).clips = c.clips := rfl
@[simp] theorem setPath_filter (p : Fin 4) (r : PathRec) : (setPath c p r).filter = c.filter := rfl
@[simp] theorem setPath_sched (p : Fin 4) (r : PathRec) : (setPath c p r).sched = c.sched := rfl

/-! ### Tally records and signal lines -/

@[simp] theorem setTallyFeed_same (f : Fin 8) (t : TallyFeed) :
    (setTallyFeed c f t).tally.feeds[f] = t := by
  simp [setTallyFeed]

@[simp] theorem setTallyFeed_other (f g : Fin 8) (t : TallyFeed) (h : g ≠ f) :
    (setTallyFeed c f t).tally.feeds[g] = c.tally.feeds[g] := by
  have : (f : Nat) ≠ (g : Nat) := fun e => h (Fin.ext e.symm)
  simp [setTallyFeed, this]

@[simp] theorem setTallyFeed_cmd (f : Fin 8) (t : TallyFeed) : (setTallyFeed c f t).cmd = c.cmd := rfl
@[simp] theorem setTallyFeed_feeds (f : Fin 8) (t : TallyFeed) :
    (setTallyFeed c f t).feeds = c.feeds := rfl
@[simp] theorem setTallyFeed_clips (f : Fin 8) (t : TallyFeed) :
    (setTallyFeed c f t).clips = c.clips := rfl
@[simp] theorem setTallyFeed_sched (f : Fin 8) (t : TallyFeed) :
    (setTallyFeed c f t).sched = c.sched := rfl
@[simp] theorem setTallyFeed_authority (f : Fin 8) (t : TallyFeed) :
    (setTallyFeed c f t).tally.authority = c.tally.authority := rfl

@[simp] theorem setLine_same (n : Fin 8) (l : SignalLine) : (setLine c n l).tally.lines[n] = l := by
  simp [setLine]

@[simp] theorem setLine_other (n m : Fin 8) (l : SignalLine) (h : m ≠ n) :
    (setLine c n l).tally.lines[m] = c.tally.lines[m] := by
  have : (n : Nat) ≠ (m : Nat) := fun e => h (Fin.ext e.symm)
  simp [setLine, this]

@[simp] theorem setLine_feeds (n : Fin 8) (l : SignalLine) :
    (setLine c n l).tally.feeds = c.tally.feeds := rfl

/-! ### The state after a taking -/

@[simp] theorem taken_chip (d : Chip) : (s.taken d).chip = d := rfl
@[simp] theorem taken_dram (d : Chip) : (s.taken d).dram = s.dram := rfl
@[simp] theorem taken_intake (d : Chip) : (s.taken d).intake = s.intake.tail := rfl
@[simp] theorem taken_pending (d : Chip) : (s.taken d).pending = s.pending := rfl

end Sys2Proof.Machine
end

