-- ==== Sys2Proof/Laws/Steps.lean ====
section
/-! SUPPORT. What a command's taking and an event can do, said once. -/

namespace Sys2Proof.Machine

/-- A command that may be taken: its line leaves the intake queue and the part changes. -/
theorem command_taken {i : Instr} {s : State} {k : Chip → Chip} (h : takes i s = true) :
    command i s k = .next (s.taken (k s.chip)) := by
  rw [command, if_pos h]
  rfl

/-- A command that may not be taken has no effect. -/
theorem command_waits {i : Instr} {s : State} {k : Chip → Chip} (h : takes i s = false) :
    command i s k = .next s := by
  rw [command, if_neg (by rw [h]; exact Bool.false_ne_true)]

/-- Everything a command can do. -/
theorem command_cases {i : Instr} {s t : State} {k : Chip → Chip} (h : command i s k = .next t) :
    (takes i s = true ∧ t = s.taken (k s.chip)) ∨ (takes i s = false ∧ t = s) := by
  cases hk : takes i s with
  | true =>
    rw [command_taken hk] at h
    exact .inl ⟨rfl, (Host.Outcome.next.inj h).symm⟩
  | false =>
    rw [command_waits hk] at h
    exact .inr ⟨rfl, (Host.Outcome.next.inj h).symm⟩

/-- An event while the reset input is not held. -/
theorem event_runs {s : State} {k : Chip → Chip} (h : s.chip.resetHeld = false) :
    event s k = .next { s with chip := k s.chip } := by
  rw [event, if_neg (by rw [h]; exact Bool.false_ne_true)]

/-- An event while the reset input is held has no effect. -/
theorem event_held {s : State} {k : Chip → Chip} (h : s.chip.resetHeld = true) :
    event s k = .next s := by
  rw [event, if_pos h]

/-- Everything an event can do. -/
theorem event_cases {s t : State} {k : Chip → Chip} (h : event s k = .next t) :
    (s.chip.resetHeld = false ∧ t = { s with chip := k s.chip }) ∨
      (s.chip.resetHeld = true ∧ t = s) := by
  cases hk : s.chip.resetHeld with
  | false =>
    rw [event_runs hk] at h
    exact .inl ⟨rfl, (Host.Outcome.next.inj h).symm⟩
  | true =>
    rw [event_held hk] at h
    exact .inr ⟨rfl, (Host.Outcome.next.inj h).symm⟩

/-- A command keeps DRAM and the model's queue, and its line is all that leaves the intake queue. -/
theorem command_keeps {i : Instr} {s t : State} {k : Chip → Chip} (h : command i s k = .next t) :
    t.dram = s.dram ∧ t.pending = s.pending ∧ (t.intake = s.intake.tail ∨ t.intake = s.intake) := by
  rcases command_cases h with ⟨-, rfl⟩ | ⟨-, rfl⟩
  · exact ⟨rfl, rfl, .inl rfl⟩
  · exact ⟨rfl, rfl, .inr rfl⟩

/-- An event keeps DRAM, the model's queue and the intake queue. -/
theorem event_keeps {s t : State} {k : Chip → Chip} (h : event s k = .next t) :
    t.dram = s.dram ∧ t.pending = s.pending ∧ t.intake = s.intake := by
  rcases event_cases h with ⟨-, rfl⟩ | ⟨-, rfl⟩ <;> exact ⟨rfl, rfl, rfl⟩

/-- A line handed over keeps DRAM and the model's queue, and the intake queue within its bound (R18). -/
theorem intakeLine_keeps (l : Line) (s : State) :
    (intakeLine l s).dram = s.dram ∧ (intakeLine l s).pending = s.pending ∧
      (s.intake.length ≤ Config.intakeLimit →
        (intakeLine l s).intake.length ≤ Config.intakeLimit) := by
  unfold intakeLine
  split
  · next h => exact ⟨rfl, rfl, fun _ => by simpa using h⟩
  · exact ⟨rfl, rfl, fun h => h⟩

/-- A write tap keeps DRAM and the model's queue, and the intake queue within its bound. -/
theorem writeTap_keeps (e : Fin 24) (w : Window) (a : Nat) (d : Line) (m : Mask) (s : State) :
    (writeTap e w a d m s).dram = s.dram ∧ (writeTap e w a d m s).pending = s.pending ∧
      (s.intake.length ≤ Config.intakeLimit →
        (writeTap e w a d m s).intake.length ≤ Config.intakeLimit) := by
  unfold writeTap
  split
  · exact intakeLine_keeps _ _
  all_goals exact ⟨rfl, rfl, fun h => h⟩

/-- A host write keeps DRAM and the model's queue, and the intake queue within its bound: DRAM changes
only when a grant writes it (R1). -/
theorem hostWrite_keeps (a : BitVec 36) (d : Line) (m : Mask) (s : State) :
    (hostWrite a d m s).dram = s.dram ∧ (hostWrite a d m s).pending = s.pending ∧
      (s.intake.length ≤ Config.intakeLimit →
        (hostWrite a d m s).intake.length ≤ Config.intakeLimit) := by
  unfold hostWrite
  dsimp only
  split
  · exact ⟨rfl, rfl, fun h => h⟩
  · split
    · exact ⟨rfl, rfl, fun h => h⟩
    · next e w _ =>
      split
      · split <;> exact ⟨rfl, rfl, fun h => h⟩
      · split
        · exact writeTap_keeps e w _ _ _ _
        · exact writeTap_keeps e w (lineAddr a) d m
            { s with chip := forward (.write (lineAddr a) d m) s.chip }

end Sys2Proof.Machine
end

