-- ==== Sys2Proof/Laws/Serving.lean ====
section
/-! SUPPORT. When the scheduler serves and when it does not, what the end of an in-flight entry may change,
and what a change of a path's state comes to, each said once. -/

namespace Sys2Proof.Machine

/-! ### Named updates made twice or not at all -/

@[simp] theorem setPath_set (c : Chip) (p : Fin 4) (r r' : PathRec) :
    setPath (setPath c p r) p r' = setPath c p r' := by simp [setPath]

@[simp] theorem setPath_self (c : Chip) (p : Fin 4) : setPath c p c.paths[p] = c := by simp [setPath]

@[simp] theorem setFeed_set (c : Chip) (f : Fin 8) (r r' : Feed) :
    setFeed (setFeed c f r) f r' = setFeed c f r' := by simp [setFeed]

/-! ### The end of a command -/

theorem conclude_done (k : BitVec 16) (h : CmdHead) (c d : Chip) (r : ResultCode) (l : List Byte) :
    conclude k h c (.completed r l d) = completedBy k h r l d := rfl

theorem conclude_refused (k : BitVec 16) (h : CmdHead) (c : Chip) (r : ResultCode) :
    conclude k h c (.refused r) = refusedBy k h r c := rfl

/-! ### Serving -/

/-- An event that leaves the scheduler and the paths as they were is served nothing (R176). -/
theorem serveIfNew_same {b a : Chip} (h : a.sched = b.sched) (k : a.paths = b.paths) :
    serveIfNew b a = a := by
  unfold serveIfNew
  rw [if_pos (by simp [h, k])]

/-- Reports are no ground for a serve (R176). -/
theorem serveIfNew_report {b a : Chip} (h : ReportOnly b a) : serveIfNew b a = a :=
  serveIfNew_same h.sched h.paths

theorem bestReady_none {c : Chip} (h : ∀ q : Fin 4, ready c.paths[q] = false) :
    bestReady c = none := by
  have h0 := h 0; have h1 := h 1; have h2 := h 2; have h3 := h 3
  simp only [bestReady, four, List.foldl, h0, h1, h2, h3, Bool.false_eq_true, if_false]

/-- With no path ready nothing is served (R163, R176). -/
theorem serve_quiet {c : Chip} (h : ∀ q : Fin 4, ready c.paths[q] = false) : serve c = c := by
  simp [serve, inReadOrder, serveLoop, serveOnce, bestReady_none h, four]

theorem serveIfNew_quiet {b c : Chip} (h : ∀ q : Fin 4, ready c.paths[q] = false) :
    serveIfNew b c = c := by
  unfold serveIfNew
  split
  · rfl
  · exact serve_quiet h

/-! ### Causes -/

/-- A cause made pending joins the pending set and nothing leaves it (R33). -/
theorem makePending_get (k : Cause) (c : Chip) (n : Nat) :
    (makePending k c).cmd.pendingSet.getLsbD n =
      (c.cmd.pendingSet.getLsbD n || decide (n = causeCode k)) := by
  simp only [makePending, withCause, causeBit, BitVec.getLsbD_or, BitVec.getLsbD_ofNat,
    Nat.testBit_two_pow]
  by_cases h : n < 8
  · simp [h, eq_comm]
  · have : causeCode k < 8 := by cases k <;> decide
    have : n ≠ causeCode k := by omega
    simp [h, this]

theorem drainStaging_pending (n : Nat) (c : Chip) :
    (drainStaging n c).cmd.pendingSet = c.cmd.pendingSet := by
  induction n generalizing c with
  | zero => rfl
  | succ n ih =>
    rw [drainStaging]
    split
    · rfl
    · split
      · rw [ih]; rfl
      · rfl

/-- A report takes no cause out of the pending set. -/
theorem putReport_keeps_pending (k : ReportKind) (body : List Byte) (c : Chip) (n : Nat)
    (h : c.cmd.pendingSet.getLsbD n = true) :
    (putReport k body c).cmd.pendingSet.getLsbD n = true := by
  unfold putReport
  split
  · exact h
  · split
    · unfold loseReport
      split
      · exact h
      · simp only [makePending_get, h, Bool.true_or]
    · unfold placeReport
      simp only [drainStaging_pending]
      split
      · simp [makePending_get, h]
      · exact h

/-- The cause of a report asked for is pending afterwards (R29, R33). -/
theorem askReport_pending {k : ReportKind} {x : Cause} (hk : reportCause k = some x)
    (body : List Byte) (c : Chip) :
    (askReport k body c).cmd.pendingSet.getLsbD (causeCode x) = true := by
  unfold askReport
  apply putReport_keeps_pending
  unfold raiseCause
  rw [hk]
  simp [makePending_get]

theorem askReport_keeps_pending (k : ReportKind) (body : List Byte) (c : Chip) (n : Nat)
    (h : c.cmd.pendingSet.getLsbD n = true) :
    (askReport k body c).cmd.pendingSet.getLsbD n = true := by
  unfold askReport
  apply putReport_keeps_pending
  unfold raiseCause
  split <;> simp [makePending_get, h]

/-! ### The end of an in-flight entry -/

/-- Only the command unit, the own-write buffer and the arbiter's state may differ. -/
structure CommandOnly (c d : Chip) : Prop where
  same : d = { c with cmd := d.cmd, mem.buffer := d.mem.buffer, mem.alternating := d.mem.alternating }

theorem CommandOnly.refl (c : Chip) : CommandOnly c c := ⟨rfl⟩

theorem CommandOnly.trans {a b c : Chip} (h : CommandOnly a b) (k : CommandOnly b c) :
    CommandOnly a c := ⟨by rw [k.same, h.same]⟩

theorem ReportOnly.command {c d : Chip} (h : ReportOnly c d) : CommandOnly c d := ⟨by rw [h.same]⟩

variable {c d : Chip}

theorem CommandOnly.paths (h : CommandOnly c d) : d.paths = c.paths := by rw [h.same]
theorem CommandOnly.feeds (h : CommandOnly c d) : d.feeds = c.feeds := by rw [h.same]
theorem CommandOnly.rings (h : CommandOnly c d) : d.rings = c.rings := by rw [h.same]
theorem CommandOnly.tally (h : CommandOnly c d) : d.tally = c.tally := by rw [h.same]
theorem CommandOnly.sched (h : CommandOnly c d) : d.sched = c.sched := by rw [h.same]
theorem CommandOnly.clips (h : CommandOnly c d) : d.clips = c.clips := by rw [h.same]
theorem CommandOnly.mixer (h : CommandOnly c d) : d.mixer = c.mixer := by rw [h.same]

theorem endEntry_command (e : InFlight) (r : ResultCode) (l : List Byte) (c : Chip) :
    CommandOnly c (endEntry e r l c) := by
  unfold endEntry
  split
  · exact CommandOnly.trans (b := { c with cmd.inflight := _ }) ⟨rfl⟩
      (askResult_reportOnly _ _ _ _ _ _).command
  · exact ⟨rfl⟩

theorem settleFences_command (n : Nat) (c : Chip) : CommandOnly c (settleFences n c) := by
  induction n generalizing c with
  | zero => exact .refl c
  | succ n ih =>
    rw [settleFences]
    split
    · exact .refl c
    · exact (endEntry_command _ _ _ _).trans (ih _)

/-- The end of a command in flight concerns the command unit alone (R23, R24). -/
theorem finishObject_command (o : Object) (l : List Byte) (c : Chip) :
    CommandOnly c (finishObject o l c) := by
  unfold finishObject
  split
  · exact .refl c
  · exact (endEntry_command _ _ _ _).trans (settleFences_command _ _)

/-! ### A change of a path's state -/

theorem endRetrain_command (p : Fin 4) (x : PathState) (c : Chip) :
    CommandOnly c (endRetrain p x c) := by
  unfold endRetrain
  split <;> first | exact finishObject_command _ _ _ | exact .refl _

theorem tellTally_other (o n : PathState) (c : Chip) :
    (tellTally o n c).paths = c.paths ∧ (tellTally o n c).feeds = c.feeds ∧
      (tellTally o n c).rings = c.rings := by
  unfold tellTally pathCameUp pathWentDown
  split
  · exact ⟨rfl, rfl, rfl⟩
  · split <;> exact ⟨rfl, rfl, rfl⟩

theorem allocate_path (c : Chip) (q : Fin 4) :
    (allocate c).paths[q] = { c.paths[q] with pacingCap := pathCap c.paths[q] } := by
  simp [allocate]

theorem stateReport_reportOnly (p : Fin 4) (o : PathState) (reason : PathReason) (n : Nat)
    (r : PathRec) (c : Chip) : ReportOnly c (stateReport p o reason n r c) := askReport_reportOnly _ _ _

theorem tellTally_allocate_command {c d : Chip} (h : CommandOnly c d) (o n : PathState) :
    CommandOnly (tellTally o n (allocate c)) (tellTally o n (allocate d)) := by
  constructor
  rw [h.same]
  unfold tellTally pathCameUp pathWentDown allocate
  split
  · rfl
  · split <;> rfl

/-- Beside the command unit, a change of a path's state is the new record, an allocation and the tally
unit's count (R153). -/
theorem changeState_command (p : Fin 4) (reason : PathReason) (n : Nat) (r : PathRec) (c : Chip) :
    CommandOnly
      (tellTally c.paths[p].state r.state (allocate (setPath c p { r with due := [] })))
      (changeState p reason n r c) :=
  (tellTally_allocate_command (stateReport_reportOnly p _ reason n r _).command _ _).trans
    (endRetrain_command _ _ _)

/-- The records after a change of a path's state, each with the pacing cap of the allocation (R153, R169). -/
theorem changeState_path (p q : Fin 4) (reason : PathReason) (n : Nat) (r : PathRec) (c : Chip) :
    (changeState p reason n r c).paths[q] =
      if q = p then { r with due := [], pacingCap := pathCap r }
      else { c.paths[q] with pacingCap := pathCap c.paths[q] } := by
  rw [(changeState_command p reason n r c).paths, (tellTally_other _ _ _).1, allocate_path]
  split
  · next h =>
    subst h
    rw [setPath_same]
    rfl
  · next h => rw [setPath_other _ _ _ _ h]

end Sys2Proof.Machine
end

