-- ==== Sys2Proof/Laws/Bounds.lean ====
section
/-! SUPPORT. The part's bounds, `Chip.Inv`: an operation that leaves everything bounded as it was keeps
them, and so do reports, the end of a command in flight, changes of a path's or a clip's record, and the
scheduler's serves. -/

namespace Sys2Proof.Machine

variable {c d : Chip}

/-! ### Frames -/

/-- Everything the bounds speak of. -/
def bounded (c : Chip) :=
  (c.mem.buffer, c.cmd.staging, c.mixer.fireQ, c.sched.audio, c.sched.label, c.sched.clipQ,
    c.sched.returns, c.paths, c.tally.upCount, c.clips.list, c.tally.stack)

/-- An operation that leaves everything bounded as it was keeps the bounds. -/
theorem Chip.Inv.frame (h : c.Inv) (e : bounded d = bounded c) : d.Inv := by
  simp only [bounded, Prod.mk.injEq] at e
  obtain ⟨mem, cmd, mix, audio, label, clipQ, returns, paths, up, list, stack⟩ := e
  exact ⟨mem ▸ h.buffer, cmd ▸ h.staging, mix ▸ h.fired,
    ⟨audio ▸ h.sched.audio, label ▸ h.sched.label, clipQ ▸ h.sched.clipQ, returns ▸ h.sched.returns⟩,
    by rw [paths, up]; exact h.paths, by rw [list, stack]; exact h.clips⟩

/-- A list of operations that each keep the bounds keeps them. -/
theorem foldl_inv {α : Type} {g : Chip → α → Chip} (k : ∀ c x, c.Inv → (g c x).Inv) (l : List α) :
    ∀ c : Chip, c.Inv → (l.foldl g c).Inv := by
  induction l with
  | nil => exact fun _ h => h
  | cons x l ih => exact fun c h => ih _ (k c x h)

/-! ### Reports -/

theorem makePending_inv (k : Cause) (h : c.Inv) : (makePending k c).Inv := h.frame rfl

/-- A write accepted while the buffer has room. -/
theorem pushOwn_inv (w : OwnWrite) (h : c.Inv) (room : c.mem.buffer.length < Config.bufferLimit) :
    (pushOwn w c).Inv := by
  refine ⟨?_, h.staging, h.fired, h.sched, h.paths, h.clips⟩
  simpa [pushOwn] using room

/-- The own-write buffer and the staging list are within their bounds. -/
structure Fits (c : Chip) : Prop where
  buffer : c.mem.buffer.length ≤ Config.bufferLimit
  staging : c.cmd.staging.length ≤ Config.stagingLimit

theorem drainStaging_fits (n : Nat) (h : Fits c) : Fits (drainStaging n c) := by
  induction n generalizing c with
  | zero => exact h
  | succ n ih =>
    rw [drainStaging]
    split
    · exact h
    · next w rest e =>
      split
      · next room =>
        have hs := h.staging
        rw [e] at hs
        refine ih ⟨?_, Nat.le_of_succ_le hs⟩
        have : c.mem.buffer.length < Config.bufferLimit :=
          Nat.lt_of_le_of_lt (Nat.le_add_right _ _) room
        simpa [pushOwn] using this
      · exact h

theorem loseReport_fits (h : Fits c) : Fits (loseReport c) := by
  unfold loseReport
  split <;> exact ⟨h.buffer, h.staging⟩

theorem placeReport_fits (w : Window) (k : ReportKind) (body : List Byte) (h : Fits c)
    (room : c.cmd.staging.length < Config.stagingLimit) : Fits (placeReport w k body c) := by
  unfold placeReport
  refine drainStaging_fits _ ?_
  split
  all_goals exact ⟨h.buffer, by simpa [makePending] using room⟩

theorem askReport_fits (k : ReportKind) (body : List Byte) (h : Fits c) :
    Fits (askReport k body c) := by
  have hr : Fits (raiseCause k c) := by
    unfold raiseCause
    split <;> exact ⟨h.buffer, h.staging⟩
  unfold askReport putReport
  split
  · exact hr
  · next w _ =>
    split
    · exact loseReport_fits hr
    · next e => exact placeReport_fits w k body hr (by simp [noReportRoom] at e; exact e.2)

theorem askReport_inv (k : ReportKind) (body : List Byte) (h : c.Inv) : (askReport k body c).Inv := by
  have hr := askReport_reportOnly k body c
  have hf := askReport_fits k body ⟨h.buffer, h.staging⟩
  exact ⟨hf.buffer, hf.staging, by rw [hr.mixer]; exact h.fired, by rw [hr.sched]; exact h.sched,
    by rw [hr.paths, hr.tally]; exact h.paths, by rw [hr.clips, hr.tally]; exact h.clips⟩

theorem askResult_inv (kind tag : BitVec 16) (src : Source) (r : ResultCode) (l : List Byte)
    (h : c.Inv) : (askResult kind tag src r l c).Inv := askReport_inv _ _ h

theorem endOverfull_inv (h : c.Inv) : (endOverfull c).Inv := by
  unfold endOverfull
  split
  · exact h
  · split
    · exact askReport_inv _ _ (h.frame rfl)
    · exact h

/-! ### Commands in flight -/

theorem endEntry_inv (e : InFlight) (r : ResultCode) (l : List Byte) (h : c.Inv) :
    (endEntry e r l c).Inv := by
  unfold endEntry
  split
  · exact askResult_inv _ _ _ _ _ (h.frame rfl)
  · exact h.frame rfl

theorem settleFences_inv (n : Nat) (h : c.Inv) : (settleFences n c).Inv := by
  induction n generalizing c with
  | zero => exact h
  | succ n ih =>
    rw [settleFences]
    split
    · exact h
    · exact ih (endEntry_inv _ _ _ h)

theorem finishObject_inv (o : Object) (l : List Byte) (h : c.Inv) : (finishObject o l c).Inv := by
  unfold finishObject
  split
  · exact h
  · exact settleFences_inv _ (endEntry_inv _ _ _ h)

/-- What a command's owner answers leaves the part within its bounds. -/
def Verdict.Inv : Verdict → Prop
  | .completed _ _ c | .begun _ c => c.Inv
  | .refused _ => True

theorem conclude_inv (k : BitVec 16) (a : CmdHead) {v : Verdict} (h : c.Inv) (hv : v.Inv) :
    (conclude k a c v).Inv := by
  cases v with
  | refused r => exact askResult_inv _ _ _ _ _ h
  | completed r l d =>
    rw [conclude_done, completedBy]
    split
    · exact askResult_inv _ _ _ _ _ hv
    · exact hv
  | begun o d => exact Chip.Inv.frame (c := d) hv rfl

/-! ### Paths -/

/-- The UP count and the queues depend on the paths' states and queues alone. -/
theorem PathsInv.of {ps qs : Vector PathRec 4} {n : Nat} (h : PathsInv ps n)
    (queue : ∀ p : Fin 4, qs[p].queue.length ≤ ps[p].queue.length)
    (state : ∀ p : Fin 4, qs[p].state = ps[p].state) : PathsInv qs n where
  queues p := Nat.le_trans (queue p) (h.queues p)
  upCount := by
    rw [h.upCount]
    simp only [state]

/-- A path's record changed, its state as before and its queue within its bound. -/
theorem setPath_inv (p : Fin 4) (r : PathRec) (h : c.Inv)
    (queue : r.queue.length ≤ Config.transmitLimit) (state : r.state = c.paths[p].state) :
    (setPath c p r).Inv := by
  refine ⟨h.buffer, h.staging, h.fired, h.sched, ⟨fun q => ?_, ?_⟩, h.clips⟩
  · by_cases e : q = p
    · subst e
      rw [setPath_same]
      exact queue
    · rw [setPath_other _ _ _ _ e]
      exact h.paths.queues q
  · show c.tally.upCount = _
    rw [h.paths.upCount]
    refine List.countP_congr fun q _ => ?_
    by_cases e : q = p
    · subst e
      rw [setPath_same, state]
    · rw [setPath_other _ _ _ _ e]

/-- A path's record changed, its queue and state as before. -/
theorem setPath_keep (p : Fin 4) (r : PathRec)
    (e : (r.queue, r.state) = (c.paths[p].queue, c.paths[p].state)) (h : c.Inv) :
    (setPath c p r).Inv := by
  rw [Prod.mk.injEq] at e
  exact setPath_inv p r h (e.1 ▸ h.paths.queues p) e.2

/-- The paths' fragments thinned out. -/
theorem pathsMap_inv (g : Fragment → Bool) (h : c.Inv) :
    PathsInv (c.paths.map fun r => { r with queue := r.queue.filter g }) c.tally.upCount :=
  h.paths.of (fun p => by simpa using List.length_filter_le _ _) (fun p => by simp)

theorem allocate_inv (h : c.Inv) : (allocate c).Inv :=
  ⟨h.buffer, h.staging, h.fired, ⟨h.sched.audio, h.sched.label, h.sched.clipQ, h.sched.returns⟩,
    h.paths.of (fun p => by simp [allocate]) (fun p => by simp [allocate]), h.clips⟩

/-! ### Transmission -/

theorem beginTransmission_inv (p : Fin 4) (h : c.Inv) : (beginTransmission p c).Inv := by
  unfold beginTransmission
  split
  · split
    · exact h
    · next f rest e =>
      refine setPath_inv p _ (Chip.Inv.frame (c := c) h rfl) ?_ rfl
      have := h.paths.queues p
      rw [e] at this
      exact Nat.le_of_succ_le this
  · exact h

theorem sendWord_inv (p : Fin 4) (w : ControlWord) (h : c.Inv) : (sendWord p w c).Inv := by
  unfold sendWord
  dsimp only
  split <;> exact setPath_keep p _ rfl h

theorem linkFree_inv (p : Fin 4) (h : c.Inv) : (linkFree p c).Inv := by
  unfold linkFree
  dsimp only
  split
  · exact setPath_keep p _ rfl h
  · exact beginTransmission_inv p (setPath_keep p _ rfl h)

/-- A fragment handed to a path with room for it. -/
theorem hand_inv (p : Fin 4) (cls : UplinkClass) (i : Item) (a o t k : Nat) (l : List Byte)
    (h : c.Inv) (room : c.paths[p].queue.length < Config.transmitLimit) :
    (hand p cls i a o t k l c).Inv := by
  unfold hand
  refine beginTransmission_inv p (setPath_inv p _ (Chip.Inv.frame (c := c) h rfl) ?_ rfl)
  simpa using room

/-! ### The scheduler's lists -/

theorem mapUnits_inv (g : UnitRec → UnitRec) (f : Fin 8) (h : c.Inv) : (mapUnits g f c).Inv := h.frame rfl

theorem settleMember_inv (i : Item) (h : c.Inv) : (settleMember i c).Inv := by
  unfold settleMember
  split
  · split
    · exact h
    · exact mapUnits_inv _ _ h
  all_goals exact h

theorem joinAudio_inv (a : AudioItem) (h : c.Inv) : (joinAudio a c).Inv := by
  refine ⟨h.buffer, h.staging, h.fired, ⟨?_, h.sched.label, h.sched.clipQ, h.sched.returns⟩, h.paths,
    h.clips⟩
  have := h.sched.audio
  show (_ ++ [a]).length ≤ Config.audioLimit
  rw [List.length_append]
  split <;> simp [Config.audioLimit] at * <;> omega

theorem joinLabel_inv (m : LabelItem) (h : c.Inv) : (joinLabel m c).Inv := by
  unfold joinLabel
  split
  · next e =>
    refine ⟨h.buffer, h.staging, h.fired, ⟨h.sched.audio, ?_, h.sched.clipQ, h.sched.returns⟩, h.paths,
      h.clips⟩
    simpa [labelRoom] using e
  · exact askReport_inv _ _ h

theorem signalHome_inv (code : Byte) (src : Source) (h : c.Inv) : (signalHome code src c).Inv :=
  askReport_inv _ _ (joinLabel_inv _ h)

theorem ageLive_inv (n : Nat) (h : c.Inv) : (ageLive n c).Inv := by
  induction n generalizing c with
  | zero => exact h
  | succ n ih =>
    rw [ageLive]
    split
    · exact h
    · split
      · exact ih (settleMember_inv _ (Chip.Inv.frame (c := c) h rfl))
      · exact h

theorem makeReturnRoom_inv (h : c.Inv) : (makeReturnRoom c).Inv := by
  unfold makeReturnRoom
  split
  · exact h
  · split
    · exact h
    · next r rest e =>
      refine settleMember_inv _ ⟨h.buffer, h.staging, h.fired, ⟨h.sched.audio, h.sched.label,
        h.sched.clipQ, ?_⟩, h.paths, h.clips⟩
      have := h.sched.returns
      rw [e] at this
      exact Nat.le_of_succ_le this

theorem settleMember_sched (i : Item) (c : Chip) : (settleMember i c).sched = c.sched := by
  unfold settleMember
  split
  · split <;> rfl
  all_goals rfl

/-- The return list has room after its oldest entry was dropped (R178). -/
theorem makeReturnRoom_room (h : c.Inv) :
    (makeReturnRoom c).sched.returns.length < Config.returnLimit := by
  unfold makeReturnRoom
  split
  · assumption
  · split
    · next e => rw [e]; decide
    · next r rest e =>
      rw [settleMember_sched]
      have := h.sched.returns
      rw [e] at this
      exact this

theorem returnFragment_inv (f : Fragment) (h : c.Inv) : (returnFragment f c).Inv := by
  unfold returnFragment
  split
  · have hr := makeReturnRoom_inv h
    have room := makeReturnRoom_room h
    have : Chip.Inv { makeReturnRoom c with
        sched.returns := (makeReturnRoom c).sched.returns ++ [returned f] } :=
      ⟨hr.buffer, hr.staging, hr.fired, ⟨hr.sched.audio, hr.sched.label, hr.sched.clipQ,
        by simpa using room⟩, hr.paths, hr.clips⟩
    unfold rejoin
    split
    · exact mapUnits_inv _ _ this
    all_goals exact this
  · exact h

theorem returnQueue_inv (p : Fin 4) (h : c.Inv) : (returnQueue p c).Inv :=
  foldl_inv (fun _ f hc => returnFragment_inv f hc) _ _ (setPath_inv p _ h (Nat.zero_le _) rfl)

theorem withdrawItems_inv (g : Item → Bool) (h : c.Inv) : (withdrawItems g c).Inv :=
  ⟨h.buffer, h.staging, h.fired, ⟨h.sched.audio, h.sched.label, h.sched.clipQ,
    Nat.le_trans (List.length_filter_le _ _) h.sched.returns⟩, pathsMap_inv _ h, h.clips⟩

theorem withdrawLive_inv (f : Fin 8) (q : Count32) (h : c.Inv) : (withdrawLive f q c).Inv :=
  mapUnits_inv _ _ (withdrawItems_inv _ (Chip.Inv.frame (c := c) h rfl))

theorem withdrawClip_inv (n : Nat) (h : c.Inv) : (withdrawClip n c).Inv :=
  withdrawItems_inv _ ⟨h.buffer, h.staging, h.fired, ⟨h.sched.audio, h.sched.label,
    Nat.le_trans (List.length_filter_le _ _) h.sched.clipQ, h.sched.returns⟩, h.paths, h.clips⟩

/-! ### Clip records -/

/-- The clip a number names is in the log, and no other clip has its number. -/
theorem findClip_some {n : Nat} {k : Clip} (h : c.Inv) (e : findClip c n = some k) :
    k ∈ c.clips.list ∧ k.number = n ∧ ∀ x ∈ c.clips.list, x.number = n → x = k := by
  have hk := List.mem_of_find?_eq_some e
  have hn : k.number = n := by simpa using List.find?_some e
  exact ⟨hk, hn, fun x hx hxn =>
    List.inj_on_of_nodup_map h.clips.numbers hx hk (hxn.trans hn.symm)⟩

theorem findClip_of_mem {k : Clip} (h : c.Inv) (hk : k ∈ c.clips.list) :
    findClip c k.number = some k := by
  cases hf : findClip c k.number with
  | none =>
    have := List.find?_eq_none.1 hf k hk
    simp at this
  | some x => rw [(findClip_some h hf).2.2 k hk rfl]

/-- An OPEN clip has no send progress. -/
theorem opened_progress {k : Clip} (h : c.Inv) (hk : k ∈ c.clips.list) (hs : k.state = .opened) :
    k.progress = none := by
  cases hp : k.progress with
  | none => rfl
  | some _ =>
    have := h.clips.sending k hk (by rw [hp]; rfl)
    rw [hs] at this
    cases this

/-- A clip's new record that a change of it may bring: the same clip, OPEN MANUAL if and only if it was, and
send progress only while SENDING. -/
structure Recorded (k x : Clip) : Prop where
  number : x.number = k.number
  progress : x.progress.isSome = true → x.state = .sending
  manual : (x.origin = .manual ∧ x.state = .opened) ↔ (k.origin = .manual ∧ k.state = .opened)

/-- A clip's record changed. -/
theorem mapClip_inv {n : Nat} {g : Clip → Clip} (h : c.Inv)
    (hg : ∀ k ∈ c.clips.list, k.number = n → Recorded k (g k)) : (mapClip n g c).Inv := by
  have num : ∀ k ∈ c.clips.list, (if k.number = n then g k else k).number = k.number := by
    intro k hk
    split
    · next e => exact (hg k hk e).number
    · rfl
  have man : ∀ k ∈ c.clips.list,
      ((if k.number = n then g k else k).origin = .manual ∧
        (if k.number = n then g k else k).state = .opened) ↔
      (k.origin = .manual ∧ k.state = .opened) := by
    intro k hk
    split
    · next e => exact (hg k hk e).manual
    · exact Iff.rfl
  refine ⟨h.buffer, h.staging, h.fired, h.sched, h.paths, ⟨?_, ?_, ?_, h.clips.depth, h.clips.once,
    ?_, ?_⟩⟩
  · simpa [mapClip] using h.clips.records
  · have : (mapClip n g c).clips.list.map (·.number) = c.clips.list.map (·.number) := by
      simp only [mapClip, List.map_map]
      exact List.map_congr_left num
    rw [this]
    exact h.clips.numbers
  · intro x hx
    obtain ⟨k, hk, rfl⟩ := List.mem_map.1 hx
    split
    · next e => exact (hg k hk e).progress
    · exact h.clips.sending k hk
  · intro m hm
    obtain ⟨k, hk, hn, hs⟩ := h.clips.marks m hm
    exact ⟨_, List.mem_map_of_mem hk, (num k hk).trans hn, (man k hk).2 hs⟩
  · intro x hx
    obtain ⟨k, hk, rfl⟩ := List.mem_map.1 hx
    intro ho hs
    rw [num k hk]
    have := (man k hk).1 ⟨ho, hs⟩
    exact h.clips.marked k hk this.1 this.2

/-- The clip's record changed that a number names. -/
theorem mapFound_inv {n : Nat} {k : Clip} {g : Clip → Clip} (h : c.Inv) (e : findClip c n = some k)
    (hg : Recorded k (g k)) : (mapClip n g c).Inv :=
  mapClip_inv h fun x hx hn => by rw [(findClip_some h e).2.2 x hx hn]; exact hg

/-- Everything a change can do to a clip that does not touch its number, origin, state and progress. -/
theorem Recorded.plain {k x : Clip} (h : c.Inv) (hk : k ∈ c.clips.list)
    (e : (x.number, x.origin, x.state, x.progress) = (k.number, k.origin, k.state, k.progress)) :
    Recorded k x := by
  simp only [Prod.mk.injEq] at e
  obtain ⟨number, origin, state, progress⟩ := e
  exact ⟨number, by rw [progress, state]; exact h.clips.sending k hk, by rw [origin, state]⟩

/-- A clip that is not OPEN takes another state than OPEN. -/
theorem Recorded.moved {k x : Clip} (hk : k.state ≠ .opened) (hx : x.state ≠ .opened)
    (progress : x.progress.isSome = true → x.state = .sending) (number : x.number = k.number) :
    Recorded k x :=
  ⟨number, progress, iff_of_false (fun e => hx e.2) (fun e => hk e.2)⟩

theorem clipHanded_inv (n k : Nat) (h : c.Inv) : (clipHanded n k c).Inv := by
  unfold clipHanded
  split
  · exact h
  · next x e =>
    split
    · exact h
    · next total handed ep =>
      have hs := h.clips.sending x (findClip_some h e).1 (by rw [ep]; rfl)
      split
      · exact askReport_inv _ _ (mapFound_inv h e
          (.moved (by rw [hs]; decide) (by simp) (by simp) rfl))
      · exact mapFound_inv h e (.moved (by rw [hs]; decide) (by rw [hs]; decide) (fun _ => hs) rfl)

/-! ### Serving -/

/-- The path of a serve has room (R163). -/
theorem bestReady_room {p : Fin 4} (e : bestReady c = some p) :
    c.paths[p].queue.length < Config.transmitLimit := by
  have hr : ready c.paths[p] = true := by
    have key : ∀ (l : List (Fin 4)) (b : Option (Fin 4)),
        (∀ q, b = some q → ready c.paths[q] = true) →
        ∀ q, l.foldl
          (fun best p =>
            if ready c.paths[p] then
              match best with
              | none => some p
              | some b => if c.paths[b].credit < c.paths[p].credit then some p else best
            else best) b = some q → ready c.paths[q] = true := by
      intro l
      induction l with
      | nil => exact fun b hb q hq => hb q hq
      | cons x l ih =>
        intro b hb q hq
        refine ih _ ?_ q hq
        intro y hy
        dsimp only at hy
        split at hy
        · next hx =>
          split at hy
          · cases hy; exact hx
          · split at hy
            · cases hy; exact hx
            · exact hb y hy
        · exact hb y hy
    exact key four none (by simp) p e
  simp [ready] at hr
  exact hr.1.2

theorem serveReturn_inv {p : Fin 4} {r : ReturnEntry} {rest : List ReturnEntry} (h : c.Inv)
    (e : c.sched.returns = r :: rest) (room : c.paths[p].queue.length < Config.transmitLimit) :
    (serveReturn p r rest c).Inv := by
  have hl := h.sched.returns
  rw [e] at hl
  unfold serveReturn
  refine settleMember_inv _ (hand_inv p _ _ _ _ _ _ _ ⟨h.buffer, h.staging, h.fired,
    ⟨h.sched.audio, h.sched.label, h.sched.clipQ, ?_⟩, h.paths, h.clips⟩ room)
  dsimp only
  split
  · exact hl
  · exact Nat.le_of_succ_le hl

theorem serveAudio_inv {p : Fin 4} {a : AudioItem} {rest : List AudioItem} (h : c.Inv)
    (e : c.sched.audio = a :: rest) (room : c.paths[p].queue.length < Config.transmitLimit) :
    (serveAudio p a rest c).Inv := by
  have hl := h.sched.audio
  rw [e] at hl
  unfold serveAudio
  refine hand_inv p _ _ _ _ _ _ _ ⟨h.buffer, h.staging, h.fired,
    ⟨?_, h.sched.label, h.sched.clipQ, h.sched.returns⟩, h.paths, h.clips⟩ room
  dsimp only
  split
  · exact hl
  · exact Nat.le_of_succ_le hl

theorem serveLabel_inv {p : Fin 4} {m : LabelItem} {rest : List LabelItem} (h : c.Inv)
    (e : c.sched.label = m :: rest) (room : c.paths[p].queue.length < Config.transmitLimit) :
    (serveLabel p m rest c).Inv := by
  have hl := h.sched.label
  rw [e] at hl
  unfold serveLabel
  refine hand_inv p _ _ _ _ _ _ _ ⟨h.buffer, h.staging, h.fired,
    ⟨h.sched.audio, ?_, h.sched.clipQ, h.sched.returns⟩, h.paths, h.clips⟩ room
  dsimp only
  split
  · exact hl
  · exact Nat.le_of_succ_le hl

theorem serveLive_inv {p : Fin 4} (i : LiveItem) (h : c.Inv)
    (room : c.paths[p].queue.length < Config.transmitLimit) : (serveLive p i c).Inv := by
  unfold serveLive
  exact settleMember_inv _ (hand_inv p _ _ _ _ _ _ _ (Chip.Inv.frame (c := c) h rfl) room)

theorem serveClip_inv {p : Fin 4} {q : ClipItem} {rest : List ClipItem} (u : ClipUnit)
    (us : List ClipUnit) (h : c.Inv) (e : c.sched.clipQ = q :: rest)
    (room : c.paths[p].queue.length < Config.transmitLimit) : (serveClip p q rest u us c).Inv := by
  have hl := h.sched.clipQ
  rw [e] at hl
  unfold serveClip
  refine clipHanded_inv _ _ (hand_inv p _ _ _ _ _ _ _ ⟨h.buffer, h.staging, h.fired,
    ⟨h.sched.audio, h.sched.label, ?_, h.sched.returns⟩, h.paths, h.clips⟩ room)
  have hs : rest.length ≤ Config.clipQueueLimit := Nat.le_of_succ_le hl
  dsimp only
  split <;> split <;> first | exact hs | exact hl

theorem settleMember_paths (i : Item) (c : Chip) : (settleMember i c).paths = c.paths := by
  unfold settleMember
  split
  · split <;> rfl
  all_goals rfl

theorem ageLive_paths (n : Nat) (c : Chip) : (ageLive n c).paths = c.paths := by
  induction n generalizing c with
  | zero => rfl
  | succ n ih =>
    rw [ageLive]
    split
    · rfl
    · split
      · rw [ih, settleMember_paths]
        rfl
      · rfl

theorem serveOnce_inv (h : c.Inv) : (serveOnce c).1.Inv := by
  unfold serveOnce
  split
  · exact h
  · next p e =>
    have room := bestReady_room e
    split
    · next e => exact serveReturn_inv h e room
    · split
      · next e => exact serveAudio_inv h e room
      · split
        · next e => exact serveLabel_inv h e room
        · have ha := ageLive_inv c.sched.live.length h
          have room' : (ageLive c.sched.live.length c).paths[p].queue.length < Config.transmitLimit := by
            rw [ageLive_paths]
            exact room
          dsimp only
          split
          · exact serveLive_inv _ ha room'
          · split
            · exact ha
            · next e =>
              split
              · exact ha
              · exact serveClip_inv _ _ ha e room'

theorem serveLoop_inv (n : Nat) (h : c.Inv) : (serveLoop n c).Inv := by
  induction n generalizing c with
  | zero => exact h
  | succ n ih =>
    have := serveOnce_inv h
    rw [serveLoop]
    split
    · next e => rw [e] at this; exact ih this
    · next e => rw [e] at this; exact this

theorem inReadOrder_inv {k : Chip → Chip} (h : (k c).Inv) : (inReadOrder k c).Inv :=
  Chip.Inv.frame (c := k c) h rfl

theorem serve_inv (h : c.Inv) : (serve c).Inv := inReadOrder_inv (serveLoop_inv _ h)

theorem serveIfNew_inv (b : Chip) (h : c.Inv) : (serveIfNew b c).Inv := by
  unfold serveIfNew
  split
  · exact h
  · exact serve_inv h

end Sys2Proof.Machine
end

