-- ==== Sys2Proof/Laws/ClipBounds.lean ====
section
/-! SUPPORT. Every operation of the coded rings' owners and of the clip log keeps the part's bounds: a
clip is created under a number of its own while the log has room, and the mark stack stays the OPEN
MANUAL clips. -/

namespace Sys2Proof.Machine

variable {c d : Chip}

/-! ### Rings -/

theorem changeHolds_inv (f : Fin 8) (was now : Count32 → Bool) (h : c.Inv) :
    (changeHolds f was now c).Inv := mapUnits_inv _ _ h

theorem discardList_inv (f : Fin 8) (h : c.Inv) : (discardList f c).Inv := by
  refine askReport_inv _ _ (Chip.Inv.frame (c := List.foldl _ c c.rings[f].units) ?_ rfl)
  refine foldl_inv (fun d u hd => ?_) _ _ h
  split
  · exact withdrawLive_inv _ _ hd
  · exact hd

/-! ### The clip log -/

theorem dropHolds_inv (k : Clip) (h : c.Inv) : (dropHolds k c).Inv :=
  foldl_inv (fun _ _ hd => changeHolds_inv _ _ _ hd) _ _ h

theorem giveNotice_inv (n : Nat) (h : c.Inv) : (giveNotice n c).Inv := by
  unfold giveNotice
  split
  · split
    · exact joinLabel_inv _ h
    · exact h
  · exact h

/-- The numbers tried for a new clip, one after another (R135). -/
def numberAt (n : Nat) : Nat → Nat
  | 0 => n
  | i + 1 => numberAt (numberAfter n) i

theorem numberAt_eq (n : Nat) : ∀ i ≤ 256, numberAt n i =
    if 65535 < n then n + i else if n + i ≤ 65535 then n + i else n + i - 65535 := by
  intro i
  induction i generalizing n with
  | zero => intro _; rw [numberAt]; split <;> [rfl; (rw [if_pos (by omega)]; rfl)]
  | succ i ih =>
    intro hi
    rw [numberAt, ih _ (by omega), numberAfter]
    split_ifs <;> omega

/-- A number that no clip holds is found, for a log of fewer than 256 clips (R135). -/
theorem freeNumber_free {l : List Clip} (h : l.length < Config.clipLimit) (n : Nat) :
    ∀ k ∈ l, k.number ≠ freeNumber l Config.clipLimit n := by
  have key : ∀ fuel m, (∃ k ∈ l, k.number = freeNumber l fuel m) →
      ∀ i < fuel, ∃ k ∈ l, k.number = numberAt m i := by
    intro fuel
    induction fuel with
    | zero => exact fun _ _ i hi => absurd hi (Nat.not_lt_zero i)
    | succ fuel ih =>
      intro m hm i hi
      rw [freeNumber] at hm
      split at hm
      · next e =>
        cases i with
        | zero => simpa [numberAt] using e
        | succ i => exact ih _ hm i (by omega)
      · next e => exact absurd hm (by simpa using e)
  intro k hk e
  have all := key _ n ⟨k, hk, e⟩
  have nd : ((List.range Config.clipLimit).map (numberAt n)).Nodup := by
    refine List.Nodup.map_on ?_ List.nodup_range
    intro i hi j hj e
    have hi := List.mem_range.1 hi
    have hj := List.mem_range.1 hj
    simp only [Config.clipLimit] at hi hj
    rw [numberAt_eq _ _ (by omega), numberAt_eq _ _ (by omega)] at e
    split_ifs at e <;> omega
  have sub : (List.range Config.clipLimit).map (numberAt n) ⊆ l.map (·.number) := by
    intro x hx
    obtain ⟨i, hi, rfl⟩ := List.mem_map.1 hx
    obtain ⟨k, hk, hn⟩ := all i (List.mem_range.1 hi)
    exact List.mem_map.2 ⟨k, hk, hn⟩
  have := (nd.subperm sub).length_le
  simp only [List.length_map, List.length_range] at this
  omega

/-- Everything the finding of a record can do: the log as it is, or without one clip that holds no units;
fewer than 256 clips are left (R135). -/
theorem takeRecord_cases {s : List Nat} {l m : List Clip} (h : ClipsInv l s) (e : takeRecord l = some m) :
    m.length < Config.clipLimit ∧ ClipsInv m s := by
  unfold takeRecord at e
  split at e
  · next hl =>
    cases e
    exact ⟨hl, h⟩
  · split at e
    · next k hk =>
      cases e
      have hm := List.mem_of_find?_eq_some hk
      have hs : holding k.state = false := by simpa using List.find?_some hk
      have lt : (l.filter fun x => x.number != k.number).length < l.length :=
        List.length_filter_lt_length_iff_exists.2 ⟨k, hm, by simp⟩
      refine ⟨Nat.lt_of_lt_of_le lt h.records, Nat.le_of_lt (Nat.lt_of_lt_of_le lt h.records), ?_, ?_,
        h.depth, h.once, ?_, ?_⟩
      · exact h.numbers.sublist (List.filter_sublist.map _)
      · exact fun x hx => h.sending x (List.mem_filter.1 hx).1
      · intro n hn
        obtain ⟨x, hx, hxn, hxs⟩ := h.marks n hn
        refine ⟨x, List.mem_filter.2 ⟨hx, ?_⟩, hxn, hxs⟩
        have : x.number ≠ k.number := fun e => by
          have hx' : holding x.state = true := by rw [hxs.2]; rfl
          rw [List.inj_on_of_nodup_map h.numbers hx hm e, hs] at hx'
          cases hx'
        simpa using this
      · exact fun x hx => h.marked x (List.mem_filter.1 hx).1
    · cases e

/-- A new OPEN clip under a number of its own: an AUTO one leaves the mark stack as it is, a MANUAL one goes on
its top. -/
theorem ClipsInv.add {l : List Clip} {s : List Nat} {k : Clip} (h : ClipsInv l s)
    (room : l.length < Config.clipLimit) (free : ∀ x ∈ l, x.number ≠ k.number)
    (opened : k.state = .opened) (none : k.progress = none) :
    (k.origin = .auto → ClipsInv (l ++ [k]) s) ∧
    (k.origin = .manual → s.length < Config.stackLimit → ClipsInv (l ++ [k]) (k.number :: s)) := by
  have records : (l ++ [k]).length ≤ Config.clipLimit := by simpa using room
  have numbers : ((l ++ [k]).map (·.number)).Nodup := by
    rw [List.map_append, List.nodup_append]
    refine ⟨h.numbers, List.nodup_singleton _, ?_⟩
    intro a ha b hb e
    obtain ⟨x, hx, rfl⟩ := List.mem_map.1 ha
    obtain ⟨y, hy, rfl⟩ := List.mem_map.1 hb
    rw [List.mem_singleton] at hy
    subst hy
    exact free x hx e
  have sending : ∀ x ∈ l ++ [k], x.progress.isSome = true → x.state = .sending := by
    intro x hx hp
    rcases List.mem_append.1 hx with hx | hx
    · exact h.sending x hx hp
    · rw [List.mem_singleton] at hx
      subst hx
      rw [none] at hp
      cases hp
  have marks : ∀ n ∈ s, ∃ x ∈ l ++ [k], x.number = n ∧ x.origin = .manual ∧ x.state = .opened := by
    intro n hn
    obtain ⟨x, hx, hxn⟩ := h.marks n hn
    exact ⟨x, List.mem_append_left _ hx, hxn⟩
  constructor
  · intro auto
    refine ⟨records, numbers, sending, h.depth, h.once, marks, ?_⟩
    intro x hx ho hs
    rcases List.mem_append.1 hx with hx | hx
    · exact h.marked x hx ho hs
    · rw [List.mem_singleton] at hx
      subst hx
      rw [auto] at ho
      cases ho
  · intro manual depth
    refine ⟨records, numbers, sending, depth, List.nodup_cons.2 ⟨?_, h.once⟩, ?_, ?_⟩
    · intro hn
      obtain ⟨x, hx, hxn, -⟩ := h.marks _ hn
      exact free x hx hxn
    · intro n hn
      rcases List.mem_cons.1 hn with rfl | hn
      · exact ⟨k, by simp, rfl, manual, opened⟩
      · exact marks n hn
    · intro x hx ho hs
      rcases List.mem_append.1 hx with hx | hx
      · exact List.mem_cons_of_mem _ (h.marked x hx ho hs)
      · rw [List.mem_singleton] at hx
        subst hx
        exact List.mem_cons_self

/-- Everything the creation of a clip can do: a new OPEN clip at the log's tail, with OPENED asked for. -/
theorem createClip_cases {o : Origin} {fs : List (Fin 8)} {cat : Byte} {par : Option Nat} {n : Nat}
    (h : c.Inv) (e : createClip o fs cat par c = some (n, d)) :
    ∃ (l : List Clip) (k : Clip) (m : Nat) (body : List Byte),
      l.length < Config.clipLimit ∧ ClipsInv l c.tally.stack ∧ k.number = n ∧ k.origin = o ∧
      k.state = .opened ∧ k.progress = none ∧ (∀ x ∈ l, x.number ≠ k.number) ∧
      d = askReport .clip body { c with clips.list := l ++ [k], clips.counter := m } := by
  unfold createClip at e
  split at e
  · cases e
  · next l hl =>
    obtain ⟨room, hi⟩ := takeRecord_cases h.clips hl
    dsimp only at e
    cases e
    exact ⟨l, _, _, _, room, hi, rfl, rfl, rfl, rfl, freeNumber_free room _, rfl⟩

theorem createAuto_inv {fs : List (Fin 8)} {cat : Byte} {par : Option Nat} {n : Nat} (h : c.Inv)
    (e : createClip .auto fs cat par c = some (n, d)) : d.Inv := by
  obtain ⟨l, k, m, body, room, hi, rfl, ho, hs, hp, free, rfl⟩ := createClip_cases h e
  exact askReport_inv _ _ ⟨h.buffer, h.staging, h.fired, h.sched, h.paths,
    (hi.add room free hs hp).1 ho⟩

/-- A MANUAL clip created while the stack has room, put on its top. -/
theorem createManual_inv {fs : List (Fin 8)} {cat : Byte} {par : Option Nat} {n : Nat} (h : c.Inv)
    (e : createClip .manual fs cat par c = some (n, d))
    (depth : c.tally.stack.length < Config.stackLimit) :
    Chip.Inv { d with tally.stack := n :: d.tally.stack } := by
  obtain ⟨l, k, m, body, room, hi, rfl, ho, hs, hp, free, rfl⟩ := createClip_cases h e
  have hf := askReport_fits (c := { c with clips.list := l ++ [k], clips.counter := m }) .clip body
    ⟨h.buffer, h.staging⟩
  have hr := askReport_reportOnly .clip body
    { c with clips.list := l ++ [k], clips.counter := m }
  have hc := (hi.add room free hs hp).2 ho depth
  refine ⟨hf.buffer, hf.staging, ?_, ?_, ?_, ?_⟩
  · show _ ≤ _
    rw [hr.mixer]
    exact h.fired
  · show Scheduler.Inv _
    rw [hr.sched]
    exact h.sched
  · show PathsInv _ (askReport _ _ _).tally.upCount
    rw [hr.paths, hr.tally]
    exact h.paths
  · show ClipsInv _ (k.number :: (askReport _ _ _).tally.stack)
    rw [hr.clips, hr.tally]
    exact hc

/-! ### Closing clips -/

theorem closedClip_number (c : Chip) (r : CloseReason) (k : Clip) : (closedClip c r k).number = k.number := by
  unfold closedClip
  dsimp only
  split <;> rfl

/-- A clip that was OPEN is CLOSED or RELEASED after its close (R136). -/
theorem closedClip_state (c : Chip) (r : CloseReason) (k : Clip) :
    (closedClip c r k).state ≠ .opened ∧ (closedClip c r k).progress = k.progress ∧
      (closedClip c r k).state ≠ .sending := by
  unfold closedClip
  dsimp only
  split <;> simp

/-- The records after a clip is closed, and what else its close asks for. -/
theorem closeClip_inv' {n : Nat} (r : CloseReason) {k : Clip} (e : findClip c n = some k)
    (h : (mapClip n (fun _ => closedClip c r k) c).Inv) : (closeClip n r c).Inv := by
  unfold closeClip
  rw [e]
  dsimp only
  have one := askReport_inv .clip
    (reportBody 1
      (leNat16 (closedClip c r k).number ++
        [byteOf (((closedClip c r k).reason.map closeCode).getD 0),
          byteOf (clipStateCode (closedClip c r k).state), byteOf 0,
          feedBits ((nonBare (closedClip c r k)).map (·.feed))] ++
            pointBytes le32 ((nonBare (closedClip c r k)).take 5))) h
  split
  · split
    · exact giveNotice_inv _ (askReport_inv _ _ one)
    · exact giveNotice_inv _ one
  · split
    · exact askReport_inv _ _ one
    · exact one

/-- The clip on top of the mark stack leaves it and closes (R130, R131). -/
theorem closeTop_inv {n : Nat} {rest : List Nat} (r : CloseReason) (h : c.Inv)
    (e : c.tally.stack = n :: rest) : (closeClip n r { c with tally.stack := rest }).Inv := by
  obtain ⟨k, hk, hn, ho, hs⟩ := h.clips.marks n (by rw [e]; exact List.mem_cons_self)
  have once := h.clips.once
  rw [e] at once
  have only : ∀ x ∈ c.clips.list, x.number = n → x = k := fun x hx hxn =>
    List.inj_on_of_nodup_map h.clips.numbers hx hk (hxn.trans hn.symm)
  have found : findClip { c with tally.stack := rest } n = some k := by
    show findClip c n = some k
    exact hn ▸ findClip_of_mem h hk
  refine closeClip_inv' r found ?_
  set y := closedClip { c with tally.stack := rest } r k with hy
  have ys := closedClip_state { c with tally.stack := rest } r k
  have yn := closedClip_number { c with tally.stack := rest } r k
  rw [← hy] at ys yn
  have mem : ∀ x ∈ (mapClip n (fun _ => y) c).clips.list,
      x = y ∨ (x ∈ c.clips.list ∧ x.number ≠ n) := by
    intro x hx
    obtain ⟨z, hz, rfl⟩ := List.mem_map.1 hx
    split
    · exact .inl rfl
    · next hne => exact .inr ⟨hz, hne⟩
  have kp := opened_progress h hk hs
  refine ⟨h.buffer, h.staging, h.fired, h.sched, h.paths, ?_, ?_, ?_, ?_, once.of_cons, ?_, ?_⟩
  · simpa [mapClip] using h.clips.records
  · have : (mapClip n (fun _ => y) c).clips.list.map (·.number) = c.clips.list.map (·.number) := by
      simp only [mapClip, List.map_map]
      refine List.map_congr_left fun x _ => ?_
      dsimp only [Function.comp]
      split
      · next e => rw [yn, hn, e]
      · rfl
    exact this ▸ h.clips.numbers
  · intro x hx hp
    rcases mem x hx with rfl | ⟨hx, -⟩
    · rw [ys.2.1, kp] at hp
      cases hp
    · exact h.clips.sending x hx hp
  · have := h.clips.depth
    rw [e] at this
    exact Nat.le_of_succ_le this
  · intro m hm
    obtain ⟨x, hx, hxm, hxs⟩ := h.clips.marks m (by rw [e]; exact List.mem_cons_of_mem _ hm)
    have : x.number ≠ n := fun e' => (List.nodup_cons.1 once).1 (by rw [← e', hxm]; exact hm)
    exact ⟨x, List.mem_map.2 ⟨x, hx, if_neg this⟩, hxm, hxs⟩
  · intro x hx hxo hxs
    rcases mem x hx with rfl | ⟨hx, hne⟩
    · exact absurd hxs ys.1
    · have := h.clips.marked x hx hxo hxs
      rw [e] at this
      rcases List.mem_cons.1 this with e' | this
      · exact absurd e' hne
      · exact this

theorem askReport_stack (k : ReportKind) (body : List Byte) (c : Chip) :
    (askReport k body c).tally.stack = c.tally.stack := by rw [(askReport_reportOnly k body c).tally]

theorem giveNotice_stack (n : Nat) (c : Chip) : (giveNotice n c).tally.stack = c.tally.stack := by
  unfold giveNotice joinLabel
  split
  · split
    · split
      · rfl
      · exact askReport_stack _ _ _
    · rfl
  · rfl

/-- A close leaves the mark stack as it is. -/
theorem closeClip_stack (n : Nat) (r : CloseReason) (c : Chip) :
    (closeClip n r c).tally.stack = c.tally.stack := by
  unfold closeClip closedReport
  split
  · rfl
  · dsimp only
    split <;> split <;> simp only [giveNotice_stack, askReport_stack] <;> rfl

theorem closeStackTo_inv (n : Nat) (r : CloseReason) (s : List Nat) (h : c.Inv)
    (e : c.tally.stack = s) : (closeStackTo n r s c).Inv := by
  induction s generalizing c with
  | nil => exact h
  | cons top rest ih =>
    have hc := closeTop_inv r h e
    rw [closeStackTo]
    dsimp only
    split
    · exact hc
    · refine ih hc ?_
      rw [closeClip_stack]

theorem closeStack_inv (r : CloseReason) (s : List Nat) (h : c.Inv) (e : c.tally.stack = s) :
    (closeStack r s c).Inv := by
  induction s generalizing c with
  | nil => exact h
  | cons top rest ih =>
    rw [closeStack]
    exact ih (closeTop_inv r h e) (by rw [closeClip_stack])

/-- An OPEN AUTO clip closes (R139). -/
theorem closeOpenAuto_inv {f : Fin 8} {k : Clip} (r : CloseReason) (h : c.Inv)
    (e : openAuto c f = some k) : (closeClip k.number r c).Inv := by
  have hk := List.mem_of_find?_eq_some e
  have ho : k.origin = .auto ∧ k.state = .opened := by
    have := List.find?_some e
    simp at this
    exact this.1
  have found := findClip_of_mem h hk
  have ys := closedClip_state c r k
  refine closeClip_inv' r found (mapFound_inv h found ⟨closedClip_number c r k, ?_, ?_⟩)
  · rw [ys.2.1, opened_progress h hk ho.2]
    simp
  · refine iff_of_false (fun e => ys.1 e.2) (fun e => ?_)
    rw [ho.1] at e
    cases e.1

theorem closeAuto_inv (f : Fin 8) (r : CloseReason) (h : c.Inv) : (closeAuto f r c).Inv := by
  have hf : (setAutoFailed f false c).Inv := h.frame rfl
  unfold closeAuto
  dsimp only
  split
  · next e => exact closeOpenAuto_inv r hf e
  · exact hf

theorem tryOpenAuto_inv (f : Fin 8) (h : c.Inv) : (tryOpenAuto f c).Inv := by
  unfold tryOpenAuto
  split
  · split
    · next e => exact (createAuto_inv h e).frame rfl
    · split
      · exact h
      · exact askReport_inv _ _ (h.frame rfl)
  · exact h

theorem closeAutoAtMax_inv (among : Fin 8 → Bool) (f : Fin 8) (h : c.Inv) :
    (closeAutoAtMax among f c).Inv := by
  unfold closeAutoAtMax
  split
  · next e =>
    split
    · exact tryOpenAuto_inv f (closeOpenAuto_inv _ h e)
    · exact h
  · exact h

theorem closeAtMax_inv (among : Fin 8 → Bool) (h : c.Inv) : (closeAtMax among c).Inv := by
  unfold closeAtMax
  refine foldl_inv (fun _ f hd => closeAutoAtMax_inv among f hd) _ _ ?_
  split
  · exact closeStackTo_inv _ _ _ h rfl
  · exact h

/-! ### Sends and lapses -/

/-- A clip that is CLOSED or SENT is sent while the CLIP queue has room (R144). -/
theorem sendClip_inv {k : Clip} (h : c.Inv) (hk : k ∈ c.clips.list)
    (hs : k.state = .closed ∨ k.state = .sent) (room : c.sched.clipQ.length < Config.clipQueueLimit) :
    (sendClip k c).Inv := by
  have hne : k.state ≠ .opened := by rcases hs with e | e <;> rw [e] <;> decide
  have hm : (mapClip k.number
      (fun x => { x with state := .sending, progress := some (((clipUnits c k).map (·.length)).sum, 0) })
      c).Inv :=
    mapFound_inv h (findClip_of_mem h hk) (.moved hne (by simp) (fun _ => rfl) rfl)
  unfold sendClip
  dsimp only
  split
  · exact clipHanded_inv _ _ hm
  · exact ⟨hm.buffer, hm.staging, hm.fired,
      ⟨hm.sched.audio, hm.sched.label, by simpa [mapClip] using room, hm.sched.returns⟩, hm.paths,
      hm.clips⟩

theorem withdrawClip_clips (n : Nat) (c : Chip) : (withdrawClip n c).clips = c.clips := rfl

theorem abortSend_inv (n : Nat) (h : c.Inv) : (abortSend n c).Inv :=
  mapClip_inv (withdrawClip_inv n h) fun _ _ _ => ⟨rfl, by simp, Iff.rfl⟩

theorem withdrawIfSent_inv (k : Clip) (h : c.Inv) : (withdrawIfSent k c).Inv := by
  unfold withdrawIfSent
  split
  · exact abortSend_inv _ h
  · exact h

/-- The clip's record once its waiting bytes are withdrawn: no send progress, its state as before. -/
theorem withdrawIfSent_record {k x : Clip} (h : c.Inv) (hk : k ∈ c.clips.list)
    (hx : x ∈ (withdrawIfSent k c).clips.list) (hn : x.number = k.number) :
    x.progress = none ∧ x.state = k.state := by
  have only : ∀ z ∈ c.clips.list, z.number = k.number → z = k := fun z hz e =>
    List.inj_on_of_nodup_map h.clips.numbers hz hk e
  unfold withdrawIfSent at hx
  split at hx
  · obtain ⟨z, hz, rfl⟩ := List.mem_map.1 hx
    rw [withdrawClip_clips] at hz
    by_cases e : z.number = k.number
    · rw [if_pos e, only z hz e]
      exact ⟨rfl, rfl⟩
    · rw [if_neg e] at hn
      exact absurd hn e
  · next hs =>
    rw [only x hx hn]
    refine ⟨?_, rfl⟩
    cases hp : k.progress with
    | none => rfl
    | some _ => exact absurd (.inl (h.clips.sending k hk (by rw [hp]; rfl))) hs

/-- A clip that is not OPEN gives up its units: its bytes are withdrawn, its state changes and its holds drop
(R143, R146). -/
theorem giveUp_inv {k : Clip} {t : ClipState} (h : c.Inv) (hk : k ∈ c.clips.list)
    (hs : k.state ≠ .opened) (ht : t ≠ .opened) :
    (dropHolds k (mapClip k.number (fun x => { x with state := t }) (withdrawIfSent k c))).Inv := by
  refine dropHolds_inv k (mapClip_inv (withdrawIfSent_inv k h) fun x hx hn => ?_)
  obtain ⟨hp, hx⟩ := withdrawIfSent_record h hk hx hn
  exact .moved (by rw [hx]; exact hs) ht (by simp [hp]) rfl

theorem lapseClip_inv {k : Clip} (f : Fin 8) (h : c.Inv) (hk : k ∈ c.clips.list)
    (hs : k.state ≠ .opened) : (lapseClip k f c).Inv := by
  unfold lapseClip
  dsimp only
  refine askReport_inv _ _ ?_
  split
  · refine dropHolds_inv k (mapClip_inv ((withdrawIfSent_inv k h).frame rfl) fun x hx hn => ?_)
    obtain ⟨hp, hx⟩ := withdrawIfSent_record h hk hx hn
    exact .moved (by rw [hx]; exact hs) (by simp) (by simp [hp]) rfl
  · exact giveUp_inv h hk hs (by decide)

/-- Hold pressure chooses a clip of the log that is not OPEN (R81). -/
theorem lapseChoice_some {k : Clip} {f : Fin 8} (e : lapseChoice c f = some k) :
    k ∈ c.clips.list ∧ k.state ≠ .opened := by
  unfold lapseChoice at e
  dsimp only at e
  split at e
  · next x hx =>
    cases e
    have hs := List.find?_some hx
    refine ⟨(List.mem_filter.1 (List.mem_of_find?_eq_some hx)).1, fun ho => ?_⟩
    simp [ho] at hs
  · have hs := List.find?_some e
    refine ⟨(List.mem_filter.1 (List.mem_of_find?_eq_some e)).1, fun ho => ?_⟩
    simp [ho] at hs

/-! ### Clip commands -/

theorem clipLabel_inv (a : ClipLabelArgs) (h : c.Inv) : (clipLabel a c).Inv := by
  unfold clipLabel
  dsimp only
  split
  · trivial
  · split
    · trivial
    · next k e =>
      split
      · trivial
      · have hm := mapFound_inv (g := fun x => { x with
          category := a.category
          rating := a.rating
          note := a.note.toList.take a.noteLength.toNat }) h e (.plain h (findClip_some h e).1 rfl)
        refine serveIfNew_inv _ ?_
        split
        · exact hm
        · exact giveNotice_inv _ hm

theorem clipProtect_inv (n : Nat) (h : c.Inv) : (clipProtect n c).Inv := by
  unfold clipProtect
  split
  · trivial
  · next k e =>
    split_ifs
    all_goals first | trivial | exact mapFound_inv h e (.plain h (findClip_some h e).1 rfl)

theorem clipUnprotect_inv (n : Nat) (h : c.Inv) : (clipUnprotect n c).Inv := by
  unfold clipUnprotect
  split
  · trivial
  · next k e =>
    split_ifs
    all_goals first | trivial | exact mapFound_inv h e (.plain h (findClip_some h e).1 rfl)

theorem clipRelease_inv (n : Nat) (h : c.Inv) : (clipRelease n c).Inv := by
  unfold clipRelease
  split
  · trivial
  · next k e =>
    split
    · trivial
    · split
      · trivial
      · next hs =>
        split
        · trivial
        · obtain ⟨hk, hn, -⟩ := findClip_some h e
          subst hn
          exact serveIfNew_inv _ (giveUp_inv h hk (fun ho => hs (.inl ho)) (by decide))

/-- A clip that passes the checks of CLIP SEND is CLOSED or SENT, and the CLIP queue has room (R144). -/
theorem sendCheck_none {k : Clip} (e : sendCheck c k = none) :
    (k.state = .closed ∨ k.state = .sent) ∧ c.sched.clipQ.length < Config.clipQueueLimit := by
  unfold sendCheck at e
  split_ifs at e with h1 h2 h3
  exact ⟨h2, Nat.lt_of_not_le h3⟩

theorem clipSend_inv (n : Nat) (h : c.Inv) : (clipSend n c).Inv := by
  unfold clipSend
  split
  · trivial
  · next k e =>
    split
    · trivial
    · next hc =>
      have := sendCheck_none hc
      exact serveIfNew_inv _ (sendClip_inv h (findClip_some h e).1 this.1 this.2)

theorem homeRequest_inv (n : Nat) (h : c.Inv) : (homeRequest n c).Inv := by
  unfold homeRequest
  dsimp only
  refine askReport_inv _ _ ?_
  have hs : Chip.Inv (match requestOutcome c n, findClip c n with
      | .sending, some k => sendClip k c
      | _, _ => c) := by
    split
    · next k ho e =>
      unfold requestOutcome at ho
      rw [e] at ho
      dsimp only at ho
      have : sendCheck c k = none := by
        revert ho
        split <;> simp
      have := sendCheck_none this
      exact sendClip_inv h (findClip_some h e).1 this.1 this.2
    · exact h
  split
  · exact joinLabel_inv _ hs
  · exact hs

/-! ### The trim session -/

theorem trimBegin_inv (n : Nat) (h : c.Inv) : (trimBegin n c).Inv := by
  unfold trimBegin
  split
  · trivial
  · split_ifs
    all_goals first | trivial | exact h.frame rfl

theorem endTrim_inv (t : TrimSession) (h : c.Inv) : (endTrim t c).Inv := by
  unfold endTrim
  dsimp only
  split
  · exact giveNotice_inv _ (h.frame rfl)
  · exact h.frame rfl

theorem trimEnd_inv (h : c.Inv) : (trimEnd c).Inv := by
  unfold trimEnd
  split
  · trivial
  · exact serveIfNew_inv _ (endTrim_inv _ h)

/-- New house counts change nothing else of a clip (R148). -/
theorem renewHouses_keeps (c : Chip) (k : Clip) :
    (renewHouses c k).number = k.number ∧ (renewHouses c k).origin = k.origin ∧
      (renewHouses c k).state = k.state ∧ (renewHouses c k).progress = k.progress := by
  unfold renewHouses
  split <;> exact ⟨rfl, rfl, rfl, rfl⟩

theorem foldHolds_clips {α : Type} (l : List α) (f : α → Fin 8) (was now : α → Count32 → Bool) :
    ∀ c : Chip, (l.foldl (fun c x => changeHolds (f x) (was x) (now x) c) c).clips = c.clips := by
  induction l with
  | nil => exact fun _ => rfl
  | cons x l ih => exact fun c => ih _

theorem retrim_inv {k : Clip} (g : ClipFeed → ClipFeed × List Clamp) (h : c.Inv)
    (hk : k ∈ c.clips.list) : (retrim k g c).1.Inv := by
  refine mapClip_inv (foldl_inv (fun _ _ hd => changeHolds_inv _ _ _ hd) _ _ h) fun x hx hn => ?_
  rw [foldHolds_clips] at hx
  have e : x = k := List.inj_on_of_nodup_map h.clips.numbers hx hk hn
  subst e
  obtain ⟨h1, h2, h3, h4⟩ := renewHouses_keeps
    ((x.feeds.map fun y => (y, g y)).foldl (fun c m =>
      changeHolds m.1.feed (spanIncludes m.1) (spanIncludes m.2.1) c) c)
    { x with feeds := (x.feeds.map fun y => (y, g y)).map (·.2.1) }
  exact .plain h hx (by rw [h1, h2, h3, h4])

theorem trimMove_inv (point : Byte) (delta : BitVec 32) (h : c.Inv) : (trimMove point delta c).Inv := by
  unfold trimMove
  split
  · trivial
  · split
    · trivial
    · split
      · exact h
      · split
        · exact h
        · next k e => exact retrim_inv _ h (findClip_some h e).1

theorem trimAbandon_inv (h : c.Inv) : (trimAbandon c).Inv := by
  unfold trimAbandon
  split
  · trivial
  · split
    · exact endTrim_inv _ h
    · next k e => exact serveIfNew_inv _ (endTrim_inv _ (retrim_inv _ h (findClip_some h e).1))

end Sys2Proof.Machine
end

