-- ==== Sys2Proof/Laws/BlockBounds.lean ====
section
/-! SUPPORT. Every operation of the other blocks keeps the part's bounds, and with them every taking and
every event. -/

namespace Sys2Proof.Machine

variable {c d : Chip}

/-! ### The sound mixer -/

theorem beginMix_inv (h : c.Inv) : (beginMix c).Inv := by
  unfold beginMix
  split <;> exact h.frame rfl

theorem overloadLeg_inv (b : FiredBlock) (legs : List LegMix) (l : Fin 8) (h : c.Inv) :
    (overloadLeg b legs c l).Inv := by
  unfold overloadLeg
  split
  · exact h
  · dsimp only
    split
    · exact askReport_inv _ _ (h.frame rfl)
    · exact h

theorem uplinkBlock_inv (b : FiredBlock) (legs : List LegMix) (h : c.Inv) :
    (uplinkBlock b legs c).Inv := by
  unfold uplinkBlock
  split
  · exact h
  · split
    · exact joinAudio_inv _ (h.frame rfl)
    · exact h.frame rfl

/-- The fire queue moved on or thinned out. -/
theorem fired_inv (m : Mixer) (h : c.Inv) (fired : m.fireQ.length ≤ Config.fireQueueLimit) :
    Chip.Inv { c with mixer := m } :=
  ⟨h.buffer, h.staging, fired, h.sched, h.paths, h.clips⟩

theorem mixFinish_inv (h : c.Inv) : (mixFinish c).Inv := by
  unfold mixFinish
  split
  · next b rest m e _ =>
    have hl := h.fired
    rw [e] at hl
    dsimp only
    have := foldl_inv (fun _ l hd => overloadLeg_inv b m.legs l hd) eight _ h
    split
    · exact beginMix_inv (fired_inv _ this (Nat.le_of_succ_le hl))
    · exact beginMix_inv (fired_inv _ (uplinkBlock_inv _ _ this) (Nat.le_of_succ_le hl))
  · exact h

theorem acceptMixer_inv (h : c.Inv) (room : c.mem.buffer.length < Config.bufferLimit) :
    (acceptMixer c).Inv := by
  unfold acceptMixer
  split
  · exact h
  · split
    · exact h
    · next m _ _ w rest _ =>
      have := pushOwn_inv w (c := { c with mixer.mix := some { m with writes := rest } })
        (h.frame rfl) room
      dsimp only
      split
      · exact mixFinish_inv this
      · exact this

theorem drainMixer_inv (n : Nat) (h : c.Inv) : (drainMixer n c).Inv := by
  induction n generalizing c with
  | zero => exact h
  | succ n ih =>
    rw [drainMixer]
    split
    · exact h
    · next e => exact ih (acceptMixer_inv h (Nat.lt_of_not_le (not_or.1 e).2))

theorem issueMix_inv (h : c.Inv) : (issueMix c).Inv := by
  unfold issueMix
  split
  · exact h
  · split
    · exact h
    · exact drainMixer_inv _ (h.frame rfl)

theorem applyRecall_inv (h : c.Inv) : (applyRecall c).Inv := by
  unfold applyRecall
  split
  · exact h
  · dsimp only
    split
    · exact finishObject_inv _ _ (h.frame rfl)
    · exact h.frame rfl

theorem recallScene_inv (slot : Byte) (b : Bool) (h : c.Inv) : (recallScene slot b c).Inv := by
  unfold recallScene
  split
  · trivial
  · split
    · trivial
    · split_ifs
      all_goals first | trivial | exact h.frame rfl

theorem audioStop_inv (h : c.Inv) : (audioStop c).Inv := by
  unfold audioStop
  split
  · trivial
  · refine applyRecall_inv (fired_inv _ h ?_)
    simp only [List.length_map, List.length_take]
    exact Nat.le_trans (Nat.min_le_left _ _) (by decide)

theorem updatePresence_inv (n : Count32) (now : BitVec 32) (h : c.Inv) : (updatePresence n now c).Inv := by
  unfold updatePresence
  dsimp only
  split
  · exact h.frame rfl
  · exact askReport_inv _ _ (h.frame rfl)

theorem fireBlock_inv (n : Count32) (kind : FireKind) (h : c.Inv) : (fireBlock n kind c).Inv := by
  unfold fireBlock
  dsimp only
  have hp := updatePresence_inv n (starvedInputs (applyRecall c).mixer.buf) (applyRecall_inv h)
  split
  · exact beginMix_inv (fired_inv _ hp (Nat.le_succ 1))
  · split
    · next e => exact fired_inv _ hp (by simpa using e)
    · exact askReport_inv _ _ (hp.frame rfl)

theorem gatherLine_inv (n : Count32) (o : Nat) (l : Line) (m : Mask) (h : c.Inv) :
    (gatherLine n o l m c).Inv := by
  have hs : Chip.Inv { c with mixer.buf := storeLine c.mixer.buf o l m } := fired_inv _ h h.fired
  have hf := fireBlock_inv n .complete hs
  unfold gatherLine
  dsimp only
  split
  · exact fired_inv _ hf hf.fired
  · exact hs

theorem startBlock_inv (n : Count32) (o : Nat) (l : Line) (m : Mask) (h : c.Inv) :
    (startBlock n o l m c).Inv := gatherLine_inv _ _ _ _ (fired_inv _ h h.fired)

theorem resync_inv (n : Count32) (d o : Nat) (l : Line) (m : Mask) (h : c.Inv) :
    (resync n d o l m c).Inv := startBlock_inv _ _ _ _ (askReport_inv _ _ h)

theorem audioTap_inv (o : Nat) (l : Line) (m : Mask) (h : c.Inv) : (audioTap o l m c).Inv := by
  unfold audioTap
  split
  · exact h
  · dsimp only
    split
    · exact startBlock_inv _ _ _ _ h
    · split_ifs
      · exact gatherLine_inv _ _ _ _ h
      · exact startBlock_inv _ _ _ _ (fireBlock_inv _ _ h)
      · exact h
      · exact resync_inv _ _ _ _ _ (fireBlock_inv _ _ h)
    · split_ifs
      · exact startBlock_inv _ _ _ _ h
      · exact h
      · exact resync_inv _ _ _ _ _ h

/-! ### The tally and signal unit -/

theorem setTally_inv (f : Fin 8) (s : TallyState) (h : c.Inv) : (setTally f s c).Inv := by
  unfold setTally
  dsimp only
  split
  · exact h
  · split
    · exact tryOpenAuto_inv f (h.frame rfl)
    · split
      · exact closeAuto_inv f _ (h.frame rfl)
      · exact h.frame rfl

theorem setTallyFeed_inv (f : Fin 8) (t : TallyFeed) (h : c.Inv) : (setTallyFeed c f t).Inv :=
  (h.frame rfl)

theorem applyTallySet_inv (f : Fin 8) (s : Option TallyState) (call : Option Bool) (h : c.Inv) :
    (applyTallySet f s call c).Inv := by
  unfold applyTallySet
  split
  · trivial
  · cases s with
    | none =>
      show Chip.Inv _
      dsimp only
      split
      · exact setTallyFeed_inv f _ h
      · exact setTallyFeed_inv f _ h
      · exact h
    | some s =>
      have hs := setTally_inv f s h
      show Chip.Inv _
      dsimp only
      split
      · exact setTallyFeed_inv f _ hs
      · exact setTallyFeed_inv f _ hs
      · exact hs

theorem tallySet_inv (feed tally call : Byte) (h : c.Inv) : (tallySet feed tally call c).Inv := by
  unfold tallySet
  split
  · trivial
  · next f _ =>
    split
    · trivial
    · dsimp only
      have := applyTallySet_inv f (tallyOf tally)
        (if call = 0 then some false else if call = 1 then some true else none) h
      split
      · next e =>
        rw [e] at this
        exact serveIfNew_inv _ this
      · exact this

theorem tallyAuthority_inv (a : Byte) (h : c.Inv) : (tallyAuthority a c).Inv := by
  unfold tallyAuthority
  split_ifs
  all_goals first | trivial | exact h | exact h.frame rfl

theorem homeTally_inv (p : Fin 4) (n : BitVec 32) (l : List TallyState) (h : c.Inv) :
    (homeTally p n l c).Inv := by
  unfold homeTally
  split
  · exact askReport_inv _ _ h
  · exact askReport_inv _ _ (foldl_inv (fun _ x hd => setTally_inv x.1 x.2 hd) _ _ h)
  · exact askReport_inv _ _ (foldl_inv (fun _ x hd => setTally_inv x.1 x.2 hd) _ _ (h.frame rfl))

theorem homeCall_inv (p : Fin 4) (n : BitVec 32) (feed : Byte) (h : c.Inv) :
    (homeCall p n feed c).Inv := by
  unfold homeCall
  split
  · exact askReport_inv _ _ (setTallyFeed_inv _ _ h)
  · exact askReport_inv _ _ h

theorem fallbackExpires_inv (h : c.Inv) : (fallbackExpires c).Inv := by
  unfold fallbackExpires
  split
  · exact makePending_inv _ (h.frame rfl)
  · exact h

theorem markIn_inv (feeds category : Byte) (h : c.Inv) : (markIn feeds category c).Inv := by
  unfold markIn
  dsimp only
  split
  · trivial
  · split
    · trivial
    · split
      · trivial
      · next hd =>
        split
        · trivial
        · next e => exact createManual_inv h e (Nat.lt_of_not_le hd)

theorem markOut_inv (h : c.Inv) : (markOut c).Inv := by
  unfold markOut
  split
  · trivial
  · next e => exact closeTop_inv _ h e

theorem lineOutcome_inv (n : Fin 8) (k : BitVec 16) {v : Verdict} (h : c.Inv) (hv : v.Inv) :
    (lineOutcome n k c v).Inv := by
  cases v with
  | refused r => exact askResult_inv _ _ _ _ _ h
  | completed r l d => exact hv
  | begun o d => exact hv

theorem setLine_inv (n : Fin 8) (l : SignalLine) (h : c.Inv) : (setLine c n l).Inv := h.frame rfl

theorem lineMarkIn_inv (n : Fin 8) (l : SignalLine) (h : c.Inv) : (lineMarkIn n l c).Inv := by
  have hv := markIn_inv l.feeds l.category h
  unfold lineMarkIn
  split
  · next e =>
    rw [e] at hv
    split
    · exact setLine_inv _ _ hv
    · exact hv
  · exact lineOutcome_inv _ _ h hv

theorem lineMarkOut_inv (n : Fin 8) (l : SignalLine) (h : c.Inv) : (lineMarkOut n l c).Inv := by
  unfold lineMarkOut
  dsimp only
  split
  · exact lineOutcome_inv _ _ (setLine_inv _ _ h) (markOut_inv (setLine_inv _ _ h))
  · exact lineOutcome_inv _ _ h (markOut_inv h)

theorem lineTally_inv (n : Fin 8) (feed : Byte) (s : Option TallyState) (call : Option Bool)
    (h : c.Inv) : (lineTally n feed s call c).Inv := by
  unfold lineTally
  split
  · exact lineOutcome_inv _ _ h (applyTallySet_inv _ _ _ h)
  · exact lineOutcome_inv _ _ h trivial

theorem activate_inv (n : Fin 8) (l : SignalLine) (h : c.Inv) : (activate n l c).Inv := by
  unfold activate
  split
  · split
    · exact lineMarkOut_inv _ _ h
    · exact lineMarkIn_inv _ _ h
  · exact lineMarkIn_inv _ _ h
  · exact lineMarkOut_inv _ _ h
  · exact lineTally_inv _ _ _ _ h
  · exact lineTally_inv _ _ _ _ h
  · exact lineTally_inv _ _ _ _ h
  · exact signalHome_inv _ _ h
  · exact lineOutcome_inv _ _ h (recallScene_inv _ _ h)

theorem deactivate_inv (n : Fin 8) (l : SignalLine) (h : c.Inv) : (deactivate n l c).Inv := by
  unfold deactivate
  split
  · exact h
  · split
    · exact lineMarkOut_inv _ _ h
    · exact lineTally_inv _ _ _ _ h
    · exact lineTally_inv _ _ _ _ h
    all_goals exact h

theorem debounceExpires_inv (n : Fin 8) (h : c.Inv) : (debounceExpires n c).Inv := by
  unfold debounceExpires
  dsimp only
  split
  · split
    · exact activate_inv _ _ (setLine_inv _ _ h)
    · exact deactivate_inv _ _ (setLine_inv _ _ h)
  · exact h

theorem lineChanges_inv (n : Fin 8) (high : Bool) (h : c.Inv) : (lineChanges n high c).Inv := by
  unfold lineChanges
  dsimp only
  split
  · split <;> exact setLine_inv _ _ h
  · exact h

/-! ### The path links -/

theorem endRetrain_inv (p : Fin 4) (s : PathState) (h : c.Inv) : (endRetrain p s c).Inv := by
  unfold endRetrain
  split
  all_goals first | exact finishObject_inv _ _ h | exact h

/-- The UP count and a new record: it counts the new state in place of the old one. -/
theorem countP_set (ps : Vector PathRec 4) (p : Fin 4) (r : PathRec) :
    (four.countP fun q => (ps.set p r)[q].state == .up) + (if ps[p].state = .up then 1 else 0) =
      (four.countP fun q => ps[q].state == .up) + (if r.state = .up then 1 else 0) := by
  have e : ∀ q : Fin 4, (ps.set p r)[q] = if q = p then r else ps[q] := by
    intro q
    by_cases hq : q = p
    · subst hq; simp
    · have : (p : Nat) ≠ (q : Nat) := fun e => hq (Fin.ext e.symm)
      simp [hq, this]
  simp only [four, List.countP_cons, List.countP_nil, e, beq_iff_eq]
  fin_cases p <;> simp <;> omega

/-- A change of a path's state, whatever the old one was and the new one is, keeps the UP count right as long
as an UP path does not enter UP again (R122, R153). -/
theorem changeState_inv (p : Fin 4) (reason : PathReason) (n : Nat) (r : PathRec) (h : c.Inv)
    (queue : r.queue.length ≤ Config.transmitLimit)
    (once : ¬(c.paths[p].state = .up ∧ r.state = .up)) : (changeState p reason n r c).Inv := by
  unfold changeState
  refine endRetrain_inv _ _ ?_
  have hr := stateReport_reportOnly p c.paths[p].state reason n r (setPath c p { r with due := [] })
  have hf : Fits (stateReport p c.paths[p].state reason n r (setPath c p { r with due := [] })) :=
    askReport_fits (c := setPath c p { r with due := [] }) _ _ ⟨h.buffer, h.staging⟩
  generalize stateReport p c.paths[p].state reason n r (setPath c p { r with due := [] }) = e at hr hf
  have hs : e.sched = c.sched := hr.sched
  have hu : e.tally.upCount = c.tally.upCount := by rw [hr.tally]; rfl
  have hq : ∀ q : Fin 4, e.paths[q].queue.length ≤ Config.transmitLimit := by
    intro q
    rw [hr.paths]
    by_cases eq : q = p
    · subst eq
      rw [setPath_same]
      exact queue
    · rw [setPath_other _ _ _ _ eq]
      exact h.paths.queues q
  have hn := countP_set c.paths p { r with due := [] }
  have hp : e.paths = c.paths.set p { r with due := [] } := hr.paths
  rw [← hp] at hn
  have hc := h.paths.upCount
  have base : ∀ t : TallyUnit, t.upCount = (four.countP fun q => e.paths[q].state == .up) →
      t.stack = e.tally.stack → Chip.Inv { allocate e with tally := t } := by
    intro t ht hst
    refine ⟨hf.buffer, hf.staging, ?_, ?_, ⟨fun q => ?_, ?_⟩, ?_⟩
    · show e.mixer.fireQ.length ≤ _
      rw [hr.mixer]
      exact h.fired
    · have := h.sched
      rw [← hs] at this
      exact ⟨this.audio, this.label, this.clipQ, this.returns⟩
    · show (allocate e).paths[q].queue.length ≤ _
      rw [allocate_path]
      exact hq q
    · show t.upCount = four.countP fun q => (allocate e).paths[q].state == .up
      simp only [allocate_path]
      exact ht
    · show ClipsInv e.clips.list t.stack
      rw [hst, hr.clips, hr.tally]
      exact h.clips
  unfold tellTally
  split
  · next hx =>
    rw [if_pos hx, if_neg (fun hy => once ⟨hy, hx⟩)] at hn
    exact base { e.tally with upCount := e.tally.upCount + 1, fallback := none } (by dsimp only; omega) rfl
  · next hx =>
    rw [if_neg hx] at hn
    split
    · next hy =>
      rw [if_pos hy] at hn
      exact base _ (by dsimp only [allocate]; omega) rfl
    · next hy =>
      rw [if_neg hy] at hn
      exact base e.tally (by omega) rfl

theorem loseFrame_inv (p : Fin 4) (h : c.Inv) : (loseFrame p c).Inv := by
  unfold loseFrame
  split
  · exact setPath_keep p _ rfl h
  all_goals exact h

theorem goDown_inv (p : Fin 4) (b : Bool) (h : c.Inv) : (goDown p b c).Inv := by
  have hl := loseFrame_inv p h
  unfold goDown
  split
  · dsimp only
    split
    · exact setPath_keep p _ rfl (returnQueue_inv p hl)
    · exact setPath_keep p _ rfl (setPath_inv p _ hl (Nat.zero_le _) rfl)
  · exact h

theorem clearFailed_inv (p : Fin 4) (h : c.Inv) : (clearFailed p c).Inv := setPath_keep p _ rfl h

theorem enterTraining_inv (p : Fin 4) (reason : PathReason) (n : Nat) (h : c.Inv) :
    (enterTraining p reason n c).Inv :=
  changeState_inv p reason n _ h (h.paths.queues p) (fun e => by cases e.2)

theorem enterNegotiating_inv (p : Fin 4) (h : c.Inv) : (enterNegotiating p c).Inv :=
  sendWord_inv p .offer (changeState_inv p _ 0 _ h (h.paths.queues p) (fun e => by cases e.2))

theorem enterFailed_inv (p : Fin 4) (h : c.Inv) : (enterFailed p c).Inv :=
  changeState_inv p _ 0 _ h (h.paths.queues p) (fun e => by cases e.2)

theorem enterUp_inv (p : Fin 4) (level mtu ceiling initial : Nat) (h : c.Inv)
    (hs : c.paths[p].state ≠ .up) : (enterUp p level mtu ceiling initial c).Inv :=
  changeState_inv p _ 0 _ h (Nat.zero_le _) (fun e => hs e.1)

theorem dropToTraining_inv (p : Fin 4) (reason : PathReason) (h : c.Inv) :
    (dropToTraining p reason c).Inv := enterTraining_inv p _ _ (goDown_inv p true h)

theorem disablePath_inv (p : Fin 4) (h : c.Inv) : (disablePath p c).Inv := by
  have hg := goDown_inv p true h
  unfold disablePath
  exact changeState_inv p _ _ _ hg (hg.paths.queues p) (fun e => by cases e.2)

theorem pathSet_inv (path enable : Byte) (cap : BitVec 32) (h : c.Inv) :
    (pathSet path enable cap c).Inv := by
  unfold pathSet
  split
  · next p _ _ _ =>
    split
    · trivial
    · have hp : (setPath c p { c.paths[p] with hostCap := cap.toNat }).Inv := setPath_keep p _ rfl h
      refine serveIfNew_inv _ ?_
      split_ifs
      · exact enterTraining_inv p _ _ (clearFailed_inv p hp)
      · exact hp
      · exact hp
      · exact disablePath_inv p hp
  · trivial

theorem pathRetrain_inv (path : Byte) (h : c.Inv) : (pathRetrain path c).Inv := by
  unfold pathRetrain
  split
  · trivial
  · split_ifs
    · trivial
    · trivial
    · exact serveIfNew_inv _ (enterTraining_inv _ _ _ (clearFailed_inv _ (goDown_inv _ _ h)))

theorem restartPath_inv (p : Fin 4) (h : c.Inv) : (restartPath c p).Inv := by
  unfold restartPath
  split
  · exact h
  · exact enterTraining_inv _ _ _ (clearFailed_inv _ (goDown_inv _ _ h))

theorem trainingTick_inv (p : Fin 4) (h : c.Inv) : (trainingTick p c).Inv := by
  unfold trainingTick
  split
  · exact sendWord_inv p _ (setPath_keep p _ rfl h)
  · exact h

theorem offerTick_inv (p : Fin 4) (h : c.Inv) : (offerTick p c).Inv := by
  unfold offerTick
  split
  · exact sendWord_inv p _ (setPath_keep p _ rfl h)
  · exact h

theorem failAttempt_inv (p : Fin 4) (h : c.Inv) : (failAttempt p c).Inv := setPath_keep p _ rfl h

theorem windowExpires_inv (p : Fin 4) (h : c.Inv) : (windowExpires p c).Inv := by
  have hf := failAttempt_inv p h
  unfold windowExpires
  split
  · dsimp only
    split
    · exact enterFailed_inv p hf
    · exact setPath_keep p _ rfl hf
  · exact h

theorem negotiationExpires_inv (p : Fin 4) (h : c.Inv) : (negotiationExpires p c).Inv := by
  have hf := failAttempt_inv p h
  unfold negotiationExpires
  split
  · dsimp only
    split
    · exact enterFailed_inv p hf
    · exact enterTraining_inv p _ _ hf
  · exact h

theorem silenceExpires_inv (p : Fin 4) (h : c.Inv) : (silenceExpires p c).Inv := by
  unfold silenceExpires
  split
  · exact dropToTraining_inv p _ h
  · exact h

theorem holdExpires_inv (p : Fin 4) (h : c.Inv) : (holdExpires p c).Inv := by
  unfold holdExpires
  split
  · exact askReport_inv _ _ (returnQueue_inv p (setPath_keep p _ rfl h))
  · exact h

theorem paceTick_inv (p : Fin 4) (h : c.Inv) : (paceTick p c).Inv := by
  unfold paceTick
  dsimp only
  split
  · split
    · exact setPath_keep p _ rfl h
    · exact sendWord_inv p _ (setPath_keep p _ rfl h)
  · exact h

theorem moveOn_inv (p : Fin 4) (h : c.Inv) : (moveOn p c).Inv :=
  inReadOrder_inv (serve_inv (linkFree_inv p h))

theorem frameEnds_inv (p : Fin 4) (h : c.Inv) : (frameEnds p c).Inv := by
  unfold frameEnds
  split
  · exact moveOn_inv p (setPath_keep p _ rfl h)
  all_goals exact h

theorem wordEnds_inv (p : Fin 4) (h : c.Inv) : (wordEnds p c).Inv := by
  unfold wordEnds
  split
  · exact moveOn_inv p h
  all_goals exact h

theorem countError_inv (p : Fin 4) (h : c.Inv) : (countError p c).Inv := by
  unfold countError
  split
  all_goals first | exact h | exact setPath_keep p _ rfl h

theorem heard_inv (p : Fin 4) (h : c.Inv) : (heard p c).Inv := by
  unfold heard
  split
  · exact setPath_keep p _ rfl h
  · exact h

theorem failingUnit_inv (p : Fin 4) (h : c.Inv) : (failingUnit p c).Inv := by
  unfold failingUnit
  dsimp only
  split
  · exact setPath_keep p _ rfl (countError_inv p h)
  · exact countError_inv p h

theorem trainReceived_inv (p : Fin 4) (h : c.Inv) : (trainReceived p c).Inv := by
  unfold trainReceived
  split
  · dsimp only
    split
    · exact enterNegotiating_inv p (setPath_keep p _ rfl h)
    · exact setPath_keep p _ rfl h
  · exact setPath_keep p _ rfl (dropToTraining_inv p _ h)
  all_goals exact h

theorem acceptReceived_inv (p : Fin 4) (level mtu ceiling initial : Nat) (h : c.Inv) :
    (acceptReceived p level mtu ceiling initial c).Inv := by
  unfold acceptReceived
  split
  · next e =>
    split
    · exact enterUp_inv p _ _ _ _ h (by rw [e]; decide)
    · exact countError_inv p h
  · exact heard_inv p h
  all_goals exact h

theorem capacityReceived_inv (p : Fin 4) (v : Nat) (h : c.Inv) : (capacityReceived p v c).Inv := by
  unfold capacityReceived
  dsimp only
  split
  · exact setPath_keep p _ rfl (heard_inv p h)
  · exact heard_inv p h

theorem holdReceived_inv (p : Fin 4) (h : c.Inv) : (holdReceived p c).Inv := by
  unfold holdReceived
  dsimp only
  split
  · exact setPath_keep p _ rfl (heard_inv p h)
  · exact heard_inv p h

theorem resumeReceived_inv (p : Fin 4) (h : c.Inv) : (resumeReceived p c).Inv := by
  unfold resumeReceived
  dsimp only
  split
  · exact inReadOrder_inv (serve_inv (beginTransmission_inv p (setPath_keep p _ rfl (heard_inv p h))))
  · exact heard_inv p h

theorem messageReceived_inv (p : Fin 4) (session number : BitVec 32) (body : List Byte) (ok : Bool)
    {take : Chip → Chip} (ht : ∀ d : Chip, d.Inv → (take d).Inv) (h : c.Inv) :
    (messageReceived p session number body ok take c).Inv := by
  unfold messageReceived
  split
  · exact failingUnit_inv p h
  · have hh := heard_inv p h
    dsimp only
    split
    · split
      · exact hh
      · exact ht _ (hh.frame rfl)
    · exact hh

theorem takeTally_inv (p : Fin 4) (n : BitVec 32) (l : List TallyState) (h : c.Inv) :
    (takeTally p n l c).Inv := by
  unfold takeTally
  split
  · exact h
  · exact homeTally_inv p n l (h.frame rfl)

theorem takeRateCap_inv (p : Fin 4) (n : BitVec 32) (rate : Nat) (h : c.Inv) :
    (takeRateCap p n rate c).Inv := by
  unfold takeRateCap
  split
  · exact h
  · exact askReport_inv _ _ (h.frame rfl)

theorem decideDegraded_inv (p : Fin 4) (h : c.Inv) : (decideDegraded c p).Inv := by
  unfold decideDegraded
  dsimp only
  split
  · exact setPath_keep p _ rfl h
  · exact askReport_inv _ _ (setPath_keep p _ rfl h)

/-! ### The band coder -/

theorem setFeed_inv (f : Fin 8) (r : Feed) (h : c.Inv) : (setFeed c f r).Inv := h.frame rfl

theorem setRing_inv (f : Fin 8) (r : CodedRing) (h : c.Inv) : (setRing c f r).Inv := h.frame rfl

theorem mapPic_inv (f : Fin 8) (n : Nat) (g : Picture → Picture) (h : c.Inv) : (mapPic f n g c).Inv :=
  h.frame rfl

theorem beginCoding_inv (f : Fin 8) (h : c.Inv) : (beginCoding f c).Inv := by
  unfold beginCoding
  split
  · exact h
  · exact h.frame rfl

theorem coderKick_inv (h : c.Inv) : (coderKick c).Inv := by
  unfold coderKick
  split
  · exact h
  · split
    · exact beginCoding_inv _ h
    · exact h

theorem completeUnit_inv (f : Fin 8) (p : Picture) (h : c.Inv) : (completeUnit f p c).Inv := by
  unfold completeUnit
  split
  · exact h
  · next u _ =>
    have hr : (setRing c f (completeRing c f p u)).Inv := setRing_inv f _ h
    dsimp only
    split <;> split <;> split
    all_goals
      first
      | exact tryOpenAuto_inv f (closeAtMax_inv _ (askReport_inv _ _ (hr.frame rfl)))
      | exact closeAtMax_inv _ (askReport_inv _ _ (hr.frame rfl))
      | exact tryOpenAuto_inv f (closeAtMax_inv _ (hr.frame rfl))
      | exact closeAtMax_inv _ (hr.frame rfl)

theorem settleStop_inv (f : Fin 8) (h : c.Inv) : (settleStop f c).Inv := by
  unfold settleStop
  split
  · exact finishObject_inv _ _ (setFeed_inv f _ h)
  · exact h

theorem completePicture_inv (f : Fin 8) (p : Picture) (h : c.Inv) : (completePicture f p c).Inv :=
  settleStop_inv f (completeUnit_inv f p (setFeed_inv f _ h))

theorem freeBuffer_inv (f : Fin 8) (p : Picture) (b : Band) (n : Nat) (h : c.Inv) :
    (freeBuffer f p b n c).Inv := by
  unfold freeBuffer
  split
  · exact h.frame rfl
  · exact h

theorem endCoding_inv (o : CodingOp) (h : c.Inv) : (endCoding o c).Inv := by
  have ho : Chip.Inv { c with coder.op := none } := h.frame rfl
  unfold endCoding
  dsimp only
  split
  · exact coderKick_inv ho
  · next p _ =>
    refine coderKick_inv ?_
    have hf : Chip.Inv (match p.bands[o.band]? with
        | some b => freeBuffer o.feed p b o.band { c with coder.op := none }
        | none => { c with coder.op := none }) := by
      split
      · exact freeBuffer_inv _ _ _ _ ho
      · exact ho
    split
    · exact completePicture_inv _ _ hf
    · exact mapPic_inv _ _ _ hf

theorem acceptCoder_inv (h : c.Inv) (room : c.mem.buffer.length < Config.bufferLimit) :
    (acceptCoder c).Inv := by
  unfold acceptCoder
  split
  · exact h
  · next o _ =>
    split
    · exact endCoding_inv o h
    · next w rest _ =>
      have := pushOwn_inv w (c := { c with coder.op := some { o with writes := rest } })
        (h.frame rfl) room
      dsimp only
      split
      · exact endCoding_inv _ this
      · exact this

theorem drainCoder_inv (n : Nat) (h : c.Inv) : (drainCoder n c).Inv := by
  induction n generalizing c with
  | zero => exact h
  | succ n ih =>
    rw [drainCoder]
    split
    · exact h
    · next e =>
      have hr := (not_or.1 e).2
      simp only [coderRoom, Bool.not_eq_false, decide_eq_true_eq] at hr
      exact ih (acceptCoder_inv h (by omega))

theorem issueCoding_inv (h : c.Inv) : (issueCoding c).Inv := by
  unfold issueCoding
  split
  · exact h
  · split
    · exact h
    · exact drainCoder_inv _ (h.frame rfl)

/-! ### Reservation -/

theorem reclaim_inv (f : Fin 8) (u : UnitRec) (h : c.Inv) : (reclaim f c u).Inv := by
  have hw := withdrawLive_inv f u.seq h
  unfold reclaim
  dsimp only
  refine setRing_inv f _ ?_
  split <;> split
  all_goals first | exact askReport_inv _ _ hw | exact askReport_inv _ _ h | exact hw | exact h

theorem takeRegion_inv (f : Fin 8) (s : Nat) (e : Option UnitRec) (h : c.Inv) :
    (takeRegion f s e c).Inv :=
  setRing_inv f _ (foldl_inv (fun _ u hd => reclaim_inv f u hd) _ _ h)

theorem holdPressure_inv (f : Fin 8) (r : Request) (h : c.Inv) : (holdPressure f r c).Inv := by
  unfold holdPressure
  split
  · dsimp only
    split
    · next k e =>
      refine lapseClip_inv f (askReport_inv _ _ h) ?_ (lapseChoice_some e).2
      rw [(askReport_reportOnly _ _ c).clips]
      exact (lapseChoice_some e).1
    · exact askReport_inv _ _ h
  · exact h

/-! ### The capture unit -/

theorem closeBand_inv (f : Fin 8) (i n : Nat) (s : BandState) (h : c.Inv) : (closeBand f i n s c).Inv := by
  unfold closeBand
  split
  · exact h
  · exact coderKick_inv (h.frame rfl)

theorem forceBand_inv (f : Fin 8) (i n : Nat) (h : c.Inv) : (forceBand f i c n).Inv := by
  unfold forceBand
  split
  · exact h
  · split
    · exact h
    · exact closeBand_inv _ _ _ _ h

theorem abandon_inv (f : Fin 8) (h : c.Inv) : (abandon f c).Inv := by
  unfold abandon
  split
  · exact h
  · next p _ =>
    exact setFeed_inv f _ (foldl_inv (fun _ n hd => forceBand_inv f p.ident n hd) _ _ (mapPic_inv f _ _ h))

theorem beginPicture_inv (f : Fin 8) (slot : Nat) (h : c.Inv) : (beginPicture f slot c).Inv := by
  unfold beginPicture
  dsimp only
  split
  · next s _ =>
    have := takeRegion_inv f s (requestRegion c f).2 h
    exact holdPressure_inv f _ (this.frame rfl)
  · exact holdPressure_inv f _ (askReport_inv _ _ (setFeed_inv f _ h))

theorem storeInBand_inv (f : Fin 8) (i n : Nat) (b : Band) (o : Nat) (l : Line) (m : Mask) (h : c.Inv) :
    (storeInBand f i n b o l m c).Inv := by
  unfold storeInBand
  dsimp only
  split
  · exact closeBand_inv _ _ _ _ (mapPic_inv f _ _ h)
  · exact mapPic_inv f _ _ h

theorem writeBand_inv (f : Fin 8) (i n o : Nat) (l : Line) (m : Mask) (h : c.Inv) :
    (writeBand f i n o l m c).Inv := by
  unfold writeBand
  split
  · exact h
  · split
    · split
      · exact storeInBand_inv _ _ _ _ _ _ _ (setFeed_inv f _ h)
      · exact mapPic_inv f _ _ h
    · exact storeInBand_inv _ _ _ _ _ _ _ h
    all_goals exact h

theorem gather_inv (f : Fin 8) (i x o : Nat) (l : Line) (m : Mask) (h : c.Inv) :
    (gather f i x o l m c).Inv := by
  unfold gather
  split
  · exact setFeed_inv f _ h
  · split
    · exact h
    · split
      · exact setFeed_inv f _ h
      · exact writeBand_inv _ _ _ _ _ _ (foldl_inv (fun _ n hd => forceBand_inv f i n hd) _ _ h)

theorem otherSlot_inv (f : Fin 8) (s x o : Nat) (l : Line) (m : Mask) (h : c.Inv) :
    (otherSlot f s x o l m c).Inv := by
  have ha := abandon_inv f h
  unfold otherSlot
  dsimp only
  split
  · have hb := beginPicture_inv f s (setFeed_inv f { (abandon f c).feeds[f] with curSlot := some s } ha)
    split
    · exact gather_inv _ _ _ _ _ _ hb
    all_goals exact hb
  · exact setFeed_inv f _ ha

theorem sameSlot_inv (f : Fin 8) (x o : Nat) (l : Line) (m : Mask) (h : c.Inv) :
    (sameSlot f x o l m c).Inv := by
  unfold sameSlot
  split
  · exact gather_inv _ _ _ _ _ _ h
  · exact h
  · exact setFeed_inv f _ h

theorem captureTap_inv (f : Fin 8) (o : Nat) (l : Line) (m : Mask) (h : c.Inv) :
    (captureTap f o l m c).Inv := by
  have hs : (restartSilence f c).Inv := by
    unfold restartSilence
    split
    · exact setFeed_inv f _ h
    · exact h
  unfold captureTap
  dsimp only
  split
  · exact h
  · split
    · exact sameSlot_inv _ _ _ _ _ hs
    · exact otherSlot_inv _ _ _ _ _ _ hs

theorem silenceEnds_inv (f : Fin 8) (h : c.Inv) : (silenceEnds f c).Inv := by
  unfold silenceEnds
  split
  · exact abandon_inv f (setFeed_inv f _ h)
  · exact h

theorem feedConfig_inv (a : FeedConfigArgs) (h : c.Inv) : (feedConfig a c).Inv := by
  unfold feedConfig
  split
  · trivial
  · next f _ =>
    split
    · trivial
    · split
      · trivial
      · split
        · trivial
        · next g _ =>
          split
          · split
            · trivial
            · split
              · trivial
              · refine serveIfNew_inv _ ?_
                have hf : (setFeed c f { c.feeds[f] with state := .ready, cfg := g }).Inv :=
                  setFeed_inv f _ h
                unfold applyConfig
                dsimp only
                split
                · exact discardList_inv f hf
                · exact hf
          · trivial

theorem feedStart_inv (feed : Byte) (h : c.Inv) : (feedStart feed c).Inv := by
  unfold feedStart
  split
  · trivial
  · split_ifs
    all_goals first | trivial | exact tryOpenAuto_inv _ (h.frame rfl)

theorem feedStop_inv (feed : Byte) (h : c.Inv) : (feedStop feed c).Inv := by
  unfold feedStop
  split
  · trivial
  · dsimp only
    split_ifs
    all_goals first | trivial | exact serveIfNew_inv _ (closeAuto_inv _ _ (setFeed_inv _ _ h))

theorem framePulse_inv (ns : Nat) (h : c.Inv) : (framePulse ns c).Inv := by
  unfold framePulse
  dsimp only
  split
  · split <;> exact askReport_inv _ _ (h.frame rfl)
  · exact h.frame rfl

theorem watchExpires_inv (h : c.Inv) : (watchExpires c).Inv := by
  unfold watchExpires
  split
  · exact askReport_inv _ _ (h.frame rfl)
  · exact h

theorem freeRunExpires_inv (h : c.Inv) : (freeRunExpires c).Inv := by
  unfold freeRunExpires
  split
  · exact h.frame rfl
  · exact h

theorem timecodeSet_inv (rate : Byte) (start : Count32) (h : c.Inv) : (timecodeSet rate start c).Inv := by
  unfold timecodeSet
  split_ifs
  all_goals first | trivial | exact h.frame rfl

/-! ### The memory path -/

theorem writeTap_inv (e : Fin 24) (w : Window) (a : Nat) (l : Line) (m : Mask) {s : State}
    (h : s.chip.Inv) : (writeTap e w a l m s).chip.Inv := by
  unfold writeTap
  split
  · unfold intakeLine
    split
    · exact h
    · exact askReport_inv _ _ h
  · exact captureTap_inv _ _ _ _ h
  · exact audioTap_inv _ _ _ h
  · exact askReport_inv _ _ h
  · exact askReport_inv _ _ h
  · exact askReport_inv _ _ h
  · exact h

theorem forward_inv (t : HostTxn) (h : c.Inv) : (forward t c).Inv := h.frame rfl

theorem hostWrite_inv (a : BitVec 36) (l : Line) (m : Mask) {s : State} (h : s.chip.Inv) :
    (hostWrite a l m s).chip.Inv := by
  have hp := forward_inv (.write (lineAddr a) l m) h
  unfold hostWrite
  dsimp only
  split
  · exact hp
  · split
    · exact hp
    · split
      · split
        · exact h
        · exact hp
      · split
        · exact serveIfNew_inv _ (writeTap_inv _ _ _ _ _ h)
        · exact serveIfNew_inv _ (writeTap_inv _ _ _ _ _
            (s := { s with chip := forward (.write (lineAddr a) l m) s.chip }) hp)

theorem hostRead_inv (a : BitVec 36) (h : c.Inv) : (hostRead a c).Inv := by
  have hr : (readTapAt (lineAddr a) c).Inv := by
    unfold readTapAt
    split
    · split
      · unfold readTap
        split
        · exact mapUnits_inv _ _ h
        · exact h
      · exact h
    · exact h
  unfold hostRead
  dsimp only
  split
  · exact forward_inv _ h
  · split
    · exact hr.frame rfl
    · exact forward_inv _ hr

theorem deliver_inv (r : OwnRead) (l : Line) (h : c.Inv) : (deliver r l c).Inv := by
  unfold deliver
  split
  · split
    · exact setPath_keep _ _ rfl h
    · exact h
  all_goals exact h

theorem drainHead_inv {w : OwnWrite} {rest : List OwnWrite} {s : State} (h : s.chip.Inv)
    (e : s.chip.mem.buffer = w :: rest) : (drainHead w rest s).chip.Inv := by
  have hb := h.buffer
  rw [e] at hb
  have hc : Chip.Inv { s.chip with
      mem.buffer := rest
      mem.alternating := s.chip.mem.alternating && !decide (rest.length ≤ Config.hostFirstLimit)
      mem.lastHost := false } :=
    ⟨Nat.le_of_succ_le hb, h.staging, h.fired, h.sched, h.paths, h.clips⟩
  unfold drainHead
  dsimp only
  split
  · exact finishObject_inv _ _ hc
  · exact hc

theorem grantHost_inv {s : State} (h : s.chip.Inv) : (grantHost s).chip.Inv := by
  unfold grantHost
  split
  · exact h
  · dsimp only
    split
    · exact h.frame rfl
    · exact h.frame rfl

theorem grantOwn_inv {s : State} (h : s.chip.Inv) : (grantOwn s).chip.Inv := by
  unfold grantOwn
  dsimp only
  split
  · split
    · next e =>
      split
      · exact drainHead_inv h (by assumption)
      · exact deliver_inv _ _ (h.frame rfl)
    · exact deliver_inv _ _ (h.frame rfl)
  · exact drainHead_inv h (by assumption)
  · exact h

theorem downstreamGrant_inv {s : State} (h : s.chip.Inv) : (downstreamGrant s).chip.Inv := by
  unfold downstreamGrant
  split
  · exact grantHost_inv h
  · exact grantOwn_inv h

theorem ownWriteAccept_inv (h : c.Inv) : (ownWriteAccept c).Inv := by
  unfold ownWriteAccept
  split
  · exact h
  · next e =>
    have room := Nat.lt_of_not_le e
    split
    · exact acceptMixer_inv h room
    · split
      · unfold acceptStaged
        split
        · exact h
        · next w rest e =>
          have hs := h.staging
          rw [e] at hs
          refine endOverfull_inv (pushOwn_inv w ⟨h.buffer, ?_, h.fired, h.sched, h.paths, h.clips⟩ room)
          exact Nat.le_of_succ_le hs
      · split
        · exact acceptCoder_inv h room
        · exact h

theorem changeEntry_inv (e : Fin 24) (w : Option Window) (h : c.Inv) : (changeEntry e w c).Inv := by
  unfold changeEntry
  dsimp only
  refine foldl_inv (fun _ f hd => discardList_inv f hd) _ _ ?_
  split
  · exact h.frame rfl
  · exact h.frame rfl

theorem windowSet_inv (entry kind feed : Byte) (base size : Nat) (h : c.Inv) :
    (windowSet entry kind feed base size c).Inv := by
  unfold windowSet
  split
  · split
    · split
      · trivial
      · exact serveIfNew_inv _ (changeEntry_inv _ _ h)
    · trivial
  · trivial

theorem windowClear_inv (entry : Byte) (h : c.Inv) : (windowClear entry c).Inv := by
  unfold windowClear
  split
  · trivial
  · split
    · trivial
    · split
      · exact h
      · split
        · trivial
        · exact serveIfNew_inv _ (changeEntry_inv _ _ h)

/-! ### The command unit -/

theorem reportsTaken_inv (i : Count32) (h : c.Inv) : (reportsTaken i c).Inv := by
  unfold reportsTaken
  split_ifs
  all_goals first | trivial | exact endOverfull_inv (h.frame rfl)

theorem attentionClear_inv (n : Byte) (h : c.Inv) : (attentionClear n c).Inv := by
  unfold attentionClear
  split
  · trivial
  · exact h.frame rfl

theorem fence_inv (h : c.Inv) : (fence c).Inv := by
  unfold fence
  split_ifs <;> trivial

theorem statusSecond_inv (n : Nat) (h : c.Inv) : (statusSecond n c).Inv := by
  have hr := askReport_inv .status (statusBody n { c with cmd.statusTimer := some 1000 })
    (c := { c with cmd.statusTimer := some 1000 }) (h.frame rfl)
  exact foldl_inv (fun _ p hd => decideDegraded_inv p hd) _ _ (hr.frame rfl)

theorem uplinkSet_inv (headroom share age notify : Byte) (maxLen : BitVec 16) (h : c.Inv) :
    (uplinkSet headroom share age notify maxLen c).Inv := by
  unfold uplinkSet
  split
  · trivial
  · split
    · exact serveIfNew_inv _ (closeAtMax_inv _ (h.frame rfl))
    · trivial

theorem homeSignal_inv (code : BitVec 16) (h : c.Inv) : (homeSignal code c).Inv := by
  unfold homeSignal
  split
  · trivial
  · exact serveIfNew_inv _ (signalHome_inv _ _ h)

theorem restartSend_inv (n : Nat) (h : c.Inv) (hn : ∀ k ∈ c.clips.list, k.number = n → k.state ≠ .opened) :
    (restartSend c n).Inv := by
  refine askReport_inv _ _ (mapClip_inv (abortSend_inv n h) fun x hx hxn => ?_)
  obtain ⟨z, hz, rfl⟩ := List.mem_map.1 hx
  rw [withdrawClip_clips] at hz
  by_cases e : z.number = n
  · simp only [if_pos e] at hxn ⊢
    exact .moved (hn z hz e) (by simp) (by simp) rfl
  · rw [if_neg e] at hxn
    exact absurd hxn e

/-- An aborted send opens no clip (R152). -/
theorem restartSend_opens (n : Nat) {x : Clip} (hx : x ∈ (restartSend c n).clips.list)
    (hs : x.state = .opened) : ∃ k ∈ c.clips.list, k.number = x.number ∧ k.state = .opened := by
  unfold restartSend at hx
  rw [(askReport_reportOnly _ _ _).clips] at hx
  obtain ⟨y, hy, rfl⟩ := List.mem_map.1 hx
  obtain ⟨z, hz, rfl⟩ := List.mem_map.1 hy
  rw [withdrawClip_clips] at hz
  by_cases e : z.number = n
  · simp [if_pos e] at hs
  · simp only [if_neg e] at hs ⊢
    exact ⟨z, hz, rfl, hs⟩

theorem restartSends_inv (l : List Nat) (h : c.Inv)
    (hl : ∀ n ∈ l, ∀ k ∈ c.clips.list, k.number = n → k.state ≠ .opened) :
    (l.foldl restartSend c).Inv := by
  induction l generalizing c with
  | nil => exact h
  | cons n l ih =>
    refine ih (restartSend_inv n h (hl n List.mem_cons_self)) fun m hm x hx hxm hs => ?_
    obtain ⟨k, hk, hkn, hko⟩ := restartSend_opens n hx hs
    exact hl m (List.mem_cons_of_mem _ hm) k hk (hkn.trans hxm) hko

/-- The sends of the SENDING clips aborted (R152). -/
theorem abortSends_inv (h : c.Inv) :
    (((c.clips.list.filter fun k => k.state == .sending).map (·.number)).foldl restartSend c).Inv := by
  refine restartSends_inv _ h fun n hn k hk e ho => ?_
  obtain ⟨z, hz, rfl⟩ := List.mem_map.1 hn
  obtain ⟨hz, hzs⟩ := List.mem_filter.1 hz
  rw [← List.inj_on_of_nodup_map h.clips.numbers hk hz e, ho] at hzs
  cases hzs

theorem restartTrim_inv (h : c.Inv) : (restartTrim c).Inv := by
  unfold restartTrim
  split
  · exact h
  · exact askReport_inv _ _ (h.frame rfl)

theorem restartClips_inv (h : c.Inv) : (restartClips c).Inv := by
  have ha : (eight.foldl (fun c f => closeAuto f .restart c) c).Inv :=
    foldl_inv (fun _ f hd => closeAuto_inv f .restart hd) eight _ h
  unfold restartClips
  generalize eight.foldl (fun c f => closeAuto f .restart c) c = e at ha ⊢
  exact restartTrim_inv (abortSends_inv ha)

theorem endOthers_inv (h : c.Inv) : (endOthers c).Inv :=
  foldl_inv (fun _ e hd => endEntry_inv e _ _ hd) _ _ h

/-- The blocks' parts of a RESTART (R27). -/
theorem restartBlocks_inv (h : c.Inv) : (restartBlocks c).Inv := by
  have h1 : (restartScheduler c).Inv :=
    ⟨h.buffer, h.staging, h.fired, ⟨Nat.zero_le _, Nat.zero_le _, Nat.zero_le _, Nat.zero_le _⟩, h.paths,
      h.clips⟩
  have h2 : (restartRings (restartCoder (restartCapture (restartScheduler c)))).Inv := h1.frame rfl
  have h3 := fired_inv (restartMixer (restartRings (restartCoder (restartCapture
    (restartScheduler c))))).mixer h2 (Nat.zero_le _)
  have h4 := closeStack_inv .restart _ h3 rfl
  exact foldl_inv (fun _ p hd => restartPath_inv p hd) _ _ (restartClips_inv (h4.frame rfl))

theorem restart_inv (a : CmdHead) (h : c.Inv) : (restart a c).Inv := by
  have hb := restartBlocks_inv (endOthers_inv (conclude_inv 0x71 a (v := .begun .whole c) h h))
  unfold restart
  dsimp only
  split
  · exact finishObject_inv _ _ hb
  · exact hb

/-- The part while the reset input is held (R16, R28, R36). -/
theorem held_inv (straps : Bool × Bool) (pins : Vector Bool 8) (hostQ : List HostTxn)
    (answer : Option (Nat × Line)) (clock : Nat) : (Chip.held straps pins hostQ answer clock).Inv := by
  refine ⟨Nat.zero_le _, Nat.zero_le _, Nat.zero_le _,
    ⟨Nat.zero_le _, Nat.zero_le _, Nat.zero_le _, Nat.zero_le _⟩, ⟨fun p => ?_, ?_⟩,
    ⟨Nat.zero_le _, List.nodup_nil, ?_, Nat.zero_le _, List.nodup_nil, ?_, ?_⟩⟩
  · simp [Chip.held, PathRec.reset]
  · simp [Chip.held, PathRec.reset, four]
  all_goals simp [Chip.held]

theorem resetRelease_inv (straps : Bool × Bool) (h : c.Inv) : (resetRelease straps c).Inv := by
  unfold resetRelease
  split
  · exact h.frame rfl
  · exact h

/-! ### Takings and events -/

/-- A command whose effect keeps the part's bounds keeps the invariant. -/
theorem command_inv {i : Instr} {s t : State} {k : Chip → Chip} (hk : ∀ c : Chip, c.Inv → (k c).Inv)
    (h : s.Inv) (e : command i s k = .next t) : t.Inv := by
  rcases command_cases e with ⟨-, rfl⟩ | ⟨-, rfl⟩
  · exact ⟨h.canonical, Nat.le_trans (by simp [State.taken]) h.intakeBound, hk _ h.chip⟩
  · exact h

/-- An event whose effect keeps the part's bounds keeps the invariant. -/
theorem event_inv {s t : State} {k : Chip → Chip} (hk : ∀ c : Chip, c.Inv → (k c).Inv) (h : s.Inv)
    (e : event s k = .next t) : t.Inv := by
  rcases event_cases e with ⟨-, rfl⟩ | ⟨-, rfl⟩
  · exact ⟨h.canonical, h.intakeBound, hk _ h.chip⟩
  · exact h

/-- A command's taking keeps the bounds if what its owner answers does. -/
theorem concluded_inv {k : BitVec 16} {a : CmdHead} {v : Chip → Verdict}
    (hv : ∀ c : Chip, c.Inv → (v c).Inv) : ∀ c : Chip, c.Inv → (conclude k a c (v c)).Inv :=
  fun c h => conclude_inv k a h (hv c h)

/-- An effect with the serves that follow from it keeps the bounds if the effect does. -/
theorem served_inv {k : Chip → Chip} (hk : ∀ c : Chip, c.Inv → (k c).Inv) :
    ∀ c : Chip, c.Inv → (served k c).Inv := fun c h => serveIfNew_inv c (hk c h)

end Sys2Proof.Machine
end

