-- ==== Sys2Proof/Laws/PerInstr.lean ====
section
/-! SUPPORT. One law for every row of the table: the line the host writes for a command has the head
section 11.1 gives it. -/

namespace Sys2Proof.Laws

open Sys2Proof Sys2Proof.Machine

/-- The line that carries a command has a kind code of the tables, or the row is UNKNOWN_KIND_COMMAND with
the code as written, and its reserved bytes are 0 (R184). An event has no line. -/
def WellFormedLine.Statement (i : Instr) : Prop :=
  ∀ l, encodeLine i = some l →
    (kindCode l ∈ knownKinds ∨ ∃ h, i = .unknownKindCommand h (kindCode l)) ∧
      lineByte l 3 = 0 ∧ lineByte l 6 = 0 ∧ lineByte l 7 = 0

/-- A command line of a listed kind has the head of section 11.1. -/
theorem wellFormedLine_of {i : Instr} {k : BitVec 16} {h : CmdHead} {ps : List Byte}
    (e : encodeLine i = some (commandLine k h ps)) (m : k ∈ knownKinds) :
    WellFormedLine.Statement i := by
  intro l hl
  have : l = commandLine k h ps := Option.some.inj (hl.symm.trans e)
  subst this
  exact ⟨.inl ((commandLine_kind k h ps).symm ▸ m), commandLine_reserved k h ps⟩

theorem WellFormedLine.hostWrite addr data mask :
    WellFormedLine.Statement (.hostWrite addr data mask) := nofun

theorem WellFormedLine.hostRead addr :
    WellFormedLine.Statement (.hostRead addr) := nofun

theorem WellFormedLine.ownWriteAccept :
    WellFormedLine.Statement .ownWriteAccept := nofun

theorem WellFormedLine.downstreamGrant :
    WellFormedLine.Statement .downstreamGrant := nofun

theorem WellFormedLine.unknownKindCommand h kind :
    WellFormedLine.Statement (.unknownKindCommand h kind) := by
  intro l hl
  have : l = commandLine kind h [] := Option.some.inj hl.symm
  subst this
  exact ⟨.inr ⟨h, (commandLine_kind kind h []).symm ▸ rfl⟩, commandLine_reserved kind h []⟩

theorem WellFormedLine.windowSet h entry kind feed base size :
    WellFormedLine.Statement (.windowSet h entry kind feed base size) :=
  wellFormedLine_of rfl (by decide)

theorem WellFormedLine.windowClear h entry :
    WellFormedLine.Statement (.windowClear h entry) :=
  wellFormedLine_of rfl (by decide)

theorem WellFormedLine.feedConfig h a :
    WellFormedLine.Statement (.feedConfig h a) :=
  wellFormedLine_of rfl (by decide)

theorem WellFormedLine.feedStart h feed :
    WellFormedLine.Statement (.feedStart h feed) :=
  wellFormedLine_of rfl (by decide)

theorem WellFormedLine.feedStop h feed :
    WellFormedLine.Statement (.feedStop h feed) :=
  wellFormedLine_of rfl (by decide)

theorem WellFormedLine.timecodeSet h rate start :
    WellFormedLine.Statement (.timecodeSet h rate start) :=
  wellFormedLine_of rfl (by decide)

theorem WellFormedLine.audioStart h :
    WellFormedLine.Statement (.audioStart h) :=
  wellFormedLine_of rfl (by decide)

theorem WellFormedLine.audioStop h :
    WellFormedLine.Statement (.audioStop h) :=
  wellFormedLine_of rfl (by decide)

theorem WellFormedLine.inputSet h input fader afv depth :
    WellFormedLine.Statement (.inputSet h input fader afv depth) :=
  wellFormedLine_of rfl (by decide)

theorem WellFormedLine.sendSet h input leg level :
    WellFormedLine.Statement (.sendSet h input leg level) :=
  wellFormedLine_of rfl (by decide)

theorem WellFormedLine.legSet h leg master uplink alarm :
    WellFormedLine.Statement (.legSet h leg master uplink alarm) :=
  wellFormedLine_of rfl (by decide)

theorem WellFormedLine.sceneSave h slot :
    WellFormedLine.Statement (.sceneSave h slot) :=
  wellFormedLine_of rfl (by decide)

theorem WellFormedLine.sceneRecall h slot :
    WellFormedLine.Statement (.sceneRecall h slot) :=
  wellFormedLine_of rfl (by decide)

theorem WellFormedLine.overloadClear h leg :
    WellFormedLine.Statement (.overloadClear h leg) :=
  wellFormedLine_of rfl (by decide)

theorem WellFormedLine.tallySet h feed tally call :
    WellFormedLine.Statement (.tallySet h feed tally call) :=
  wellFormedLine_of rfl (by decide)

theorem WellFormedLine.tallyAuthority h authority :
    WellFormedLine.Statement (.tallyAuthority h authority) :=
  wellFormedLine_of rfl (by decide)

theorem WellFormedLine.signalLineSet h a :
    WellFormedLine.Statement (.signalLineSet h a) :=
  wellFormedLine_of rfl (by decide)

theorem WellFormedLine.markIn h feeds category :
    WellFormedLine.Statement (.markIn h feeds category) :=
  wellFormedLine_of rfl (by decide)

theorem WellFormedLine.markOut h :
    WellFormedLine.Statement (.markOut h) :=
  wellFormedLine_of rfl (by decide)

theorem WellFormedLine.clipLabel h a :
    WellFormedLine.Statement (.clipLabel h a) :=
  wellFormedLine_of rfl (by decide)

theorem WellFormedLine.clipProtect h clip :
    WellFormedLine.Statement (.clipProtect h clip) :=
  wellFormedLine_of rfl (by decide)

theorem WellFormedLine.clipUnprotect h clip :
    WellFormedLine.Statement (.clipUnprotect h clip) :=
  wellFormedLine_of rfl (by decide)

theorem WellFormedLine.clipRelease h clip :
    WellFormedLine.Statement (.clipRelease h clip) :=
  wellFormedLine_of rfl (by decide)

theorem WellFormedLine.clipSend h clip :
    WellFormedLine.Statement (.clipSend h clip) :=
  wellFormedLine_of rfl (by decide)

theorem WellFormedLine.trimBegin h clip :
    WellFormedLine.Statement (.trimBegin h clip) :=
  wellFormedLine_of rfl (by decide)

theorem WellFormedLine.trimMove h point delta :
    WellFormedLine.Statement (.trimMove h point delta) :=
  wellFormedLine_of rfl (by decide)

theorem WellFormedLine.trimEnd h :
    WellFormedLine.Statement (.trimEnd h) :=
  wellFormedLine_of rfl (by decide)

theorem WellFormedLine.trimAbandon h :
    WellFormedLine.Statement (.trimAbandon h) :=
  wellFormedLine_of rfl (by decide)

theorem WellFormedLine.pathSet h path enable hostCap :
    WellFormedLine.Statement (.pathSet h path enable hostCap) :=
  wellFormedLine_of rfl (by decide)

theorem WellFormedLine.pathRetrain h path :
    WellFormedLine.Statement (.pathRetrain h path) :=
  wellFormedLine_of rfl (by decide)

theorem WellFormedLine.uplinkSet h headroom share ageLimit notify maxLength :
    WellFormedLine.Statement (.uplinkSet h headroom share ageLimit notify maxLength) :=
  wellFormedLine_of rfl (by decide)

theorem WellFormedLine.homeSignal h code :
    WellFormedLine.Statement (.homeSignal h code) :=
  wellFormedLine_of rfl (by decide)

theorem WellFormedLine.reportsTaken h index :
    WellFormedLine.Statement (.reportsTaken h index) :=
  wellFormedLine_of rfl (by decide)

theorem WellFormedLine.attentionSet h causes :
    WellFormedLine.Statement (.attentionSet h causes) :=
  wellFormedLine_of rfl (by decide)

theorem WellFormedLine.attentionClear h cause :
    WellFormedLine.Statement (.attentionClear h cause) :=
  wellFormedLine_of rfl (by decide)

theorem WellFormedLine.fence h :
    WellFormedLine.Statement (.fence h) :=
  wellFormedLine_of rfl (by decide)

theorem WellFormedLine.restart h :
    WellFormedLine.Statement (.restart h) :=
  wellFormedLine_of rfl (by decide)

theorem WellFormedLine.statusSecondTimer :
    WellFormedLine.Statement .statusSecondTimer := nofun

theorem WellFormedLine.bandCoded :
    WellFormedLine.Statement .bandCoded := nofun

theorem WellFormedLine.feedSilenceTimer f :
    WellFormedLine.Statement (.feedSilenceTimer f) := nofun

theorem WellFormedLine.framePulse elapsed :
    WellFormedLine.Statement (.framePulse elapsed) := nofun

theorem WellFormedLine.watchTimer :
    WellFormedLine.Statement .watchTimer := nofun

theorem WellFormedLine.freeRunTimer :
    WellFormedLine.Statement .freeRunTimer := nofun

theorem WellFormedLine.mixEnd :
    WellFormedLine.Statement .mixEnd := nofun

theorem WellFormedLine.callTimer f :
    WellFormedLine.Statement (.callTimer f) := nofun

theorem WellFormedLine.blinkTimer f :
    WellFormedLine.Statement (.blinkTimer f) := nofun

theorem WellFormedLine.fallbackTimer :
    WellFormedLine.Statement .fallbackTimer := nofun

theorem WellFormedLine.signalLineChange n high :
    WellFormedLine.Statement (.signalLineChange n high) := nofun

theorem WellFormedLine.debounceTimer n :
    WellFormedLine.Statement (.debounceTimer n) := nofun

theorem WellFormedLine.trainingTimer p :
    WellFormedLine.Statement (.trainingTimer p) := nofun

theorem WellFormedLine.trainingWindow p :
    WellFormedLine.Statement (.trainingWindow p) := nofun

theorem WellFormedLine.offerTimer p :
    WellFormedLine.Statement (.offerTimer p) := nofun

theorem WellFormedLine.negotiationTimer p :
    WellFormedLine.Statement (.negotiationTimer p) := nofun

theorem WellFormedLine.pathSilenceTimer p :
    WellFormedLine.Statement (.pathSilenceTimer p) := nofun

theorem WellFormedLine.holdTimer p :
    WellFormedLine.Statement (.holdTimer p) := nofun

theorem WellFormedLine.pacingTick p :
    WellFormedLine.Statement (.pacingTick p) := nofun

theorem WellFormedLine.transmissionEnd p :
    WellFormedLine.Statement (.transmissionEnd p) := nofun

theorem WellFormedLine.allocationTimer :
    WellFormedLine.Statement .allocationTimer := nofun

theorem WellFormedLine.train p :
    WellFormedLine.Statement (.train p) := nofun

theorem WellFormedLine.offer p :
    WellFormedLine.Statement (.offer p) := nofun

theorem WellFormedLine.accept p level mtu ceiling initial :
    WellFormedLine.Statement (.accept p level mtu ceiling initial) := nofun

theorem WellFormedLine.idle p :
    WellFormedLine.Statement (.idle p) := nofun

theorem WellFormedLine.capacity p value :
    WellFormedLine.Statement (.capacity p value) := nofun

theorem WellFormedLine.hold p :
    WellFormedLine.Statement (.hold p) := nofun

theorem WellFormedLine.resume p :
    WellFormedLine.Statement (.resume p) := nofun

theorem WellFormedLine.errorNotice p count :
    WellFormedLine.Statement (.errorNotice p count) := nofun

theorem WellFormedLine.unitFailingCheck p :
    WellFormedLine.Statement (.unitFailingCheck p) := nofun

theorem WellFormedLine.fragmentFrameReceived p :
    WellFormedLine.Statement (.fragmentFrameReceived p) := nofun

theorem WellFormedLine.tallyMessage p session number body :
    WellFormedLine.Statement (.tallyMessage p session number body) := nofun

theorem WellFormedLine.callMessage p session number body :
    WellFormedLine.Statement (.callMessage p session number body) := nofun

theorem WellFormedLine.clipRequest p session number body :
    WellFormedLine.Statement (.clipRequest p session number body) := nofun

theorem WellFormedLine.rateCap p session number body :
    WellFormedLine.Statement (.rateCap p session number body) := nofun

theorem WellFormedLine.signalMessage p session number body :
    WellFormedLine.Statement (.signalMessage p session number body) := nofun

theorem WellFormedLine.fullReset :
    WellFormedLine.Statement .fullReset := nofun

theorem WellFormedLine.resetRelease strap1 strap0 :
    WellFormedLine.Statement (.resetRelease strap1 strap0) := nofun

theorem WellFormedLine.unknownKindReturnMessage p kind body :
    WellFormedLine.Statement (.unknownKindReturnMessage p kind body) := nofun

theorem WellFormedLine.controlWordEnd p :
    WellFormedLine.Statement (.controlWordEnd p) := nofun

end Sys2Proof.Laws
end

