-- ==== Sys2Proof/Tests/Slice0.lean ====
section
/-! SUPPORT. The tests: what `wellFormed` refuses, words of the spec's own examples and layouts written
out by hand, single steps on small states, and for every statement with hypotheses a state and operands
that meet them. -/

namespace Sys2Proof.Machine

/-! ### Small states -/

/-- The reset state with its part changed. -/
def withChip (g : Chip → Chip) : State := { State.reset with chip := g State.reset.chip }

/-- A window put in the table. -/
def onWin (e : Fin 24) (w : Window) (c : Chip) : Chip :=
  { c with mem.windows := c.mem.windows.set e (some w) }

/-- A path's record changed. -/
def onPath (p : Fin 4) (g : PathRec → PathRec) (c : Chip) : Chip := setPath c p (g c.paths[p])

/-- A feed's record changed. -/
def onFeed (f : Fin 8) (g : Feed → Feed) (c : Chip) : Chip := setFeed c f (g c.feeds[f])

/-- A tag and the report-always flag. -/
def aHead : CmdHead := { tag := 0xFFFF, always := true }

/-- Windows of feed 7, the mixer and the reports. -/
def capWin : Window := { base := 0x10000000, size := 3317760, kind := .capture, feed := some 7 }
def codedWin : Window := { base := 0x20000000, size := 33344, kind := .coded, feed := some 7 }
def audioWin : Window := { base := 0x30000000, size := 98304, kind := .audioIn, feed := none }
def mixWin : Window := { base := 0x31000000, size := 25600, kind := .mixOut, feed := none }
def reportWin : Window := { base := 0x32000000, size := 4096, kind := .report, feed := none }

/-- The window table with all of them. -/
def windowed (c : Chip) : Chip :=
  onWin 1 capWin (onWin 2 codedWin (onWin 3 audioWin (onWin 4 mixWin (onWin 23 reportWin c))))

/-- A configuration at its bounds: the least M of the format and the least slots. -/
def aConfig : FeedConfig :=
  { format := .sd, mode := .live, qMin := 0, qMax := 7, qRec := 3, weight := 15, rateMin := 500,
    rateMax := 200000, maxUnit := 4168, slots := 2, recorder := false, autoLog := false }

/-- Feed 7 in a state with the configuration. -/
def feed7 (x : FeedState) (c : Chip) : Chip :=
  onFeed 7 (fun r => { r with state := x, cfg := aConfig }) c

/-- Path 3 UP at a level. -/
def up3 (level : Nat) (c : Chip) : Chip :=
  onPath 3
    (fun r => { r with
      state := .up, level := level, mtu := 1500, ceiling := 400000, silence := some 250,
      pacing := some 10 }) c

/-- A one-line own write. -/
def aWrite (addr : Nat) : OwnWrite := { addr := addr, data := zeroLine, mask := 0x8000000000000001 }

/-- A message fragment. -/
def aFragment : Fragment :=
  { seq := 5, cls := .label, item := .message 2 9, addr := 0, offset := 0, itemLength := 1, length := 1,
    data := [9] }

/-- A clip of feed 7 with both points. -/
def aClip (x : ClipState) : Clip :=
  { number := 65535, origin := .manual, state := x, guarded := false, parent := none,
    feeds := [{ feed := 7, inSeq := some 2, outSeq := some 3 }], inHouse := none, outHouse := none,
    category := 0, rating := 0, note := [], reason := none, progress := none }

/-- A unit record of feed 7. -/
def aUnit (seq : Count32) (start : Nat) : UnitRec :=
  { complete := true, seq := seq, house := 0, start := start, reserved := 66, length := 1, bytes := 64,
    recorded := true, held := 1, live := false }

/-- Feed 7's ring with units 1 to 4, and a clip log with one clip over units 2 and 3. -/
def logged (x : ClipState) (c : Chip) : Chip :=
  { setRing (windowed c) 7
      { head := 4, units := [aUnit 1 0, aUnit 2 1, aUnit 3 2, aUnit 4 3], nextSeq := 5,
        anyCompleted := true } with
    clips.list := [aClip x] }

/-! ### Well-formedness -/

theorem test_hostWrite_unaligned : wellFormed (.hostWrite 0x20 zeroLine 1) = false := by decide
theorem test_hostRead_unaligned : wellFormed (.hostRead 0x3F) = false := by decide
theorem test_known_kind_is_no_unknown : wellFormed (.unknownKindCommand aHead 0x71) = false := by
  decide
theorem test_body_too_long :
    wellFormed (.tallyMessage 0 0 0 (List.replicate 1473 0)) = false := by decide +kernel
theorem test_return_kind_known : wellFormed (.unknownKindReturnMessage 0 4 []) = false := by decide
theorem test_return_kind_too_high : wellFormed (.unknownKindReturnMessage 0 16 []) = false := by
  decide
theorem test_wellFormed_passes :
    wellFormed (.hostWrite 0xFFFFFFFC0 zeroLine 1) = true ∧
      wellFormed (.unknownKindCommand aHead 0x72) = true := by decide

/-! ### Command lines, byte by byte from section 11.1 -/

/-- A line of the bytes given, the rest 0. -/
def lineFrom (bs : List Byte) : Line := lineOf bs

/-- FEED START, code 0x11, tag 0x1234, report always, feed 3 at byte 8. -/
theorem test_decode_feedStart :
    decodeLine (lineFrom [0x11, 0, 1, 0, 0x34, 0x12, 0, 0, 3]) =
      .feedStart { tag := 0x1234, always := true } 3 := by decide
/-- WINDOW SET, code 0x01: entry, kind, feed, base at 16 and size at 24, little-endian. -/
theorem test_decode_windowSet :
    decodeLine (lineFrom ([0x01, 0, 0, 0, 1, 0, 0, 0, 23, 5, 0xFF, 0, 0, 0, 0, 0] ++
        [0x00, 0x10, 0, 0, 1, 0, 0, 0] ++ [0x40, 0x20, 0, 0, 0, 0, 0, 0])) =
      .windowSet { tag := 1, always := false } 23 5 0xFF 0x100001000 0x2040 := by decide
/-- INPUT SET, code 0x22. -/
theorem test_decode_inputSet :
    decodeLine (lineFrom [0x22, 0, 0, 0, 0, 0, 0, 0, 31, 63, 0xFF, 12]) =
      .inputSet { tag := 0, always := false } 31 63 0xFF 12 := by decide
/-- TALLY SET, code 0x30. -/
theorem test_decode_tallySet :
    decodeLine (lineFrom [0x30, 0, 0, 0, 0, 0, 0, 0, 7, 2, 1]) =
      .tallySet { tag := 0, always := false } 7 2 1 := by decide
/-- TRIM MOVE, code 0x48: the delta is a signed value at byte 12. -/
theorem test_decode_trimMove :
    decodeLine (lineFrom [0x48, 0, 0, 0, 0, 0, 0, 0, 1, 0, 0, 0, 0xFE, 0xFF, 0xFF, 0xFF]) =
      .trimMove { tag := 0, always := false } 1 (-2) := by decide
/-- UPLINK SET, code 0x52. -/
theorem test_decode_uplinkSet :
    decodeLine (lineFrom [0x52, 0, 0, 0, 0, 0, 0, 0, 90, 20, 20, 1, 0x28, 0x23]) =
      .uplinkSet { tag := 0, always := false } 90 20 20 1 9000 := by decide
/-- ATTENTION SET, code 0x61. -/
theorem test_decode_attentionSet :
    decodeLine (lineFrom [0x61, 0, 0, 0, 0, 0, 0, 0, 0xFF]) =
      .attentionSet { tag := 0, always := false } 0xFF := by decide
/-- A kind code above 255 that a byte would cut to a known one stays unknown. -/
theorem test_decode_wide_kind :
    decodeLine (lineFrom [0x11, 1]) =
      .unknownKindCommand { tag := 0, always := false } 0x0111 := by decide

/-! ### The spec's worked figures -/

/-- R60's example: s = 1023, p = 1000, q = 3 gives k = 3 and saturates to 1023. -/
theorem test_quantise_example : quantise 3 23 = 3 ∧ rebuild 3 1000 3 = 1023 := by decide
/-- R62's table: EG(0) is 1, EG(3) is 00100, EG(7) is 0001000. -/
theorem test_expGolomb_table :
    expGolomb 0 = [true] ∧ expGolomb 3 = [false, false, true, false, false] ∧
      expGolomb 7 = [false, false, false, true, false, false, false] := by decide
/-- R61: k = 1, -1, 2, -2 map to 0, 1, 2, 3. -/
theorem test_mapResidual :
    mapResidual 1 = 0 ∧ mapResidual (-1) = 1 ∧ mapResidual 2 = 2 ∧ mapResidual (-2) = 3 := by decide
/-- A line of all zeros is the single symbol EG(line length) (section 4.4). -/
theorem test_zero_line : lineSymbols 0 [0, 0, 0, 0] = expGolomb 4 := by decide
/-- Section 4.6's example: R = 500 at F = 60 for HD1080 gives B = 61 and K = 504. -/
theorem test_budget_example :
    budgetFor .hd1080 500 60 =
      { pictureBits := 8333, bandShare := 61, ceiling := 504, pictureBytes := 1041 } := by decide
/-- The flat bands of R64 take 57 and 63 bytes. -/
theorem test_flat_bytes :
    codingBytes (flatCoding .sd false) = 57 ∧ codingBytes (flatCoding .hd720 false) = 63 ∧
      codingBytes (flatCoding .hd1080 false) = 63 := by decide +kernel
/-- R186's example: "123456789" gives 0xCBF43926. -/
theorem test_crc_example :
    crc32 [0x31, 0x32, 0x33, 0x34, 0x35, 0x36, 0x37, 0x38, 0x39] = 0xCBF43926 := by decide +kernel
/-- The words the part sends are read back as those words (R186, R187). -/
theorem test_words_read_back :
    classifyUnit 2 PathRec.reset (linkBytes (.word .train)) = .train 2 ∧
      classifyUnit 2 PathRec.reset (linkBytes (.word .offer)) = .offer 2 ∧
      classifyUnit 2 PathRec.reset (linkBytes (.word .idle)) = .idle 2 := by decide +kernel
/-- A word with a spoiled check fails it (R187). -/
theorem test_spoiled_word :
    classifyUnit 2 PathRec.reset ((linkBytes (.word .idle)).set 11 0xEE) = .unitFailingCheck 2 := by decide +kernel
/-- R105: a tie goes to the even integer, below and above zero. -/
theorem test_round_ties :
    roundSample 16384 = 0 ∧ roundSample 49152 = 2 ∧ roundSample (-16384) = 0 ∧
      roundSample (-49152) = -2 := by decide
/-- R102: step 48 is unity, 2^15. -/
theorem test_unity : coef 48 = 32768 ∧ coef 0 = 0 ∧ coef 63 = 120194 := by decide
/-- R134: the order wraps. -/
theorem test_seqBefore_wraps :
    seqBefore 0xFFFFFFFF 0 = true ∧ seqBefore 0 0xFFFFFFFF = false ∧ seqBefore 5 5 = false := by
  decide

/-! ### Single steps -/

/-- The next state, if a command or event has one. -/
def after (i : Instr) (s : State) : Option State :=
  match exec i s with
  | .next t => some t
  | .fault _ | .refused _ => none

/-- Two bytes of a line are written by a grant (R1, R15). -/
theorem test_write_reaches_dram :
    after .downstreamGrant
        (withChip fun c => { c with mem.hostQ := [.write 0x40 (lineFrom [7, 8, 9]) 5] }) =
      some { State.reset with dram := [(0x40, 7), (0x42, 9)] } := by decide
/-- A command waits while another's line heads the intake queue (DESIGN CHOICE, log 1). -/
theorem test_command_waits_for_head :
    after (.audioStart aHead)
        { State.reset with intake := [lineFrom [0x21, 0, 1, 0, 0xFF, 0xFF]] } =
      some { State.reset with intake := [lineFrom [0x21, 0, 1, 0, 0xFF, 0xFF]] } := by decide
/-- AUDIO START without its windows is NOT_READY, and cause COMMAND is pending (R96, R33). -/
theorem test_audio_start_not_ready :
    after (.audioStart aHead) State.reset =
      some (withChip fun c => { c with cmd.pendingSet := 2 }) := by decide
/-- The third TRAIN word takes a TRAINING path to NEGOTIATING, and an OFFER goes out (R155, R156). -/
theorem test_third_train :
    ((after (.train 1)
        (withChip (onPath 1 fun r => { r with state := .training, good := 2 }))).map fun t =>
      (t.chip.paths[1].state, t.chip.paths[1].link)) =
        some (.negotiating, .word .offer) := by decide

/-! ### States and operands that meet the statements' hypotheses -/

theorem witness_StepRunsTheFront :
    ({ State.reset with pending := [.idle 3, .hold 0] } : State).pending = .idle 3 :: [.hold 0] := by
  decide
theorem witness_CommandLineRoundTrip :
    wellFormed (.trimMove aHead 1 0x80000000) = true ∧
      (encodeLine (.trimMove aHead 1 0x80000000)).isSome = true ∧
      wellFormed (.unknownKindCommand aHead 0xFFFF) = true ∧
      (encodeLine (.unknownKindCommand aHead 0xFFFF)).isSome = true := by decide
theorem witness_StepKeepsInvariant :
    Memory.wf State.reset.dram = true ∧
      (List.replicate 32 zeroLine).length ≤ Config.intakeLimit ∧
      (after .downstreamGrant State.reset).isSome = true := by decide
theorem witness_DramChangesOnlyAtGrant :
    Instr.hostWrite 0x40 zeroLine 1 ≠ .downstreamGrant ∧
      (after (.hostWrite 0x40 zeroLine 1) State.reset).isSome = true := by decide

/-- A write to the last line of the REPORT window. -/
theorem witness_GuardedWriteDropped :
    (withChip windowed).chip.resetHeld = false ∧ (0x8000000000000000 : Mask) ≠ 0 ∧
      classify (withChip windowed).chip (lineAddr 0x32000FC0) = some (23, reportWin) ∧
      partOwned reportWin.kind = true := by decide
/-- Under reset, outside every window, with an empty mask, into the last line of the COMMAND window, and
a read of a line that two own writes cover and of one that none covers. -/
theorem witness_HostTransactions :
    (withChip fun c => { c with resetHeld := true }).chip.resetHeld = true ∧
      State.reset.chip.resetHeld = false ∧
      classify State.reset.chip (lineAddr 0x1000) = none ∧
      classify State.reset.chip (lineAddr 0xFC0) = some (0, { base := 0, size := 4096, kind := .command, feed := none }) ∧
      covered [{ addr := 0x40, data := zeroLine, mask := 0x00000000FFFFFFFF },
        { addr := 0x40, data := zeroLine, mask := 0xFFFFFFFF00000000 }] (lineAddr 0x40) = true ∧
      covered [] (lineAddr 0x40) = false ∧
      classify (withChip windowed).chip (lineAddr 0x20008200) = some (2, codedWin) ∧
      codedWin.kind = .coded ∧ codedWin.feed = some 7 ∧
      (withChip (onFeed 7 fun r => { r with cfg.recorder := true })).chip.feeds[7].cfg.recorder =
        true := by decide
/-- A part whose buffer has one place left, with two writes of each block waiting. -/
def waitingOn (mixer coder : Bool) (n : Nat) : State :=
  withChip fun c => { c with
    mem.buffer := List.replicate n (aWrite 0)
    mixer.mix :=
      if mixer then some { legs := [], issued := true, writes := [aWrite 0, aWrite 64] } else none
    cmd.staging := if coder then [] else [aWrite 0, aWrite 64]
    coder.op :=
      some { feed := 7, pic := 0, band := 0, issued := true, writes := [aWrite 0, aWrite 64] } }

/-- The mixer's writes before the command unit's, the command unit's before the coder's, the coder's
alone, each with one place left, and a full buffer. -/
theorem witness_OwnWriteAcceptOrder :
    (waitingOn true false 63).chip.mem.buffer.length < 64 ∧
      (waitingOn true false 63).chip.mixer.mix =
        some { legs := [], issued := true, writes := [aWrite 0, aWrite 64] } ∧
      (waitingOn false false 63).chip.mem.buffer.length < 64 ∧
      (waitingOn false false 63).chip.mixer.mix = none ∧
      (waitingOn false false 63).chip.cmd.staging = aWrite 0 :: [aWrite 64] ∧
      (waitingOn false false 63).chip.cmd.overfull = false ∧
      (waitingOn false true 63).chip.cmd.staging = [] ∧
      (waitingOn false true 63).chip.coder.op.map (·.issued) = some true ∧
      64 ≤ (waitingOn false true 64).chip.mem.buffer.length := by decide
theorem witness_GrantServesHost :
    Memory.wf [(0x40, 7)] = true ∧
      (withChip fun c => { c with mem.hostQ := [.write 0xFFFFFFFC0 zeroLine 1] }).chip.mem.hostQ =
        .write 0xFFFFFFFC0 zeroLine 1 :: [] ∧
      (withChip fun c => { c with mem.hostQ := [.read 0] }).chip.mem.hostQ = .read 0 :: [] ∧
      State.reset.chip.mem.alternating = false := by decide
/-- A part with lines in the buffer, an own read of path 3 waiting, and a frame on its link. -/
def draining (n : Nat) : State :=
  withChip fun c =>
    onPath 3 (fun r => { r with link := .frame aFragment [none] })
      { c with
        mem.buffer := List.replicate n (aWrite 0)
        mem.ownReads := [{ path := 3, seq := 5, addr := 0x40, index := 0 }] }

/-- The last line of the buffer with a RESTART in flight. -/
def lastDrain : State :=
  withChip fun c => { c with
    mem.buffer := [aWrite 0]
    cmd.inflight :=
      [{ ident := 0, kind := 0x71, tag := 9, always := false, object := .whole, waits := [] }] }

/-- 49 lines in the buffer with an own read waiting, the last line with a RESTART in flight, and an own
read with 48 lines in the buffer. -/
theorem witness_GrantServesOwn :
    Memory.wf (draining 49).dram = true ∧ (draining 49).chip.mem.hostQ = [] ∧
      48 < (draining 49).chip.mem.buffer.length ∧ inFlight .whole (draining 49).chip = false ∧
      lastDrain.chip.mem.hostQ = [] ∧ lastDrain.chip.mem.ownReads = [] ∧
      lastDrain.chip.mem.buffer = aWrite 0 :: [] ∧
      lastDrain.chip.cmd.inflight.map (·.object) = [.whole] ∧
      (draining 48).chip.mem.buffer.length ≤ 48 ∧
      (draining 48).chip.mem.ownReads = { path := 3, seq := 5, addr := 0x40, index := 0 } :: [] ∧
      (draining 48).chip.paths[3].link = .frame aFragment [none] ∧ aFragment.seq = 5 := by decide
/-- WINDOW SET of entry 22 as REPORT and of entry 2 as CODED; WINDOW CLEAR of entries 0, 24, 1 and 2. -/
theorem witness_WindowTable :
    takes (.windowSet aHead 22 5 0xFF 0x32000000 262144) State.reset = true ∧
      entryOf 22 = some 22 ∧
      windowOf 5 0xFF 0x32000000 262144 =
        some { base := 0x32000000, size := 262144, kind := .report, feed := none } ∧
      windowArgsOk State.reset.chip 22
        { base := 0x32000000, size := 262144, kind := .report, feed := none } = true ∧
      windowState State.reset.chip State.reset.chip.mem.windows[22] (some reportWin) = none ∧
      windowOf 3 7 0x20000000 33344 = some codedWin ∧
      windowArgsOk State.reset.chip 2 codedWin = true ∧
      windowState State.reset.chip State.reset.chip.mem.windows[2] (some codedWin) = none ∧
      State.reset.chip.mem.windows[2] = none ∧
      windowOf 1 7 0x10000000 3317760 = some capWin ∧
      windowArgsOk State.reset.chip 1 capWin = true ∧
      takes (.windowClear aHead 0) State.reset = true ∧ 23 < (24 : Byte).toNat ∧
      (withChip windowed).chip.mem.windows[1] = some capWin ∧
      windowState (withChip windowed).chip (some capWin) none = none ∧
      (withChip windowed).chip.mem.windows[2] = some codedWin ∧
      windowState (withChip windowed).chip (some codedWin) none = none := by decide

theorem witness_UnknownKindRefused :
    wellFormed (.unknownKindCommand aHead 0) = true ∧
      takes (.unknownKindCommand aHead 0) State.reset = true := by decide
/-- A ring of 64 lines with one line free, and with none. -/
theorem witness_ReportPlacedOrLost :
    reportCause .overflow = some .reports ∧
      reportWindow (withChip windowed).chip = some reportWin ∧
      (withChip windowed).chip.cmd.overfull = false ∧
      occupancy { (withChip windowed).chip with cmd.producer := 63 } < ringLines reportWin ∧
      ringLines reportWin ≤ occupancy { (withChip windowed).chip with cmd.producer := 64 } ∧
      (List.replicate 7 (aWrite 0)).length < 8 := by decide
theorem witness_AttentionCommands :
    takes (.attentionSet aHead 0xFF) State.reset = true ∧
      takes (.attentionClear aHead 7) State.reset = true ∧ 7 < (8 : Byte).toNat ∧
      (7 : Byte).toNat ≤ 7 := by decide
/-- Fences in flight. -/
def fenced (n : Nat) : State :=
  withChip fun c => { c with
    cmd.inflight := (List.range n).map fun i =>
      { ident := i, kind := 0x70, tag := 9, always := false, object := .fence, waits := [] } }

/-- Three reports in a ring. -/
def reported : State := withChip fun c => { windowed c with cmd.producer := 3 }

/-- The indices at the end of c to p and one past p; no entry, seven fences and eight. -/
theorem witness_ReportsTakenAndFence :
    takes (.reportsTaken aHead 3) reported = true ∧
      reportWindow State.reset.chip = none ∧ reportWindow reported.chip = some reportWin ∧
      reported.chip.cmd.overfull = false ∧
      (3 - reported.chip.cmd.consumer).toNat ≤
        (reported.chip.cmd.producer - reported.chip.cmd.consumer).toNat ∧
      (reported.chip.cmd.producer - reported.chip.cmd.consumer).toNat <
        (4 - reported.chip.cmd.consumer).toNat ∧
      takes (.fence aHead) (fenced 7) = true ∧ (fenced 0).chip.cmd.inflight = [] ∧
      (fenced 7).chip.cmd.inflight ≠ [] ∧
      (fenced 7).chip.cmd.inflight.countP (fun e => e.object == .fence) < 8 ∧
      8 ≤ (fenced 8).chip.cmd.inflight.countP (fun e => e.object == .fence) := by decide
theorem witness_RestartLeaves : takes (.restart aHead) (withChip windowed) = true := by decide
theorem witness_StatusSecond :
    (withChip windowed).chip.resetHeld = false ∧
      reportWindow (withChip windowed).chip = some reportWin ∧
      occupancy (withChip windowed).chip < ringLines reportWin := by decide

/-- A band of feed 7 with every line but two written. -/
def aBand : Band := { state := .opened, hasBuffer := true, lines := [(0, zeroLine)], closeEvent := 0 }

/-- A picture of feed 7 in slot 1, its first two bands as given. -/
def aPicture (bs : List Band) : Picture :=
  { ident := 4, slot := 1, house := 0, start := 0, base := 0, bands := bs, abandoned := false,
    budget := none, errorSum := 0, coded := 0, bytes := 64, incompleteBands := 0, flatBands := 0,
    retriedBands := 0 }

/-- Feed 7 RUNNING with that picture current in slot 1. -/
def picturing (c : Chip) : Chip :=
  onFeed 7
    (fun r => { r with
      curSlot := some 1, cur := .present 4, pics := [aPicture [aBand, aBand]], freeBuffers := 2 })
    (feed7 .running (windowed c))

/-- The last line of the last slot, the first line of slot 1, and the first line of band 1 in it. -/
theorem witness_CaptureWrites :
    classify (withChip picturing).chip (lineAddr 0x10329FC0) = some (1, capWin) ∧
      lineOffset capWin (lineAddr 0x10329FC0) <
        (withChip picturing).chip.feeds[7].cfg.slots * slotLinesOf .sd ∧
      lineOffset capWin (lineAddr 0x1019AA00) / slotLinesOf .sd = 1 ∧
      lineOffset capWin (lineAddr 0x1019AA00) % slotLinesOf .sd / bandLinesOf .sd = 1 ∧
      (withChip picturing).chip.feeds[7].state = .running ∧
      (withChip picturing).chip.feeds[7].curSlot = some 1 ∧
      findPic (withChip picturing).chip 7 4 = some (aPicture [aBand, aBand]) ∧
      (aPicture [aBand, aBand]).bands[1]? = some aBand ∧ aBand.state = .opened ∧
      (storeLine aBand.lines 0 zeroLine 1).length < bandLinesOf .sd ∧
      (withChip fun c => feed7 .running (windowed c)).chip.feeds[7].curSlot ≠ some 1 ∧
      (withChip fun c => feed7 .running (windowed c)).chip.feeds[7].cur = .none := by decide
/-- The parameters of FEED CONFIG at the bounds of R37. -/
def configArgs (m : BitVec 32) : FeedConfigArgs :=
  { feed := 7, format := 0, mode := 0, qMin := 0, qMax := 7, qRec := 7, weight := 15, slots := 2,
    rateMin := 500, rateMax := 200000, maxUnit := m, recorder := 0, autoLog := 0 }

theorem witness_FeedConfigured :
    takes (.feedConfig aHead (configArgs 4168)) (withChip windowed) = true ∧
      index8 (configArgs 4168).feed = some 7 ∧ inFlight (.feed 7) (withChip windowed).chip = false ∧
      active (withChip windowed).chip 7 = false ∧
      (feedConfigOf (configArgs 4168)).isSome = true ∧
      windowSize (withChip windowed).chip .capture 7 = some 3317760 ∧
      windowSize (withChip windowed).chip .coded 7 = some 33344 ∧
      (feedConfigOf (configArgs 4168)).map (fun g => sizesOk g 3317760 33344) = some true ∧
      (withChip windowed).chip.feeds[7].state ≠ .ready ∧
      (withChip fun c => onFeed 7 (fun r => { r with cfg.maxUnit := 4169 })
        (feed7 .ready (windowed c))).chip.feeds[7].cfg.maxUnit ≠ 4168 ∧
      feedHeld (withChip windowed).chip 7 = false ∧
      feedHeld (withChip (logged .closed)).chip 7 = true := by decide
theorem witness_FeedStartStop :
    takes (.feedStart aHead 7) (withChip fun c => feed7 .ready (windowed c)) = true ∧
      index8 7 = some 7 ∧
      (withChip fun c => feed7 .ready (windowed c)).chip.feeds[7].state = .ready ∧
      windowSize (withChip fun c => feed7 .ready (windowed c)).chip .capture 7 = some 3317760 ∧
      windowSize (withChip fun c => feed7 .ready (windowed c)).chip .coded 7 = some 33344 ∧
      takes (.feedStop aHead 7) (withChip picturing) = true ∧
      (withChip picturing).chip.feeds[7].state = .running ∧
      (withChip picturing).chip.feeds[7].pics ≠ [] ∧
      (withChip fun c => feed7 .running (windowed c)).chip.feeds[7].pics = [] := by decide
/-- Rates 24 and 60, and 23; LOCKED and FREE_RUN; the last nanosecond before half a period at 25. -/
theorem witness_HouseTimingCommands :
    takes (.timecodeSet aHead 60 0) State.reset = true ∧
      (23 : Byte) ≠ 24 ∧ (23 : Byte) ≠ 25 ∧ (23 : Byte) ≠ 30 ∧ (23 : Byte) ≠ 50 ∧ (23 : Byte) ≠ 60 ∧
      (∀ f : Fin 8, State.reset.chip.feeds[f].state ≠ .running ∧
        State.reset.chip.feeds[f].state ≠ .stopping) ∧
      (withChip picturing).chip.feeds[7].state = .running ∧
      State.reset.chip.timing.freeRun = false ∧ State.reset.chip.timing.watch.isSome = true ∧
      ¬1000000000 ≤ 2 * 25 * (0 + 19999999 - 0) ∧ 1000000000 ≤ 2 * 25 * (0 + 20000000 - 0) ∧
      (withChip fun c => { c with timing.freeRun := true, timing.freeTimer := some 1 }).chip.timing.freeTimer.isSome =
        true := by decide
theorem witness_SilenceAbandons :
    (withChip fun c => onFeed 7 (fun r => { r with silence := some 2 })
        (picturing c)).chip.feeds[7].silence.isSome = true ∧
      openPicture (withChip picturing).chip 7 = some (aPicture [aBand, aBand]) ∧
      openPicture State.reset.chip 7 = none := by decide
/-- The coder with two writes for the picture's last but one band, and a buffer they fill. -/
def coding : State :=
  withChip fun c => { picturing c with
    mem.buffer := List.replicate 62 (aWrite 0)
    coder.op :=
      some { feed := 7, pic := 4, band := 0, issued := false, writes := [aWrite 0, aWrite 64] } }

theorem witness_BandCodedWrites :
    coding.chip.resetHeld = false ∧
      coding.chip.coder.op =
        some { feed := 7, pic := 4, band := 0, issued := false, writes := [aWrite 0, aWrite 64] } ∧
      coding.chip.mixer.mix = none ∧ coding.chip.cmd.staging = [] ∧
      coding.chip.mem.buffer.length + [aWrite 0, aWrite 64].length ≤ 64 ∧
      findPic coding.chip 7 4 = some (aPicture [aBand, aBand]) ∧
      0 + 1 < (aPicture [aBand, aBand]).bands.length := by decide

/-- Both ends of a sample, at both ends of q, with and without saturation. -/
theorem witness_ExpGolombCode :
    [1023, -1023, 0].length ≤ 1920 ∧ ∀ k ∈ ([1023, -1023, 0] : List Int), -1023 ≤ k ∧ k ≤ 1023 := by
  decide
theorem witness_ReconstructionError :
    (0 : Int) ≤ 1023 ∧ 1 ≤ 7 ∧ 0 + quantise 7 (1023 - 0) * 2 ^ 7 > 1023 ∧
      0 ≤ 1023 + quantise 1 (0 - 1023) * 2 ^ 1 + 1 ∧
      1000 + quantise 1 (1023 - 1000) * 2 ^ 1 > 1023 ∧
      (0 ≤ 512 + quantise 3 (520 - 512) * 2 ^ 3 ∧ 512 + quantise 3 (520 - 512) * 2 ^ 3 ≤ 1023) := by
  decide
theorem witness_UnitNeverExceedsM : 64 + (71 + 1) * flatBytes .sd ≤ 4168 := by decide
theorem witness_LiveBandWithinCeiling : 7 ≤ 7 ∧ 0 ≤ 7 := by decide
/-- A ring of 132 lines whose first half is held: the search finds the second. -/
theorem witness_SearchAvoidsHeld :
    66 ≤ 132 ∧
      (searchRing [{ aUnit 1 0 with length := 66 }] 66 132 10 0 0 []).start = some 66 := by
  decide
/-- A RESERVED record. -/
def aReserved : UnitRec := { aUnit 0 4 with complete := false, held := 0 }

theorem witness_CompletionTakesSequence :
    (setRing State.reset.chip 7
        { head := 0, units := [aUnit 1 0, aReserved], nextSeq := 2, anyCompleted := true }).rings[7].units =
        [aUnit 1 0] ++ aReserved :: [] ∧
      (∀ x ∈ [aUnit 1 0], x.complete = true) ∧ aReserved.complete = false := by decide

/-- A mixer running, at a block. -/
def mixing (b : BlockState) (n : Nat) : State :=
  withChip fun c => { windowed c with
    mixer.running := true
    mixer.block := b
    mixer.buf := (List.range n).map fun i => (i, zeroLine) }

/-- The last line of slot 15 first, in its own block, as the 96th line, and in the slot before. -/
theorem witness_AudioWrites :
    classify (mixing .waiting 0).chip (lineAddr 0x30017FC0) = some (3, audioWin) ∧
      (mixing .waiting 0).chip.mixer.running = true ∧
      (mixing .waiting 0).chip.mixer.block = .waiting ∧
      lineOffset audioWin (lineAddr 0x30017FC0) / 96 = (31 : Count32).toNat % 16 ∧
      (mixing (.gathering 31) 94).chip.mixer.block = .gathering 31 ∧
      (storeLine (mixing (.gathering 31) 94).chip.mixer.buf 95 zeroLine 1).length < 96 ∧
      96 ≤ (storeLine (mixing (.gathering 31) 95).chip.mixer.buf 95 zeroLine 1).length ∧
      (mixing (.gathering 31) 95).chip.mixer.fireQ.length < 2 ∧
      lineOffset audioWin (lineAddr 0x30017FC0) / 96 < 16 ∧
      (lineOffset audioWin (lineAddr 0x30017FC0) / 96 + 1) % 16 = (32 : Count32).toNat % 16 := by
  decide
/-- Four legs uplinked. -/
def uplinked (n : Nat) : State :=
  withChip fun c => { c with
    mixer.legs := Vector.ofFn fun l : Fin 8 =>
      { master := 0, uplink := decide (l.val < n), alarm := true, latch := true } }

theorem witness_MixerSettings :
    takes (.inputSet aHead 31 63 7 63) State.reset = true ∧ index32 31 = some 31 ∧
      afvOf 7 = some (some 7) ∧ afvOf 0xFF = some none ∧
      takes (.sendSet aHead 31 7 63) State.reset = true ∧ index8 7 = some 7 ∧
      takes (.legSet aHead 7 63 1 0) (uplinked 4) = true ∧ flagOf 1 = some true ∧
      flagOf 0 = some false ∧ (uplinked 4).chip.mixer.legs[7].uplink = false ∧
      4 ≤ (uplinkLegs (uplinked 4).chip.mixer).length ∧
      (uplinkLegs (uplinked 3).chip.mixer).length < 4 := by decide
/-- A filled scene slot 7, with a recall pending or not, in either mixer state. -/
def sceneReady (running pending : Bool) : State :=
  withChip fun c => { c with
    mixer.running := running
    mixer.scenes := c.mixer.scenes.set 7 (some (currentScene c.mixer))
    mixer.recalling :=
      if pending then some { scene := currentScene c.mixer, fromCommand := false } else none }

theorem witness_SceneSaveCopies :
    takes (.sceneSave aHead 7) (sceneReady true true) = true ∧ (7 : Byte).toNat = (7 : Fin 8).val ∧
      takes (.sceneSave aHead 8) State.reset = true ∧ 7 < (8 : Byte).toNat := by decide
theorem witness_ScenesAndLatches :
    index8 7 = some 7 ∧
      takes (.sceneRecall aHead 7) (sceneReady true false) = true ∧
      inFlight .mixerRecall (sceneReady true false).chip = false ∧
      (State.reset.chip.mixer.scenes[7]).isNone = true ∧
      ((sceneReady true false).chip.mixer.scenes[7]).isSome = true ∧
      (sceneReady true true).chip.mixer.recalling.isSome = true ∧
      (sceneReady true false).chip.mixer.recalling.isNone = true ∧
      (sceneReady true false).chip.mixer.running = true ∧
      (sceneReady false false).chip.mixer.running = false ∧
      takes (.overloadClear aHead 7) (uplinked 4) = true := by decide
theorem witness_AudioStartStop :
    takes (.audioStart aHead) (withChip windowed) = true ∧
      findWindow (withChip windowed).chip .audioIn none = some audioWin ∧
      findWindow (withChip windowed).chip .mixOut none = some mixWin ∧
      (withChip windowed).chip.mixer.running = false ∧
      takes (.audioStop aHead) (sceneReady true false) = true ∧
      (sceneReady true false).chip.mixer.running = true ∧
      (sceneReady true false).chip.mixer.recalling.isNone = true ∧
      (sceneReady true true).chip.mixer.recalling.isSome = true := by decide
/-- A fired block. -/
def aBlock : FiredBlock :=
  { number := 15, kind := .complete, buf := [], house := 0, steps := Steps.off, starved := 0,
    outBase := 0x31000000, last := false }

/-- A mix that has ended, with its 25 writes, and room for `64 - n` of them. -/
def mixed (n : Nat) : State :=
  withChip fun c => { c with
    mem.buffer := List.replicate n (aWrite 0)
    mixer.fireQ := [aBlock]
    mixer.mix :=
      some { legs := mixLegs aBlock Steps.off, issued := false,
             writes := List.replicate 25 (aWrite 0) } }

theorem witness_MixEnds :
    (mixed 40).chip.resetHeld = false ∧
      (mixed 40).chip.mixer.mix.map (fun m => (m.issued, m.writes.length)) = some (false, 25) ∧
      (mixed 40).chip.mem.buffer.length ≤ 64 ∧ 64 < (mixed 40).chip.mem.buffer.length + 25 ∧
      (mixed 39).chip.mixer.fireQ = aBlock :: [] ∧
      (mixed 39).chip.mem.buffer.length + 25 ≤ 64 := by decide

/-- The tally authority set. -/
def under (a : Authority) : State := withChip fun c => { c with tally.authority := a }

theorem witness_TallyCommands :
    takes (.tallySet aHead 7 2 2) (under .home) = true ∧ index8 7 = some 7 ∧ (2 : Byte).toNat ≤ 2 ∧
      (under .home).chip.tally.authority = .home ∧ tallyOf 2 = some .program ∧
      (under .homeLost).chip.tally.authority ≠ .home ∧
      takes (.tallySet aHead 7 3 1) (under .home) = true ∧
      openAuto (under .van).chip 7 = none ∧
      takes (.tallyAuthority aHead 1) (under .van) = true ∧ 1 < (2 : Byte).toNat := by decide
theorem witness_TallyOutputsAndTimers :
    (withChip fun c => setTallyFeed c 7 (raiseCall c.tally.feeds[7])).chip.tally.feeds[7].callTimer.isSome =
        true ∧
      (withChip fun c => setTallyFeed c 7 (raiseCall c.tally.feeds[7])).chip.tally.feeds[7].blink.isSome =
        true ∧
      (withChip fun c => { c with tally.fallback := some 2000 }).chip.tally.fallback.isSome =
        true := by decide
/-- Line 7 enabled as a CALL line of feed 7 with a pending level. -/
def lined (pulse : Bool) (level : Option Bool) : State :=
  withChip fun c => setLine c 7
    { c.tally.lines[7] with
      enabled := true, pulse := pulse, action := .call, argument := 7, pendingLevel := level,
      debounce := level.map fun _ => 10 }

/-- The parameters of SIGNAL LINE SET: line 7 as a PULSE SCENE line. -/
def lineArgs (x : Byte) : SignalLineArgs where
  line := 7
  enabled := 1
  kind := 1
  polarity := 1
  action := 7
  argument := x
  category := 0
  feeds := 0

theorem witness_SignalLines :
    takes (.signalLineSet aHead (lineArgs 7)) State.reset = true ∧
      index8 7 = some 7 ∧ flagOf 1 = some true ∧ actionOf 7 = some .scene ∧
      actionOk .scene 7 0 = true ∧ actionOk .scene 8 0 = false ∧
      (lined true none).chip.tally.lines[7].enabled = true ∧
      (lined true (some false)).chip.tally.lines[7].pulse = true ∧
      (lined true (some false)).chip.tally.lines[7].pendingLevel = some false ∧
      (lined true (some false)).chip.tally.lines[7].debounce.isSome = true ∧
      (lined false (some true)).chip.tally.lines[7].action = .call ∧
      (lined false (some true)).chip.tally.lines[7].argument.toNat = (7 : Fin 8).val ∧
      (lined false (some true)).chip.tally.lines[7].pendingLevel = some true := by decide
/-- A clip on the mark stack. -/
def marked : State :=
  withChip fun c => { logged .opened c with
    tally.stack := [65535]
    sched.notify := false }

theorem witness_MarkCommands :
    takes (.markIn aHead 0x80 0) (withChip picturing) = true ∧ feedsOf 0x80 = [7] ∧
      (withChip picturing).chip.feeds[7].state = .running ∧
      (withChip picturing).chip.tally.stack.length < 8 ∧
      (withChip picturing).chip.clips.list.length < 256 ∧
      takes (.markOut aHead) State.reset = true ∧ State.reset.chip.tally.stack = [] ∧
      takes (.markOut aHead) marked = true ∧ marked.chip.tally.stack = 65535 :: [] ∧
      findClip marked.chip 65535 = some (aClip .opened) ∧ marked.chip.sched.notify = false := by
  decide

/-- The parameters of CLIP LABEL. -/
def labelArgs (rating n : Byte) : ClipLabelArgs :=
  { clip := 65535, category := 1, rating := rating, noteLength := n, note := Vector.replicate 40 0x41 }

theorem witness_ClipLabelAndProtection :
    takes (.clipLabel aHead (labelArgs 3 40)) (withChip (logged .opened)) = true ∧
      3 < (4 : Byte).toNat ∧ 40 < (41 : Byte).toNat ∧
      findClip (withChip (logged .opened)).chip 65535 = some (aClip .opened) ∧
      findClip (withChip (logged .lapsed)).chip 65535 = some (aClip .lapsed) ∧
      takes (.clipProtect aHead 65535) (withChip (logged .sent)) = true ∧
      inTrim (withChip (logged .sent)).chip 65535 = false ∧
      mayProtect (withChip (logged .sent)).chip (aClip .sent) = true ∧
      mayProtect (withChip fun c => setRing (logged .sent c) 7
        { head := 0, units := [{ aUnit 2 0 with length := 261 }], nextSeq := 5,
          anyCompleted := true }).chip (aClip .sent) = false ∧
      takes (.clipUnprotect aHead 65535) (withChip (logged .sent)) = true := by decide
theorem witness_ClipReleaseDropsHolds :
    takes (.clipRelease aHead 65535) (withChip (logged .closed)) = true ∧
      findClip (withChip (logged .closed)).chip (65535 : BitVec 16).toNat = some (aClip .closed) ∧
      inTrim (withChip (logged .closed)).chip 65535 = false ∧ (aClip .closed).guarded = false ∧
      ((aClip .closed).feeds.map (·.feed)).Nodup ∧
      findClip (withChip (logged .sending)).chip 65535 = some (aClip .sending) := by decide
theorem witness_ClipSendQueues :
    takes (.clipSend aHead 65535) (withChip (logged .sent)) = true ∧
      findClip (withChip (logged .sent)).chip 0 = none ∧
      findClip (withChip (logged .sent)).chip 65535 = some (aClip .sent) ∧
      inTrim (withChip (logged .sent)).chip 65535 = false ∧
      (withChip (logged .sent)).chip.sched.clipQ.length < 16 ∧
      ((clipUnits (withChip (logged .sent)).chip (aClip .sent)).map (·.length)).sum ≠ 0 ∧
      16 ≤ (withChip fun c => { logged .sent c with
        sched.clipQ := List.replicate 16 { clip := 1, units := [] } }).chip.sched.clipQ.length := by
  decide
/-- A trim session on the clip. -/
def trimming (saved : List ClipFeed) : State :=
  withChip fun c => { logged .closed c with clips.trim := some { clip := 65535, saved := saved } }

theorem witness_TrimCommands :
    takes (.trimBegin aHead 65535) (withChip (logged .sent)) = true ∧
      (withChip (logged .sent)).chip.clips.trim = none ∧
      (trimming []).chip.clips.trim.isSome = true ∧
      takes (.trimEnd aHead) (trimming (aClip .closed).feeds) = true ∧
      nonBare (aClip .closed) = (aClip .closed).feeds ∧
      takes (.trimMove aHead 1 30000) (trimming []) = true ∧
      30000 < (30001 : BitVec 32).toInt ∧ (-30001 : BitVec 32).toInt < -30000 ∧
      -30000 ≤ (-30000 : BitVec 32).toInt ∧ 1 < (2 : Byte).toNat ∧
      takes (.trimAbandon aHead) (trimming (aClip .closed).feeds) = true ∧
      (trimming (aClip .closed).feeds).chip.clips.trim =
        some { clip := 65535, saved := (aClip .closed).feeds } ∧
      findClip (trimming (aClip .closed).feeds).chip 65535 = some (aClip .closed) := by decide
/-- Feed 7 has units 1 to 4 and the clip runs from 2 to 3: deltas at and past each bound. -/
theorem witness_TrimMovePoints :
    takes (.trimMove aHead 0 1) (trimming []) = true ∧
      (trimming []).chip.clips.trim = some { clip := 65535, saved := [] } ∧
      findClip (trimming []).chip 65535 = some (aClip .closed) ∧
      oldestSeq (trimming []).chip 7 = some 1 ∧ newestSeq (trimming []).chip 7 = some 4 ∧
      seqBefore (2 + 1) 1 = false ∧ seqBefore 3 (2 + 1) = false ∧
      seqBefore (2 + (-2)) 1 = true ∧ seqBefore 3 1 = false ∧
      seqBefore (3 + 1) 2 = false ∧ seqBefore 4 (3 + 1) = false ∧ seqBefore 4 (3 + 2) = true := by
  decide

theorem witness_PathCommands :
    takes (.pathSet aHead 3 1 400000) State.reset = true ∧ 3 < (4 : Byte).toNat ∧
      1 < (2 : Byte).toNat ∧ 400000 < (400001 : BitVec 32).toNat ∧
      (3 : Byte).toNat = (3 : Fin 4).val ∧ State.reset.chip.paths[3].state = .disabled ∧
      (withChip (up3 2)).chip.paths[3].state ≠ .disabled ∧
      takes (.pathRetrain aHead 3) (withChip (up3 2)) = true ∧
      inFlight (.path 3) (withChip (up3 2)).chip = false ∧
      inFlight (.path 3) (withChip fun c => { c with
        cmd.inflight := [{ ident := 0, kind := 0x51, tag := 0, always := false, object := .path 3,
                           waits := [] }] }).chip = true := by decide
theorem witness_PathStateChanges : (withChip (up3 2)).chip.paths[3].state = .up := by decide
/-- Path 3 with every timer of training and negotiation running after some failed attempts. -/
def attempted (n : Nat) : State :=
  withChip (onPath 3 fun r => { r with
    state := .training, failed := n, trainingTimer := some 1, window := some 2000,
    offerTimer := some 10, negotiation := some 100 })

theorem witness_HandshakeTimers :
    (attempted 6).chip.resetHeld = false ∧ (attempted 6).chip.paths[3].trainingTimer.isSome = true ∧
      (attempted 6).chip.paths[3].offerTimer.isSome = true ∧
      (attempted 6).chip.paths[3].window.isSome = true ∧ (attempted 6).chip.paths[3].failed + 1 < 8 ∧
      8 ≤ (attempted 7).chip.paths[3].failed + 1 ∧
      (attempted 7).chip.paths[3].negotiation.isSome = true := by decide
theorem witness_SilenceAndHoldLimit :
    (withChip (up3 2)).chip.paths[3].silence.isSome = true ∧
      (withChip fun c => onPath 3 (fun r => { r with hold := some 500 })
        (up3 2 c)).chip.paths[3].hold.isSome = true := by decide
theorem witness_PacingTickCredit :
    (withChip (up3 2)).chip.paths[3].pacing.isSome = true ∧
      (withChip (up3 2)).chip.paths[3].sent = false ∧
      (withChip (up3 2)).chip.paths[3].link = .quiet ∧
      (withChip fun c => onPath 3 (fun r => { r with sent := true })
        (up3 2 c)).chip.paths[3].sent = true ∧
      (withChip fun c => onPath 3 (fun r => { r with link := .word .train })
        (up3 2 c)).chip.paths[3].link = .word .train := by decide
/-- Path 3 UP with something on its link, a queue and words due. -/
def linked (l : Link) (q : List Fragment) (due : List ControlWord) : State :=
  withChip fun c => onPath 3 (fun r => { r with link := l, queue := q, due := due }) (up3 2 c)

theorem witness_LinkTransmits :
    (∀ q : Fin 4, ready (linked (.frame aFragment []) [aFragment] [.idle]).chip.paths[q] = false) ∧
      (linked (.frame aFragment []) [aFragment] [.idle]).chip.paths[3].due = .idle :: [] ∧
      (∀ q : Fin 4, ready (linked (.word .idle) [aFragment] []).chip.paths[q] = false) ∧
      (linked (.word .idle) [aFragment] []).chip.paths[3].queue = aFragment :: [] ∧
      (linked (.word .idle) [aFragment] []).chip.paths[3].credit ≤ 0 ∧
      (linked (.word .idle) [] []).chip.paths[3].queue = [] ∧
      (linked .quiet [aFragment] []).chip.paths[3].state = .up ∧
      (linked .quiet [aFragment] []).chip.paths[3].held = false ∧
      (linked .quiet [aFragment] []).chip.paths[3].link = .quiet ∧
      (linked .quiet [aFragment] []).chip.paths[3].due = [] := by decide
/-- Path 3 in a state. -/
def inState (x : PathState) (good : Nat) : State :=
  withChip (onPath 3 fun r => { r with state := x, good := good })

/-- The fields of an ACCEPT at both ends of their ranges, and one past them. -/
theorem witness_HandshakeReceived :
    (inState .training 1).chip.paths[3].state = .training ∧ (inState .training 1).chip.paths[3].good < 2 ∧
      2 ≤ (inState .training 2).chip.paths[3].good ∧ (inState .failed 0).chip.paths[3].state = .failed ∧
      (inState .negotiating 0).chip.paths[3].state = .negotiating ∧
      256 ≤ (256 : BitVec 16).toNat ∧ (1500 : BitVec 16).toNat ≤ 1500 ∧
      100 ≤ (100 : BitVec 24).toNat ∧ (400000 : BitVec 24).toNat ≤ 400000 ∧
      ((3 : Byte) ≠ 1 ∧ (3 : Byte) ≠ 2) ∧ (255 : BitVec 16).toNat < 256 ∧
      1500 < (1501 : BitVec 16).toNat ∧ (99 : BitVec 24).toNat < 100 ∧
      400000 < (400001 : BitVec 24).toNat ∧ (withChip (up3 2)).chip.paths[3].state = .up ∧
      (∀ q : Fin 4, ready (withChip (up3 2)).chip.paths[q] = false) := by decide
theorem witness_DiscardedAndFailingUnits :
    (inState .training 2).chip.resetHeld = false ∧ (inState .training 2).chip.paths[3].state ≠ .up ∧
      (withChip (up3 2)).chip.paths[3].state = .up ∧
      ([1, 2] : List Byte).length ≤ dataLimit (withChip (up3 2)).chip.paths[3] ∧
      dataLimit (withChip (up3 2)).chip.paths[3] = 1472 ∧
      (inState .disabled 0).chip.paths[3].state = .disabled := by decide
/-- Path 3 held with a fragment queued. -/
def heldPath (q : List Fragment) : State :=
  withChip fun c => onPath 3 (fun r => { r with held := true, hold := some 500, queue := q })
    (up3 2 c)

theorem witness_FlowControlWords :
    (inState .negotiating 0).chip.paths[3].state ≠ .up ∧
      (withChip (up3 1)).chip.paths[3].level ≠ 2 ∧ (withChip (up3 2)).chip.paths[3].level = 2 ∧
      (withChip (up3 2)).chip.paths[3].held = false ∧ (heldPath []).chip.paths[3].held = true ∧
      (heldPath []).chip.paths[3].credit ≤ 0 ∧
      (∀ q : Fin 4, q ≠ 3 → ready (heldPath []).chip.paths[q] = false) ∧
      (heldPath [aFragment]).chip.paths[3].queue = aFragment :: [] ∧
      (heldPath [aFragment]).chip.paths[3].link = .quiet ∧
      (heldPath [aFragment]).chip.paths[3].due = [] := by decide
/-- A newer number, the oldest one that the filter still takes, and another session. -/
theorem witness_FilterTakesOnce :
    (filterTake { session := some 1, highest := 40, taken := 1, lastTally := none, lastRateCap := none }
        1 41).isSome = true ∧
      (filterTake { session := some 1, highest := 40, taken := 1, lastTally := none, lastRateCap := none }
        1 9).isSome = true ∧
      State.reset.chip.filter.session ≠ some 1 := by decide
theorem witness_MessagesDispatched :
    (withChip (up3 2)).chip.paths[3].state = .up ∧ (withChip (up3 2)).chip.paths[3].level = 2 ∧
      (filterTake (withChip (up3 2)).chip.filter 0xFFFFFFFF 0).isSome = true ∧
      8 ≤ ([0, 1, 2, 0, 1, 2, 0, 2] : List Byte).length ∧
      (∀ b ∈ ([0, 1, 2, 0, 1, 2, 0, 2] : List Byte).take 8, b.toNat ≤ 2) ∧
      ([0, 1, 2, 0, 1, 2, 0, 2] : List Byte).length ≤ dataLimit (withChip (up3 2)).chip.paths[3] ∧
      (withChip (up3 2)).chip.tally.authority = .van ∧ (under .home).chip.tally.authority ≠ .van ∧
      stale none 0 = false ∧ ([7].getD 0 (0 : Byte)).toNat = (7 : Fin 8).val ∧
      findClip (withChip (up3 2)).chip 65535 = none := by decide

theorem witness_UplinkCommands :
    takes (.uplinkSet aHead 100 50 100 1 30000) State.reset = true ∧ flagOf 1 = some true ∧
      (49 : Byte).toNat < 50 ∧ 30000 < (30001 : BitVec 16).toNat ∧
      (∀ k ∈ State.reset.chip.clips.list, k.state = .opened →
        ∀ x ∈ k.feeds, clipLength State.reset.chip x < 25) ∧
      takes (.homeSignal aHead 255) State.reset = true ∧ 255 < (256 : BitVec 16).toNat ∧
      State.reset.chip.sched.label.length < 32 := by decide
theorem witness_AllocationReplaces :
    State.reset.chip.resetHeld = false ∧ State.reset.chip.feeds[7].state ≠ .running ∧
      State.reset.chip.paths[3].state ≠ .up := by decide

/-! ### The clauses at their boundaries -/

/-- Feed 7 in a state, with a current slot, a current picture and that picture's bands. -/
def shooting (x : FeedState) (slot : Nat) (cur : CurrentPicture) (bs : List Band) (free : Nat) : State :=
  withChip fun c => onFeed 7
    (fun r => { r with
      curSlot := some slot, cur := cur, pics := [aPicture bs], freeBuffers := free })
    (feed7 x (windowed c))

/-- The first line of band 1 of slot 1 meets a closed, a waiting and a SHORT band, with the last buffer and
with none; a dropped and no current picture; a STOPPING feed; slot 1 when slot 0 is current. -/
theorem witness_CaptureWrites_cases :
    lineOffset capWin (lineAddr 0x1019AA00) % slotLinesOf .sd % bandLinesOf .sd = 0 ∧
      (shooting .running 1 (.present 4) [aBand, { aBand with state := .empty }] 1).chip.feeds[7].curSlot =
        some 1 ∧
      closedState .empty = true ∧
      findPic (shooting .running 1 (.present 4)
          [aBand, { aBand with state := .waiting, lines := [] }] 1).chip 7 4 =
        some (aPicture [aBand, { aBand with state := .waiting, lines := [] }]) ∧
      1 ≤ (aPicture [aBand, { aBand with state := .waiting, lines := [] }]).base + 1 ∧
      0 < (shooting .running 1 (.present 4) [aBand, aBand] 1).chip.feeds[7].freeBuffers ∧
      (shooting .running 1 (.present 4) [aBand, aBand] 0).chip.feeds[7].freeBuffers = 0 ∧
      (shooting .running 0 (.present 4) [aBand, aBand] 0).chip.feeds[7].curSlot ≠ some 1 ∧
      (shooting .running 0 .none [aBand, aBand] 0).chip.feeds[7].cur = .none ∧
      (shooting .stopping 1 .dropped [aBand, aBand] 0).chip.feeds[7].state = .stopping ∧
      (shooting .stopping 1 .dropped [aBand, aBand] 0).chip.feeds[7].cur = .dropped ∧
      openPicture (shooting .stopping 1 (.present 4) [aBand, aBand] 0).chip 7 =
        some (aPicture [aBand, aBand]) ∧
      (shooting .ready 1 .none [] 0).chip.feeds[7].state = .ready := by decide

/-- Feed 7 RUNNING with auto-log on and its tally PROGRAM, over a log. -/
def calling (l : List Clip) (failed : Bool) : Chip :=
  let c := (withChip fun c => onFeed 7 (fun r => { r with cfg.autoLog := true })
    (feed7 .running (windowed c))).chip
  { setTallyFeed c 7 { c.tally.feeds[7] with state := .program } with
    clips.list := l
    clips.autoFailed := c.clips.autoFailed.set 7 failed }

/-- A feed that calls for its automatic clip, after a failure or not, and one that has it. -/
theorem witness_FeedStartStop_automatic :
    callsForAuto (calling [] false) 7 = true ∧ callsForAuto State.reset.chip 7 = false ∧
      openAuto (calling [] false) 7 = none ∧
      (calling [] true).clips.autoFailed[7] = true ∧ (calling [] false).clips.autoFailed[7] = false ∧
      openAuto (calling [{ aClip .opened with origin := .auto }] false) 7 =
        some { aClip .opened with origin := .auto } := by decide
/-- A log of `n` clips that hold their records (n = 255 and n = 256 are the limits), alone and with a RELEASED
one behind them. -/
theorem witness_fullLog (n : Nat) :
    (List.replicate n (aClip .opened)).length = n ∧
      (∀ k ∈ List.replicate n (aClip .opened), holding k.state = true) ∧
      (List.replicate n (aClip .opened) ++ [aClip .released]).length = n + 1 ∧
      (List.replicate n (aClip .opened) ++ [aClip .released]).find? (fun k => !holding k.state) =
        some (aClip .released) := by
  refine ⟨by simp, ?_, by simp, ?_⟩
  · intro k h
    rw [List.eq_of_mem_replicate h]
    rfl
  · simp [List.find?_append, aClip, holding]

/-- A RESERVED record. -/
def reservedRing : CodedRing :=
  { head := 0, units := [aUnit 1 0, aReserved], nextSeq := 2, anyCompleted := true }

/-- The coder at the last band of a picture of feed 7. -/
def finishing : State :=
  withChip fun c => { setRing (picturing c) 7 reservedRing with
    mem.buffer := List.replicate 62 (aWrite 0)
    coder.op :=
      some { feed := 7, pic := 4, band := 1, issued := false, writes := [aWrite 0, aWrite 64] } }

theorem witness_BandCodedWrites_last :
    finishing.chip.resetHeld = false ∧
      finishing.chip.coder.op =
        some { feed := 7, pic := 4, band := 1, issued := false, writes := [aWrite 0, aWrite 64] } ∧
      finishing.chip.mem.buffer.length + [aWrite 0, aWrite 64].length ≤ 64 ∧
      findPic finishing.chip 7 4 = some (aPicture [aBand, aBand]) ∧
      1 + 1 = (aPicture [aBand, aBand]).bands.length ∧
      (∀ q : Fin 4, ready finishing.chip.paths[q] = false) ∧
      finishing.chip.feeds[7].cur = .present 4 ∧
      finishing.chip.rings[7].units.find? (fun x => !x.complete) = some aReserved := by decide
/-- The least M of the format, a picture as it begins. -/
theorem witness_UnitNeverExceedsM_steps :
    minUnit (withChip picturing).chip.feeds[7].cfg.format ≤
        (withChip picturing).chip.feeds[7].cfg.maxUnit ∧
      (newPicture (withChip picturing).chip 7 1 0).coded <
        (newPicture (withChip picturing).chip 7 1 0).bands.length ∧
      (newPicture (withChip picturing).chip 7 1 0).bytes +
          ((newPicture (withChip picturing).chip 7 1 0).bands.length -
            (newPicture (withChip picturing).chip 7 1 0).coded) *
            flatBytes (withChip picturing).chip.feeds[7].cfg.format ≤
        (withChip picturing).chip.feeds[7].cfg.maxUnit := by decide
/-- Feed 7 over a ring of `size` lines with the given records. -/
def ringed (size : Nat) (us : List UnitRec) : Chip :=
  let c := onWin 2 { codedWin with size := size } (withChip picturing).chip
  setRing c 7 { head := 0, units := us, nextSeq := 9, anyCompleted := true }

/-- A ring of 132 lines: empty, with a unit to reclaim, half held, full of a RESERVED record; a ring all
held, with its clip. -/
theorem witness_SearchAvoidsHeld_requests :
    requestRegion (ringed 8448 []) 7 = ({ start := some 0, stepped := 0, pressed := false }, none) ∧
      requestRegion (ringed 8448 [{ aUnit 1 65 with held := 0, live := true }]) 7 =
        ({ start := some 0, stepped := 0, pressed := false }, none) ∧
      requestRegion (ringed 8448 [{ aUnit 1 0 with length := 66 }]) 7 =
        ({ start := some 66, stepped := 1, pressed := true }, none) ∧
      requestRegion (ringed 8448 [{ aReserved with start := 0, reserved := 132 }]) 7 =
        ({ start := none, stepped := 0, pressed := false }, none) ∧
      requestRegion (ringed 8448 [{ aUnit 1 0 with length := 132 }]) 7 =
        ({ start := none, stepped := 1, pressed := true }, none) ∧
      lapseChoice (ringed 8448 [{ aUnit 1 0 with length := 132 }]) 7 = none ∧
      lapseChoice (withChip (logged .sent)).chip 7 = some (aClip .sent) := by decide
/-- The RESERVED record last, and with a later one behind it. -/
theorem witness_CompletionTakesSequence_places :
    (setRing State.reset.chip 7 reservedRing).rings[7].units = [aUnit 1 0] ++ aReserved :: [] ∧
      (∃ x ∈ [{ aReserved with start := 70 }], x.complete = false) := by decide

/-- Slots 0 and 13 on from block 31, then 1 and 14 on; a firing queue with one block and with two. -/
theorem witness_AudioWrites_slots :
    lineOffset audioWin (lineAddr 0x30000000) / 96 = ((31 : Count32).toNat + 1) % 16 ∧
      lineOffset audioWin (lineAddr 0x30000000) / 96 = ((18 : Count32).toNat + 14) % 16 ∧
      (mixing (.gathering 31) 95).chip.mixer.block = .gathering 31 ∧
      (mixing (.fired 31) 0).chip.mixer.block = .fired 31 ∧
      (mixing (.fired 18) 0).chip.mixer.block = .fired 18 ∧
      lineOffset audioWin (lineAddr 0x30000000) / 96 = (16 : Count32).toNat % 16 ∧
      (lineOffset audioWin (lineAddr 0x30000000) / 96 + 1) % 16 = (17 : Count32).toNat % 16 ∧
      State.reset.chip.mixer.running = false ∧
      2 ≤ [aBlock, aBlock].length ∧ [aBlock].length < 2 := by decide
/-- A frame with eight and with nine blocks; no leg and four legs uplinked without a frame. -/
theorem witness_MixEnds_frames :
    (mixed 39).chip.mixer.mix.map (fun m => m.writes.length) = some 25 ∧
      (∀ p : Fin 4, ready (mixed 39).chip.paths[p] = false) ∧ aBlock.last = false ∧
      eight.filter (fun l => State.reset.chip.mixer.legs[l].uplink) = [] ∧
      eight.filter (fun l => (uplinked 4).chip.mixer.legs[l].uplink) ≠ [] ∧
      (uplinked 4).chip.mixer.frame = none ∧ 8 + 1 < 10 ∧ 10 ≤ 9 + 1 ∧
      (mixLegs aBlock Steps.off).length = 8 := by decide

/-- What an owner answered: completed, refused or begun. -/
def answered : Verdict → Nat
  | .completed _ _ _ => 0
  | .refused _ => 1
  | .begun _ _ => 2

/-- Line 7 enabled with an action, an argument, the feeds {7} and a pending level. -/
def acting (act : LineAction) (arg : Byte) (pulse level mark : Bool) (c : Chip) : Chip :=
  setLine c 7
    { c.tally.lines[7] with
      enabled := true, pulse := pulse, action := act, argument := arg, feeds := 0x80,
      pendingLevel := some level, debounce := some 10, markOpen := mark }

/-- MARK IN on a RUNNING and on an IDLE feed; MARK OUT with a clip and without; PROGRAM under HOME and
under LOCAL; a scene filled while RUNNING and STOPPED, and an empty one. -/
theorem witness_SignalLines_actions :
    answered (markIn 0x80 0 (acting .markIn 0 true true false (withChip picturing).chip)) = 0 ∧
      answered (markIn 0x80 0 (acting .mark 0 true true false State.reset.chip)) = 1 ∧
      (acting .mark 0 true true true marked.chip).tally.stack = 65535 :: [] ∧
      (acting .mark 0 false false false State.reset.chip).tally.stack = [] ∧
      (acting .program 7 false true false (under .home).chip).tally.authority = .home ∧
      (acting .preview 7 false false false (under .van).chip).tally.lines[7].argument.toNat =
        (7 : Fin 8).val ∧
      (acting .signalHome 255 true true false State.reset.chip).tally.lines[7].pendingLevel =
        some true ∧
      answered (recallScene 7 false (acting .scene 7 true true false (sceneReady true false).chip)) =
        2 ∧
      answered (recallScene 7 false (acting .scene 7 true true false (sceneReady false false).chip)) =
        0 ∧
      answered (recallScene 6 false (acting .scene 6 true true false (sceneReady true false).chip)) =
        1 ∧
      State.reset.chip.tally.feeds[7].state = .off := by decide
/-- A stack of 8; a clip with a unit completed since it opened, and a bare one (full log: `witness_fullLog`). -/
theorem witness_MarkCommands_limits :
    feedsOf 0 = [] ∧ State.reset.chip.feeds[7].state ≠ .running ∧
      8 ≤ (List.replicate 8 1).length ∧
      nonBare (closedClip marked.chip .markOut
        { aClip .opened with feeds := [{ feed := 7, inSeq := some 2, outSeq := none }] }) ≠ [] ∧
      nonBare (closedClip marked.chip .markOut
        { aClip .opened with feeds := [{ feed := 7, inSeq := some 5, outSeq := none }] }) = [] := by
  decide
/-- A SENDING clip alone, a CLOSED one behind it, and a protected one. -/
theorem witness_ClipReleaseDropsHolds_lapse :
    takes (.clipRelease aHead 65535) (withChip (logged .sending)) = true ∧
      inTrim (withChip (logged .sending)).chip 65535 = false ∧ (aClip .sending).guarded = false ∧
      (aClip .sending).state = .sending ∧ ((aClip .sending).feeds.map (·.feed)).Nodup ∧
      holdsUnitOf (withChip (logged .sending)).chip (aClip .sending) 7 = true ∧
      lapseChoice (withChip (logged .sending)).chip 7 = some (aClip .sending) ∧
      lapseChoice { (withChip (logged .sending)).chip with
        clips.list := [aClip .sending, { aClip .closed with number := 9 }] } 7 =
          some { aClip .closed with number := 9 } ∧
      lapseChoice { (withChip (logged .sending)).chip with
        clips.list := [{ aClip .sending with guarded := true }] } 7 = none ∧
      inTrim (trimming []).chip 65535 = true := by decide
/-- A clip in the trim session, one in another state, one whose units have no record; the last byte handed
and one byte before it. -/
theorem witness_ClipSendQueues_cases :
    takes (.clipSend aHead 65535) (trimming []) = true ∧ inTrim (trimming []).chip 65535 = true ∧
      findClip (trimming []).chip 65535 = some (aClip .closed) ∧
      findClip (withChip (logged .opened)).chip 65535 = some (aClip .opened) ∧
      ((clipUnits (setRing (withChip (logged .closed)).chip 7
        { head := 0, units := [], nextSeq := 5, anyCompleted := true })
          (aClip .closed)).map (·.length)).sum = 0 ∧
      ((aClip .closed).feeds.map (·.feed.val)).Pairwise (· < ·) ∧
      findClip { (withChip (logged .sending)).chip with
        clips.list := [{ aClip .sending with progress := some (64, 0) }] } 65535 =
          some { aClip .sending with progress := some (64, 0) } ∧
      0 + 63 < 64 ∧ 64 ≤ 0 + 64 ∧ (aClip .sending).progress = none := by decide
/-- A clip number the log lacks; a clip to be trimmed in no state for it; a changed point; saved points
between the bounds 1 and 4, one before and one past them. -/
theorem witness_TrimCommands_cases :
    findClip (withChip (logged .sent)).chip 0 = none ∧
      (aClip .opened).state ≠ .closed ∧ (aClip .opened).state ≠ .sent ∧
      (withChip (logged .opened)).chip.clips.trim = none ∧
      nonBare (aClip .closed) ≠ [] ∧ (trimming []).chip.sched.notify = true ∧
      takes (.trimEnd aHead) (trimming []) = true ∧
      takes (.trimAbandon aHead) State.reset = true ∧ State.reset.chip.clips.trim = none ∧
      oldestSeq (trimming []).chip 7 = some 1 ∧ newestSeq (trimming []).chip 7 = some 4 ∧
      (∀ l : List ClipFeed, l = [{ feed := 7, inSeq := some 1, outSeq := some 4 }] →
        l.find? (fun z => z.feed == 7) = some { feed := 7, inSeq := some 1, outSeq := some 4 }) ∧
      seqBefore 1 1 = false ∧ seqBefore 4 1 = false ∧ seqBefore 4 4 = false ∧
      seqBefore 0 1 = true ∧ seqBefore 4 5 = true ∧ seqBefore 4 1 = false := by
  refine ⟨by decide, by decide, by decide, by decide, by decide, by decide, by decide, by decide,
    by decide, by decide, by decide, ?_, by decide, by decide, by decide, by decide, by decide,
    by decide⟩
  rintro l rfl
  decide
/-- IN one past the out point, OUT one before the in point; two clamps alike in amount. -/
theorem witness_TrimMovePoints_cases :
    seqBefore (2 + 2) 1 = false ∧ seqBefore 3 (2 + 2) = true ∧ seqBefore 3 1 = false ∧
      seqBefore (3 + (-2)) 2 = true ∧ seqBefore 4 2 = false ∧
      (∀ x ∈ ([{ feed := 2, amount := 9, low := true }, { feed := 7, amount := 9, low := false }] :
        List Clamp), x = { feed := 2, amount := 9, low := true } ∨ x.amount < 9 ∨
          (x.amount = 9 ∧ (2 : Fin 8) < x.feed)) ∧
      (([{ feed := 2, amount := 9, low := true }, { feed := 7, amount := 9, low := false }] :
        List Clamp).map (·.feed)).Nodup ∧
      points { feed := 7, inSeq := none, outSeq := none } = none := by decide

/-- A fragment of a live unit of feed 7, and one of a clip's unit. -/
def liveFragment (q : Count32) : Fragment := { aFragment with cls := .live, item := .liveUnit 7 q }

/-- The return list with 15 entries and with 16; a unit whose record stands, and one whose record is gone. -/
theorem witness_SilenceAndHoldLimit_returns :
    findUnit (withChip (logged .closed)).chip 7 0 = none ∧
      (findUnit (withChip (logged .closed)).chip 7 4).isSome = true ∧
      (liveFragment 4).item = .liveUnit 7 4 ∧ aFragment.item = .message 2 9 ∧
      (List.replicate 15 (returned aFragment)).length < 16 ∧
      List.replicate 16 (returned aFragment) =
        returned aFragment :: List.replicate 15 (returned aFragment) ∧
      16 ≤ (List.replicate 16 (returned aFragment)).length ∧
      (linked .quiet [aFragment] []).chip.sched.returns.length +
        (linked .quiet [aFragment] []).chip.paths[3].queue.length ≤ 16 := by decide
/-- Paths 0, 1 and 3 UP with credits; paths 1 and 3 have the same. -/
def racing : Chip :=
  let up := fun (v : Int) (r : PathRec) =>
    { r with state := .up, level := 2, mtu := 256, credit := v }
  onPath 0 (up 1) (onPath 1 (up 9) (onPath 3 (up 9) (logged .closed State.reset.chip)))

/-- A unit of feed 7 waiting in the LIVE queue, stamped `h`. -/
def waitingUnit (f : Fin 8) (q h : Count32) : LiveItem :=
  { feed := f, seq := q, house := h, length := 4168, addr := 0, cursor := 0 }

theorem witness_LinkTransmits_serves :
    bestReady racing = some 1 ∧ bestReady State.reset.chip = none ∧
      min (racing.paths[1].mtu - 28) 300 = 228 ∧ racing.sched.returns = [] ∧
      racing.sched.audio = [] ∧ racing.sched.label = [] ∧
      earliestLive (ageLive 1 { racing with sched.live := [waitingUnit 7 4 0] }) =
        some (waitingUnit 7 4 0) ∧
      earliestLive (ageLive 0 racing) = none ∧ racing.sched.clipQ = [] ∧
      ({ clip := 65535, units := clipUnits racing (aClip .closed) } : ClipItem).units ≠ [] := by
  decide
/-- The leads 1, 8, 0x10, 0x1F, 0x20, 0x2F and 0, 9, 0x0F, 0x30; a good TRAIN word and one cut short. -/
theorem witness_DiscardedAndFailingUnits_bytes :
    unitExtent (linkBytes (.word .train)) = 12 ∧
      classifyUnit 3 (withChip (up3 2)).chip.paths[3] (linkBytes (.word .train)) = .train 3 ∧
      (linkBytes (.word .train)).length = 12 ∧
      be16At (linkBytes (.word .train)) 10 = wordCheck (linkBytes (.word .train)) ∧
      ((linkBytes (.word .train)).take 11).length < 12 ∧
      (0x1F : Byte).toNat < 0x20 ∧ 0x20 ≤ (0x20 : Byte).toNat ∧ (0x2F : Byte).toNat ≤ 0x2F ∧
      (0 : Byte).toNat = 0 ∧ (8 < (9 : Byte).toNat ∧ (0x0F : Byte).toNat < 0x10) ∧
      0x2F < (0x30 : Byte).toNat ∧
      dataLimit (withChip (up3 2)).chip.paths[3] = 1472 ∧
      dataLimit (withChip (up3 2)).chip.paths[3] < (List.replicate 1473 (0 : Byte)).length := by
  decide +kernel
/-- Number 40 is the highest: 9 and 8 lie at the window's end and past it; 40 is refused before and after
41 is taken. -/
theorem witness_FilterTakesOnce_later :
    filterTake
        { session := some 1, highest := 40, taken := 1, lastTally := none, lastRateCap := none } 1 40 =
      none ∧
      filterTake
          { session := some 1, highest := 40, taken := 1, lastTally := none, lastRateCap := none } 1 41 =
        some
          { session := some 1, highest := 41, taken := 3, lastTally := none, lastRateCap := none } ∧
      seqBefore 41 40 = false ∧ seqBefore 40 41 = true ∧ seqBefore 40 9 = false ∧
      ((40 : BitVec 32) - 9).toNat = 31 ∧ 32 ≤ ((40 : BitVec 32) - 8).toNat := by decide
/-- Path 3 UP at level 2 over a log with one clip, in the states CLIP_REQUEST tells apart; feeds 7 and 8 of a
CALL; a TALLY one behind the last. -/
theorem witness_MessagesDispatched_requests :
    (∀ x ∈ [ClipState.opened, .closed, .sending, .sent, .released, .lapsed],
      findClip (up3 2 (logged x State.reset.chip)) (beNat [0xFF, 0xFF]) = some (aClip x)) ∧
      (up3 2 (logged .closed State.reset.chip)).sched.clipQ.length < 16 ∧
      inTrim (up3 2 (logged .closed State.reset.chip)) 65535 = false ∧
      ((clipUnits (up3 2 (logged .closed State.reset.chip)) (aClip .closed)).map (·.length)).sum ≠
        0 ∧
      inTrim (up3 2 (trimming []).chip) 65535 = true ∧
      16 ≤ (List.replicate 16 ({ clip := 1, units := [] } : ClipItem)).length ∧
      stale (some 1) 0 = true ∧ stale (some 0) 0 = false ∧ 8 ≤ ([8].getD 0 (0 : Byte)).toNat ∧
      (withChip (up3 1)).chip.paths[3].level ≠ 2 ∧
      (filterTake { (withChip (up3 2)).chip.filter with session := some 1, taken := 1 } 1 0) =
        none := by decide

/-- An OPEN clip of feed 7 at a length of 3 and one of 2, on the stack, and an automatic one. -/
def stacked (len : Nat) : Chip :=
  { logged .closed State.reset.chip with
    clips.maxLen := len
    clips.list :=
      [{ aClip .opened with number := 1, feeds := [{ feed := 7, inSeq := some 2, outSeq := none }] },
       { aClip .opened with number := 2, feeds := [{ feed := 7, inSeq := some 3, outSeq := none }] },
       { aClip .opened with
         number := 3, origin := .auto, feeds := [{ feed := 7, inSeq := some 4, outSeq := none }] }]
    tally.stack := [2, 1] }

/-- Max length 4, 3, 2 and 1 over those clips; LIVE units at the age limit and one past it. -/
theorem witness_UplinkCommands_closings :
    (∀ k ∈ (stacked 4).clips.list, reachedMax (stacked 4) (fun _ => true) k = false) ∧
      (stacked 3).tally.stack = [2] ++ 1 :: [] ∧
      ((findClip (stacked 3) 1).map (reachedMax (stacked 3) fun _ => true)) = some true ∧
      ((findClip (stacked 3) 3).map (reachedMax (stacked 3) fun _ => true)) = some false ∧
      ([2] ++ [1] : List Nat).Nodup ∧ ((stacked 3).clips.list.map (·.number)).Nodup ∧
      ((openAuto (stacked 1) 7).map (reachedMax (stacked 1) fun _ => true)) = some true ∧
      ((openAuto (stacked 2) 7).map (reachedMax (stacked 2) fun _ => true)) = some false ∧
      earliestLive { racing with
        sched.live := [waitingUnit 7 4 5, waitingUnit 7 3 5, waitingUnit 2 3 5, waitingUnit 1 3 6] } =
          some (waitingUnit 2 3 5) ∧
      (ageLive 2 { racing with
        timing.count := 26, sched.live := [waitingUnit 7 4 5, waitingUnit 7 3 6] }).sched.live =
          [waitingUnit 7 3 6] ∧
      ([waitingUnit 7 4 5, waitingUnit 7 3 6].map fun i => (i.feed, i.seq)).Nodup ∧
      32 ≤ (List.replicate 32 ({ kind := 2, number := 9, data := [9], cursor := 0 } :
        LabelItem)).length := by decide
/-- A RUNNING LIVE feed, and UP paths at either level with a host cap, DEGRADED and not. -/
theorem witness_AllocationReplaces_shares :
    (withChip picturing).chip.feeds[7].state = .running ∧
      (withChip picturing).chip.feeds[7].cfg.mode = .live ∧
      (withChip (up3 1)).chip.paths[3].state = .up ∧
      pathCap (withChip (up3 1)).chip.paths[3] = 400000 ∧
      pathCap { (withChip (up3 2)).chip.paths[3] with
        reported := 8001, hostCap := 9000, degraded := true } = 4000 ∧
      (withChip (up3 1)).chip.sched.rateCap = none := by decide

/-! ### Boundaries of further clauses -/

/-- Feed 7's list holds unit 3350 on, newest 3449: a saved span 3000..3249 comes back as 3350..3350, within the
list (R148). -/
theorem test_abandon_stays_in_list :
    restoreFeed
        (setRing State.reset.chip 7
          { head := 0, units := [aUnit 3350 0], nextSeq := 3450, anyCompleted := true })
        [{ feed := 7, inSeq := some 3000, outSeq := some 3249 }]
        { feed := 7, inSeq := some 3350, outSeq := some 3400 } =
      ({ feed := 7, inSeq := some 3350, outSeq := some 3350 },
        [{ feed := 7, amount := 350, low := true }, { feed := 7, amount := 101, low := true }]) := by
  decide

/-- Both saved points one before the oldest sequence, the newest at the oldest. -/
theorem witness_TrimCommands_before :
    seqBefore 3349 3350 = true ∧ seqBefore 3350 3349 = false ∧ seqBefore 3350 3350 = false ∧
      ([{ feed := 7, inSeq := some 3349, outSeq := some 3349 }] : List ClipFeed).find?
        (fun z => z.feed == 7) = some { feed := 7, inSeq := some 3349, outSeq := some 3349 } := by
  decide

/-- The table with feed 7 in a state, the mixer running or not. -/
def tabled (x : FeedState) (run : Bool) : Chip :=
  { feed7 x (windowed State.reset.chip) with mixer.running := run }

/-- The refusals of the window commands at their bounds, and a CODED window replaced by its feed's. -/
theorem witness_WindowTable_refusals :
    takes (.windowSet aHead 24 6 8 0 0) State.reset = true ∧ 23 < (24 : Byte).toNat ∧
      5 < (6 : Byte).toNat ∧ 7 < (8 : Byte).toNat ∧ entryOf 23 = some 23 ∧
      windowArgsOk (tabled .idle false) 5 { codedWin with feed := some 6 } = false ∧
      windowArgsOk (tabled .running false) 2 codedWin = true ∧
      windowState (tabled .running false) (some codedWin) (some codedWin) = some .busy ∧
      windowState (tabled .idle true) none (some mixWin) = some .busy ∧
      windowState (withChip (logged .sent)).chip (some codedWin) none = some .held ∧
      (tabled .idle false).mem.windows[(2 : Fin 24)] = some codedWin ∧
      windowState (tabled .idle false) (some codedWin) (some codedWin) = none ∧
      changeEntry 2 (some codedWin) (tabled .idle false) =
        discardList 7 { tabled .idle false with
          mem.windows := (tabled .idle false).mem.windows.set (2 : Fin 24) (some codedWin) } := by
  decide

/-- An overfull ring of 64 lines with all of them in use, and so many reports staged. -/
def overfilled (n : Nat) : State :=
  withChip fun c => { windowed c with
    cmd.producer := 64, cmd.overfull := true, cmd.lost := 9
    cmd.staging := List.replicate n (aWrite 0) }

/-- One line returned with room for one report, no line returned, and a full staging list. -/
theorem witness_ReportsTakenAndFence_overfull :
    takes (.reportsTaken aHead 1) (overfilled 7) = true ∧
      reportWindow (overfilled 7).chip = some reportWin ∧ (overfilled 7).chip.cmd.overfull = true ∧
      ((1 : Count32) - (overfilled 7).chip.cmd.consumer).toNat ≤
        ((overfilled 7).chip.cmd.producer - (overfilled 7).chip.cmd.consumer).toNat ∧
      ((overfilled 7).chip.cmd.producer - 1).toNat < reportWin.size / 64 ∧
      (overfilled 7).chip.cmd.staging.length < 8 ∧
      reportWin.size / 64 ≤ ((overfilled 7).chip.cmd.producer - 0).toNat ∧
      8 ≤ (overfilled 8).chip.cmd.staging.length := by decide

/-- An in-flight entry on path 3, and FENCEs that wait for the entries named. -/
def begunOn (n : Nat) (o : Object) (waits : List Nat) : InFlight :=
  { ident := n, kind := 0x70, tag := 9, always := true, object := o, waits := waits }

/-- Entries on path 3 and feed 2, and a FENCE for each, and one for both. -/
def awaited : List InFlight :=
  [begunOn 0 (.path 3) [], begunOn 1 (.feed 2) [], begunOn 2 .fence [0], begunOn 3 .fence [0, 1]]

theorem witness_ReportsTakenAndFence_waits :
    awaited.find? (fun e => e.object == .path 3) = some (begunOn 0 (.path 3) []) ∧
      (awaited.map (·.ident)).Nodup ∧ awaited.find? (fun e => e.object == .path 2) = none ∧
      (awaited.take 2).all (fun x => x.object != .fence) = true ∧
      (awaited.take 3).all (fun x => x.object != .fence || x == begunOn 2 .fence [0]) = true ∧
      (begunOn 2 .fence [0]).waits.all (fun i => i == (begunOn 0 (.path 3) []).ident) = true ∧
      (begunOn 3 .fence [0, 1]).waits.any (fun i =>
        i != 0 && awaited.all fun z => z.object != .fence || z.ident != i) = true ∧
      (finishObject (.path 3) [3]
        { State.reset.chip with cmd.inflight := awaited }).cmd.inflight.map (·.ident) = [1, 3] := by
  decide

/-- A PATH RETRAIN in flight on path 3 when the path enters UP, with no FENCE and alone on its path. -/
theorem witness_PathStateChanges_retrain :
    (awaited.take 2).find? (fun x => x.object == .path 3) = some (begunOn 0 (.path 3) []) ∧
      (∀ x ∈ awaited.take 2, x.object = .path 3 → x.ident = (begunOn 0 (.path 3) []).ident) ∧
      (∀ x ∈ awaited.take 2, x.object ≠ .fence) ∧ (begunOn 0 (.path 3) []).always = true ∧
      (inState .up 0).chip.paths[3].state = .up ∧ (inState .failed 0).chip.paths[3].state = .failed ∧
      (inState .disabled 0).chip.paths[3].state = .disabled ∧
      (inState .training 0).chip.paths[3].state = .training := by decide

/-- A completion with nothing else to do, with the recorder on and off. -/
theorem witness_CompletionTakesSequence_unit :
    (setRing State.reset.chip 7 reservedRing).rings[7].units.find? (fun x => !x.complete) =
        some aReserved ∧
      (∀ k ∈ (setRing State.reset.chip 7 reservedRing).clips.list,
        reachedMax (setRing State.reset.chip 7 reservedRing) (fun g => g == 7) k = false) ∧
      (setRing State.reset.chip 7 reservedRing).clips.autoFailed[7] = false ∧
      (setRing State.reset.chip 7 reservedRing).feeds[7].cfg.recorder = false ∧
      (onFeed 7 (fun r => { r with cfg := { r.cfg with recorder := true } })
        (setRing State.reset.chip 7 reservedRing)).feeds[7].cfg.recorder = true := by decide

/-- A band of feed 7 in a state, with so many lines written. -/
def gathered (x : BandState) (n : Nat) : Band :=
  { state := x, hasBuffer := 0 < n, lines := (List.range n).map fun i => (i, zeroLine), closeEvent := 0 }

/-- Line 359 of a band that lacks it alone. -/
theorem witness_CaptureWrites_complete :
    bandLinesOf .sd ≤ (storeLine (gathered .opened 359).lines 359 zeroLine 1).length := by
  decide +kernel

/-- Lines of bands 2 and 3 of slot 1 when the base is 0 and not closed: two past the base and three, in a
RUNNING and a STOPPING feed, with an operation of the coder under way. -/
theorem witness_CaptureWrites_forced :
    lineOffset capWin (lineAddr 0x101A0400) % slotLinesOf .sd / bandLinesOf .sd = 2 ∧
      lineOffset capWin (lineAddr 0x101A5E00) % slotLinesOf .sd / bandLinesOf .sd = 3 ∧
      lineOffset capWin (lineAddr 0x101A5E00) / slotLinesOf .sd = 1 ∧
      lineOffset capWin (lineAddr 0x101A5E00) % slotLinesOf .sd % bandLinesOf .sd = 0 ∧
      (shooting .stopping 1 (.present 4)
        [aBand, gathered .short 0, gathered .waiting 0, gathered .waiting 0] 1).chip.feeds[7].cur =
          .present 4 ∧
      findPic (shooting .stopping 1 (.present 4)
          [aBand, gathered .short 0, gathered .waiting 0, gathered .waiting 0] 1).chip 7 4 =
        some (aPicture [aBand, gathered .short 0, gathered .waiting 0, gathered .waiting 0]) ∧
      (aPicture [aBand]).base + 2 ≤ 2 ∧ closedState aBand.state = false ∧
      (gathered .waiting 0).state = .waiting ∧ (gathered .waiting 0).lines = [] ∧
      coding.chip.coder.op.isSome = true ∧
      (List.range 4).map (forcedBy 0 2) = [true, false, false, false] ∧
      (List.range 4).map (forcedBy 0 3) = [true, true, true, false] := by decide

/-- State KEEP with call CLEAR and with KEEP under HOME, and each setting one past its values. -/
theorem witness_TallyCommands_keep :
    takes (.tallySet aHead 7 3 0) (under .home) = true ∧ takes (.tallySet aHead 7 3 2) (under .home) = true ∧
      7 < (8 : Byte).toNat ∧ 3 < (4 : Byte).toNat ∧ 2 < (3 : Byte).toNat := by decide

/-- Every row of R66's table: a ceiling at the bits of a coding, and an SD band of zero samples whose recode
at q + 2 is shorter. -/
theorem witness_LiveBandWithinCeiling_rows :
    (∀ k : Coding, codingBits k ≤ codingBits k ∧ 0 < codingBits k) ∧
      codingBits (codeAt .sd [] (min (0 + 2) 7) true) < codingBits (codeAt .sd [] 0 false) ∧
      (withChip picturing).chip.feeds[7].cfg.mode = .live ∧ aBand.hasBuffer = true ∧
      { aPicture [] with budget := some (budgetFor .sd 500 60) }.budget =
        some (budgetFor .sd 500 60) := by
  refine ⟨fun k => ⟨le_refl _, ?_⟩, by decide +kernel, by decide, by decide, by decide⟩
  simp only [codingBits, codingBytes]
  omega

/-- A state at every bound at once: full queues, buffers and lists, two clips on the mark stack, path 3 UP. -/
def atBounds : State :=
  let c := up3 2 (stacked 3)
  { State.reset with
    intake := List.replicate 32 zeroLine
    chip := { onPath 3 (fun r => { r with queue := List.replicate 4 aFragment }) c with
      mem.buffer := List.replicate 64 (aWrite 0)
      cmd.staging := List.replicate 8 (aWrite 0)
      mixer.fireQ := List.replicate 2 aBlock
      sched.audio := List.replicate 8
        { legs := [], first := 0, house := 0, gap := false, data := [0], cursor := 0 }
      sched.label := List.replicate 32 { kind := 2, number := 9, data := [9], cursor := 0 }
      sched.clipQ := List.replicate 16 { clip := 9, units := [] }
      sched.returns := List.replicate 16 (returned aFragment)
      tally.upCount := 1 } }

theorem witness_StepKeepsInvariant_full :
    atBounds.Inv ∧ (after .downstreamGrant atBounds).isSome = true := by
  refine ⟨⟨by decide, by decide, ⟨by decide, by decide, by decide,
    ⟨by decide, by decide, by decide, by decide⟩, ⟨by decide, by decide⟩,
    ⟨by decide, by decide, by decide, by decide, by decide, by decide, by decide⟩⟩⟩, by decide⟩

/-- A unit fragment of 110 bytes over three memory lines, the second of them covered by a pending own write. -/
theorem witness_LinkTransmits_reads :
    fragmentLines { liveFragment 4 with addr := 0x20000040, offset := 60, length := 110 } =
        [0x20000040, 0x20000080, 0x200000C0] ∧
      covered [{ aWrite 0x20000080 with mask := fullMask }] 0x20000040 = false ∧
      covered [{ aWrite 0x20000080 with mask := fullMask }] 0x20000080 = true ∧
      (linked .quiet [liveFragment 4] []).chip.paths[3].queue = liveFragment 4 :: [] ∧
      0 < (liveFragment 4).length := by decide

/-- What a going-down returns, of a path that is UP with a fragment queued and of one that is not. -/
theorem witness_PathStateChanges_count :
    returnCount 3 (linked .quiet [aFragment] []).chip = 1 ∧
      (linked .quiet [aFragment] []).chip.paths[3].state = .up ∧
      (inState .training 0).chip.paths[3].state ≠ .up := by decide

/-- A dropped write of 33 bytes to line 0x32000FC0 with room in the report ring: its GUARD names entry 23,
REPORT, no feed, 33 bytes and the address, at bytes 16 to 27 of the report. -/
theorem test_guard_report :
    (after (.hostWrite 0x32000FC0 zeroLine 0x8000000F0FFFFFFF) (withChip windowed)).map (fun t =>
        t.chip.mem.buffer.map fun w => ((List.range 12).map fun i => lineByte w.data (16 + i))) =
      some [[23, 5, 0xFF, 33, 0xC0, 0x0F, 0x00, 0x32, 0, 0, 0, 0]] := by decide

/-- Under ALTERNATING: the last grant went to the own side with a line waiting there, or it went to the host
and no own transaction waits. -/
theorem witness_GrantServesHost_alternating :
    (withChip fun c => { c with
        mem.alternating := true, mem.hostQ := [.read 0], mem.buffer := [aWrite 0] }).chip.mem.hostQ =
      .read 0 :: [] ∧
      (withChip fun c => { c with
        mem.alternating := true, mem.buffer := [aWrite 0] }).chip.mem.lastHost = false ∧
      (withChip fun c => { c with
        mem.alternating := true, mem.lastHost := true }).chip.mem.buffer = [] ∧
      (withChip fun c => { c with
        mem.alternating := true, mem.lastHost := true }).chip.mem.ownReads = [] ∧
      (after .downstreamGrant (withChip fun c => { c with
        mem.alternating := true, mem.hostQ := [.read 0], mem.buffer := [aWrite 0] })).map
          (fun t => (t.chip.mem.hostQ, t.chip.mem.lastHost)) = some ([], true) := by decide

/-- The last write of a mix and of a coding operation, one place left in the buffer; the mix not issued where
`done` is false. -/
def lastWrite (done : Bool) (staged : List OwnWrite) : State :=
  withChip fun c => { (shooting .running 1 (.present 4) [aBand, aBand] 1).chip with
    mem.buffer := List.replicate 63 (aWrite 0)
    mixer.fireQ := [aBlock]
    mixer.mix := some { legs := [], issued := done, writes := [aWrite 64] }
    cmd := { c.cmd with staging := staged }
    coder.op := some { feed := 7, pic := 4, band := 0, issued := true, writes := [aWrite 64] } }

/-- The last write of a mix; with a mix that has not issued its writes, a staged report and the last write of
an operation with a band to come. -/
theorem witness_OwnWriteAcceptOrder_last :
    (lastWrite true []).chip.resetHeld = false ∧ (lastWrite true []).chip.mem.buffer.length < 64 ∧
      (lastWrite true []).chip.mixer.mix =
        some { legs := [], issued := true, writes := [aWrite 64] } ∧
      (lastWrite true []).chip.mixer.fireQ = aBlock :: [] ∧
      mixerWaiting (lastWrite false []).chip = [] ∧ (lastWrite false []).chip.mixer.mix ≠ none ∧
      (lastWrite false [aWrite 0]).chip.cmd.staging = aWrite 0 :: [] ∧
      (lastWrite false []).chip.cmd.staging = [] ∧
      (lastWrite false []).chip.coder.op =
        some { feed := 7, pic := 4, band := 0, issued := true, writes := [aWrite 64] } ∧
      findPic (lastWrite false []).chip 7 4 = some (aPicture [aBand, aBand]) ∧
      0 + 1 < (aPicture [aBand, aBand]).bands.length := by decide

/-- Reports staged on an overfull ring of 64 lines with `used` of them in use. -/
def overfullWith (used : Count32) (n : Nat) : State :=
  withChip fun c => { windowed c with
    cmd.producer := used, cmd.overfull := true, cmd.lost := 9
    cmd.staging := List.replicate n (aWrite 0) }

/-- A staged report accepted on an overfull ring: with a free line and room, with none, and without a
window. -/
theorem witness_OwnWriteAcceptOrder_overfull :
    (overfullWith 63 8).chip.cmd.staging = aWrite 0 :: List.replicate 7 (aWrite 0) ∧
      mixerWaiting (overfullWith 63 8).chip = [] ∧ (overfullWith 63 8).chip.cmd.overfull = true ∧
      reportWindow (overfullWith 63 8).chip = some reportWin ∧
      occupancy (overfullWith 63 8).chip < ringLines reportWin ∧
      (List.replicate 7 (aWrite 0)).length < 8 ∧
      8 ≤ (List.replicate 8 (aWrite 0)).length ∧
      ringLines reportWin ≤ occupancy (overfullWith 64 8).chip ∧
      reportWindow State.reset.chip = none := by decide

/-- Feed 7's CODED window alone in entry 2. -/
def codedAlone : State := withChip fun c => onWin 2 codedWin c

/-- It is replaced by a CAPTURE window, by the REPORT window and by feed 6's CODED window. -/
theorem witness_WindowTable_replaced :
    codedAlone.chip.mem.windows[(2 : Fin 24)] = some codedWin ∧
      takes (.windowSet aHead 2 5 0xFF 0x32000000 4096) codedAlone = true ∧ entryOf 2 = some 2 ∧
      windowOf 1 7 0x10000000 3317760 = some capWin ∧ windowOf 5 0xFF 0x32000000 4096 = some reportWin ∧
      windowOf 3 6 0x20000000 33344 = some { codedWin with feed := some 6 } ∧
      windowArgsOk codedAlone.chip 2 capWin = true ∧ windowArgsOk codedAlone.chip 2 reportWin = true ∧
      windowArgsOk codedAlone.chip 2 { codedWin with feed := some 6 } = true ∧
      windowState codedAlone.chip (some codedWin) (some capWin) = none ∧
      windowState codedAlone.chip (some codedWin) (some reportWin) = none ∧
      windowState codedAlone.chip (some codedWin) (some { codedWin with feed := some 6 }) = none ∧
      codedFeeds (some codedWin) (some { codedWin with feed := some 6 }) = [7, 6] := by decide

/-- Each refusal of FEED CONFIG, at a bound where it has one. -/
theorem witness_FeedConfigured_refusals :
    takes (.feedConfig aHead { configArgs 4168 with feed := 8 }) State.reset = true ∧
      7 < (8 : Byte).toNat ∧
      inFlight (.feed 7) { State.reset.chip with cmd.inflight := [begunOn 1 (.feed 7) []] } = true ∧
      (tabled .running false).feeds[(7 : Fin 8)].state = .running ∧
      (tabled .stopping false).feeds[(7 : Fin 8)].state = .stopping ∧
      feedConfigOf { configArgs 4168 with recorder := 2 } = none ∧
      feedConfigOf { configArgs 4168 with rateMin := 499 } = none ∧
      feedConfigOf { configArgs 4168 with rateMax := 200001 } = none ∧
      feedConfigOf { configArgs 4168 with slots := 5 } = none ∧
      feedConfigOf { configArgs 4168 with weight := 16 } = none ∧
      windowSize State.reset.chip .capture 7 = none ∧
      (feedConfigOf (configArgs 4168)).map (fun g => (sizesOk g 3317759 33344, sizesOk g 3317760 33343)) =
        some (false, false) ∧
      (feedConfigOf (configArgs 4167)).map (fun g => sizesOk g 3317760 33344) = some false := by decide

/-- A clip log as `logged`, with notify on and so many messages in the LABEL queue. -/
def noticing (x : ClipState) (n : Nat) : State :=
  withChip fun c => { logged x c with
    sched := { c.sched with
      notify := true
      label := List.replicate n { kind := 2, number := 9, data := [9], cursor := 0 } } }

/-- A notice due with one place left and with none, a clip number that no clip has, the trim session on the
clip, and a clip that is OPEN. -/
theorem witness_ClipLabelAndProtection_cases :
    takes (.clipLabel aHead (labelArgs 3 40)) (noticing .sent 31) = true ∧
      (noticing .sent 31).chip.sched.label.length < 32 ∧
      32 ≤ (noticing .sent 32).chip.sched.label.length ∧ (noticing .sent 31).chip.sched.notify = true ∧
      findClip (noticing .sent 31).chip 65535 = some (aClip .sent) ∧
      findClip State.reset.chip 65535 = none ∧
      inTrim { (noticing .closed 0).chip with
        clips.trim := some { clip := 65535, saved := [] } } 65535 =
          true ∧
      takes (.clipProtect aHead 65535) (withChip (logged .opened)) = true ∧
      findClip (withChip (logged .opened)).chip 65535 = some (aClip .opened) := by decide

/-- Half the ring of feed 7 is 16672 bytes, so 260 lines held pass and 261 do not (R88). -/
theorem test_protect_limit :
    (∀ n : Fin 2, mayProtect (withChip fun c => setRing (logged .sent c) 7
      { head := 0, units := [{ aUnit 2 0 with length := 260 + n.val }], nextSeq := 5,
        anyCompleted := true }).chip (aClip .sent) = decide (n.val = 0)) := by decide

end Sys2Proof.Machine
end

section
/-! SUPPORT. What a row of the table can do, said once for every row: `Effect` names the five forms an
effect has, and which of them may write DRAM. -/

namespace Sys2Proof.Machine

/-! ### Settings -/

theorem inputSet_inv {c : Chip} (input fader afv depth : Byte) (h : c.Inv) :
    (inputSet input fader afv depth c).Inv := by
  unfold inputSet
  split
  · split
    · trivial
    · exact h.frame rfl
  · trivial

theorem sendSet_inv {c : Chip} (input leg level : Byte) (h : c.Inv) :
    (sendSet input leg level c).Inv := by
  unfold sendSet
  split
  · split
    · trivial
    · exact h.frame rfl
  · trivial

theorem legSet_inv {c : Chip} (leg master uplink alarm : Byte) (h : c.Inv) :
    (legSet leg master uplink alarm c).Inv := by
  unfold legSet
  split
  · split_ifs
    · trivial
    · trivial
    · exact h.frame rfl
  · trivial

theorem sceneSave_inv {c : Chip} (slot : Byte) (h : c.Inv) : (sceneSave slot c).Inv := by
  unfold sceneSave
  split
  · trivial
  · exact h.frame rfl

theorem overloadClear_inv {c : Chip} (leg : Byte) (h : c.Inv) : (overloadClear leg c).Inv := by
  unfold overloadClear
  split
  · trivial
  · exact h.frame rfl

theorem audioStart_inv {c : Chip} (h : c.Inv) : (audioStart c).Inv := by
  unfold audioStart
  split_ifs
  · trivial
  · trivial
  · exact h.frame rfl

theorem sceneRecall_inv {c : Chip} (slot : Byte) (h : c.Inv) : (sceneRecall slot c).Inv := by
  unfold sceneRecall
  split
  · trivial
  · exact recallScene_inv slot true h

theorem signalLineSet_inv {c : Chip} (a : SignalLineArgs) (h : c.Inv) : (signalLineSet a c).Inv := by
  unfold signalLineSet
  split
  · split
    · exact setLine_inv _ _ h
    · trivial
  · trivial

theorem callExpires_inv {c : Chip} (f : Fin 8) (h : c.Inv) : (callExpires f c).Inv := by
  unfold callExpires
  split
  · exact setTallyFeed_inv _ _ h
  · exact h

theorem markOutServed_inv {c : Chip} (a : CmdHead) (h : c.Inv) :
    (served (fun c => conclude 0x41 a c (markOut c)) c).Inv :=
  served_inv (concluded_inv fun _ => markOut_inv) c h

theorem allocationExpires_inv {c : Chip} (h : c.Inv) : (allocationExpires c).Inv :=
  allocate_inv (h.frame rfl)

/-! ### What a path receives -/

theorem noticeReceived_inv {c : Chip} (p : Fin 4) (h : c.Inv) : (noticeReceived p c).Inv :=
  countError_inv p (heard_inv p h)

theorem tallyReceived_inv {c : Chip} (p : Fin 4) (session number : BitVec 32) (body : List Byte)
    (h : c.Inv) : (tallyReceived p session number body c).Inv :=
  messageReceived_inv p _ _ _ _ (fun _ => takeTally_inv p _ _) h

theorem callReceived_inv {c : Chip} (p : Fin 4) (session number : BitVec 32) (body : List Byte)
    (h : c.Inv) : (callReceived p session number body c).Inv :=
  messageReceived_inv p _ _ _ _ (fun _ => homeCall_inv p _ _) h

theorem requestReceived_inv {c : Chip} (p : Fin 4) (session number : BitVec 32) (body : List Byte)
    (h : c.Inv) : (requestReceived p session number body c).Inv :=
  messageReceived_inv p _ _ _ _ (fun _ => homeRequest_inv _) h

theorem rateCapReceived_inv {c : Chip} (p : Fin 4) (session number : BitVec 32) (body : List Byte)
    (h : c.Inv) : (rateCapReceived p session number body c).Inv :=
  messageReceived_inv p _ _ _ _ (fun _ => takeRateCap_inv p _ _) h

theorem signalReceived_inv {c : Chip} (p : Fin 4) (session number : BitVec 32) (body : List Byte)
    (h : c.Inv) : (signalReceived p session number body c).Inv :=
  messageReceived_inv p _ _ _ _ (fun _ => askReport_inv _ _) h

theorem unknownReceived_inv {c : Chip} (p : Fin 4) (body : List Byte) (h : c.Inv) :
    (unknownReceived p body c).Inv := messageReceived_inv p _ _ _ _ (fun _ h => h) h

/-! ### The forms of an effect -/

/-- What carrying out row `i` may make of a state: the part changed alone; a command taken; the intake queue
emptied; a host write; a grant of the downstream port. In the first three the part keeps its bounds. -/
inductive Effect (i : Instr) (s : State) : State → Prop
  | part (d : Chip) (keeps : s.chip.Inv → d.Inv) : Effect i s { s with chip := d }
  | taking (d : Chip) (keeps : s.chip.Inv → d.Inv) : Effect i s (s.taken d)
  | emptied (d : Chip) (keeps : s.chip.Inv → d.Inv) : Effect i s { s with intake := [], chip := d }
  | write (a : BitVec 36) (l : Line) (m : Mask) : Effect i s (hostWrite a l m s)
  | grant (e : i = .downstreamGrant) : Effect i s (downstreamGrant s)

theorem command_effect {i : Instr} {s t : State} {k : Chip → Chip}
    (hk : ∀ c : Chip, c.Inv → (k c).Inv) (e : command i s k = .next t) : Effect i s t := by
  rcases command_cases e with ⟨-, rfl⟩ | ⟨-, rfl⟩
  · exact .taking _ (hk _)
  · exact .part t.chip id

theorem event_effect {i : Instr} {s t : State} {k : Chip → Chip}
    (hk : ∀ c : Chip, c.Inv → (k c).Inv) (e : event s k = .next t) : Effect i s t := by
  rcases event_cases e with ⟨-, rfl⟩ | ⟨-, rfl⟩
  · exact .part _ (hk _)
  · exact .part t.chip id

theorem conclude_effect {i : Instr} {s t : State} {k : BitVec 16} {a : CmdHead} {v : Chip → Verdict}
    (hv : ∀ c : Chip, c.Inv → (v c).Inv) (e : command i s (fun c => conclude k a c (v c)) = .next t) :
    Effect i s t := command_effect (concluded_inv hv) e

theorem served_effect {i : Instr} {s t : State} {k : Chip → Chip}
    (hk : ∀ c : Chip, c.Inv → (k c).Inv) (e : event s (served k) = .next t) : Effect i s t :=
  event_effect (served_inv hk) e

theorem signalLineChange_effect (n : Fin 8) (high : Bool) {s t : State}
    (e : execSignalLineChange n high s = .next t) : Effect (.signalLineChange n high) s t := by
  have pin : s.chip.Inv → (setPin n high s.chip).Inv := fun h => h.frame rfl
  rcases event_cases e with ⟨-, rfl⟩ | ⟨-, rfl⟩
  · exact .part _ fun h => lineChanges_inv n high (pin h)
  · exact .part _ pin

theorem restart_effect (a : CmdHead) {s t : State} (e : execRestart a s = .next t) :
    Effect (.restart a) s t := by
  unfold execRestart at e
  split at e
  · cases e
    exact .emptied _ (restart_inv a)
  · cases e
    exact .part s.chip id

/-- Every row's effect has one of the five forms, and a grant is DOWNSTREAM_GRANT's. -/
theorem exec_effect {i : Instr} {s t : State} (e : exec i s = .next t) : Effect i s t := by
  cases i with
  | hostWrite a l m => cases e; exact .write a l m
  | hostRead a => cases e; exact .part _ (hostRead_inv a)
  | ownWriteAccept => exact served_effect (fun _ => ownWriteAccept_inv) e
  | downstreamGrant => cases e; exact .grant rfl
  | unknownKindCommand _ _ =>
    exact conclude_effect (v := fun _ => .refused .badKind) (fun _ _ => trivial) e
  | windowSet => exact conclude_effect (fun _ => windowSet_inv _ _ _ _ _) e
  | windowClear => exact conclude_effect (fun _ => windowClear_inv _) e
  | feedConfig => exact conclude_effect (fun _ => feedConfig_inv _) e
  | feedStart => exact conclude_effect (fun _ => feedStart_inv _) e
  | feedStop => exact conclude_effect (fun _ => feedStop_inv _) e
  | timecodeSet => exact conclude_effect (fun _ => timecodeSet_inv _ _) e
  | audioStart => exact conclude_effect (fun _ => audioStart_inv) e
  | audioStop => exact conclude_effect (fun _ => audioStop_inv) e
  | inputSet => exact conclude_effect (fun _ => inputSet_inv _ _ _ _) e
  | sendSet => exact conclude_effect (fun _ => sendSet_inv _ _ _) e
  | legSet => exact conclude_effect (fun _ => legSet_inv _ _ _ _) e
  | sceneSave => exact conclude_effect (fun _ => sceneSave_inv _) e
  | sceneRecall => exact conclude_effect (fun _ => sceneRecall_inv _) e
  | overloadClear => exact conclude_effect (fun _ => overloadClear_inv _) e
  | tallySet => exact conclude_effect (fun _ => tallySet_inv _ _ _) e
  | tallyAuthority => exact conclude_effect (fun _ => tallyAuthority_inv _) e
  | signalLineSet => exact conclude_effect (fun _ => signalLineSet_inv _) e
  | markIn => exact conclude_effect (fun _ => markIn_inv _ _) e
  | markOut => exact command_effect (fun _ => markOutServed_inv _) e
  | clipLabel => exact conclude_effect (fun _ => clipLabel_inv _) e
  | clipProtect => exact conclude_effect (fun _ => clipProtect_inv _) e
  | clipUnprotect => exact conclude_effect (fun _ => clipUnprotect_inv _) e
  | clipRelease => exact conclude_effect (fun _ => clipRelease_inv _) e
  | clipSend => exact conclude_effect (fun _ => clipSend_inv _) e
  | trimBegin => exact conclude_effect (fun _ => trimBegin_inv _) e
  | trimMove => exact conclude_effect (fun _ => trimMove_inv _ _) e
  | trimEnd => exact conclude_effect (fun _ => trimEnd_inv) e
  | trimAbandon => exact conclude_effect (fun _ => trimAbandon_inv) e
  | pathSet => exact conclude_effect (fun _ => pathSet_inv _ _ _) e
  | pathRetrain => exact conclude_effect (fun _ => pathRetrain_inv _) e
  | uplinkSet => exact conclude_effect (fun _ => uplinkSet_inv _ _ _ _ _) e
  | homeSignal => exact conclude_effect (fun _ => homeSignal_inv _) e
  | reportsTaken => exact conclude_effect (fun _ => reportsTaken_inv _) e
  | attentionSet =>
    exact conclude_effect (v := attentionSet _) (fun _ h => Chip.Inv.frame (h := h) rfl) e
  | attentionClear => exact conclude_effect (fun _ => attentionClear_inv _) e
  | fence => exact conclude_effect (fun _ => fence_inv) e
  | restart a => exact restart_effect a e
  | statusSecondTimer => exact event_effect (fun _ => statusSecond_inv _) e
  | bandCoded => exact served_effect (fun _ => issueCoding_inv) e
  | feedSilenceTimer => exact event_effect (fun _ => silenceEnds_inv _) e
  | framePulse => exact event_effect (fun _ => framePulse_inv _) e
  | watchTimer => exact event_effect (fun _ => watchExpires_inv) e
  | freeRunTimer => exact event_effect (fun _ => freeRunExpires_inv) e
  | mixEnd => exact served_effect (fun _ => issueMix_inv) e
  | callTimer => exact event_effect (fun _ => callExpires_inv _) e
  | blinkTimer => exact event_effect (fun _ => setTallyFeed_inv _ _) e
  | fallbackTimer => exact event_effect (fun _ => fallbackExpires_inv) e
  | signalLineChange n high => exact signalLineChange_effect n high e
  | debounceTimer => exact served_effect (fun _ => debounceExpires_inv _) e
  | trainingTimer => exact event_effect (fun _ => trainingTick_inv _) e
  | trainingWindow => exact served_effect (fun _ => windowExpires_inv _) e
  | offerTimer => exact event_effect (fun _ => offerTick_inv _) e
  | negotiationTimer => exact served_effect (fun _ => negotiationExpires_inv _) e
  | pathSilenceTimer => exact served_effect (fun _ => silenceExpires_inv _) e
  | holdTimer => exact served_effect (fun _ => holdExpires_inv _) e
  | pacingTick => exact served_effect (fun _ => paceTick_inv _) e
  | transmissionEnd => exact event_effect (fun _ => frameEnds_inv _) e
  | allocationTimer => exact event_effect (fun _ => allocationExpires_inv) e
  | train => exact served_effect (fun _ => trainReceived_inv _) e
  | offer => exact event_effect (fun _ => heard_inv _) e
  | accept => exact served_effect (fun _ => acceptReceived_inv _ _ _ _ _) e
  | idle => exact event_effect (fun _ => heard_inv _) e
  | capacity => exact event_effect (fun _ => capacityReceived_inv _ _) e
  | hold => exact event_effect (fun _ => holdReceived_inv _) e
  | resume => exact event_effect (fun _ => resumeReceived_inv _) e
  | errorNotice => exact event_effect (fun _ => noticeReceived_inv _) e
  | unitFailingCheck => exact event_effect (fun _ => failingUnit_inv _) e
  | fragmentFrameReceived => exact event_effect (fun _ => heard_inv _) e
  | tallyMessage => exact served_effect (fun _ => tallyReceived_inv _ _ _ _) e
  | callMessage => exact served_effect (fun _ => callReceived_inv _ _ _ _) e
  | clipRequest => exact served_effect (fun _ => requestReceived_inv _ _ _ _) e
  | rateCap => exact served_effect (fun _ => rateCapReceived_inv _ _ _ _) e
  | signalMessage => exact served_effect (fun _ => signalReceived_inv _ _ _ _) e
  | fullReset => cases e; exact .emptied _ fun _ => held_inv _ _ _ _ _
  | resetRelease => cases e; exact .part _ (resetRelease_inv _)
  | unknownKindReturnMessage => exact event_effect (fun _ => unknownReceived_inv _ _) e
  | controlWordEnd => exact event_effect (fun _ => wordEnds_inv _) e

/-! ### The grant's part of the state outside the part -/

theorem drainHead_dram (w : OwnWrite) (rest : List OwnWrite) (s : State) :
    (drainHead w rest s).dram = memWriteLine s.dram w.addr w.data w.mask := rfl

theorem drainHead_intake (w : OwnWrite) (rest : List OwnWrite) (s : State) :
    (drainHead w rest s).intake = s.intake := rfl

/-- A grant leaves the intake queue alone (R15). -/
theorem downstreamGrant_intake (s : State) : (downstreamGrant s).intake = s.intake := by
  unfold downstreamGrant
  split
  · unfold grantHost
    split
    · rfl
    · dsimp only
      split <;> rfl
  · unfold grantOwn
    dsimp only
    split
    · split
      · split <;> rfl
      · rfl
    · rfl
    · rfl

/-- A grant changes DRAM by one line write at most, and so keeps its canonical form (R1, R11). -/
theorem downstreamGrant_wf {s : State} (h : Memory.wf s.dram = true) :
    Memory.wf (downstreamGrant s).dram = true := by
  unfold downstreamGrant
  split
  · unfold grantHost
    split
    · exact h
    · dsimp only
      split
      · exact memWriteLine_wf _ _ _ h
      · exact h
  · unfold grantOwn
    dsimp only
    split
    · split
      · split
        · exact memWriteLine_wf _ _ _ h
        · exact h
      · exact h
    · exact memWriteLine_wf _ _ _ h
    · exact h

/-! ### The two invariants -/

theorem Effect.inv {i : Instr} {s t : State} (e : Effect i s t) (h : s.Inv) : t.Inv := by
  cases e with
  | part d keeps => exact ⟨h.canonical, h.intakeBound, keeps h.chip⟩
  | taking d keeps =>
    exact ⟨h.canonical, Nat.le_trans (by simp [State.taken]) h.intakeBound, keeps h.chip⟩
  | emptied d keeps => exact ⟨h.canonical, Nat.zero_le _, keeps h.chip⟩
  | write a l m =>
    obtain ⟨dram, -, intake⟩ := hostWrite_keeps a l m s
    exact ⟨dram ▸ h.canonical, intake h.intakeBound, hostWrite_inv a l m h.chip⟩
  | grant _ =>
    exact ⟨downstreamGrant_wf h.canonical, downstreamGrant_intake s ▸ h.intakeBound,
      downstreamGrant_inv h.chip⟩

theorem Effect.dram {i : Instr} {s t : State} (e : Effect i s t) (h : i ≠ .downstreamGrant) :
    t.dram = s.dram := by
  cases e with
  | part => rfl
  | taking => rfl
  | emptied => rfl
  | write a l m => exact (hostWrite_keeps a l m s).1
  | grant e => exact absurd e h

/-- Settles O3: the step is the effect of the queue's front, and an empty queue idles. -/
theorem stepKeepsInvariant : Obligations.StepKeepsInvariant := by
  intro s t h e
  unfold step at e
  split at e
  · cases e
    exact h
  · next i rest _ =>
    have queued : State.Inv { s with pending := rest } := ⟨h.canonical, h.intakeBound, h.chip⟩
    exact (exec_effect e).inv queued

/-- Settles O5: of the five forms only the grant writes DRAM. -/
theorem dramChangesOnlyAtGrant : Obligations.DramChangesOnlyAtGrant := by
  intro i s t ne e a
  rw [(exec_effect e).dram ne]

end Sys2Proof.Machine
end

section
/-! SUPPORT. The full reset and the host's transactions. -/

namespace Sys2Proof.Machine

/-! ### The full reset -/

/-- The part after FULL_RESET and RESET_RELEASE with the straps `x`. -/
def Chip.restored (x : Bool × Bool) (c : Chip) : Chip := (fullReset c).release x

theorem resetRelease_fullReset (x : Bool × Bool) (c : Chip) :
    resetRelease x (fullReset c) = c.restored x := rfl

variable (x : Bool × Bool) (c : Chip)

theorem restored_feed (f : Fin 8) : (c.restored x).feeds[f] = Feed.reset :=
  Vector.getElem_replicate f.isLt

theorem restored_ring (f : Fin 8) : (c.restored x).rings[f] =
    { head := 0, units := [], nextSeq := 0, anyCompleted := false } :=
  Vector.getElem_replicate f.isLt

theorem restored_path (p : Fin 4) : (c.restored x).paths[p] = PathRec.reset :=
  Vector.getElem_replicate p.isLt

theorem restored_tally (f : Fin 8) : (c.restored x).tally.feeds[f] = TallyFeed.reset :=
  Vector.getElem_replicate f.isLt

theorem restored_line (n : Fin 8) : (c.restored x).tally.lines[n] = SignalLine.reset :=
  Vector.getElem_replicate n.isLt

theorem steps_off (i : Fin 32) (l : Fin 8) : Steps.off[i][l] = 0 := by
  simp [Steps.off]

/-- The bootstrap window alone stands after the release (R3). -/
theorem restored_window_other (i : Fin 24) (h : i ≠ 0) : (c.restored x).mem.windows[i] = none := by
  have ne : (0 : Nat) ≠ i := fun e => h (Fin.ext e.symm)
  simp [Chip.restored, Chip.release, ne]

theorem restored_attention : (c.restored x).attention = false := by
  show ((0 : Byte) &&& 0 != 0) = false
  decide

/-- Settles O6: the state is `Chip.restored`, whose tables are uniform. -/
theorem fullResetState : Obligations.FullResetState := by
  intro a b s
  refine ⟨_, { s with intake := [], chip := s.chip.restored (a, b) }, rfl, rfl, rfl, rfl, rfl,
    rfl, rfl, restored_window_other _ _, rfl, rfl, rfl, rfl, rfl, rfl, rfl, rfl, rfl, rfl, rfl, rfl,
    restored_attention _ _, rfl, fun f => ?feed, rfl, rfl, rfl, rfl, rfl, rfl, rfl, fun f => ?ring,
    rfl, rfl, rfl, rfl, rfl, rfl, rfl, rfl, fun i => Vector.getElem_replicate i.isLt, fun i l =>
    ⟨steps_off i l, steps_off i l⟩, fun l => Vector.getElem_replicate l.isLt, fun n =>
    Vector.getElem_replicate n.isLt, fun f => ?tally, rfl, rfl, rfl, fun n => ?line, rfl, rfl, rfl,
    rfl, rfl, fun p => ?path, rfl, rfl, rfl, rfl, rfl, rfl, fun f => Vector.getElem_replicate
    f.isLt, rfl, rfl, rfl, rfl, rfl, rfl, rfl⟩
  case feed => rw [restored_feed]; decide
  case ring => rw [restored_ring]; decide
  case tally => rw [restored_tally]; decide
  case line => rw [restored_line]; decide
  case path => rw [restored_path]; decide

/-! ### Host writes -/

section
variable {addr : BitVec 36} {data : Line} {mask : Mask} {s : State} {e : Fin 24} {w : Window}

/-- The state after the write was forwarded (R1). -/
def State.passed (addr : BitVec 36) (data : Line) (mask : Mask) (s : State) : State :=
  { s with chip := forward (.write (lineAddr addr) data mask) s.chip }

theorem hostWrite_reset (h : s.chip.resetHeld = true) :
    hostWrite addr data mask s = s.passed addr data mask := by
  simp [hostWrite, h, State.passed]

theorem hostWrite_outside (h : s.chip.resetHeld = false) (k : classify s.chip (lineAddr addr) = none) :
    hostWrite addr data mask s = s.passed addr data mask := by
  simp [hostWrite, h, k, State.passed]

theorem hostWrite_empty (h : s.chip.resetHeld = false)
    (k : classify s.chip (lineAddr addr) = some (e, w)) (m : mask = 0) :
    hostWrite addr data mask s =
      if partOwned w.kind then s else s.passed addr data mask := by
  simp [hostWrite, h, k, m, State.passed]

/-- A write with some byte in its mask is tapped, forwarded first where the host owns the window. -/
theorem hostWrite_tapped (h : s.chip.resetHeld = false)
    (k : classify s.chip (lineAddr addr) = some (e, w)) (m : mask ≠ 0) :
    hostWrite addr data mask s =
      { writeTap e w (lineAddr addr) data mask
          (if partOwned w.kind then s else s.passed addr data mask) with
        chip := serveIfNew s.chip (writeTap e w (lineAddr addr) data mask
          (if partOwned w.kind then s else s.passed addr data mask)).chip } := by
  simp only [hostWrite, h, k, if_neg m, Bool.false_eq_true, if_false, State.passed]

/-- The tap at a part-owned window is the GUARD report alone (R7). -/
theorem writeTap_guarded (a : Nat) (h : partOwned w.kind = true) :
    writeTap e w a data mask s = { s with chip := guardReport e w a mask s.chip } := by
  cases k : w.kind <;> simp [partOwned, k] at h <;> simp [writeTap, k]

theorem guardReport_reportOnly (e : Fin 24) (w : Window) (a : Nat) (mask : Mask) (c : Chip) :
    ReportOnly c (guardReport e w a mask c) := askReport_reportOnly _ _ _

/-- A write that a part-owned window's guard drops changes the part by its report alone (R6, R7). -/
theorem hostWrite_guarded (h : s.chip.resetHeld = false)
    (k : classify s.chip (lineAddr addr) = some (e, w)) (m : mask ≠ 0) (g : partOwned w.kind = true) :
    hostWrite addr data mask s = { s with chip := guardReport e w (lineAddr addr) mask s.chip } := by
  rw [hostWrite_tapped h k m, if_pos g, writeTap_guarded _ g]
  dsimp only
  rw [serveIfNew_report (guardReport_reportOnly e w _ mask _)]

/-- A line for the command unit: forwarded, and into the intake queue or lost (R4, R18, R19). -/
theorem hostWrite_command (h : s.chip.resetHeld = false)
    (k : classify s.chip (lineAddr addr) = some (e, w)) (m : mask ≠ 0) (g : w.kind = .command) :
    hostWrite addr data mask s = intakeLine (tappedLine data mask) (s.passed addr data mask) := by
  have tap : writeTap e w (lineAddr addr) data mask (s.passed addr data mask) =
      intakeLine (tappedLine data mask) (s.passed addr data mask) := by simp [writeTap, g]
  rw [hostWrite_tapped h k m, if_neg (by simp [g, partOwned]), tap]
  have quiet : ReportOnly (s.passed addr data mask).chip
      (intakeLine (tappedLine data mask) (s.passed addr data mask)).chip := by
    unfold intakeLine
    split
    · exact .refl _
    · exact askReport_reportOnly _ _ _
  dsimp only
  rw [serveIfNew_same (b := s.chip) quiet.sched quiet.paths]

/-- The GUARD report's bytes from 12 on, in the places of section 11.2 (R7). -/
theorem guardReport_body (e : Fin 24) (w : Window) (addr : BitVec 36) (mask : Mask)
    (g : partOwned w.kind = true) :
    guardReport e w (lineAddr addr) mask = askReport .guard
      ([0, 0, 0, 0, byteOf e.val,
          if w.kind = .coded then 3 else if w.kind = .mixOut then 4 else 5,
          match w.feed with
          | some f => byteOf f.val
          | none => 0xFF,
          byteOf ((List.range 64).countP fun i => mask.getLsbD i)] ++
        (List.range 8).map fun i => BitVec.ofNat 8 (addr.toNat / 64 * 64 / 256 ^ i)) := by
  have kind : byteOf (windowKindCode w.kind) =
      if w.kind = .coded then 3 else if w.kind = .mixOut then 4 else 5 := by
    cases k : w.kind <;> simp [partOwned, k] at g <;> rfl
  have feed : feedByte w.feed =
      match w.feed with
      | some f => byteOf f.val
      | none => 0xFF := by
    cases w.feed <;> rfl
  unfold guardReport
  rw [kind, feed, le64_bytes]
  rfl

end

/-- Settles O7: the guarded write's effect is its GUARD report. -/
theorem guardedWriteDropped : Obligations.GuardedWriteDropped := by
  intro addr data mask s e w h m k g
  have report := guardReport_reportOnly e w (lineAddr addr) mask s.chip
  refine ⟨_, rfl, ?_⟩
  rw [hostWrite_guarded h k m g]
  exact ⟨rfl, rfl, report.hostQ, report.grew, report, askReport_pending (x := .fault) rfl _ _,
    congrFun (guardReport_body e w addr mask g) _⟩

/-! ### Host reads -/

/-- A read tap marks units recorded and changes nothing else (R5, R89). -/
theorem readTapAt_frame (a : Nat) (c : Chip) :
    readTapAt a c = { c with rings := (readTapAt a c).rings } := by
  unfold readTapAt
  split
  · split
    · unfold readTap
      split <;> rfl
    · rfl
  · rfl

/-- The read of a unit's last line marks it recorded (R89). -/
theorem readTapAt_units {a : Nat} {c : Chip} {e : Fin 24} {w : Window} {f : Fin 8}
    (k : classify c a = some (e, w)) (hk : w.kind = .coded) (hf : w.feed = some f)
    (on : c.feeds[f].cfg.recorder = true) :
    (readTapAt a c).rings[f].units = c.rings[f].units.map fun u =>
      if u.complete ∧ u.start + u.length - 1 = (a - w.base) / 64 then { u with recorded := true }
      else u := by
  have tap : readTapAt a c = readTap f (lineOffset w a) c := by simp [readTapAt, k, hk, hf]
  rw [tap, readTap, if_pos on, mapUnits, setRing_same]
  simp [lineOffset, Config.lineBytes]

/-- The host read's two outcomes (R1, R13). -/
theorem hostRead_covered {addr : BitVec 36} {c : Chip} (h : c.resetHeld = false)
    (k : covered c.mem.buffer (lineAddr addr) = true) :
    hostRead addr c =
      { readTapAt (lineAddr addr) c with
        mem := { c.mem with
          answer := some (lineAddr addr, mergePending c.mem.buffer (lineAddr addr) zeroLine) } } := by
  have mem : (readTapAt (lineAddr addr) c).mem = c.mem := by rw [readTapAt_frame]
  simp [hostRead, h, mem, k]

theorem hostRead_waits {addr : BitVec 36} {c : Chip} (h : c.resetHeld = false)
    (k : covered c.mem.buffer (lineAddr addr) = false) :
    hostRead addr c =
      { readTapAt (lineAddr addr) c with
        mem := { c.mem with hostQ := c.mem.hostQ ++ [.read (lineAddr addr)] } } := by
  have mem : (readTapAt (lineAddr addr) c).mem = c.mem := by rw [readTapAt_frame]
  simp [hostRead, h, mem, k, forward]

/-- What a read keeps, whether it is answered or waits: all but the rings and the memory path. -/
theorem hostRead_frame {addr : BitVec 36} {c : Chip} (h : c.resetHeld = false) :
    hostRead addr c = { c with
      mem := (hostRead addr c).mem
      rings := (readTapAt (lineAddr addr) c).rings } := by
  cases k : covered c.mem.buffer (lineAddr addr) with
  | true =>
    rw [hostRead_covered h k]
    conv_lhs => rw [readTapAt_frame]
  | false =>
    rw [hostRead_waits h k]
    conv_lhs => rw [readTapAt_frame]

/-- Settles O8. -/
theorem hostTransactions : Obligations.HostTransactions := by
  refine ⟨fun addr data mask s => ⟨fun h => ⟨?_, ?_⟩, fun h k => ?_, fun e w h k m => ?_,
    fun e w h k g m => ?_⟩, fun addr s h => ⟨_, rfl, rfl, rfl, ?_, ?_, ?_, ?_, ?_, ?_, ?_⟩⟩
  · exact congrArg _ (hostWrite_reset h)
  · show Host.Outcome.next _ = _
    simp [hostRead, h]
  · exact congrArg _ (hostWrite_outside h k)
  · exact congrArg _ (hostWrite_empty h k m)
  · exact congrArg _ (hostWrite_command h k m g)
  · dsimp only
    rw [hostRead_frame h]
  · dsimp only
    rw [hostRead_frame h]
  · dsimp only
    rw [hostRead_frame h]
  · cases k : covered s.chip.mem.buffer (lineAddr addr) with
    | true => dsimp only; rw [hostRead_covered h k]
    | false => dsimp only; rw [hostRead_waits h k]
  · intro k
    dsimp only
    rw [hostRead_covered h k]
    exact ⟨rfl, rfl⟩
  · intro k
    dsimp only
    rw [hostRead_waits h k]
    exact ⟨rfl, rfl⟩
  · intro e w f k hk hf on
    dsimp only
    rw [hostRead_frame h]
    exact readTapAt_units k hk hf on

end Sys2Proof.Machine
end

section
/-! SUPPORT. What serves may change, and how the mixer's own writes reach the own-write buffer. -/

namespace Sys2Proof.Machine

/-! ### Serves -/

/-- `d` is `c` after serves: only the command unit, the rings, the clip log, the paths, the scheduler, the
own reads and the own-write buffer may differ, and the buffer only grew (R145, R176). -/
structure ServeOnly (c d : Chip) : Prop where
  same : d =
    { c with
      mem.buffer := d.mem.buffer
      mem.alternating := d.mem.alternating
      mem.ownReads := d.mem.ownReads
      cmd := d.cmd
      rings := d.rings
      clips := d.clips
      paths := d.paths
      sched := d.sched }
  grew : c.mem.buffer <+: d.mem.buffer

theorem ServeOnly.refl (c : Chip) : ServeOnly c c := ⟨rfl, List.prefix_refl _⟩

theorem ServeOnly.trans {a b c : Chip} (h : ServeOnly a b) (k : ServeOnly b c) : ServeOnly a c :=
  ⟨by rw [k.same, h.same], h.grew.trans k.grew⟩

/-- What came before serves is an update of the fields they may change. -/
theorem ServeOnly.after {a b c : Chip} (k : ServeOnly b c) (h : ServeOnly a b) : ServeOnly a c := h.trans k

theorem ReportOnly.serveOnly {c d : Chip} (h : ReportOnly c d) : ServeOnly c d :=
  ⟨by rw [h.same], h.grew⟩

section
variable {c d : Chip}

theorem ServeOnly.mixer (h : ServeOnly c d) : d.mixer = c.mixer := by rw [h.same]
theorem ServeOnly.tally (h : ServeOnly c d) : d.tally = c.tally := by rw [h.same]
theorem ServeOnly.feeds (h : ServeOnly c d) : d.feeds = c.feeds := by rw [h.same]

theorem settleMember_serveOnly (i : Item) (c : Chip) : ServeOnly c (settleMember i c) := by
  unfold settleMember
  split
  · split
    · exact .refl c
    · exact ⟨rfl, List.prefix_refl _⟩
  all_goals exact .refl c

theorem ageLive_serveOnly (n : Nat) (c : Chip) : ServeOnly c (ageLive n c) := by
  induction n generalizing c with
  | zero => exact .refl c
  | succ n ih =>
    rw [ageLive]
    split
    · exact .refl c
    · next i _ =>
      split
      · have dropped : ServeOnly c (dropLive i.feed i.seq c) := ⟨rfl, List.prefix_refl _⟩
        exact (dropped.trans (settleMember_serveOnly _ _)).trans (ih _)
      · exact .refl c

theorem beginTransmission_serveOnly (p : Fin 4) (c : Chip) : ServeOnly c (beginTransmission p c) := by
  unfold beginTransmission
  split
  · split
    · exact .refl c
    · exact ⟨rfl, List.prefix_refl _⟩
  · exact .refl c

theorem hand_serveOnly (p : Fin 4) (cls : UplinkClass) (i : Item) (a o t k : Nat) (l : List Byte)
    (c : Chip) : ServeOnly c (hand p cls i a o t k l c) := by
  unfold hand
  exact (beginTransmission_serveOnly p _).after ⟨rfl, List.prefix_refl _⟩

theorem clipHanded_serveOnly (n k : Nat) (c : Chip) : ServeOnly c (clipHanded n k c) := by
  unfold clipHanded
  split
  · exact .refl c
  · split
    · exact .refl c
    · split
      · exact (askReport_reportOnly _ _ _).serveOnly.after ⟨rfl, List.prefix_refl _⟩
      · exact ⟨rfl, List.prefix_refl _⟩

theorem serveReturn_serveOnly (p : Fin 4) (r : ReturnEntry) (rest : List ReturnEntry) (c : Chip) :
    ServeOnly c (serveReturn p r rest c) := by
  unfold serveReturn
  exact (settleMember_serveOnly _ _).after
    ((hand_serveOnly _ _ _ _ _ _ _ _ _).after ⟨rfl, List.prefix_refl _⟩)

theorem serveAudio_serveOnly (p : Fin 4) (a : AudioItem) (rest : List AudioItem) (c : Chip) :
    ServeOnly c (serveAudio p a rest c) := by
  unfold serveAudio
  exact (hand_serveOnly _ _ _ _ _ _ _ _ _).after ⟨rfl, List.prefix_refl _⟩

theorem serveLabel_serveOnly (p : Fin 4) (m : LabelItem) (rest : List LabelItem) (c : Chip) :
    ServeOnly c (serveLabel p m rest c) := by
  unfold serveLabel
  exact (hand_serveOnly _ _ _ _ _ _ _ _ _).after ⟨rfl, List.prefix_refl _⟩

theorem serveLive_serveOnly (p : Fin 4) (i : LiveItem) (c : Chip) :
    ServeOnly c (serveLive p i c) := by
  unfold serveLive
  exact (settleMember_serveOnly _ _).after
    ((hand_serveOnly _ _ _ _ _ _ _ _ _).after ⟨rfl, List.prefix_refl _⟩)

theorem serveClip_serveOnly (p : Fin 4) (q : ClipItem) (rest : List ClipItem) (u : ClipUnit)
    (us : List ClipUnit) (c : Chip) : ServeOnly c (serveClip p q rest u us c) := by
  unfold serveClip
  exact (clipHanded_serveOnly _ _ _).after
    ((hand_serveOnly _ _ _ _ _ _ _ _ _).after ⟨rfl, List.prefix_refl _⟩)

theorem serveOnce_serveOnly (c : Chip) : ServeOnly c (serveOnce c).1 := by
  have aged := ageLive_serveOnly c.sched.live.length c
  unfold serveOnce
  split
  · exact .refl c
  · split
    · exact serveReturn_serveOnly _ _ _ _
    · split
      · exact serveAudio_serveOnly _ _ _ _
      · split
        · exact serveLabel_serveOnly _ _ _ _
        · dsimp only
          split
          · exact aged.trans (serveLive_serveOnly _ _ _)
          · split
            · exact aged
            · split
              · exact aged
              · exact aged.trans (serveClip_serveOnly _ _ _ _ _ _)

theorem serveLoop_serveOnly (n : Nat) (c : Chip) : ServeOnly c (serveLoop n c) := by
  induction n generalizing c with
  | zero => exact .refl c
  | succ n ih =>
    have once := serveOnce_serveOnly c
    rw [serveLoop]
    split
    · next e => rw [e] at once; exact once.trans (ih _)
    · next e => rw [e] at once; exact once

theorem serve_serveOnly (c : Chip) : ServeOnly c (serve c) :=
  (serveLoop_serveOnly (serveBound + 1) c).trans ⟨rfl, List.prefix_refl _⟩

theorem serveIfNew_serveOnly (b c : Chip) : ServeOnly c (serveIfNew b c) := by
  unfold serveIfNew
  split
  · exact .refl c
  · exact serve_serveOnly c

end

/-! ### The end of a mix -/

theorem beginMix_fireQ (c : Chip) : (beginMix c).mixer.fireQ = c.mixer.fireQ := by
  unfold beginMix
  split <;> rfl

theorem beginMix_none {c : Chip} (h : c.mixer.fireQ = []) : (beginMix c).mixer.mix = none := by
  unfold beginMix
  rw [h]

/-- The mix that begins has its own writes still to issue, and its block's steps are the last (R104). -/
theorem beginMix_some {c : Chip} {b : FiredBlock} {q : List FiredBlock} (h : c.mixer.fireQ = b :: q) :
    (beginMix c).mixer.mix.map (·.issued) = some false ∧ (beginMix c).mixer.lastSteps = b.steps := by
  unfold beginMix
  rw [h]
  exact ⟨rfl, rfl⟩

theorem beginMix_frame (c : Chip) : (beginMix c).mixer.frame = c.mixer.frame := by
  unfold beginMix
  split <;> rfl

theorem beginMix_legs (c : Chip) : (beginMix c).mixer.legs = c.mixer.legs := by
  unfold beginMix
  split <;> rfl

theorem beginMix_sched (c : Chip) : (beginMix c).sched = c.sched := by
  unfold beginMix
  split <;> rfl

theorem beginMix_waiting (c : Chip) : mixerWaiting (beginMix c) = [] := by
  unfold beginMix
  split <;> rfl

/-- A leg's record after the overload check of a block (R108). -/
def latched (legs : List LegMix) (l : Fin 8) (r : LegRec) : LegRec :=
  match legs[l.val]? with
  | none => r
  | some x => { r with latch := r.latch || x.saturated && r.alarm }

theorem latched_uplink (legs : List LegMix) (l : Fin 8) (r : LegRec) :
    (latched legs l r).uplink = r.uplink := by
  unfold latched
  split <;> rfl

/-- One leg's overload check is its record and a report at most (R108). -/
theorem overloadLeg_reportOnly (b : FiredBlock) (legs : List LegMix) (c : Chip) (l : Fin 8) :
    ReportOnly { c with mixer.legs := c.mixer.legs.set l (latched legs l c.mixer.legs[l]) }
      (overloadLeg b legs c l) := by
  have kept : { c with mixer.legs := c.mixer.legs.set l c.mixer.legs[l] } = c := by simp
  unfold overloadLeg latched
  cases legs[l.val]? with
  | none =>
    dsimp only
    rw [kept]
    exact .refl c
  | some x =>
    dsimp only
    split
    · next h =>
      simp only [Bool.and_eq_true, Bool.not_eq_true'] at h
      obtain ⟨⟨sat, alarm⟩, latch⟩ := h
      rw [sat, alarm, latch]
      exact askReport_reportOnly _ _ _
    · next h =>
      have same : (c.mixer.legs[l].latch || x.saturated && c.mixer.legs[l].alarm) =
          c.mixer.legs[l].latch := by
        cases hl : c.mixer.legs[l].latch with
        | true => rfl
        | false =>
          rw [hl] at h
          simpa using h
      rw [same, kept]
      exact .refl c

/-- The overload checks of all legs (R108). -/
def overloads (b : FiredBlock) (legs : List LegMix) (c : Chip) : Chip :=
  eight.foldl (overloadLeg b legs) c

/-- Only the mixer, the AUDIO queue and what writing reports changes may differ, and the buffer only
grew (R106, R114). -/
structure MixOnly (c d : Chip) : Prop where
  same : d =
    { c with
      mem.buffer := d.mem.buffer
      mem.alternating := d.mem.alternating
      cmd := d.cmd
      mixer := d.mixer
      sched.audio := d.sched.audio }
  grew : c.mem.buffer <+: d.mem.buffer

theorem MixOnly.trans {a b c : Chip} (h : MixOnly a b) (k : MixOnly b c) : MixOnly a c :=
  ⟨by rw [k.same, h.same], h.grew.trans k.grew⟩

theorem MixOnly.paths {c d : Chip} (h : MixOnly c d) : d.paths = c.paths := by rw [h.same]
theorem MixOnly.tally {c d : Chip} (h : MixOnly c d) : d.tally = c.tally := by rw [h.same]
theorem MixOnly.feeds {c d : Chip} (h : MixOnly c d) : d.feeds = c.feeds := by rw [h.same]

/-- Only the legs' records and what writing reports changes may differ. -/
structure LegsOnly (c d : Chip) : Prop where
  same : d =
    { c with
      mem.buffer := d.mem.buffer
      mem.alternating := d.mem.alternating
      cmd := d.cmd
      mixer.legs := d.mixer.legs }
  grew : c.mem.buffer <+: d.mem.buffer

theorem LegsOnly.trans {a b c : Chip} (h : LegsOnly a b) (k : LegsOnly b c) : LegsOnly a c :=
  ⟨by rw [k.same, h.same], h.grew.trans k.grew⟩

theorem LegsOnly.mixOnly {c d : Chip} (h : LegsOnly c d) : MixOnly c d := ⟨by rw [h.same], h.grew⟩

theorem overloadLeg_legsOnly (b : FiredBlock) (legs : List LegMix) (c : Chip) (l : Fin 8) :
    LegsOnly c (overloadLeg b legs c l) := by
  have report := overloadLeg_reportOnly b legs c l
  exact ⟨by rw [report.same], report.grew⟩

theorem foldl_overloadLeg_legsOnly (b : FiredBlock) (legs : List LegMix) (ls : List (Fin 8)) (c : Chip) :
    LegsOnly c (ls.foldl (overloadLeg b legs) c) := by
  induction ls generalizing c with
  | nil => exact ⟨rfl, List.prefix_refl _⟩
  | cons l ls ih => exact (overloadLeg_legsOnly b legs c l).trans (ih _)

theorem foldl_overloadLeg_legs (b : FiredBlock) (legs : List LegMix) (ls : List (Fin 8)) (c : Chip)
    (nd : ls.Nodup) (k : Fin 8) :
    (ls.foldl (overloadLeg b legs) c).mixer.legs[k] =
      if k ∈ ls then latched legs k c.mixer.legs[k] else c.mixer.legs[k] := by
  induction ls generalizing c with
  | nil => simp
  | cons l ls ih =>
    obtain ⟨hl, nd⟩ := List.nodup_cons.1 nd
    rw [List.foldl_cons, ih _ nd, (overloadLeg_reportOnly b legs c l).mixer]
    by_cases e : k = l
    · subst e
      simp [hl]
    · have ne : (l : Nat) ≠ k := fun h => e (Fin.ext h.symm)
      simp [e, ne]

theorem overloads_legsOnly (b : FiredBlock) (legs : List LegMix) (c : Chip) :
    LegsOnly c (overloads b legs c) := foldl_overloadLeg_legsOnly b legs eight c

/-- Every leg is checked once (R108). -/
theorem overloads_legs (b : FiredBlock) (legs : List LegMix) (c : Chip) (l : Fin 8) :
    (overloads b legs c).mixer.legs[l] = latched legs l c.mixer.legs[l] := by
  have all : l ∈ eight := by revert l; decide
  have once : eight.Nodup := by decide
  exact (foldl_overloadLeg_legs b legs eight c once l).trans (if_pos all)

/-- The overload checks leave the uplink flags alone (R108, R114). -/
theorem overloads_uplinkLegs (b : FiredBlock) (legs : List LegMix) (c : Chip) :
    uplinkLegs (overloads b legs c).mixer = uplinkLegs c.mixer := by
  simp only [uplinkLegs, overloads_legs, latched_uplink]

theorem beginMix_mixOnly (c : Chip) : MixOnly c (beginMix c) := by
  unfold beginMix
  split <;> exact ⟨rfl, List.prefix_refl _⟩

theorem uplinkBlock_mixOnly (b : FiredBlock) (legs : List LegMix) (c : Chip) :
    MixOnly c (uplinkBlock b legs c) := by
  unfold uplinkBlock
  split
  · exact ⟨rfl, List.prefix_refl _⟩
  · split <;> exact ⟨rfl, List.prefix_refl _⟩

theorem uplinkBlock_legs (b : FiredBlock) (legs : List LegMix) (c : Chip) :
    (uplinkBlock b legs c).mixer.legs = c.mixer.legs := by
  unfold uplinkBlock
  split
  · rfl
  · split <;> rfl

theorem joinAssembly_congr {m n : Mixer} (b : FiredBlock) (legs : List LegMix) (hf : m.frame = n.frame)
    (hu : uplinkLegs m = uplinkLegs n) : joinAssembly b legs m = joinAssembly b legs n := by
  unfold joinAssembly
  rw [hf, hu]

/-- A block's uplink depends on the frame in assembly, the uplinked legs and the scheduler alone. -/
theorem uplinkBlock_congr {c d : Chip} (b : FiredBlock) (legs : List LegMix)
    (hf : d.mixer.frame = c.mixer.frame) (hu : uplinkLegs d.mixer = uplinkLegs c.mixer)
    (hs : d.sched = c.sched) :
    (uplinkBlock b legs d).mixer.frame = (uplinkBlock b legs c).mixer.frame ∧
      (uplinkBlock b legs d).sched = (uplinkBlock b legs c).sched := by
  have join := joinAssembly_congr b legs hf hu
  unfold uplinkBlock
  rw [join]
  split
  · exact ⟨hf, hs⟩
  · split
    · exact ⟨rfl, by simp only [joinAudio, hs]⟩
    · exact ⟨rfl, hs⟩

/-- The part after a block's mix, before the next block's begins (R106, R108, R114). -/
def mixDone (b : FiredBlock) (legs : List LegMix) (c : Chip) : Chip :=
  if b.last then overloads b legs c else uplinkBlock b legs (overloads b legs c)

theorem mixFinish_eq {c : Chip} {b : FiredBlock} {rest : List FiredBlock} {m : MixOp}
    (q : c.mixer.fireQ = b :: rest) (h : c.mixer.mix = some m) :
    mixFinish c = beginMix { mixDone b m.legs c with mixer.fireQ := rest } := by
  unfold mixFinish mixDone overloads
  rw [q, h]

theorem mixDone_mixOnly (b : FiredBlock) (legs : List LegMix) (c : Chip) :
    MixOnly c (mixDone b legs c) := by
  have checks := (overloads_legsOnly b legs c).mixOnly
  unfold mixDone
  split
  · exact checks
  · exact checks.trans (uplinkBlock_mixOnly b legs _)

theorem mixDone_legs (b : FiredBlock) (legs : List LegMix) (c : Chip) :
    (mixDone b legs c).mixer.legs = (overloads b legs c).mixer.legs := by
  unfold mixDone
  split
  · rfl
  · exact uplinkBlock_legs b legs _

/-- No write of the mixer waits at the end of a mix (R106). -/
theorem mixFinish_waiting {c : Chip} (h : mixerWaiting c = []) : mixerWaiting (mixFinish c) = [] := by
  unfold mixFinish
  split
  · exact beginMix_waiting _
  · exact h

/-! ### The mixer's own writes -/

theorem mixerWaiting_issued {c : Chip} {m : MixOp} (h : c.mixer.mix = some m) (i : m.issued = true) :
    mixerWaiting c = m.writes := by
  simp [mixerWaiting, h, i]

/-- The mixer has none waiting before its mix has issued its writes and after the last is accepted (R11). -/
theorem mixerWaiting_nil_iff (c : Chip) : mixerWaiting c = [] ↔
    ∀ m, c.mixer.mix = some m → m.issued = true → m.writes = [] := by
  unfold mixerWaiting
  cases c.mixer.mix with
  | none => simp
  | some m => cases h : m.issued <;> simp [h]

theorem acceptMixer_more {c : Chip} {m : MixOp} {w : OwnWrite} {rest : List OwnWrite}
    (h : c.mixer.mix = some m) (hw : m.writes = w :: rest) (more : rest ≠ []) :
    acceptMixer c = pushOwn w { c with mixer.mix := some { m with writes := rest } } := by
  simp [acceptMixer, h, hw, more]

theorem acceptMixer_last {c : Chip} {m : MixOp} {w : OwnWrite} (h : c.mixer.mix = some m)
    (hw : m.writes = [w]) :
    acceptMixer c = mixFinish (pushOwn w { c with mixer.mix := some { m with writes := [] } }) := by
  simp [acceptMixer, h, hw]

theorem drainMixer_stop {c : Chip} (n : Nat)
    (h : mixerWaiting c = [] ∨ Config.bufferLimit ≤ c.mem.buffer.length) : drainMixer n c = c := by
  cases n with
  | zero => rfl
  | succ n => rw [drainMixer, if_pos (by simpa using h)]

theorem drainMixer_accept {c : Chip} (n : Nat) (h : mixerWaiting c ≠ [])
    (room : c.mem.buffer.length < Config.bufferLimit) :
    drainMixer (n + 1) c = drainMixer n (acceptMixer c) := by
  rw [drainMixer, if_neg (by simp [h, room])]

/-- With room for some of the mixer's writes, the buffer fills with the first of them (R11). -/
theorem drainMixer_fills (n : Nat) {c : Chip} {m : MixOp} (h : c.mixer.mix = some m)
    (i : m.issued = true) (fuel : m.writes.length ≤ n) (le : c.mem.buffer.length ≤ 64)
    (lt : 64 < c.mem.buffer.length + m.writes.length) :
    ∃ alt, drainMixer n c =
      { c with
        mem.buffer := c.mem.buffer ++ m.writes.take (64 - c.mem.buffer.length)
        mem.alternating := alt
        mixer.mix := some { m with writes := m.writes.drop (64 - c.mem.buffer.length) } } := by
  induction n generalizing c m with
  | zero => omega
  | succ n ih =>
    by_cases full : c.mem.buffer.length = 64
    · refine ⟨c.mem.alternating, ?_⟩
      rw [drainMixer_stop _ (.inr (Nat.le_of_eq full.symm)), full]
      simp [← h]
    · cases hw : m.writes with
      | nil => simp [hw] at lt; omega
      | cons w rest =>
        have more : rest ≠ [] := by
          rintro rfl
          simp [hw] at lt
          omega
        rw [hw, List.length_cons] at fuel lt
        obtain ⟨alt, e⟩ := ih (c := pushOwn w { c with mixer.mix := some { m with writes := rest } })
          (m := { m with writes := rest }) rfl i (by dsimp only; omega)
          (by simp [pushOwn]; omega) (by simp [pushOwn]; omega)
        refine ⟨alt, ?_⟩
        rw [drainMixer_accept n (by simp [mixerWaiting_issued h i, hw])
          (show c.mem.buffer.length < 64 by omega), acceptMixer_more h hw more, e]
        obtain ⟨k, hk⟩ : ∃ k, 64 - c.mem.buffer.length = k + 1 :=
          ⟨63 - c.mem.buffer.length, by omega⟩
        have hk' : 64 - (c.mem.buffer.length + 1) = k := by omega
        simp [pushOwn, hk, hk']

/-- With room for all of the mixer's writes, the buffer gains them and the mix ends (R11, R106). -/
theorem drainMixer_ends (n : Nat) {c : Chip} {m : MixOp} (h : c.mixer.mix = some m)
    (i : m.issued = true) (ne : m.writes ≠ []) (fuel : m.writes.length ≤ n)
    (room : c.mem.buffer.length + m.writes.length ≤ 64) :
    ∃ alt, drainMixer n c =
      mixFinish { c with
        mem.buffer := c.mem.buffer ++ m.writes
        mem.alternating := alt
        mixer.mix := some { m with writes := [] } } := by
  induction n generalizing c m with
  | zero => exact absurd (List.length_eq_zero_iff.1 (Nat.le_zero.1 fuel)) ne
  | succ n ih =>
    cases hw : m.writes with
    | nil => exact absurd hw ne
    | cons w rest =>
      rw [hw, List.length_cons] at fuel room
      rw [drainMixer_accept n (by simp [mixerWaiting_issued h i, hw])
        (show c.mem.buffer.length < 64 by omega)]
      by_cases more : rest = []
      · subst more
        rw [acceptMixer_last h hw, drainMixer_stop _ (.inl (mixFinish_waiting ?_))]
        · exact ⟨_, rfl⟩
        · exact mixerWaiting_issued (m := { m with writes := [] }) rfl i
      · obtain ⟨alt, e⟩ := ih (c := pushOwn w { c with mixer.mix := some { m with writes := rest } })
          (m := { m with writes := rest }) rfl i more (by dsimp only; omega) (by simp [pushOwn]; omega)
        refine ⟨alt, ?_⟩
        rw [acceptMixer_more h hw more, e]
        simp [pushOwn]

theorem issueMix_eq {c : Chip} {m : MixOp} (h : c.mixer.mix = some m) (i : m.issued = false) :
    issueMix c =
      drainMixer m.writes.length { c with mixer.mix := some { m with issued := true } } := by
  simp [issueMix, h, i]

end Sys2Proof.Machine
end

section
/-! SUPPORT. MIX_END (R106 to R108, R114). -/

namespace Sys2Proof.Machine

theorem exec_event {i : Instr} {s : State} {k : Chip → Chip} (h : s.chip.resetHeld = false)
    (e : exec i s = event s k) : exec i s = .next { s with chip := k s.chip } := e.trans (event_runs h)

theorem exec_mixEnd {s : State} (h : s.chip.resetHeld = false) :
    exec .mixEnd s = .next { s with chip := served issueMix s.chip } := exec_event h rfl

/-- With room for some of the mix's writes, MIX_END fills the buffer and the rest wait (R11). -/
theorem served_issueMix_fills {c : Chip} {m : MixOp} (h : c.mixer.mix = some m) (i : m.issued = false)
    (le : c.mem.buffer.length ≤ 64) (lt : 64 < c.mem.buffer.length + m.writes.length) :
    ∃ alt, served issueMix c =
      { c with
        mem.buffer := c.mem.buffer ++ m.writes.take (64 - c.mem.buffer.length)
        mem.alternating := alt
        mixer.mix := some { m with
          issued := true, writes := m.writes.drop (64 - c.mem.buffer.length) } } := by
  obtain ⟨alt, e⟩ := drainMixer_fills m.writes.length
    (c := { c with mixer.mix := some { m with issued := true } }) rfl rfl le_rfl le lt
  refine ⟨alt, ?_⟩
  rw [served, issueMix_eq h i, e]
  exact serveIfNew_same rfl rfl

/-- The part when the last write of its mix has been accepted, `alt` being the arbiter's state (R106). -/
def mixAccepted (m : MixOp) (alt : Bool) (c : Chip) : Chip :=
  { c with
    mem.buffer := c.mem.buffer ++ m.writes
    mem.alternating := alt
    mixer.mix := some { m with issued := true, writes := [] } }

/-- With room for all of the mix's writes, MIX_END ends the mix (R11, R106). -/
theorem issueMix_ends {c : Chip} {m : MixOp} (h : c.mixer.mix = some m) (i : m.issued = false)
    (ne : m.writes ≠ []) (room : c.mem.buffer.length + m.writes.length ≤ 64) :
    ∃ alt, issueMix c = mixFinish (mixAccepted m alt c) := by
  obtain ⟨alt, e⟩ := drainMixer_ends m.writes.length
    (c := { c with mixer.mix := some { m with issued := true } }) rfl rfl ne le_rfl room
  exact ⟨alt, by rw [issueMix_eq h i, e, mixAccepted]⟩

/-- The part after a mix has ended and the next one has begun (R106). -/
def mixOver (b : FiredBlock) (rest : List FiredBlock) (legs : List LegMix) (c : Chip) : Chip :=
  beginMix { mixDone b legs c with mixer.fireQ := rest }

section
variable (b : FiredBlock) (rest : List FiredBlock) (legs : List LegMix) (c : Chip)

theorem mixOver_mixOnly : MixOnly c (mixOver b rest legs c) := by
  have moved : MixOnly (mixDone b legs c) { mixDone b legs c with mixer.fireQ := rest } :=
    ⟨rfl, List.prefix_refl _⟩
  exact ((mixDone_mixOnly b legs c).trans moved).trans (beginMix_mixOnly _)

theorem mixOver_fireQ : (mixOver b rest legs c).mixer.fireQ = rest := beginMix_fireQ _

theorem mixOver_none (h : rest = []) : (mixOver b rest legs c).mixer.mix = none := beginMix_none h

theorem mixOver_legs (l : Fin 8) :
    (mixOver b rest legs c).mixer.legs[l] = latched legs l c.mixer.legs[l] := by
  rw [← overloads_legs b, ← mixDone_legs]
  exact congrArg (·[l]) (beginMix_legs _)

theorem mixOver_frame : (mixOver b rest legs c).mixer.frame = (mixDone b legs c).mixer.frame :=
  beginMix_frame _

theorem mixOver_sched : (mixOver b rest legs c).sched = (mixDone b legs c).sched := beginMix_sched _

theorem mixDone_last (h : b.last = true) :
    (mixDone b legs c).mixer.frame = c.mixer.frame ∧ (mixDone b legs c).sched = c.sched := by
  unfold mixDone
  rw [if_pos h, (overloads_legsOnly b legs c).same]
  exact ⟨rfl, rfl⟩

/-- A block that is not the last of an AUDIO STOP joins the frame in assembly (R97, R114). -/
theorem mixDone_uplinks (h : b.last = false) :
    (mixDone b legs c).mixer.frame = (uplinkBlock b legs c).mixer.frame ∧
      (mixDone b legs c).sched = (uplinkBlock b legs c).sched := by
  have checks := (overloads_legsOnly b legs c).same
  unfold mixDone
  rw [if_neg (by simp [h])]
  exact uplinkBlock_congr b legs (by rw [checks]) (overloads_uplinkLegs b legs c) (by rw [checks])

end

/-! ### The frame in assembly -/

/-- A frame that stands gains the block (R114). -/
theorem uplinkBlock_joins {b : FiredBlock} {legs : List LegMix} {c : Chip} {a : Assembly}
    (h : c.mixer.frame = some a) : joinAssembly b legs c.mixer = some
      { a with
        lastBlock := b.number
        gap := a.gap || decide (b.number ≠ a.lastBlock + 1)
        blocks := a.blocks + 1
        samples := List.zipWith (· ++ ·) a.samples (listedSamples a.legs legs) } := by
  have gap : (b.number != a.lastBlock + 1) = decide (b.number ≠ a.lastBlock + 1) := by
    rw [bne, decide_not]
    rfl
  rw [joinAssembly, h, ← gap]

theorem uplinkBlock_none {b : FiredBlock} {legs : List LegMix} {c : Chip}
    (h : joinAssembly b legs c.mixer = none) : uplinkBlock b legs c = c := by
  simp [uplinkBlock, h]

/-- A frame short of ten blocks stays in assembly (R114). -/
theorem uplinkBlock_short {b : FiredBlock} {legs : List LegMix} {c : Chip} {a : Assembly}
    (h : joinAssembly b legs c.mixer = some a) (short : a.blocks < 10) :
    uplinkBlock b legs c = { c with mixer.frame := some a } := by
  simp [uplinkBlock, h, Config.frameBlocks, Nat.not_le.2 short]

/-- The tenth block sends the frame to the AUDIO queue (R114, R172). -/
theorem uplinkBlock_full {b : FiredBlock} {legs : List LegMix} {c : Chip} {a : Assembly}
    (h : joinAssembly b legs c.mixer = some a) (full : 10 ≤ a.blocks) :
    uplinkBlock b legs c = joinAudio
      { legs := a.legs, first := a.first, house := a.house, gap := a.gap, data := frameBytes a,
        cursor := 0 }
      { c with mixer.frame := none } := by
  simp [uplinkBlock, h, Config.frameBlocks, full]

theorem joinAssembly_empty {b : FiredBlock} {legs : List LegMix} {m : Mixer} (h : m.frame = none)
    (none : uplinkLegs m = []) : joinAssembly b legs m = .none := by
  simp [joinAssembly, h, none]

/-- A frame begins with the legs uplinked then (R114). -/
theorem joinAssembly_begins {b : FiredBlock} {legs : List LegMix} {m : Mixer} (h : m.frame = none)
    (some : uplinkLegs m ≠ []) : joinAssembly b legs m = .some
      { legs := uplinkLegs m, first := b.number, house := b.house, lastBlock := b.number, gap := false,
        blocks := 1, samples := listedSamples (uplinkLegs m) legs } := by
  unfold joinAssembly
  rw [h]
  dsimp only
  split
  · next e => exact absurd e some
  · next e => rw [e]

/-! ### The own writes of a mix -/

/-- The lines of a mix: three a leg, then the trailer (R106, R107). -/
def mixLines (b : FiredBlock) (legs : List LegMix) : List Line :=
  (legs.flatMap fun m => [legLine m 0, legLine m 1, legLine m 2]) ++ [trailerLine b legs]

theorem mixWrites_eq (b : FiredBlock) (legs : List LegMix) : mixWrites b legs =
    (mixLines b legs).zipIdx.map fun x =>
      { addr := b.outBase + b.number.toNat % 16 * 25 * 64 + x.2 * 64, data := x.1,
        mask := fullMask } := rfl

theorem mixLines_length (b : FiredBlock) (last : Steps) :
    (mixLines b (mixLegs b last)).length = 25 := rfl

theorem mixLines_trailer (b : FiredBlock) (last : Steps) :
    (mixLines b (mixLegs b last))[24]? = some (trailerLine b (mixLegs b last)) := rfl

/-- Settles O37. -/
theorem mixEnds : Obligations.MixEnds := by
  refine ⟨fun s m held mix i => ⟨fun le lt => ?_, fun b rest q ne room => ?_⟩,
    fun b legs c ls hls => ⟨fun frame none => ?_, fun frame some => ?_, fun a a' frame ha' =>
      ⟨fun short => ?_, fun full => ?_⟩⟩, fun b last => ⟨?_, ?_, fun j hj => ?_, ?_⟩⟩
  · obtain ⟨alt, e⟩ := served_issueMix_fills mix i le lt
    refine ⟨_, exec_mixEnd held, rfl, rfl, ?_⟩
    dsimp only
    rw [e]
    exact ⟨rfl, rfl, rfl, rfl, rfl, rfl⟩
  · obtain ⟨alt, e⟩ := issueMix_ends mix i ne room
    rw [mixFinish_eq (c := mixAccepted m alt s.chip) q rfl] at e
    change issueMix s.chip = mixOver b rest m.legs (mixAccepted m alt s.chip) at e
    have serves := serveIfNew_serveOnly s.chip (mixOver b rest m.legs (mixAccepted m alt s.chip))
    have ended := mixOver_mixOnly b rest m.legs (mixAccepted m alt s.chip)
    refine ⟨_, exec_mixEnd held, rfl, rfl, ?_⟩
    dsimp only
    rw [served, e, serves.mixer, serves.tally, serves.feeds, mixOver_frame]
    refine ⟨ended.grew.trans serves.grew, mixOver_fireQ _ _ _ _, ended.tally, ended.feeds,
      mixOver_none _ _ _ _, fun a more h => beginMix_some h,
      fun h => ?_, fun h => ?_, fun l x hx => ?_⟩
    · obtain ⟨frame, sched⟩ := mixDone_last b m.legs (mixAccepted m alt s.chip) h
      rw [serveIfNew_same (b := s.chip) ((mixOver_sched _ _ _ _).trans sched) ended.paths, mixOver_sched]
      exact ⟨frame, sched⟩
    · obtain ⟨frame, sched⟩ := mixDone_uplinks b m.legs (mixAccepted m alt s.chip) h
      obtain ⟨frame', sched'⟩ := uplinkBlock_congr (c := s.chip) (d := mixAccepted m alt s.chip) b m.legs
        rfl rfl rfl
      refine ⟨frame.trans frame', fun quiet => ?_⟩
      rw [serveIfNew_quiet (by rw [ended.paths]; exact quiet), mixOver_sched]
      exact sched.trans sched'
    · rw [mixOver_legs, latched, hx]
      rfl
  · exact uplinkBlock_none (joinAssembly_empty frame (hls.symm.trans none))
  · subst hls
    exact uplinkBlock_short (joinAssembly_begins frame some) (show 1 < 10 by decide)
  · subst ha'
    exact uplinkBlock_short (uplinkBlock_joins frame) short
  · subst ha'
    exact uplinkBlock_full (uplinkBlock_joins frame) full
  · rw [mixWrites_eq, List.length_map, List.length_zipIdx, mixLines_length]
  · intro w hw
    obtain ⟨x, -, rfl⟩ := List.mem_map.1 hw
    rfl
  · have line : ∃ l, (mixLines b (mixLegs b last))[j]? = some l :=
      ⟨_, List.getElem?_eq_getElem (by rw [mixLines_length]; exact hj)⟩
    obtain ⟨l, hl⟩ := line
    rw [mixWrites_eq, List.getElem?_map, List.getElem?_zipIdx, hl]
    simp
    ring
  · rw [mixWrites_eq, List.getElem?_map, List.getElem?_zipIdx, mixLines_trailer]
    rfl

end Sys2Proof.Machine
end

section
/-! SUPPORT. What the clip log's closings and openings may change, and how a coding operation's own writes
reach the own-write buffer. -/

namespace Sys2Proof.Machine

/-! ### Reports only grow the buffer and the pending set -/

/-- The own-write buffer only grew and no cause left the pending set (R11, R33). -/
structure Grows (c d : Chip) : Prop where
  buffer : c.mem.buffer <+: d.mem.buffer
  pending : ∀ n, c.cmd.pendingSet.getLsbD n = true → d.cmd.pendingSet.getLsbD n = true

theorem Grows.refl (c : Chip) : Grows c c := ⟨List.prefix_refl _, fun _ h => h⟩

theorem Grows.trans {a b c : Chip} (h : Grows a b) (k : Grows b c) : Grows a c :=
  ⟨h.buffer.trans k.buffer, fun n e => k.pending n (h.pending n e)⟩

theorem askReport_grows (k : ReportKind) (body : List Byte) (c : Chip) : Grows c (askReport k body c) :=
  ⟨(askReport_reportOnly k body c).grew, askReport_keeps_pending k body c⟩

theorem endEntry_grows (e : InFlight) (r : ResultCode) (l : List Byte) (c : Chip) :
    Grows c (endEntry e r l c) := by
  unfold endEntry
  split
  · obtain ⟨buffer, pending⟩ := askReport_grows .result
      (reportBody 0 (le16 e.tag ++ le16 e.kind ++ sourceBytes .host ++
        [byteOf (bitOf (isRefusal r)), byteOf (resultCode r)] ++ l))
      { c with cmd.inflight := (c.cmd.inflight.filter fun x => x.ident != e.ident).map fun x =>
          { x with waits := x.waits.filter fun i => i != e.ident } }
    exact ⟨buffer, pending⟩
  · exact ⟨List.prefix_refl _, fun _ h => h⟩

theorem settleFences_grows (n : Nat) (c : Chip) : Grows c (settleFences n c) := by
  induction n generalizing c with
  | zero => exact .refl c
  | succ n ih =>
    rw [settleFences]
    split
    · exact .refl c
    · exact (endEntry_grows _ _ _ _).trans (ih _)

theorem finishObject_grows (o : Object) (l : List Byte) (c : Chip) : Grows c (finishObject o l c) := by
  unfold finishObject
  split
  · exact .refl c
  · exact (endEntry_grows _ _ _ _).trans (settleFences_grows _ _)

/-! ### The clip log's closings and openings -/

/-- Only the clip log, the mark stack, the LABEL queue and what writing reports changes may differ. -/
structure LogOnly (c d : Chip) : Prop where
  same : d =
    { c with
      mem.buffer := d.mem.buffer
      mem.alternating := d.mem.alternating
      cmd := d.cmd
      clips := d.clips
      tally.stack := d.tally.stack
      sched.label := d.sched.label }
  inflight : d.cmd.inflight = c.cmd.inflight
  grows : Grows c d

theorem LogOnly.refl (c : Chip) : LogOnly c c := ⟨rfl, rfl, .refl c⟩

theorem LogOnly.trans {a b c : Chip} (h : LogOnly a b) (k : LogOnly b c) : LogOnly a c :=
  ⟨by rw [k.same, h.same], k.inflight.trans h.inflight, h.grows.trans k.grows⟩

theorem LogOnly.after {a b c : Chip} (k : LogOnly b c) (h : LogOnly a b) : LogOnly a c := h.trans k

section
variable {c d : Chip}

theorem LogOnly.feeds (h : LogOnly c d) : d.feeds = c.feeds := by rw [h.same]
theorem LogOnly.rings (h : LogOnly c d) : d.rings = c.rings := by rw [h.same]
theorem LogOnly.coder (h : LogOnly c d) : d.coder = c.coder := by rw [h.same]
theorem LogOnly.paths (h : LogOnly c d) : d.paths = c.paths := by rw [h.same]
theorem LogOnly.live (h : LogOnly c d) : d.sched.live = c.sched.live := by rw [h.same]

/-- An update of the clip log, the mark stack and the LABEL queue alone. -/
theorem LogOnly.of_update (c : Chip) (clips : ClipLog) (stack : List Nat) (label : List LabelItem) :
    LogOnly c { c with clips := clips, tally.stack := stack, sched.label := label } :=
  ⟨rfl, rfl, List.prefix_refl _, fun _ h => h⟩

theorem askReport_logOnly (k : ReportKind) (body : List Byte) (c : Chip) :
    LogOnly c (askReport k body c) := by
  have report := askReport_reportOnly k body c
  exact ⟨by rw [report.same], report.inflight, askReport_grows k body c⟩

theorem joinLabel_logOnly (m : LabelItem) (c : Chip) : LogOnly c (joinLabel m c) := by
  unfold joinLabel
  split
  · exact .of_update c _ _ _
  · exact askReport_logOnly _ _ c

theorem giveNotice_logOnly (n : Nat) (c : Chip) : LogOnly c (giveNotice n c) := by
  unfold giveNotice
  split
  · split
    · exact joinLabel_logOnly _ c
    · exact .refl c
  · exact .refl c

theorem mapClip_logOnly (n : Nat) (g : Clip → Clip) (c : Chip) : LogOnly c (mapClip n g c) :=
  .of_update c _ _ _

theorem closedReport_logOnly (k : Clip) (part : Nat) (xs : List ClipFeed) (c : Chip) :
    LogOnly c (closedReport k part xs c) := askReport_logOnly _ _ c

/-- A clip's close: its record, its reports and its notice (R136, R150). -/
theorem closeClip_logOnly (n : Nat) (r : CloseReason) (c : Chip) : LogOnly c (closeClip n r c) := by
  unfold closeClip
  split
  · exact .refl c
  · next k _ =>
    dsimp only
    have closed := (closedReport_logOnly (closedClip c r k) 0 ((nonBare (closedClip c r k)).take 5) _).after
      (mapClip_logOnly n (fun _ => closedClip c r k) c)
    split <;> split
    · exact (closed.trans (closedReport_logOnly _ _ _ _)).trans (giveNotice_logOnly _ _)
    · exact closed.trans (giveNotice_logOnly _ _)
    · exact closed.trans (closedReport_logOnly _ _ _ _)
    · exact closed

theorem closeStackTo_logOnly (n : Nat) (r : CloseReason) (s : List Nat) (c : Chip) :
    LogOnly c (closeStackTo n r s c) := by
  induction s generalizing c with
  | nil => exact .refl c
  | cons top rest ih =>
    rw [closeStackTo]
    have popped := (closeClip_logOnly top r { c with tally.stack := rest }).after (.of_update c _ _ _)
    dsimp only
    split
    · exact popped
    · exact popped.trans (ih _)

theorem closeStack_logOnly (r : CloseReason) (s : List Nat) (c : Chip) :
    LogOnly c (closeStack r s c) := by
  induction s generalizing c with
  | nil => exact .refl c
  | cons top rest ih =>
    rw [closeStack]
    exact ((closeClip_logOnly top r { c with tally.stack := rest }).after (.of_update c _ _ _)).trans (ih _)

theorem setAutoFailed_logOnly (f : Fin 8) (b : Bool) (c : Chip) : LogOnly c (setAutoFailed f b c) :=
  .of_update c _ _ _

theorem createClip_logOnly {o : Origin} {fs : List (Fin 8)} {cat : Byte} {par : Option Nat} {n : Nat}
    (e : createClip o fs cat par c = some (n, d)) : LogOnly c d := by
  unfold createClip at e
  split at e
  · cases e
  · cases e
    exact (askReport_logOnly _ _ _).after (.of_update c _ _ _)

theorem tryOpenAuto_logOnly (f : Fin 8) (c : Chip) : LogOnly c (tryOpenAuto f c) := by
  unfold tryOpenAuto
  split
  · split
    · next e => exact (createClip_logOnly e).trans (setAutoFailed_logOnly _ _ _)
    · split
      · exact .refl c
      · exact (askReport_logOnly _ _ _).after (setAutoFailed_logOnly _ _ _)
  · exact .refl c

theorem closeAuto_logOnly (f : Fin 8) (r : CloseReason) (c : Chip) : LogOnly c (closeAuto f r c) := by
  unfold closeAuto
  dsimp only
  split
  · exact (closeClip_logOnly _ _ _).after (setAutoFailed_logOnly _ _ _)
  · exact setAutoFailed_logOnly _ _ _

theorem foldl_logOnly {α : Type} {g : Chip → α → Chip} (k : ∀ c x, LogOnly c (g c x)) (l : List α)
    (c : Chip) : LogOnly c (l.foldl g c) := by
  induction l generalizing c with
  | nil => exact .refl c
  | cons x l ih => exact (k c x).trans (ih _)

theorem closeAutoAtMax_logOnly (among : Fin 8 → Bool) (f : Fin 8) (c : Chip) :
    LogOnly c (closeAutoAtMax among f c) := by
  unfold closeAutoAtMax
  split
  · split
    · exact (closeClip_logOnly _ _ _).trans (tryOpenAuto_logOnly _ _)
    · exact .refl c
  · exact .refl c

theorem closeAtMax_logOnly (among : Fin 8 → Bool) (c : Chip) : LogOnly c (closeAtMax among c) := by
  unfold closeAtMax
  dsimp only
  refine LogOnly.trans ?_ (foldl_logOnly (fun c f => closeAutoAtMax_logOnly among f c) _ _)
  split
  · exact closeStackTo_logOnly _ _ _ _
  · exact .refl c

end

/-! ### Pictures in hand -/

/-- Only the feeds and the band coder may differ. -/
structure CoderOnly (c d : Chip) : Prop where
  same : d = { c with feeds := d.feeds, coder := d.coder }

theorem CoderOnly.refl (c : Chip) : CoderOnly c c := ⟨rfl⟩

theorem CoderOnly.trans {a b c : Chip} (h : CoderOnly a b) (k : CoderOnly b c) : CoderOnly a c :=
  ⟨by rw [k.same, h.same]⟩

theorem CoderOnly.after {a b c : Chip} (k : CoderOnly b c) (h : CoderOnly a b) : CoderOnly a c := h.trans k

theorem setFeed_coderOnly (c : Chip) (f : Fin 8) (r : Feed) : CoderOnly c (setFeed c f r) := ⟨rfl⟩

theorem mapPic_coderOnly (f : Fin 8) (n : Nat) (g : Picture → Picture) (c : Chip) :
    CoderOnly c (mapPic f n g c) := setFeed_coderOnly _ _ _

theorem freeBuffer_coderOnly (f : Fin 8) (p : Picture) (b : Band) (n : Nat) (c : Chip) :
    CoderOnly c (freeBuffer f p b n c) := by
  unfold freeBuffer
  split
  · exact (setFeed_coderOnly _ _ _).after (mapPic_coderOnly _ _ _ _)
  · exact .refl c

theorem beginCoding_coderOnly (f : Fin 8) (c : Chip) : CoderOnly c (beginCoding f c) := by
  unfold beginCoding
  split
  · exact .refl c
  · exact ⟨rfl⟩

theorem coderKick_coderOnly (c : Chip) : CoderOnly c (coderKick c) := by
  unfold coderKick
  split
  · exact .refl c
  · split
    · exact beginCoding_coderOnly _ _
    · exact .refl c

/-- What a lookup by name finds among pictures changed by `g`, which keeps their names. -/
theorem find_map_pics (ps : List Picture) (g : Picture → Picture) (hg : ∀ p, (g p).ident = p.ident)
    (n : Nat) :
    (ps.map g).find? (fun p => p.ident == n) = (ps.find? fun p => p.ident == n).map g := by
  have names : ((fun p : Picture => p.ident == n) ∘ g) = fun p => p.ident == n :=
    funext fun p => congrArg (· == n) (hg p)
  rw [List.find?_map, names]

theorem findPic_ident {c : Chip} {f : Fin 8} {n : Nat} {p : Picture} (h : findPic c f n = some p) :
    p.ident = n := by simpa using List.find?_some h

theorem mapPic_pics (f : Fin 8) (n : Nat) (g : Picture → Picture) (c : Chip) :
    (mapPic f n g c).feeds[f].pics = c.feeds[f].pics.map fun p => if p.ident = n then g p else p := by
  rw [mapPic, setFeed_same]

/-- The picture changed is the picture found. -/
theorem findPic_mapPic (f : Fin 8) (n : Nat) (g : Picture → Picture) (hg : ∀ p, (g p).ident = p.ident)
    (c : Chip) : findPic (mapPic f n g c) f n = (findPic c f n).map g := by
  have names : ∀ p : Picture, (if p.ident = n then g p else p).ident = p.ident := fun p => by
    split
    · exact hg p
    · rfl
  rw [findPic, mapPic_pics, find_map_pics _ _ names]
  cases e : findPic c f n with
  | none =>
    rw [findPic] at e
    rw [e]
    rfl
  | some p =>
    rw [findPic] at e
    rw [e]
    exact congrArg some (if_pos (findPic_ident e))

/-- A picture's coding position as a lookup by name shows it. -/
def codedOf (c : Chip) (f : Fin 8) (n : Nat) : Option Nat := (findPic c f n).map (·.coded)

theorem codedOf_setFeed {c : Chip} {f : Fin 8} {r : Feed} (h : r.pics = c.feeds[f].pics) (g : Fin 8)
    (n : Nat) : codedOf (setFeed c f r) g n = codedOf c g n := by
  unfold codedOf findPic
  by_cases e : g = f
  · subst e
    rw [setFeed_same, h]
  · rw [setFeed_other _ _ _ _ e]

/-- The free of a band's buffer moves no coding position (R57). -/
theorem freeBuffer_codedOf (f : Fin 8) (p : Picture) (b : Band) (i n : Nat) (c : Chip)
    (hp : p.ident = n) : codedOf (freeBuffer f p b i c) f n = codedOf c f n := by
  unfold freeBuffer
  split
  · subst hp
    refine (codedOf_setFeed ?_ _ _).trans ?_
    · rfl
    · unfold codedOf
      rw [findPic_mapPic, Option.map_map]
      · rfl
      · exact fun _ => rfl
  · rfl

/-- The picture at a feed's coding position is the oldest in hand (R55). -/
theorem positionBand_some {c : Chip} {f : Fin 8} {p : Picture} {b : Band}
    (e : positionBand c f = some (p, b)) : ∃ rest, c.feeds[f].pics = p :: rest := by
  unfold positionBand at e
  split at e
  · cases e
  · next x rest h =>
    obtain ⟨y, -, hy⟩ := Option.map_eq_some_iff.1 e
    cases hy
    exact ⟨rest, h⟩

/-- The beginning of a band's coding leaves its picture's position where it was (R55). -/
theorem beginCoding_codedOf (f g : Fin 8) (n : Nat) (c : Chip) :
    codedOf (beginCoding f c) g n = codedOf c g n := by
  unfold beginCoding
  split
  · rfl
  · next p b e =>
    dsimp only
    obtain ⟨rest, hp⟩ := positionBand_some e
    refine (codedOf_setFeed (by rfl) g n).trans ?_
    unfold codedOf findPic
    by_cases ef : g = f
    · subst ef
      rw [mapPic_pics, setFeed_same]
      dsimp only
      by_cases en : p.ident = n
      · rw [hp, List.map_cons, if_pos rfl, List.find?_cons_of_pos (by simp [picAfter, en]),
          List.find?_cons_of_pos (by simp [en])]
        rfl
      · have skip : ∀ y ∈ c.feeds[g].pics.find? (fun y => y.ident == n),
            (if y.ident = p.ident then picAfter p (decideBand c g p b) (b.state != .complete) else y) = y :=
          fun y hy => by
            have name : y.ident = n := by simpa using List.find?_some hy
            rw [if_neg (fun h => en (h.symm.trans name))]
        rw [find_map_pics, Option.map_map]
        · exact Option.map_congr fun y hy => congrArg (·.coded) (skip y hy)
        · intro y
          split
          · next h => exact h.symm
          · rfl
    · rw [mapPic, setFeed_other _ _ _ _ ef, setFeed_other _ _ _ _ ef]

theorem coderKick_codedOf (g : Fin 8) (n : Nat) (c : Chip) :
    codedOf (coderKick c) g n = codedOf c g n := by
  unfold coderKick
  split
  · rfl
  · split
    · exact beginCoding_codedOf _ g n c
    · rfl

/-- The start of a band's coding leaves a feed's state and current picture alone. -/
theorem beginCoding_feed (f g : Fin 8) (c : Chip) :
    (beginCoding f c).feeds[g].state = c.feeds[g].state ∧
      (beginCoding f c).feeds[g].cur = c.feeds[g].cur := by
  unfold beginCoding
  split
  · exact ⟨rfl, rfl⟩
  · dsimp only
    by_cases e : g = f
    · subst e
      constructor <;> simp only [syncPosition, mapPic, setFeed_same, showPosition]
    · constructor <;> simp only [syncPosition, mapPic, setFeed_other _ _ _ _ e]

theorem coderKick_feed (g : Fin 8) (c : Chip) :
    (coderKick c).feeds[g].state = c.feeds[g].state ∧ (coderKick c).feeds[g].cur = c.feeds[g].cur := by
  unfold coderKick
  split
  · exact ⟨rfl, rfl⟩
  · split
    · exact beginCoding_feed _ g c
    · exact ⟨rfl, rfl⟩

/-- A coder that was idle has issued nothing once it has chosen (R56, R57). -/
theorem coderKick_waiting {c : Chip} (h : c.coder.op = none) : coderWaiting (coderKick c) = [] := by
  have idle : coderWaiting c = [] := by simp [coderWaiting, h]
  unfold coderKick
  rw [h]
  split
  · exact idle
  · split
    · unfold beginCoding
      split
      · exact idle
      · rfl
    · exact idle

end Sys2Proof.Machine
end

section
/-! SUPPORT. BAND_CODED and OWN_WRITE_ACCEPT (R11, R55, R57, R83). -/

namespace Sys2Proof.Machine

/-! ### The completion of a picture -/

theorem completeRec_congr {c d : Chip} {f : Fin 8} (rings : d.rings = c.rings) (clips : d.clips = c.clips)
    (cfg : d.feeds[f].cfg = c.feeds[f].cfg) (p : Picture) (u : UnitRec) :
    completeRec d f p u = completeRec c f p u := by
  unfold completeRec openListing
  rw [rings, clips, cfg]

/-- The completed ring depends on the rings, the clips, the windows and the feed's configuration (R83). -/
theorem completeRing_congr {c d : Chip} {f : Fin 8} (rings : d.rings = c.rings)
    (clips : d.clips = c.clips) (windows : d.mem.windows = c.mem.windows)
    (cfg : d.feeds[f].cfg = c.feeds[f].cfg) (p : Picture) (u : UnitRec) :
    completeRing d f p u = completeRing c f p u := by
  have record := completeRec_congr rings clips cfg p
  have size : ringSize d f = ringSize c f := by simp only [ringSize, findWindow, windows]
  unfold completeRing
  rw [rings, funext record, size]

/-- The live unit of a completed picture, in a LIVE feed (R83, R87). -/
def liveUnit (c : Chip) (f : Fin 8) (p : Picture) (u : UnitRec) : List LiveItem :=
  if c.feeds[f].cfg.mode = .live then
    [{ feed := f, seq := c.rings[f].nextSeq, house := u.house, length := p.bytes,
       addr := codedAddr c f u.start, cursor := 0 }]
  else []

theorem liveUnit_congr {c d : Chip} {f : Fin 8} (rings : d.rings = c.rings)
    (windows : d.mem.windows = c.mem.windows) (cfg : d.feeds[f].cfg = c.feeds[f].cfg) (p : Picture)
    (u : UnitRec) : liveUnit d f p u = liveUnit c f p u := by
  simp only [liveUnit, codedAddr, findWindow, rings, windows, cfg]

/-- The part after a picture's unit is in its ring and the LIVE queue, before the UNIT report (R83). -/
def unitJoined (f : Fin 8) (p : Picture) (u : UnitRec) (c : Chip) : Chip :=
  { setRing c f (completeRing c f p u) with sched.live := c.sched.live ++ liveUnit c f p u }

/-- The UNIT report of a recorder's feed (R84). -/
def unitReported (f : Fin 8) (v : UnitRec) (c : Chip) : Chip :=
  if c.feeds[f].cfg.recorder then
    askReport .unit
      (reportBody 0
        (byteOf f.val :: (le32 v.seq ++ le32 v.house ++ leNat32 v.start ++ leNat32 v.length))) c
  else c

/-- The closings and the opening that follow a unit (R138, R139). -/
def unitClosings (f : Fin 8) (c : Chip) : Chip :=
  if (closeAtMax (fun g => g == f) c).clips.autoFailed[f] then
    tryOpenAuto f (closeAtMax (fun g => g == f) c)
  else closeAtMax (fun g => g == f) c

theorem unitReported_logOnly (f : Fin 8) (v : UnitRec) (c : Chip) : LogOnly c (unitReported f v c) := by
  unfold unitReported
  split
  · exact askReport_logOnly _ _ c
  · exact .refl c

theorem unitReported_pending {f : Fin 8} (v : UnitRec) {c : Chip} (on : c.feeds[f].cfg.recorder = true) :
    (unitReported f v c).cmd.pendingSet.getLsbD 3 = true := by
  rw [unitReported, if_pos on]
  exact askReport_pending (x := .ring) rfl _ _

theorem unitClosings_logOnly (f : Fin 8) (c : Chip) : LogOnly c (unitClosings f c) := by
  unfold unitClosings
  split
  · exact (closeAtMax_logOnly _ c).trans (tryOpenAuto_logOnly _ _)
  · exact closeAtMax_logOnly _ c

/-- A completed unit: its ring and the LIVE queue, then the UNIT report and the clip log (R83, R84). -/
theorem completeUnit_eq {f : Fin 8} {p : Picture} {u : UnitRec} {c : Chip}
    (e : c.rings[f].units.find? (fun u => !u.complete) = some u) :
    completeUnit f p c =
      unitClosings f (unitReported f (completeRec c f p u) (unitJoined f p u c)) := by
  have joined : (if (completeRec c f p u).live then
        { setRing c f (completeRing c f p u) with
          sched.live := c.sched.live ++
            [{ feed := f, seq := (completeRec c f p u).seq, house := (completeRec c f p u).house,
               length := (completeRec c f p u).bytes,
               addr := codedAddr (setRing c f (completeRing c f p u)) f (completeRec c f p u).start,
               cursor := 0 }] }
      else setRing c f (completeRing c f p u)) = unitJoined f p u c := by
    have live : (completeRec c f p u).live = (c.feeds[f].cfg.mode == .live) := rfl
    unfold unitJoined liveUnit
    cases h : c.feeds[f].cfg.mode with
    | live =>
      rw [live, h, if_pos (by decide), if_pos rfl]
      rfl
    | record =>
      rw [live, h, if_neg (by decide), if_neg (by decide), List.append_nil]
      rfl
  unfold completeUnit
  rw [e]
  exact congrArg (fun x => unitClosings f (unitReported f (completeRec c f p u) x)) joined

theorem completeUnit_some {f : Fin 8} {p : Picture} {u : UnitRec} {c : Chip}
    (e : c.rings[f].units.find? (fun u => !u.complete) = some u) :
    LogOnly (unitJoined f p u c) (completeUnit f p c) ∧
      (c.feeds[f].cfg.recorder = true →
        (completeUnit f p c).cmd.pendingSet.getLsbD 3 = true) := by
  have closings := unitClosings_logOnly f (unitReported f (completeRec c f p u) (unitJoined f p u c))
  rw [completeUnit_eq e]
  exact ⟨(unitReported_logOnly _ _ _).trans closings,
    fun on => closings.grows.pending _ (unitReported_pending (c := unitJoined f p u c) _ on)⟩

/-- A feed after a picture left its pictures in hand (R43, R65). -/
def pictureLeft (p : Picture) (r : Feed) : Feed :=
  showPosition
    { r with
      pics := r.pics.filter fun x => x.ident != p.ident
      cur := if r.cur = .present p.ident then .none else r.cur }

theorem completePicture_eq (f : Fin 8) (p : Picture) (c : Chip) :
    completePicture f p c =
      settleStop f (completeUnit f p (setFeed c f (pictureLeft p c.feeds[f]))) := rfl

/-- A feed after its last picture has completed, STOPPING then READY (R40). -/
def stopSettled (r : Feed) : Feed :=
  if r.state = .stopping ∧ r.pics = [] then { r with state := .ready, curSlot := none, silence := none }
  else r

theorem stopSettled_pics (r : Feed) : (stopSettled r).pics = r.pics := by
  unfold stopSettled
  split <;> rfl

theorem stopSettled_cur (r : Feed) : (stopSettled r).cur = r.cur := by
  unfold stopSettled
  split <;> rfl

theorem stopSettled_state (r : Feed) : (stopSettled r).state =
    if r.state = .stopping ∧ r.pics = [] then .ready else r.state := by
  unfold stopSettled
  split <;> rfl

/-- The end of a stop is its feed's record and the end of FEED STOP (R40). -/
theorem settleStop_command (f : Fin 8) (c : Chip) :
    CommandOnly (setFeed c f (stopSettled c.feeds[f])) (settleStop f c) ∧ Grows c (settleStop f c) := by
  unfold settleStop stopSettled
  split
  · have grows := finishObject_grows (.feed f) []
      (setFeed c f { c.feeds[f] with state := .ready, curSlot := none, silence := none })
    exact ⟨finishObject_command _ _ _, grows.buffer, grows.pending⟩
  · have same : setFeed c f c.feeds[f] = c := by simp [setFeed]
    rw [same]
    exact ⟨.refl c, .refl c⟩

/-- What the completion of a picture with a RESERVED record leaves beside its feed (R83, R84). -/
structure Completed (f : Fin 8) (p : Picture) (u : UnitRec) (c d : Chip) : Prop where
  buffer : c.mem.buffer <+: d.mem.buffer
  paths : d.paths = c.paths
  rings : d.rings = c.rings.set f (completeRing c f p u)
  live : d.sched.live = c.sched.live ++ liveUnit c f p u
  unit : c.feeds[f].cfg.recorder = true → d.cmd.pendingSet.getLsbD 3 = true

section
variable {f : Fin 8} {p : Picture} {u : UnitRec} {c : Chip}

theorem completePicture_completed (e : c.rings[f].units.find? (fun u => !u.complete) = some u) :
    Completed f p u c (completePicture f p c) := by
  have cfg : (setFeed c f (pictureLeft p c.feeds[f])).feeds[f].cfg = c.feeds[f].cfg := by
    rw [setFeed_same]
    rfl
  obtain ⟨log, unit⟩ := completeUnit_some (p := p) (c := setFeed c f (pictureLeft p c.feeds[f])) e
  obtain ⟨stop, grows⟩ := settleStop_command f
    (completeUnit f p (setFeed c f (pictureLeft p c.feeds[f])))
  rw [completePicture_eq]
  constructor
  case buffer => exact log.grows.buffer.trans grows.buffer
  case paths => rw [stop.same]; exact log.paths
  case rings =>
    have ring := completeRing_congr (c := c) (d := setFeed c f (pictureLeft p c.feeds[f])) rfl rfl rfl cfg
    rw [stop.rings]
    exact log.rings.trans (congrArg (c.rings.set f ·) (ring p u))
  case live =>
    have live := liveUnit_congr (c := c) (d := setFeed c f (pictureLeft p c.feeds[f])) rfl rfl cfg
    rw [stop.sched]
    exact log.live.trans (congrArg (c.sched.live ++ ·) (live p u))
  case unit => exact fun on => grows.pending _ (unit (by rw [cfg]; exact on))

theorem completePicture_feed (e : c.rings[f].units.find? (fun u => !u.complete) = some u) :
    (completePicture f p c).feeds[f] = stopSettled (pictureLeft p c.feeds[f]) := by
  obtain ⟨log, -⟩ := completeUnit_some (p := p) (c := setFeed c f (pictureLeft p c.feeds[f])) e
  obtain ⟨stop, -⟩ := settleStop_command f (completeUnit f p (setFeed c f (pictureLeft p c.feeds[f])))
  have feed : (completeUnit f p (setFeed c f (pictureLeft p c.feeds[f]))).feeds[f] =
      pictureLeft p c.feeds[f] := by
    rw [log.feeds]
    exact setFeed_same _ _ _
  rw [completePicture_eq, stop.feeds, setFeed_same, feed]

end

/-! ### The end of a coding operation -/

/-- The part when an operation has ended and its band's buffer is free (R46, R57). -/
def bandFreed (o : CodingOp) (p : Picture) (c : Chip) : Chip :=
  match p.bands[o.band]? with
  | some b => freeBuffer o.feed p b o.band { c with coder.op := none }
  | none => { c with coder.op := none }

theorem bandFreed_coderOnly (o : CodingOp) (p : Picture) (c : Chip) :
    CoderOnly c (bandFreed o p c) := by
  unfold bandFreed
  split
  · exact (freeBuffer_coderOnly _ _ _ _ _).after ⟨rfl⟩
  · exact ⟨rfl⟩

theorem freeBuffer_coder (f : Fin 8) (p : Picture) (b : Band) (n : Nat) (c : Chip) :
    (freeBuffer f p b n c).coder = c.coder := by
  unfold freeBuffer
  split <;> rfl

theorem bandFreed_op (o : CodingOp) (p : Picture) (c : Chip) : (bandFreed o p c).coder.op = none := by
  unfold bandFreed
  split
  · rw [freeBuffer_coder]
  · rfl

theorem bandFreed_codedOf {o : CodingOp} {p : Picture} {c : Chip} (hp : p.ident = o.pic) :
    codedOf (bandFreed o p c) o.feed o.pic = codedOf c o.feed o.pic := by
  unfold bandFreed
  split
  · exact freeBuffer_codedOf _ _ _ _ _ _ hp
  · rfl

/-- A feed beside its pictures' band maps and its count of free buffers. -/
theorem freeBuffer_feed (f : Fin 8) (p : Picture) (b : Band) (n : Nat) (c : Chip) :
    ∃ g : Picture → Picture, (∀ x, (g x).ident = x.ident) ∧
      ∃ free, (freeBuffer f p b n c).feeds[f] =
      { c.feeds[f] with pics := c.feeds[f].pics.map g, freeBuffers := free } := by
  unfold freeBuffer
  split
  · refine ⟨fun x => if x.ident = p.ident then
      { x with bands := x.bands.set n { b with hasBuffer := false, lines := [] } } else x,
      fun x => by dsimp only; split <;> rfl, c.feeds[f].freeBuffers + 1, ?_⟩
    dsimp only
    rw [mapPic, setFeed_same, setFeed_same]
  · exact ⟨id, fun _ => rfl, c.feeds[f].freeBuffers, by rw [List.map_id]⟩

theorem bandFreed_feed (o : CodingOp) (p : Picture) (c : Chip) :
    ∃ g : Picture → Picture, (∀ x, (g x).ident = x.ident) ∧
      ∃ free, (bandFreed o p c).feeds[o.feed] =
      { c.feeds[o.feed] with pics := c.feeds[o.feed].pics.map g, freeBuffers := free } := by
  unfold bandFreed
  split
  · exact freeBuffer_feed _ _ _ _ _
  · exact ⟨id, fun _ => rfl, c.feeds[o.feed].freeBuffers, by rw [List.map_id]⟩

theorem endCoding_more {o : CodingOp} {p : Picture} {c : Chip} (h : findPic c o.feed o.pic = some p)
    (more : o.band + 1 < p.bands.length) : endCoding o c =
      coderKick (mapPic o.feed o.pic (fun x => { x with coded := o.band + 1 }) (bandFreed o p c)) := by
  have found : findPic { c with coder.op := none } o.feed o.pic = some p := h
  unfold endCoding
  dsimp only
  split
  · next e => cases e.symm.trans found
  · next x e =>
    cases e.symm.trans found
    rw [if_neg (Nat.not_le.2 more)]
    rfl

theorem endCoding_last {o : CodingOp} {p : Picture} {c : Chip} (h : findPic c o.feed o.pic = some p)
    (last : o.band + 1 = p.bands.length) :
    endCoding o c = coderKick (completePicture o.feed p (bandFreed o p c)) := by
  have found : findPic { c with coder.op := none } o.feed o.pic = some p := h
  unfold endCoding
  dsimp only
  split
  · next e => cases e.symm.trans found
  · next x e =>
    cases e.symm.trans found
    rw [if_pos (Nat.le_of_eq last.symm)]
    rfl

/-- With a band still to come only the feed and the coder change, and the position moves past the band
(R55, R57). -/
theorem endCoding_moves {o : CodingOp} {p : Picture} {c : Chip} (h : findPic c o.feed o.pic = some p)
    (more : o.band + 1 < p.bands.length) :
    CoderOnly c (endCoding o c) ∧
      ∃ q, findPic (endCoding o c) o.feed o.pic = some q ∧ q.coded = o.band + 1 := by
  rw [endCoding_more h more]
  refine ⟨((bandFreed_coderOnly o p c).trans (mapPic_coderOnly _ _ _ _)).trans
    (coderKick_coderOnly _), ?_⟩
  have stands : codedOf (bandFreed o p c) o.feed o.pic = some p.coded := by
    rw [bandFreed_codedOf (findPic_ident h), codedOf, h]
    rfl
  obtain ⟨x, hx, -⟩ := Option.map_eq_some_iff.1 stands
  have moved : codedOf (coderKick (mapPic o.feed o.pic (fun x => { x with coded := o.band + 1 })
      (bandFreed o p c))) o.feed o.pic = some (o.band + 1) := by
    rw [coderKick_codedOf, codedOf, findPic_mapPic, hx]
    · rfl
    · exact fun _ => rfl
  exact Option.map_eq_some_iff.1 moved

end Sys2Proof.Machine
end

section
/-! SUPPORT. How the coder's own writes reach the own-write buffer, and what their acceptance ends (R11,
R57). -/

namespace Sys2Proof.Machine

/-! ### The coder's own writes -/

theorem completeUnit_coder (f : Fin 8) (p : Picture) (c : Chip) :
    (completeUnit f p c).coder = c.coder := by
  cases e : c.rings[f].units.find? fun u => !u.complete with
  | none =>
    unfold completeUnit
    rw [e]
  | some u => exact (completeUnit_some e).1.coder

theorem completePicture_coder (f : Fin 8) (p : Picture) (c : Chip) :
    (completePicture f p c).coder = c.coder := by
  rw [completePicture_eq, (settleStop_command f _).1.same]
  exact completeUnit_coder f p _

/-- Once an operation has ended no write of the coder waits: the next one has issued none (R57). -/
theorem endCoding_waiting (o : CodingOp) (c : Chip) : coderWaiting (endCoding o c) = [] := by
  unfold endCoding
  dsimp only
  split
  · exact coderKick_waiting rfl
  · next p _ =>
    refine coderKick_waiting ?_
    have freed := bandFreed_op o p c
    split
    · exact (congrArg BandCoder.op (completePicture_coder o.feed p (bandFreed o p c))).trans freed
    · exact freed

theorem coderWaiting_issued {c : Chip} {o : CodingOp} (h : c.coder.op = some o) (i : o.issued = true) :
    coderWaiting c = o.writes := by
  simp [coderWaiting, h, i]

theorem acceptCoder_more {c : Chip} {o : CodingOp} {w : OwnWrite} {rest : List OwnWrite}
    (h : c.coder.op = some o) (hw : o.writes = w :: rest) (more : rest ≠ []) :
    acceptCoder c = pushOwn w { c with coder.op := some { o with writes := rest } } := by
  simp [acceptCoder, h, hw, more]

theorem acceptCoder_last {c : Chip} {o : CodingOp} {w : OwnWrite} (h : c.coder.op = some o)
    (hw : o.writes = [w]) :
    acceptCoder c = endCoding { o with writes := [] }
      (pushOwn w { c with coder.op := some { o with writes := [] } }) := by
  simp [acceptCoder, h, hw]

theorem drainCoder_stop {c : Chip} (n : Nat) (h : coderWaiting c = []) : drainCoder n c = c := by
  cases n with
  | zero => rfl
  | succ n => rw [drainCoder, if_pos (.inl (by rw [h]; rfl))]

/-- With no other block's write waiting, room in the buffer is the coder's (R11). -/
theorem coderRoom_alone {c : Chip} (mix : mixerWaiting c = []) (staged : c.cmd.staging = [])
    (room : c.mem.buffer.length < 64) : coderRoom c = true := by
  simpa [coderRoom, mix, staged, Config.bufferLimit] using room

theorem drainCoder_accept {c : Chip} (n : Nat) (h : coderWaiting c ≠ []) (room : coderRoom c = true) :
    drainCoder (n + 1) c = drainCoder n (acceptCoder c) := by
  rw [drainCoder, if_neg (by simp [h, room])]

/-- The part when the last write of its coding operation has been accepted, `alt` being the arbiter's
state (R57). -/
def codingAccepted (o : CodingOp) (alt : Bool) (c : Chip) : Chip :=
  { c with
    mem.buffer := c.mem.buffer ++ o.writes
    mem.alternating := alt
    coder.op := some { o with writes := [] } }

/-- With room for all of the operation's writes, the buffer gains them and the operation ends (R11, R57). -/
theorem drainCoder_ends (n : Nat) {c : Chip} {o : CodingOp} (h : c.coder.op = some o)
    (i : o.issued = true) (ne : o.writes ≠ []) (fuel : o.writes.length ≤ n)
    (mix : mixerWaiting c = []) (staged : c.cmd.staging = [])
    (room : c.mem.buffer.length + o.writes.length ≤ 64) :
    ∃ alt, drainCoder n c = endCoding { o with writes := [] } (codingAccepted o alt c) := by
  induction n generalizing c o with
  | zero => exact absurd (List.length_eq_zero_iff.1 (Nat.le_zero.1 fuel)) ne
  | succ n ih =>
    cases hw : o.writes with
    | nil => exact absurd hw ne
    | cons w rest =>
      rw [hw, List.length_cons] at fuel room
      rw [drainCoder_accept n (by simp [coderWaiting_issued h i, hw])
        (coderRoom_alone mix staged (by omega))]
      by_cases more : rest = []
      · subst more
        rw [acceptCoder_last h hw, drainCoder_stop _ (endCoding_waiting _ _)]
        exact ⟨_, by rw [codingAccepted, hw]; rfl⟩
      · obtain ⟨alt, e⟩ := ih (c := pushOwn w { c with coder.op := some { o with writes := rest } })
          (o := { o with writes := rest }) rfl i more (by dsimp only; omega) mix staged
          (by simp [pushOwn]; omega)
        refine ⟨alt, ?_⟩
        rw [acceptCoder_more h hw more, e]
        simp [codingAccepted, pushOwn, hw]

theorem issueCoding_ends {c : Chip} {o : CodingOp} (h : c.coder.op = some o) (i : o.issued = false)
    (ne : o.writes ≠ []) (mix : mixerWaiting c = []) (staged : c.cmd.staging = [])
    (room : c.mem.buffer.length + o.writes.length ≤ 64) :
    ∃ alt, issueCoding c =
      endCoding { o with issued := true, writes := [] } (codingAccepted { o with issued := true } alt c) := by
  obtain ⟨alt, e⟩ := drainCoder_ends o.writes.length
    (c := { c with coder.op := some { o with issued := true } }) rfl rfl ne le_rfl mix staged room
  refine ⟨alt, ?_⟩
  unfold issueCoding
  rw [h]
  dsimp only
  rw [if_neg (by simp [i]), e]
  rfl

/-- The feed after its picture completes, the band's buffer having been freed (R40, R43). -/
theorem bandFreed_completed {o : CodingOp} {p : Picture} {u : UnitRec} {c : Chip}
    (e : c.rings[o.feed].units.find? (fun u => !u.complete) = some u) :
    (completePicture o.feed p (bandFreed o p c)).feeds[o.feed] =
      stopSettled (pictureLeft p (bandFreed o p c).feeds[o.feed]) :=
  completePicture_feed (by rw [(bandFreed_coderOnly o p c).same]; exact e)

section
variable {o : CodingOp} {p : Picture} {u : UnitRec} {c : Chip}
  (h : findPic c o.feed o.pic = some p) (last : o.band + 1 = p.bands.length)
  (e : c.rings[o.feed].units.find? (fun u => !u.complete) = some u)
include h last e

/-- The last band's operation completes its picture (R55, R57, R73). -/
theorem endCoding_completes : Completed o.feed p u c (endCoding o c) := by
  have freed := bandFreed_coderOnly o p c
  have kick := coderKick_coderOnly (completePicture o.feed p (bandFreed o p c))
  have cfg : (bandFreed o p c).feeds[o.feed].cfg = c.feeds[o.feed].cfg := by
    obtain ⟨g, -, free, hf⟩ := bandFreed_feed o p c
    rw [hf]
  have rings : (bandFreed o p c).rings = c.rings := by rw [freed.same]
  have mem : (bandFreed o p c).mem = c.mem := by rw [freed.same]
  have sched : (bandFreed o p c).sched = c.sched := by rw [freed.same]
  have same : (bandFreed o p c).paths = c.paths := by rw [freed.same]
  have clips : (bandFreed o p c).clips = c.clips := by rw [freed.same]
  have done : Completed o.feed p u (bandFreed o p c) (completePicture o.feed p (bandFreed o p c)) :=
    completePicture_completed (by rw [rings]; exact e)
  obtain ⟨buffer, paths, ring, live, unit⟩ := done
  rw [completeRing_congr rings clips (by rw [mem]) cfg, rings] at ring
  rw [liveUnit_congr rings (by rw [mem]) cfg, sched] at live
  rw [cfg] at unit
  rw [mem] at buffer
  rw [same] at paths
  rw [endCoding_last h last, kick.same]
  exact ⟨buffer, paths, ring, live, unit⟩

/-- The completed picture is no longer in hand (R43). -/
theorem endCoding_gone : findPic (endCoding o c) o.feed o.pic = none := by
  have gone : findPic (completePicture o.feed p (bandFreed o p c)) o.feed o.pic = none := by
    unfold findPic
    rw [bandFreed_completed e, stopSettled_pics, List.find?_eq_none]
    intro x hx
    have ne := (List.mem_filter.1 (show x ∈ List.filter _ _ from hx)).2
    simpa [findPic_ident h] using ne
  have same := coderKick_codedOf o.feed o.pic (completePicture o.feed p (bandFreed o p c))
  rw [codedOf, codedOf, gone, ← endCoding_last h last] at same
  exact Option.map_eq_none_iff.1 same

/-- The feed's state and current picture after its picture completes (R40, R43). -/
theorem endCoding_feed :
    ((endCoding o c).feeds[o.feed].state =
      if c.feeds[o.feed].state = .stopping ∧
          c.feeds[o.feed].pics.all (fun x => x.ident == o.pic) = true then .ready
      else c.feeds[o.feed].state) ∧
    (endCoding o c).feeds[o.feed].cur =
      if c.feeds[o.feed].cur = .present o.pic then .none else c.feeds[o.feed].cur := by
  obtain ⟨state, cur⟩ := coderKick_feed o.feed (completePicture o.feed p (bandFreed o p c))
  obtain ⟨g, names, free, freed⟩ := bandFreed_feed o p c
  rw [endCoding_last h last, state, cur, bandFreed_completed e, stopSettled_state,
    stopSettled_cur, freed, ← findPic_ident h]
  have alone : (pictureLeft p { c.feeds[o.feed] with
      pics := c.feeds[o.feed].pics.map g, freeBuffers := free }).pics = [] ↔
      c.feeds[o.feed].pics.all (fun x => x.ident == p.ident) = true := by
    show ((c.feeds[o.feed].pics.map g).filter fun x => x.ident != p.ident) = [] ↔ _
    simp [List.filter_eq_nil_iff, names]
  exact ⟨if_congr (and_congr Iff.rfl alone) rfl rfl, rfl⟩

end

/-! ### BAND_CODED -/

theorem exec_bandCoded {s : State} (h : s.chip.resetHeld = false) :
    exec .bandCoded s = .next { s with chip := served issueCoding s.chip } := exec_event h rfl

/-- Settles O24. -/
theorem bandCodedWrites : Obligations.BandCodedWrites := by
  refine ⟨fun s o p held op i ne mix staged room pic more => ?_,
    fun s o p u r held op i ne mix staged room pic last quiet hr ring => ?_⟩
  · obtain ⟨alt, e⟩ := issueCoding_ends op i ne mix staged room
    obtain ⟨only, q, hq, coded⟩ := endCoding_moves (o := { o with issued := true, writes := [] })
      (c := codingAccepted { o with issued := true } alt s.chip) pic more
    refine ⟨_, q, exec_bandCoded held, rfl, rfl, ?_⟩
    dsimp only
    rw [served, e, serveIfNew_same (b := s.chip) (by rw [only.same]; rfl) (by rw [only.same]; rfl)]
    exact ⟨by rw [only.same]; rfl, hq, coded, by rw [only.same]; rfl, by rw [only.same]; rfl⟩
  · subst hr
    obtain ⟨alt, e⟩ := issueCoding_ends op i ne mix staged room
    have done := endCoding_completes (o := { o with issued := true, writes := [] })
      (c := codingAccepted { o with issued := true } alt s.chip) pic last ring
    have gone := endCoding_gone (o := { o with issued := true, writes := [] })
      (c := codingAccepted { o with issued := true } alt s.chip) pic last ring
    obtain ⟨state, cur⟩ := endCoding_feed (o := { o with issued := true, writes := [] })
      (c := codingAccepted { o with issued := true } alt s.chip) pic last ring
    refine ⟨_, exec_bandCoded held, rfl, rfl, ?_⟩
    dsimp only
    rw [served, e, serveIfNew_quiet (by rw [done.paths]; exact quiet)]
    exact ⟨done.buffer, gone, fun present => cur.trans (if_pos present),
      fun absent => cur.trans (if_neg absent), done.rings, done.live, done.unit, state⟩

end Sys2Proof.Machine
end

section
/-! SUPPORT. OWN_WRITE_ACCEPT and DOWNSTREAM_GRANT (R11, R13, R15). -/

namespace Sys2Proof.Machine

/-! ### OWN_WRITE_ACCEPT -/

/-- An event that leaves the scheduler and the paths as they were is its effect alone (R176). -/
theorem next_unserved {s : State} {d : Chip} (sched : d.sched = s.chip.sched)
    (paths : d.paths = s.chip.paths) :
    (.next { s with chip := serveIfNew s.chip d } : Out) = .next { s with chip := d } := by
  rw [serveIfNew_same sched paths]

theorem exec_ownWriteAccept {s : State} (h : s.chip.resetHeld = false) :
    exec .ownWriteAccept s = .next { s with chip := served ownWriteAccept s.chip } := exec_event h rfl

section
variable {c : Chip} {w : OwnWrite} {rest : List OwnWrite}

/-- A full buffer accepts nothing (R11). -/
theorem ownWriteAccept_full (h : 64 ≤ c.mem.buffer.length) : ownWriteAccept c = c := if_pos h

theorem ownWriteAccept_mixer (room : c.mem.buffer.length < Config.bufferLimit)
    (h : mixerWaiting c = w :: rest) :
    ownWriteAccept c = acceptMixer c := by
  rw [ownWriteAccept, if_neg (Nat.not_le.2 room), if_pos (by rw [h]; rfl)]

theorem ownWriteAccept_staged (room : c.mem.buffer.length < Config.bufferLimit) (mix : mixerWaiting c = [])
    (h : c.cmd.staging = w :: rest) :
    ownWriteAccept c = endOverfull (pushOwn w { c with cmd.staging := rest }) := by
  rw [ownWriteAccept, if_neg (Nat.not_le.2 room), if_neg (by rw [mix]; decide),
    if_pos (by rw [h]; rfl), acceptStaged, h]

theorem ownWriteAccept_coder (room : c.mem.buffer.length < Config.bufferLimit) (mix : mixerWaiting c = [])
    (staged : c.cmd.staging = []) (h : coderWaiting c = w :: rest) :
    ownWriteAccept c = acceptCoder c := by
  rw [ownWriteAccept, if_neg (Nat.not_le.2 room), if_neg (by rw [mix]; decide),
    if_neg (by rw [staged]; decide), if_pos (by rw [h]; rfl)]

end

/-! ### The end of an overfull period -/

theorem endOverfull_ends {c : Chip} {v : Window} (full : c.cmd.overfull = true)
    (window : reportWindow c = some v) (free : occupancy c < ringLines v)
    (room : c.cmd.staging.length < 8) :
    endOverfull c = askReport .overflow (reportBody 0 (leNat16 c.cmd.lost))
      { c with cmd.overfull := false, cmd.lost := 0 } := by
  unfold endOverfull
  rw [window]
  exact if_pos (by simp [full, free, room, Config.stagingLimit])

theorem endOverfull_stays {c : Chip} (h : c.cmd.overfull = false ∨ reportWindow c = none ∨
      8 ≤ c.cmd.staging.length ∨ ∃ v, reportWindow c = some v ∧ ringLines v ≤ occupancy c) :
    endOverfull c = c := by
  unfold endOverfull
  split
  · rfl
  · next v e =>
    refine if_neg fun k => ?_
    simp only [Bool.and_eq_true, decide_eq_true_eq] at k
    obtain ⟨⟨full, free⟩, room⟩ := k
    rcases h with h | h | h | ⟨x, hx, le⟩
    · rw [h] at full
      cases full
    · rw [h] at e
      cases e
    · exact absurd room (Nat.not_lt.2 h)
    · rw [e] at hx
      cases hx
      omega

/-! ### The last write of a mix or of a coding operation -/

/-- Acceptance of the mix's last write is what MIX_END with room for it does (R11, R106). -/
theorem acceptMixer_eq_issueMix {c : Chip} {m : MixOp} {w : OwnWrite} (mix : c.mixer.mix = some m)
    (i : m.issued = true) (hw : m.writes = [w]) (room : c.mem.buffer.length < 64) :
    acceptMixer c = issueMix { c with mixer.mix := some { m with issued := false } } := by
  have same : { c with mixer.mix := some { m with issued := true } } = c := by
    rw [← i, ← mix]
  have waiting : mixerWaiting c ≠ [] := by
    rw [mixerWaiting_issued mix i, hw]
    exact List.cons_ne_nil _ _
  rw [issueMix_eq (c := { c with mixer.mix := some { m with issued := false } }) rfl rfl]
  show acceptMixer c = drainMixer m.writes.length { c with mixer.mix := some { m with issued := true } }
  rw [same, hw]
  exact (drainMixer_accept 0 waiting room).symm

theorem acceptCoder_eq_issueCoding {c : Chip} {o : CodingOp} {w : OwnWrite} (op : c.coder.op = some o)
    (i : o.issued = true) (hw : o.writes = [w]) (room : coderRoom c = true) :
    acceptCoder c = issueCoding { c with coder.op := some { o with issued := false } } := by
  have same : { c with coder.op := some { o with issued := true } } = c := by
    rw [← i, ← op]
  have waiting : coderWaiting c ≠ [] := by
    rw [coderWaiting_issued op i, hw]
    exact List.cons_ne_nil _ _
  show acceptCoder c = drainCoder o.writes.length { c with coder.op := some { o with issued := true } }
  rw [same, hw]
  exact (drainCoder_accept 0 waiting room).symm

/-- A serve is due on what the scheduler and the paths were, whatever else the state before held. -/
theorem serveIfNew_congr {b b' : Chip} (sched : b'.sched = b.sched) (paths : b'.paths = b.paths) (a : Chip) :
    serveIfNew b' a = serveIfNew b a := by
  unfold serveIfNew
  rw [sched, paths]

theorem served_lastMixWrite {c : Chip} {m : MixOp} {w : OwnWrite} (mix : c.mixer.mix = some m)
    (i : m.issued = true) (hw : m.writes = [w]) (room : c.mem.buffer.length < 64) :
    served ownWriteAccept c = served issueMix { c with mixer.mix := some { m with issued := false } } := by
  unfold served
  rw [ownWriteAccept_mixer room ((mixerWaiting_issued mix i).trans hw),
    acceptMixer_eq_issueMix mix i hw room]
  exact serveIfNew_congr rfl rfl _

theorem served_lastCodingWrite {c : Chip} {o : CodingOp} {w : OwnWrite} (op : c.coder.op = some o)
    (i : o.issued = true) (hw : o.writes = [w]) (mix : mixerWaiting c = [])
    (staged : c.cmd.staging = []) (room : c.mem.buffer.length < 64) :
    served ownWriteAccept c = served issueCoding { c with coder.op := some { o with issued := false } } := by
  unfold served
  rw [ownWriteAccept_coder room mix staged ((coderWaiting_issued op i).trans hw),
    acceptCoder_eq_issueCoding op i hw (coderRoom_alone mix staged room)]
  exact serveIfNew_congr rfl rfl _

/-- The last write of a mix, accepted: the block leaves the fire queue (R11, R106). -/
theorem acceptMixer_over {c : Chip} {m : MixOp} {w : OwnWrite} {b : FiredBlock} {q : List FiredBlock}
    (mix : c.mixer.mix = some m) (hw : m.writes = [w]) (fired : c.mixer.fireQ = b :: q) :
    acceptMixer c = mixOver b q m.legs (pushOwn w { c with mixer.mix := some { m with writes := [] } }) := by
  rw [acceptMixer_last mix hw]
  exact mixFinish_eq (c := pushOwn w { c with mixer.mix := some { m with writes := [] } })
    (m := { m with writes := [] }) fired rfl

/-- Settles O9. -/
theorem ownWriteAcceptOrder : Obligations.OwnWriteAcceptOrder := by
  refine ⟨fun s w rest held room => ⟨fun m mix i hw => ⟨fun more => ?_, fun last => ⟨?_, ?_⟩⟩,
    fun mix staged => ⟨fun full v window free less => ?_, fun h => ?_⟩,
    fun o mix staged op i hw => ⟨fun more => ?_, fun last => ⟨?_, ?_⟩⟩⟩,
    fun s full => ?_, mixerWaiting_nil_iff⟩
  · rw [exec_ownWriteAccept held, served,
      ownWriteAccept_mixer room ((mixerWaiting_issued mix i).trans hw), acceptMixer_more mix hw more]
    exact next_unserved rfl rfl
  · subst last
    have ended := exec_mixEnd (s := { s with chip.mixer.mix := some { m with issued := false } }) held
    rw [exec_ownWriteAccept held, served_lastMixWrite mix i hw room]
    exact ended.symm
  · subst last
    intro b q fired
    have ended := mixOver_mixOnly b q m.legs
      (pushOwn w { s.chip with mixer.mix := some { m with writes := [] } })
    have serves := serveIfNew_serveOnly s.chip
      (mixOver b q m.legs (pushOwn w { s.chip with mixer.mix := some { m with writes := [] } }))
    refine ⟨_, exec_ownWriteAccept held, rfl, rfl, ?_⟩
    dsimp only
    rw [served, ownWriteAccept_mixer room ((mixerWaiting_issued mix i).trans hw),
      acceptMixer_over mix hw fired, serves.mixer]
    exact ⟨ended.grew.trans serves.grew, mixOver_fireQ _ _ _ _, mixOver_none _ _ _ _⟩
  · rw [exec_ownWriteAccept held, served, ownWriteAccept_staged room mix staged,
      endOverfull_ends (c := pushOwn w { s.chip with cmd.staging := rest }) full window free less]
    have report := askReport_reportOnly .overflow (reportBody 0 (leNat16 s.chip.cmd.lost))
      (pushOwn w { s.chip with cmd.staging := rest, cmd.overfull := false, cmd.lost := 0 })
    exact next_unserved report.sched report.paths
  · rw [exec_ownWriteAccept held, served, ownWriteAccept_staged room mix staged,
      endOverfull_stays (c := pushOwn w { s.chip with cmd.staging := rest }) h]
    exact next_unserved rfl rfl
  · rw [exec_ownWriteAccept held, served,
      ownWriteAccept_coder room mix staged ((coderWaiting_issued op i).trans hw),
      acceptCoder_more op hw more]
    exact next_unserved rfl rfl
  · subst last
    have ended := exec_bandCoded (s := { s with chip.coder.op := some { o with issued := false } }) held
    rw [exec_ownWriteAccept held, served_lastCodingWrite op i hw mix staged room]
    exact ended.symm
  · subst last
    intro p pic more
    obtain ⟨only, q, hq, coded⟩ := endCoding_moves (o := { o with writes := [] })
      (c := pushOwn w { s.chip with coder.op := some { o with writes := [] } }) pic more
    refine ⟨_, q, exec_ownWriteAccept held, rfl, rfl, ?_⟩
    dsimp only
    rw [served, ownWriteAccept_coder room mix staged ((coderWaiting_issued op i).trans hw),
      acceptCoder_last op hw, serveIfNew_same (b := s.chip) (by rw [only.same]; rfl) (by rw [only.same]; rfl)]
    exact ⟨by rw [only.same]; rfl, hq, coded⟩
  · cases held : s.chip.resetHeld with
    | true => exact event_held held
    | false =>
      rw [exec_ownWriteAccept held, served, ownWriteAccept_full full, serveIfNew_same rfl rfl]

/-! ### DOWNSTREAM_GRANT -/

theorem inLine_iff (a b : Nat) (m : Mask) :
    inLine a m b = true ↔ ∃ i ∈ List.range 64, b = a + i ∧ inMask m i = true := by
  simp only [inLine, Bool.and_eq_true, decide_eq_true_eq, List.mem_range]
  change (a ≤ b ∧ b < a + 64) ∧ _ ↔ _
  constructor
  · rintro ⟨⟨le, lt⟩, mask⟩
    exact ⟨b - a, by omega, by omega, mask⟩
  · rintro ⟨i, lt, rfl, mask⟩
    exact ⟨⟨by omega, by omega⟩, by rwa [Nat.add_sub_cancel_left]⟩

/-- What a line write leaves in every byte of memory (R1). -/
theorem memRead_lineWritten {m : Memory} (h : Memory.wf m = true) (a : Nat) (d : Line) (mask : Mask)
    (b : Nat) : memRead (memWriteLine m a d mask) b =
      if inLine a mask b then lineByte d (b - a) else memRead m b := by
  rw [memRead_memWriteLine m a d mask h b]
  exact if_congr (inLine_iff a b mask).symm rfl rfl

theorem lineByte_memReadLine (m : Memory) (a i : Nat) (h : i < 64) :
    lineByte (memReadLine m a) i = memRead m (a + i) := by
  rw [lineByte_getElem _ _ h, memReadLine, Vector.getElem_ofFn]

/-- A merged line takes each byte from the newest pending own write that covers it (R13). -/
theorem lineByte_mergePending (buf : List OwnWrite) (a i : Nat) (h : i < 64) (l : Line) :
    lineByte (mergePending buf a l) i =
      match buf.reverse.find? fun w => w.addr == a && inMask w.mask i with
      | some w => lineByte w.data i
      | none => lineByte l i := by
  induction buf generalizing l with
  | nil => rfl
  | cons w buf ih =>
    have first : mergePending (w :: buf) a l =
        mergePending buf a (if w.addr = a then mergeLine l w.data w.mask else l) := rfl
    rw [first, ih, List.reverse_cons, List.find?_append]
    cases buf.reverse.find? fun w => w.addr == a && inMask w.mask i with
    | some x => rfl
    | none =>
      by_cases addr : w.addr = a
      · cases mask : inMask w.mask i <;> simp [addr, mask, lineByte_mergeLine _ _ _ _ h]
      · simp [addr]

theorem grantsHost_true {m : MemPath} {x : HostTxn} {rest : List HostTxn} (h : m.hostQ = x :: rest)
    (k : m.alternating = true → m.lastHost = true → m.buffer = [] ∧ m.ownReads = []) :
    grantsHost m = true := by
  unfold grantsHost ownWaits
  rw [h]
  cases alt : m.alternating with
  | false => rfl
  | true =>
    cases last : m.lastHost with
    | false => rfl
    | true =>
      obtain ⟨buffer, reads⟩ := k alt last
      rw [buffer, reads]
      rfl

theorem grantsHost_false {m : MemPath} (h : m.hostQ = [] ∨ m.alternating = true ∧ m.lastHost = true)
    (own : ownWaits m = true) : grantsHost m = false := by
  unfold grantsHost
  rcases h with h | ⟨alt, last⟩
  · rw [h]
    rfl
  · rw [alt, last, own, Bool.and_self, Bool.and_self, Bool.not_true, Bool.and_false]

/-- Settles O10. -/
theorem grantServesHost : Obligations.GrantServesHost := by
  refine ⟨fun s a d m rest wf queue k => ?_, fun s a rest queue k => ?_⟩
  · refine ⟨_, rfl, ?_⟩
    rw [downstreamGrant, if_pos (grantsHost_true queue k), grantHost, queue]
    exact ⟨rfl, rfl, memRead_lineWritten wf a d m⟩
  · refine ⟨_, readLine s a, rfl, ?_⟩
    rw [downstreamGrant, if_pos (grantsHost_true queue k), grantHost, queue]
    refine ⟨rfl, rfl, rfl, fun i hi => ?_⟩
    rw [readLine, lineByte_mergePending _ _ _ hi, lineByte_memReadLine _ _ _ hi] <;> rfl

/-- A grant to the own side drains the buffer's head when no own read goes before it (R15). -/
theorem grantOwn_drains {s : State} {w : OwnWrite} {rest : List OwnWrite}
    (buffer : s.chip.mem.buffer = w :: rest)
    (h : s.chip.mem.ownReads = [] ∨ 48 < (w :: rest).length) : grantOwn s = drainHead w rest s := by
  unfold grantOwn
  rw [buffer]
  cases reads : s.chip.mem.ownReads with
  | nil => rfl
  | cons r more =>
    rcases h with h | h
    · rw [reads] at h
      cases h
    · exact if_pos h

/-- A grant to the own side fetches the oldest own read while the buffer is low (R15). -/
theorem grantOwn_reads {s : State} {r : OwnRead} {rest : List OwnRead}
    (reads : s.chip.mem.ownReads = r :: rest) (low : s.chip.mem.buffer.length ≤ 48) :
    grantOwn s = { s with
      chip := deliver r (readLine s r.addr)
        { s.chip with mem.ownReads := rest, mem.lastHost := false } } := by
  unfold grantOwn
  rw [reads]
  cases buffer : s.chip.mem.buffer with
  | nil => rfl
  | cons w more =>
    rw [buffer] at low
    exact if_neg (Nat.not_lt.2 low)

/-- The part after the buffer's head has drained, before a RESTART completes (R11, R15). -/
def headDrained (rest : List OwnWrite) (c : Chip) : Chip :=
  { c with
    mem.buffer := rest
    mem.lastHost := false
    mem.alternating := c.mem.alternating && decide (48 < rest.length) }

theorem drainHead_chip (w : OwnWrite) (rest : List OwnWrite) (s : State) :
    (drainHead w rest s).chip =
      if rest.isEmpty then finishObject .whole [] (headDrained rest s.chip)
      else headDrained rest s.chip := by
  have high : (!decide (rest.length ≤ Config.hostFirstLimit)) = decide (48 < rest.length) := by
    rw [← decide_not]
    exact decide_eq_decide.2 Nat.not_le
  unfold drainHead headDrained
  rw [← high]

theorem finishObject_idle {o : Object} {c : Chip} (h : inFlight o c = false) (l : List Byte) :
    finishObject o l c = c := by
  have none : c.cmd.inflight.find? (fun e => e.object == o) = none := by
    simpa [inFlight] using h
  rw [finishObject, none]

/-- A command alone in flight on the whole part leaves the list and its RESULT is asked for (R23, R27). -/
theorem finishObject_alone {e : InFlight} {c : Chip} (h : c.cmd.inflight = [e]) (he : e.object = .whole) :
    (finishObject .whole [] c).cmd.inflight = [] ∧
      (finishObject .whole [] c).cmd.pendingSet.getLsbD 1 = true := by
  have found : c.cmd.inflight.find? (fun e => e.object == .whole) = some e := by simp [h, he]
  have ended : (endEntry e .done [] c).cmd.inflight = [] ∧
      (endEntry e .done [] c).cmd.pendingSet.getLsbD 1 = true := by
    have kept : ((c.cmd.inflight.filter fun x => x.ident != e.ident).map fun x : InFlight =>
        { x with waits := x.waits.filter fun i => i != e.ident }) = [] := by simp [h]
    unfold endEntry
    rw [kept]
    dsimp only
    rw [if_pos (by simp [he])]
    exact ⟨(askResult_reportOnly _ _ _ _ _ _).inflight, askReport_pending (x := .command) rfl _ _⟩
  obtain ⟨none, pending⟩ := ended
  unfold finishObject
  rw [found]
  dsimp only
  rw [none]
  exact ⟨none, pending⟩

/-- Settles O11. -/
theorem grantServesOwn : Obligations.GrantServesOwn := by
  refine fun s wf side => ⟨fun w rest buffer h => ?_, fun r rest f got reads low link seq => ?_⟩
  · have own : ownWaits s.chip.mem = true := by simp [ownWaits, buffer]
    refine ⟨_, rfl, ?_⟩
    rw [downstreamGrant, if_neg (by simp [grantsHost_false side own]), grantOwn_drains buffer h,
      drainHead_dram, drainHead_intake, drainHead_chip]
    refine ⟨rfl, memRead_lineWritten wf _ _ _, fun idle => ?_, fun e last alone whole => ?_⟩
    · split
      · exact finishObject_idle (c := headDrained rest s.chip) idle []
      · rfl
    · subst last
      exact finishObject_alone (c := headDrained [] s.chip) alone whole
  · have own : ownWaits s.chip.mem = true := by simp [ownWaits, reads]
    show Host.Outcome.next (downstreamGrant s) = _
    rw [downstreamGrant, if_neg (by simp [grantsHost_false side own]), grantOwn_reads reads low]
    unfold deliver
    dsimp only
    rw [link]
    dsimp only
    rw [if_pos seq]
    rfl

end Sys2Proof.Machine
end

section
/-! SUPPORT. The window table: WINDOW SET and WINDOW CLEAR (R8 to R10, R30, R91). -/

namespace Sys2Proof.Machine

/-! ### Reading the parameters -/

theorem entryOf_none {b : Byte} (h : 23 < b.toNat) : entryOf b = none :=
  dif_neg (by omega)

theorem entryOf_some {b : Byte} {e : Fin 24} (h : b.toNat = e.val) : entryOf b = some e := by
  have lt : b.toNat < 24 := h ▸ e.isLt
  rw [entryOf, dif_pos lt]
  exact congrArg some (Fin.ext h)

theorem index8_some {b : Byte} {f : Fin 8} (h : b.toNat = f.val) : index8 b = some f := by
  have lt : b.toNat < 8 := h ▸ f.isLt
  rw [index8, dif_pos lt]
  exact congrArg some (Fin.ext h)

theorem index8_none {b : Byte} (h : 7 < b.toNat) : index8 b = none :=
  dif_neg (by omega)

/-- Kind codes above 5 name no kind of window (section 1.2). -/
theorem windowKindOf_none {b : Byte} (h : 5 < b.toNat) : windowKindOf b = none := by
  have ne : ∀ k : Byte, k.toNat ≤ 5 → b ≠ k := fun k small same => by subst same; omega
  rw [windowKindOf, if_neg (ne 0 (by decide)), if_neg (ne 1 (by decide)), if_neg (ne 2 (by decide)),
    if_neg (ne 3 (by decide)), if_neg (ne 4 (by decide)), if_neg (ne 5 (by decide))]

theorem windowOf_none {kind feed : Byte} (base size : Nat)
    (h : 5 < kind.toNat ∨ (kind = 1 ∨ kind = 3) ∧ 7 < feed.toNat) :
    windowOf kind feed base size = none := by
  unfold windowOf
  rcases h with h | ⟨rfl | rfl, h⟩
  · rw [windowKindOf_none h]
  · show (index8 feed).map _ = none
    rw [index8_none h]
    rfl
  · show (index8 feed).map _ = none
    rw [index8_none h]
    rfl

theorem windowOf_capture {feed : Byte} {f : Fin 8} {base size : Nat} (h : index8 feed = some f) :
    windowOf 1 feed base size = some { base := base, size := size, kind := .capture, feed := some f } := by
  show (index8 feed).map _ = _
  rw [h]
  rfl

theorem windowOf_coded {feed : Byte} {f : Fin 8} {base size : Nat} (h : index8 feed = some f) :
    windowOf 3 feed base size = some { base := base, size := size, kind := .coded, feed := some f } := by
  show (index8 feed).map _ = _
  rw [h]
  rfl

/-! ### Discarding a unit list -/

/-- Beside ring `f`, a withdrawal of its live units leaves the rings alone (R179). -/
theorem withdrawLive_rings (f : Fin 8) (seq : Count32) (c : Chip) :
    (withdrawLive f seq c).rings[f].nextSeq = c.rings[f].nextSeq ∧
      ∀ g : Fin 8, g ≠ f → (withdrawLive f seq c).rings[g] = c.rings[g] := by
  unfold withdrawLive setLive mapUnits
  exact ⟨by rw [setRing_same]; rfl, fun g h => setRing_other _ _ _ _ h⟩

theorem withdrawLives_rings (f : Fin 8) (us : List UnitRec) (c : Chip) :
    (us.foldl (fun c u => if u.complete && u.live then withdrawLive f u.seq c else c) c).rings[f].nextSeq =
        c.rings[f].nextSeq ∧
      ∀ g : Fin 8, g ≠ f →
        (us.foldl (fun c u => if u.complete && u.live then withdrawLive f u.seq c else c) c).rings[g] =
          c.rings[g] := by
  induction us generalizing c with
  | nil => exact ⟨rfl, fun _ _ => rfl⟩
  | cons u us ih =>
    obtain ⟨next, others⟩ := ih (if u.complete && u.live then withdrawLive f u.seq c else c)
    have first : (if u.complete && u.live then withdrawLive f u.seq c else c).rings[f].nextSeq =
          c.rings[f].nextSeq ∧
        ∀ g : Fin 8, g ≠ f →
          (if u.complete && u.live then withdrawLive f u.seq c else c).rings[g] = c.rings[g] := by
      split
      · exact withdrawLive_rings f u.seq c
      · exact ⟨rfl, fun _ _ => rfl⟩
    exact ⟨next.trans first.1, fun g h => (others g h).trans (first.2 g h)⟩

/-- A discarded list is empty with head 0; the next sequence and the other rings stay (R91). -/
theorem discardList_rings (f : Fin 8) (c : Chip) :
    (discardList f c).rings[f].units = [] ∧ (discardList f c).rings[f].head = 0 ∧
      (discardList f c).rings[f].nextSeq = c.rings[f].nextSeq ∧
      ∀ g : Fin 8, g ≠ f → (discardList f c).rings[g] = c.rings[g] := by
  obtain ⟨next, others⟩ := withdrawLives_rings f c.rings[f].units c
  unfold discardList
  dsimp only
  rw [(askReport_reportOnly _ _ _).rings, setRing_same]
  exact ⟨rfl, rfl, next, fun g h => (setRing_other _ _ _ _ h).trans (others g h)⟩

/-! ### The change of an entry -/

/-- The part with an entry's window replaced. -/
def withEntry (e : Fin 24) (new : Option Window) (c : Chip) : Chip :=
  { c with mem.windows := c.mem.windows.set e new }

/-- The change of an entry without a new report ring is the table and the discards (R91). -/
theorem changeEntry_plain {e : Fin 24} {new : Option Window} {c : Chip}
    (h : ∀ w, new = some w → w.kind ≠ .report) :
    changeEntry e new c =
      (codedFeeds c.mem.windows[e] new).foldl (fun c f => discardList f c) (withEntry e new c) := by
  have plain : (new.any fun w => w.kind == .report) = false := by
    cases new with
    | none => rfl
    | some w => simpa using h w rfl
  unfold changeEntry
  dsimp only
  rw [if_neg (by rw [plain]; exact Bool.false_ne_true)]
  rfl

/-- A new REPORT window starts its ring before the discards (R30, R91). -/
theorem changeEntry_report {e : Fin 24} {w : Window} {c : Chip} (h : w.kind = .report) :
    changeEntry e (some w) c =
      (codedFeeds c.mem.windows[e] (some w)).foldl (fun c f => discardList f c)
        (freshRing (withEntry e (some w) c)) := by
  have report : ((some w).any fun w => w.kind == .report) = true := by simp [h]
  unfold changeEntry
  dsimp only
  rw [if_pos report]
  rfl

/-- The feed whose unit list goes with a window (R91). -/
def codedFeed (w : Window) : Option (Fin 8) := if w.kind = .coded then w.feed else none

theorem codedFeeds_eq (old new : Option Window) :
    codedFeeds old new = ((old.toList ++ new.toList).filterMap codedFeed).dedup := rfl

theorem codedFeed_other {w : Window} (h : w.kind ≠ .coded) : codedFeed w = none := if_neg h

theorem codedFeed_coded {w : Window} {f : Fin 8} (h : w.kind = .coded) (hf : w.feed = some f) :
    codedFeed w = some f := (if_pos h).trans hf

section
variable {old : Option Window} {w : Window} {f : Fin 8}

theorem codedFeeds_none (ho : ∀ v, old = some v → v.kind ≠ .coded) (hw : w.kind ≠ .coded) :
    codedFeeds old (some w) = [] := by
  rw [codedFeeds_eq]
  cases old with
  | none => simp [codedFeed_other hw]
  | some v => simp [codedFeed_other hw, codedFeed_other (ho v rfl)]

theorem codedFeeds_new (hw : codedFeed w = some f)
    (ho : old = none ∨ ∃ v, old = some v ∧ (v.kind ≠ .coded ∨ v.feed = some f)) :
    codedFeeds old (some w) = [f] := by
  rw [codedFeeds_eq]
  rcases ho with rfl | ⟨v, rfl, h⟩
  · simp [hw]
  · by_cases coded : v.kind = .coded
    · have hv := codedFeed_coded coded (h.resolve_left (fun n => n coded))
      simp [hw, hv]
    · simp [hw, codedFeed_other coded]

theorem codedFeeds_old {v : Window} (hv : codedFeed v = some f) (hw : w.kind ≠ .coded) :
    codedFeeds (some v) (some w) = [f] := by
  simp [codedFeeds_eq, hv, codedFeed_other hw]

theorem codedFeeds_both {v : Window} {g : Fin 8} (hv : codedFeed v = some f) (hw : codedFeed w = some g)
    (ne : g ≠ f) : codedFeeds (some v) (some w) = [f, g] := by
  simp [codedFeeds_eq, hv, hw, ne.symm]

theorem codedFeeds_cleared {v : Window} (hv : codedFeed v = some f) :
    codedFeeds (some v) none = [f] := by
  simp [codedFeeds_eq, hv]

theorem codedFeeds_clearedOther {v : Window} (hv : v.kind ≠ .coded) : codedFeeds (some v) none = [] := by
  simp [codedFeeds_eq, codedFeed_other hv]

end

/-! ### The two commands -/

section
variable {a : CmdHead} {entry kind feed : Byte} {base size : BitVec 64} {s : State} {e : Fin 24}
  {w : Window}

theorem exec_windowSet (h : takes (.windowSet a entry kind feed base size) s = true) :
    exec (.windowSet a entry kind feed base size) s =
      .next (s.taken (conclude 0x01 a s.chip
        (windowSet entry kind feed base.toNat size.toNat s.chip))) :=
  command_taken (k := fun c => conclude 0x01 a c (windowSet entry kind feed base.toNat size.toNat c)) h

theorem exec_windowClear (h : takes (.windowClear a entry) s = true) :
    exec (.windowClear a entry) s =
      .next (s.taken (conclude 0x02 a s.chip (windowClear entry s.chip))) :=
  command_taken (k := fun c => conclude 0x02 a c (windowClear entry c)) h

/-- A WINDOW SET that passes the checks of R8 and R9. -/
theorem exec_windowSet_passes (h : takes (.windowSet a entry kind feed base size) s = true)
    (he : entryOf entry = some e) (hw : windowOf kind feed base.toNat size.toNat = some w)
    (args : windowArgsOk s.chip e w = true)
    (state : windowState s.chip s.chip.mem.windows[e] (some w) = none) {d : Chip}
    (hd : serveIfNew s.chip (changeEntry e (some w) s.chip) = d) :
    exec (.windowSet a entry kind feed base size) s =
      .next (s.taken (completedBy 0x01 a .done [] d)) := by
  rw [exec_windowSet h, windowSet, he, hw]
  dsimp only
  rw [if_pos args, state, conclude_done, hd]

theorem exec_windowSet_malformed (h : takes (.windowSet a entry kind feed base size) s = true)
    (bad : entryOf entry = none ∨ windowOf kind feed base.toNat size.toNat = none) :
    exec (.windowSet a entry kind feed base size) s =
      .next (s.taken (refusedBy 0x01 a .badArg s.chip)) := by
  rw [exec_windowSet h, windowSet]
  rcases bad with bad | bad
  · rw [bad]
    rfl
  · rw [bad]
    cases entryOf entry <;> rfl

theorem exec_windowSet_args (h : takes (.windowSet a entry kind feed base size) s = true)
    (he : entryOf entry = some e) (hw : windowOf kind feed base.toNat size.toNat = some w)
    (args : windowArgsOk s.chip e w = false) :
    exec (.windowSet a entry kind feed base size) s =
      .next (s.taken (refusedBy 0x01 a .badArg s.chip)) := by
  rw [exec_windowSet h, windowSet, he, hw]
  dsimp only
  rw [if_neg (by rw [args]; exact Bool.false_ne_true), conclude_refused]

theorem exec_windowSet_state (h : takes (.windowSet a entry kind feed base size) s = true)
    (he : entryOf entry = some e) (hw : windowOf kind feed base.toNat size.toNat = some w)
    (args : windowArgsOk s.chip e w = true) {r : ResultCode}
    (state : windowState s.chip s.chip.mem.windows[e] (some w) = some r) :
    exec (.windowSet a entry kind feed base size) s =
      .next (s.taken (refusedBy 0x01 a r s.chip)) := by
  rw [exec_windowSet h, windowSet, he, hw]
  dsimp only
  rw [if_pos args, state, conclude_refused]

theorem windowClear_entry {c : Chip} (he : entryOf entry = some e) (ne : e ≠ 0) :
    windowClear entry c =
      if (c.mem.windows[e]).isNone then .completed .done [] c
      else
        match windowState c c.mem.windows[e] none with
        | some r => .refused r
        | none => .completed .done [] (serveIfNew c (changeEntry e none c)) := by
  have nz : e.val ≠ 0 := fun h => ne (Fin.ext h)
  unfold windowClear
  rw [he]
  exact if_neg nz

theorem exec_windowClear_badArg (h : takes (.windowClear a entry) s = true)
    (bad : entry = 0 ∨ 23 < entry.toNat) :
    exec (.windowClear a entry) s = .next (s.taken (refusedBy 0x02 a .badArg s.chip)) := by
  rw [exec_windowClear h, windowClear]
  rcases bad with rfl | bad
  · rfl
  · rw [entryOf_none bad]
    rfl

/-- A WINDOW CLEAR that passes the checks of R9. -/
theorem exec_windowClear_passes {v : Window} (h : takes (.windowClear a entry) s = true)
    (he : entry.toNat = e.val) (ne : e ≠ 0) (hv : s.chip.mem.windows[e] = some v)
    (state : windowState s.chip (some v) none = none) {d : Chip}
    (hd : serveIfNew s.chip (changeEntry e none s.chip) = d) :
    exec (.windowClear a entry) s = .next (s.taken (completedBy 0x02 a .done [] d)) := by
  rw [exec_windowClear h, windowClear_entry (entryOf_some he) ne, hv, state, hd]
  rfl

end

end Sys2Proof.Machine
end

section
/-! SUPPORT. The checks of R8 and R9 as the spec words them. -/

namespace Sys2Proof.Machine

/-! ### The argument checks of R8 -/

theorem mem_entries (i : Fin 24) : i ∈ entries := by revert i; decide

theorem boundsOk_iff (w : Window) : boundsOk w = true ↔
    w.base % 64 = 0 ∧ w.size % 64 = 0 ∧ 64 ≤ w.size ∧ w.size ≤ 4294967296 ∧
      w.base + w.size ≤ 68719476736 := by
  simp only [boundsOk, Bool.and_eq_true, decide_eq_true_eq, and_assoc]
  rfl

/-- Entry 0 is COMMAND's alone (R8). -/
theorem entryZero_iff (e : Fin 24) (w : Window) :
    (decide (e.val = 0) == decide (w.kind = .command)) = true ↔ (e = 0 ↔ w.kind = .command) := by
  have zero : e.val = 0 ↔ e = 0 := ⟨fun h => Fin.ext h, fun h => congrArg Fin.val h⟩
  rw [beq_iff_eq, decide_eq_decide, zero]

/-- The sizes of a kind and of a READY feed (R8). -/
theorem kindSizeOk_iff (c : Chip) (w : Window) : kindSizeOk c w = true ↔
    (w.kind = .audioIn → w.size = 98304) ∧ (w.kind = .mixOut → w.size = 25600) ∧
    (w.kind = .report → 4096 ≤ w.size ∧ w.size ≤ 262144) ∧
    (∀ f, w.feed = some f → c.feeds[f].state = .ready →
      (w.kind = .capture →
        c.feeds[f].cfg.slots * (slotLinesOf c.feeds[f].cfg.format * 64) ≤ w.size) ∧
      (w.kind = .coded → 8 * c.feeds[f].cfg.maxUnit ≤ w.size)) := by
  unfold kindSizeOk
  cases kind : w.kind with
  | command => simp
  | audioIn => simp
  | mixOut => simp
  | report => simp
  | capture =>
    cases w.feed with
    | none => simp
    | some f =>
      simp only [Option.some.injEq, forall_eq', reduceCtorEq, false_imp_iff, true_and, and_true,
        forall_const, Bool.or_eq_true, bne_iff_ne, decide_eq_true_eq]
      exact or_iff_not_imp_left.trans (by rw [ne_eq, not_not]; rfl)
  | coded =>
    cases w.feed with
    | none => simp
    | some f =>
      simp
      exact or_iff_not_imp_left.trans (by rw [not_not])

theorem windowsMeet_false (v w : Window) :
    windowsMeet v w = false ↔ v.base + v.size ≤ w.base ∨ w.base + w.size ≤ v.base := by
  simp only [windowsMeet, Bool.and_eq_false_iff, decide_eq_false_iff_not]
  omega

/-- One window of a kind and feed, and no line shared against R8. -/
theorem othersOk_iff (c : Chip) (e : Fin 24) (w : Window) : othersOk c e w = true ↔
    ∀ (i : Fin 24) (v : Window), i ≠ e → c.mem.windows[i] = some v →
      (v.kind ≠ w.kind ∨ v.feed ≠ w.feed) ∧
      ((partOwned v.kind = true ∨ partOwned w.kind = true) →
        v.base + v.size ≤ w.base ∨ w.base + w.size ≤ v.base) := by
  have one : ∀ i : Fin 24,
      (i == e || (match c.mem.windows[i] with
        | none => true
        | some v => !(v.kind == w.kind && v.feed == w.feed) &&
          !((partOwned v.kind || partOwned w.kind) && windowsMeet v w))) = true ↔
      ∀ v, i ≠ e → c.mem.windows[i] = some v →
        (v.kind ≠ w.kind ∨ v.feed ≠ w.feed) ∧
        ((partOwned v.kind = true ∨ partOwned w.kind = true) →
          v.base + v.size ≤ w.base ∨ w.base + w.size ≤ v.base) := by
    intro i
    cases c.mem.windows[i] with
    | none => simp
    | some v =>
      simp only [← windowsMeet_false]
      by_cases ie : i = e
      · simp [ie]
      · cases meet : windowsMeet v w <;> simp [ie, meet]
  unfold othersOk
  rw [List.all_eq_true]
  exact ⟨fun h i v => (one i).1 (h i (mem_entries i)) v, fun h i _ => (one i).2 (h i)⟩

theorem windowArgsOk_iff (c : Chip) (e : Fin 24) (w : Window) : windowArgsOk c e w = true ↔
    (boundsOk w = true ∧ (e = 0 ↔ w.kind = .command)) ∧ kindSizeOk c w = true ∧
      othersOk c e w = true := by
  rw [windowArgsOk, Bool.and_eq_true, Bool.and_eq_true, Bool.and_eq_true, entryZero_iff, and_assoc]

/-! ### The checks of R9 -/

/-- Checks 1 and 2 of R9 for one window. -/
theorem windowBusy_iff (c : Chip) (v : Window) : (feedBusy c v || mixerBusy c v) = true ↔
    (v.kind = .capture ∨ v.kind = .coded) ∧
        (∃ f, v.feed = some f ∧ (c.feeds[f].state = .running ∨ c.feeds[f].state = .stopping)) ∨
      (v.kind = .audioIn ∨ v.kind = .mixOut) ∧ c.mixer.running = true := by
  unfold feedBusy mixerBusy
  cases kind : v.kind <;> cases feed : v.feed <;> simp [active]

/-- Check 3 of R9 for one window. -/
theorem windowHeld_iff (c : Chip) (v : Window) : windowHeld c v = true ↔
    ∃ f, v.kind = .coded ∧ v.feed = some f ∧
      ∃ k ∈ c.clips.list, holding k.state = true ∧
        ∃ u ∈ c.rings[f].units, u.complete = true ∧
          ∃ x ∈ k.feeds, x.feed = f ∧ spanIncludes x u.seq = true := by
  have held : ∀ f, feedHeld c f = true ↔ ∃ k ∈ c.clips.list, holding k.state = true ∧
      ∃ u ∈ c.rings[f].units, u.complete = true ∧
        ∃ x ∈ k.feeds, x.feed = f ∧ spanIncludes x u.seq = true := by
    intro f
    simp only [feedHeld, holdsUnitOf, clipHolds, List.any_eq_true, Bool.and_eq_true, beq_iff_eq]
    constructor
    · rintro ⟨k, hk, u, hu, complete, holds, x⟩
      exact ⟨k, hk, holds, u, hu, complete, x⟩
    · rintro ⟨k, hk, holds, u, hu, complete, x⟩
      exact ⟨k, hk, u, hu, complete, holds, x⟩
  unfold windowHeld
  constructor
  · intro h
    split at h
    next f kind feed => exact ⟨f, kind, feed, (held f).1 h⟩
    next => cases h
  · rintro ⟨f, kind, feed, h⟩
    rw [kind, feed]
    exact (held f).2 h

/-- The checks of R9 in order. -/
theorem windowState_eq (c : Chip) (old new : Option Window) : windowState c old new =
    if (old.toList ++ new.toList).any (fun v => feedBusy c v || mixerBusy c v) then some .busy
    else if old.any (windowHeld c) then some .held else none := by
  have either : ∀ l : List Window, l.any (fun v => feedBusy c v || mixerBusy c v) =
      (l.any (feedBusy c) || l.any (mixerBusy c)) := fun l => by
    induction l with
    | nil => rfl
    | cons v l ih => simp only [List.any_cons, ih]; ac_rfl
  unfold windowState
  dsimp only
  rw [either]
  cases (old.toList ++ new.toList).any (feedBusy c) <;>
    cases (old.toList ++ new.toList).any (mixerBusy c) <;> rfl

section
variable {c : Chip} {old new : Option Window} {busy holds : Prop}

/-- Checks 1 and 2 of R9, over the old and the new window. -/
theorem anyBusy_iff (hb : busy ↔ ∃ v, (old = some v ∨ new = some v) ∧
      ((v.kind = .capture ∨ v.kind = .coded) ∧
          (∃ f, v.feed = some f ∧ (c.feeds[f].state = .running ∨ c.feeds[f].state = .stopping)) ∨
        (v.kind = .audioIn ∨ v.kind = .mixOut) ∧ c.mixer.running = true)) :
    (old.toList ++ new.toList).any (fun v => feedBusy c v || mixerBusy c v) = true ↔ busy := by
  simp only [List.any_eq_true, List.mem_append, Option.mem_toList, windowBusy_iff]
  exact hb.symm

/-- Check 3 of R9, over the old window. -/
theorem anyHeld_iff (hh : holds ↔ ∃ v f, old = some v ∧ v.kind = .coded ∧ v.feed = some f ∧
      ∃ k ∈ c.clips.list, holding k.state = true ∧
        ∃ u ∈ c.rings[f].units, u.complete = true ∧
          ∃ x ∈ k.feeds, x.feed = f ∧ spanIncludes x u.seq = true) :
    old.any (windowHeld c) = true ↔ holds := by
  rw [hh, Option.any_eq_true]
  constructor
  · rintro ⟨v, hv, held⟩
    obtain ⟨f, h⟩ := (windowHeld_iff c v).1 held
    exact ⟨v, f, hv, h⟩
  · rintro ⟨v, f, hv, h⟩
    exact ⟨v, hv, (windowHeld_iff c v).2 ⟨f, h⟩⟩

/-- The outcome of two ordered checks, as R9 orders BUSY before HELD. -/
theorem orderedChecks {b h : Bool} (hb : b = true ↔ busy) (hh : h = true ↔ holds) :
    ((if b then some ResultCode.busy else if h then some .held else none) = some .busy ↔ busy) ∧
    ((if b then some ResultCode.busy else if h then some .held else none) = some .held ↔
      ¬busy ∧ holds) ∧
    ((if b then some ResultCode.busy else if h then some .held else none) = none ↔ ¬busy ∧ ¬holds) := by
  rw [← hb, ← hh]
  clear hb hh
  cases b <;> cases h <;> decide

end

/-! ### The obligation -/

/-- Settles O12, from the equations of the two commands, of `changeEntry` and of the checks. -/
theorem windowTable : Obligations.WindowTable := by
  refine ⟨fun a entry kind feed base size s e w h he hw args state => ?_,
    fun a entry kind feed base size s h => ⟨fun bad => ?_, fun e w he hw => ⟨fun args => ?_,
      fun r args state => ?_⟩⟩,
    fun feed base size => ⟨rfl, rfl, rfl, rfl, fun f hf => ?_⟩, fun c e w => ?_,
    fun c old new busy holds hb hh => ?_, fun a entry s h => ⟨fun bad => ?_, fun e he ne => ?_⟩,
    discardList_rings⟩
  case refine_1 =>
    have passes := fun d => exec_windowSet_passes h he hw args state (d := d)
    refine ⟨fun notCoded notReport old => passes _ ?_, fun report old => passes _ ?_,
      fun f coded hf old => passes _ ?_, fun v f hv coded hf =>
        ⟨fun notCoded notReport => passes _ ?_, fun report => passes _ ?_,
          fun g coded' hg ne => passes _ ?_⟩⟩
    · rw [changeEntry_plain (fun _ e => Option.some.inj e ▸ notReport), codedFeeds_none old notCoded]
      exact serveIfNew_same rfl rfl
    · rw [changeEntry_report report, codedFeeds_none old (by rw [report]; decide)]
      exact serveIfNew_same rfl rfl
    · rw [changeEntry_plain (fun _ e => Option.some.inj e ▸ (by rw [coded]; decide)),
        codedFeeds_new (codedFeed_coded coded hf) old]
      rfl
    · rw [changeEntry_plain (fun _ e => Option.some.inj e ▸ notReport), hv,
        codedFeeds_old (codedFeed_coded coded hf) notCoded]
      rfl
    · rw [changeEntry_report report, hv,
        codedFeeds_old (codedFeed_coded coded hf) (by rw [report]; decide)]
      rfl
    · rw [changeEntry_plain (fun _ e => Option.some.inj e ▸ (by rw [coded']; decide)), hv,
        codedFeeds_both (codedFeed_coded coded hf) (codedFeed_coded coded' hg) ne]
      rfl
  case refine_2 => exact exec_windowSet_malformed h (bad.imp entryOf_none (windowOf_none _ _))
  case refine_3 => exact exec_windowSet_args h he hw args
  case refine_4 => exact exec_windowSet_state h he hw args state
  case refine_5 =>
    have index := index8_some hf
    exact ⟨by rw [windowOf_capture index], by rw [windowOf_coded index]⟩
  case refine_6 =>
    rw [windowArgsOk_iff, boundsOk_iff, kindSizeOk_iff, othersOk_iff]
    simp only [and_assoc]
  case refine_7 =>
    rw [windowState_eq]
    exact orderedChecks (anyBusy_iff hb) (anyHeld_iff hh)
  case refine_8 => exact exec_windowClear_badArg h bad
  case refine_9 =>
    refine ⟨fun v r hv state => ?_, fun hv => ?_, fun v hv state =>
      ⟨fun notCoded => exec_windowClear_passes h he ne hv state ?_,
        fun f coded hf => exec_windowClear_passes h he ne hv state ?_⟩⟩
    · rw [exec_windowClear h, windowClear_entry (entryOf_some he) ne, hv, state]
      rfl
    · rw [exec_windowClear h, windowClear_entry (entryOf_some he) ne, hv]
      rfl
    · rw [changeEntry_plain (fun _ e => by cases e), hv, codedFeeds_clearedOther notCoded]
      exact serveIfNew_same rfl rfl
    · rw [changeEntry_plain (fun _ e => by cases e), hv,
        codedFeeds_cleared (codedFeed_coded coded hf)]
      rfl

end Sys2Proof.Machine
end

section
/-! SUPPORT. What RESTART ends and what it keeps, block by block (R26, R27). -/

namespace Sys2Proof.Machine

/-! ### The in-flight list -/

/-- Every command in flight is one on the whole part (R27). -/
def OnlyWhole (c : Chip) : Prop := ∀ e ∈ c.cmd.inflight, e.object = .whole

/-- An ended entry leaves the list; what stays keeps its name and object (R23). -/
theorem mem_endEntry {x e : InFlight} {r : ResultCode} {l : List Byte} {c : Chip}
    (h : x ∈ (endEntry e r l c).cmd.inflight) :
    ∃ y ∈ c.cmd.inflight, y.ident ≠ e.ident ∧ y.ident = x.ident ∧ y.object = x.object := by
  have kept : (endEntry e r l c).cmd.inflight =
      (c.cmd.inflight.filter fun x => x.ident != e.ident).map fun x =>
        { x with waits := x.waits.filter fun i => i != e.ident } := by
    unfold endEntry
    split
    · exact (askResult_reportOnly _ _ _ _ _ _).inflight
    · rfl
  rw [kept] at h
  obtain ⟨y, hy, rfl⟩ := List.mem_map.1 h
  obtain ⟨hy, ne⟩ := List.mem_filter.1 hy
  exact ⟨y, hy, by simpa using ne, rfl, rfl⟩

theorem endEntry_onlyWhole (e : InFlight) (r : ResultCode) (l : List Byte) {c : Chip} (h : OnlyWhole c) :
    OnlyWhole (endEntry e r l c) := fun _ hx => by
  obtain ⟨y, hy, -, -, object⟩ := mem_endEntry hx
  exact object.symm.trans (h y hy)

theorem settleFences_onlyWhole (n : Nat) {c : Chip} (h : OnlyWhole c) : OnlyWhole (settleFences n c) := by
  induction n generalizing c with
  | zero => exact h
  | succ n ih =>
    rw [settleFences]
    split
    · exact h
    · exact ih (endEntry_onlyWhole _ _ _ h)

theorem finishObject_onlyWhole (o : Object) (l : List Byte) {c : Chip} (h : OnlyWhole c) :
    OnlyWhole (finishObject o l c) := by
  unfold finishObject
  split
  · exact h
  · exact settleFences_onlyWhole _ (endEntry_onlyWhole _ _ _ h)

/-- The entries ended in turn are gone, and nothing joined the list (R26). -/
theorem mem_endEntries {l : List InFlight} {x : InFlight} {c : Chip}
    (h : x ∈ (l.foldl (fun c e => endEntry e .busy [] c) c).cmd.inflight) :
    ∃ y ∈ c.cmd.inflight, (∀ e ∈ l, y.ident ≠ e.ident) ∧ y.ident = x.ident ∧
      y.object = x.object := by
  induction l generalizing c with
  | nil => exact ⟨x, h, fun _ he => absurd he List.not_mem_nil, rfl, rfl⟩
  | cons e l ih =>
    obtain ⟨y, hy, away, name, object⟩ := ih h
    obtain ⟨z, hz, ne, name', object'⟩ := mem_endEntry hy
    refine ⟨z, hz, fun w hw => ?_, name'.trans name, object'.trans object⟩
    rcases List.mem_cons.1 hw with rfl | hw
    · exact ne
    · exact name' ▸ away w hw

theorem endOthers_onlyWhole (c : Chip) : OnlyWhole (endOthers c) := fun x hx => by
  obtain ⟨y, hy, away, -, object⟩ := mem_endEntries hx
  by_contra other
  exact away y (List.mem_filter.2 ⟨hy, by simpa [object] using other⟩) rfl

theorem endOthers_command (c : Chip) : CommandOnly c (endOthers c) := by
  unfold endOthers
  generalize c.cmd.inflight.filter (fun e => e.object != .whole) = l
  induction l generalizing c with
  | nil => exact .refl c
  | cons e l ih => exact (endEntry_command _ _ _ _).trans (ih _)

/-! ### The blocks that RESTART winds down by an update -/

theorem restartFeed_state (r : Feed) : (restartFeed r).state = .idle ∨ (restartFeed r).state = .ready := by
  unfold restartFeed
  cases r.state <;> simp

/-- No live member and no RESERVED record is left in a ring, and its next sequence stays (R75, R94). -/
theorem restartRings_ring (c : Chip) (f : Fin 8) :
    (∀ u ∈ (restartRings (restartCoder (restartCapture (restartScheduler c)))).rings[f].units,
      u.complete = true ∧ u.live = false) ∧
    (restartRings (restartCoder (restartCapture (restartScheduler c)))).rings[f].nextSeq =
      c.rings[f].nextSeq := by
  have ring : (restartRings (restartCoder (restartCapture (restartScheduler c)))).rings[f] =
      restartRing { c.rings[f] with units := c.rings[f].units.map fun u => { u with live := false } } := by
    simp [restartRings, restartCoder, restartCapture, restartScheduler]
  rw [ring]
  refine ⟨fun u hu => ?_, rfl⟩
  obtain ⟨hu, complete⟩ := List.mem_filter.1 hu
  obtain ⟨v, -, rfl⟩ := List.mem_map.1 hu
  exact ⟨complete, rfl⟩

theorem restartCapture_feed (c : Chip) (f : Fin 8) :
    (restartRings (restartCoder (restartCapture (restartScheduler c)))).feeds[f] =
      restartFeed c.feeds[f] := by
  simp [restartRings, restartCoder, restartCapture, restartScheduler]

/-- The part after the parts of a RESTART that only set fields (R54, R75, R94, R116, R183). -/
def restartFields (c : Chip) : Chip :=
  restartMixer (restartRings (restartCoder (restartCapture (restartScheduler c))))

/-! ### The clip log and the path links -/

/-- What ending the sends and the paths may change: reports, the clip log, the path links with the UP
count, the rates and the LABEL queue; the CLIP queue and the return list stay empty. -/
structure WindOnly (c d : Chip) : Prop where
  same : d =
    { c with
      mem.buffer := d.mem.buffer
      mem.alternating := d.mem.alternating
      cmd := d.cmd
      clips := d.clips
      tally := d.tally
      paths := d.paths
      sched.label := d.sched.label
      sched.rates := d.sched.rates
      sched.clipQ := d.sched.clipQ
      sched.returns := d.sched.returns }
  stack : d.tally.stack = c.tally.stack
  inflight : d.cmd.inflight = c.cmd.inflight
  clipQ : c.sched.clipQ = [] → d.sched.clipQ = []
  returns : c.sched.returns = [] → d.sched.returns = []

theorem WindOnly.refl (c : Chip) : WindOnly c c := ⟨rfl, rfl, rfl, id, id⟩

theorem WindOnly.trans {a b c : Chip} (h : WindOnly a b) (k : WindOnly b c) : WindOnly a c :=
  ⟨by rw [k.same, h.same], k.stack.trans h.stack, k.inflight.trans h.inflight, k.clipQ ∘ h.clipQ,
    k.returns ∘ h.returns⟩

theorem WindOnly.after {a b c : Chip} (k : WindOnly b c) (h : WindOnly a b) : WindOnly a c := h.trans k

theorem foldl_windOnly {α : Type} {g : Chip → α → Chip} (k : ∀ c x, WindOnly c (g c x)) (l : List α)
    (c : Chip) : WindOnly c (l.foldl g c) := by
  induction l generalizing c with
  | nil => exact .refl c
  | cons x l ih => exact (k c x).trans (ih _)

theorem LogOnly.wind {c d : Chip} (h : LogOnly c d) (stack : d.tally.stack = c.tally.stack) :
    WindOnly c d :=
  ⟨by rw [h.same], stack, h.inflight, fun e => by rw [h.same]; exact e, fun e => by rw [h.same]; exact e⟩

theorem ReportOnly.wind {c d : Chip} (h : ReportOnly c d) : WindOnly c d :=
  ⟨by rw [h.same], by rw [h.tally], h.inflight, fun e => by rw [h.sched]; exact e,
    fun e => by rw [h.sched]; exact e⟩

theorem closeAuto_stack (f : Fin 8) (r : CloseReason) (c : Chip) :
    (closeAuto f r c).tally.stack = c.tally.stack := by
  unfold closeAuto
  dsimp only
  split
  · exact closeClip_stack _ _ _
  · rfl

theorem closeStack_empties (r : CloseReason) (s : List Nat) (c : Chip) (h : c.tally.stack = s) :
    (closeStack r s c).tally.stack = [] := by
  induction s generalizing c with
  | nil => exact h
  | cons top rest ih => exact ih _ (closeClip_stack _ _ _)

theorem mapClip_wind (n : Nat) (g : Clip → Clip) (c : Chip) : WindOnly c (mapClip n g c) :=
  (mapClip_logOnly n g c).wind rfl

theorem withdrawClip_wind (n : Nat) (c : Chip) : WindOnly c (withdrawClip n c) := by
  refine ⟨rfl, rfl, rfl, fun empty => ?_, fun empty => ?_⟩
  · show c.sched.clipQ.filter _ = []
    rw [empty]
    rfl
  · show c.sched.returns.filter _ = []
    rw [empty]
    rfl

theorem restartSend_wind (c : Chip) (n : Nat) : WindOnly c (restartSend c n) :=
  (((withdrawClip_wind n c).trans (mapClip_wind n _ _)).trans (mapClip_wind n _ _)).trans
    (askReport_reportOnly _ _ _).wind

theorem restartTrim_wind (c : Chip) : WindOnly c (restartTrim c) := by
  unfold restartTrim
  split
  · exact .refl c
  · exact (askReport_reportOnly _ _ _).wind.after ⟨rfl, rfl, rfl, id, id⟩

theorem restartClips_wind (c : Chip) : WindOnly c (restartClips c) := by
  have closed : WindOnly c (eight.foldl (fun c f => closeAuto f .restart c) c) :=
    foldl_windOnly (fun c f => (closeAuto_logOnly f .restart c).wind (closeAuto_stack f _ c)) _ c
  unfold restartClips
  generalize eight.foldl (fun c f => closeAuto f .restart c) c = d at closed ⊢
  exact (closed.trans (foldl_windOnly restartSend_wind _ d)).trans (restartTrim_wind _)

/-- No trim session is left (R152). -/
theorem restartTrim_trim (c : Chip) : (restartTrim c).clips.trim = none := by
  unfold restartTrim
  split
  · assumption
  · rw [(askReport_reportOnly _ _ _).clips]

/-- A path's state and the host's cap stand as they stood. -/
def SamePaths (c d : Chip) : Prop :=
  ∀ p : Fin 4, d.paths[p].state = c.paths[p].state ∧ d.paths[p].hostCap = c.paths[p].hostCap

theorem SamePaths.of_eq {c d : Chip} (h : d.paths = c.paths) : SamePaths c d := fun p => by
  rw [h]
  exact ⟨rfl, rfl⟩

theorem SamePaths.trans {a b c : Chip} (h : SamePaths a b) (k : SamePaths b c) : SamePaths a c :=
  fun p => ⟨(k p).1.trans (h p).1, (k p).2.trans (h p).2⟩

theorem withdrawClip_samePaths (n : Nat) (c : Chip) : SamePaths c (withdrawClip n c) := fun p => by
  have filtered : (withdrawClip n c).paths[p] =
      { c.paths[p] with queue := c.paths[p].queue.filter fun f => !ofClip n f.item } := by
    simp [withdrawClip, withdrawItems]
  rw [filtered]
  exact ⟨rfl, rfl⟩

theorem restartSend_samePaths (c : Chip) (n : Nat) : SamePaths c (restartSend c n) := by
  refine (withdrawClip_samePaths n c).trans (.of_eq ?_)
  unfold restartSend abortSend
  rw [(askReport_reportOnly _ _ _).paths, (mapClip_logOnly n _ _).paths, (mapClip_logOnly n _ _).paths]

theorem restartSends_samePaths (l : List Nat) (c : Chip) : SamePaths c (l.foldl restartSend c) := by
  induction l generalizing c with
  | nil => exact .of_eq rfl
  | cons n l ih => exact (restartSend_samePaths c n).trans (ih _)

theorem restartTrim_paths (c : Chip) : (restartTrim c).paths = c.paths := by
  unfold restartTrim
  split
  · rfl
  · exact (askReport_reportOnly _ _ _).paths

theorem restartClips_samePaths (c : Chip) : SamePaths c (restartClips c) := by
  have closed := (foldl_logOnly (fun c f => closeAuto_logOnly f .restart c) eight c).paths
  unfold restartClips
  generalize eight.foldl (fun c f => closeAuto f .restart c) c = d at closed ⊢
  exact (SamePaths.of_eq closed).trans
    ((restartSends_samePaths _ d).trans (.of_eq (restartTrim_paths _)))

theorem restartClips_trim (c : Chip) : (restartClips c).clips.trim = none := by
  unfold restartClips
  generalize eight.foldl (fun c f => closeAuto f .restart c) c = d
  exact restartTrim_trim _

/-! ### The path links -/

theorem setPath_samePaths {c : Chip} {p : Fin 4} {r : PathRec} (state : r.state = c.paths[p].state)
    (hostCap : r.hostCap = c.paths[p].hostCap) : SamePaths c (setPath c p r) := fun q => by
  by_cases e : q = p
  · subst e
    rw [setPath_same]
    exact ⟨state, hostCap⟩
  · rw [setPath_other _ _ _ _ e]
    exact ⟨rfl, rfl⟩

theorem setPath_wind (c : Chip) (p : Fin 4) (r : PathRec) : WindOnly c (setPath c p r) :=
  ⟨rfl, rfl, rfl, id, id⟩

theorem loseFrame_down (p : Fin 4) (c : Chip) :
    WindOnly c (loseFrame p c) ∧ SamePaths c (loseFrame p c) ∧ (loseFrame p c).clips = c.clips := by
  unfold loseFrame
  split
  · exact ⟨setPath_wind _ _ _, setPath_samePaths rfl rfl, rfl⟩
  all_goals exact ⟨.refl c, .of_eq rfl, rfl⟩

/-- A path that goes down at RESTART returns no fragment and keeps its state (R157, R168). -/
theorem goDown_down (p : Fin 4) (c : Chip) :
    WindOnly c (goDown p false c) ∧ SamePaths c (goDown p false c) ∧
      (goDown p false c).clips = c.clips := by
  obtain ⟨wind, same, clips⟩ := loseFrame_down p c
  unfold goDown
  split
  · dsimp only
    rw [if_neg Bool.false_ne_true]
    have emptied : SamePaths c (setPath (loseFrame p c) p { (loseFrame p c).paths[p] with queue := [] }) :=
      same.trans (setPath_samePaths rfl rfl)
    exact ⟨(wind.trans (setPath_wind _ _ _)).trans (setPath_wind _ _ _),
      emptied.trans (setPath_samePaths (by rfl) (by rfl)), clips⟩
  · exact ⟨.refl c, .of_eq rfl, rfl⟩

theorem tellTally_training_wind (old : PathState) (c : Chip) :
    WindOnly c (tellTally old .training c) ∧ (tellTally old .training c).clips = c.clips := by
  unfold tellTally pathWentDown
  rw [if_neg (by decide)]
  split
  · exact ⟨⟨rfl, rfl, rfl, id, id⟩, rfl⟩
  · exact ⟨.refl c, rfl⟩

/-- The entry into TRAINING ends no PATH RETRAIN (R155, R159). -/
theorem enterTraining_wind (p : Fin 4) (reason : PathReason) (n : Nat) (c : Chip) :
    WindOnly c (enterTraining p reason n c) ∧ (enterTraining p reason n c).clips = c.clips := by
  have report := stateReport_reportOnly p c.paths[p].state reason n (trainingRec c.paths[p])
    (setPath c p { trainingRec c.paths[p] with due := [] })
  obtain ⟨told, clips⟩ := tellTally_training_wind c.paths[p].state
    (allocate (stateReport p c.paths[p].state reason n (trainingRec c.paths[p])
      (setPath c p { trainingRec c.paths[p] with due := [] })))
  have allocated : ∀ d : Chip, WindOnly d (allocate d) := fun d => ⟨rfl, rfl, rfl, id, id⟩
  exact ⟨((setPath_wind c p _).trans (report.wind.trans (allocated _))).trans told,
    clips.trans report.clips⟩

/-- One path's part of a RESTART (R168). -/
theorem restartPath_wind (c : Chip) (p : Fin 4) :
    WindOnly c (restartPath c p) ∧ (restartPath c p).clips = c.clips := by
  obtain ⟨down, -, kept⟩ := goDown_down p c
  unfold restartPath
  split
  · exact ⟨.refl c, rfl⟩
  · obtain ⟨training, clips⟩ := enterTraining_wind p .restart 0 (clearFailed p (goDown p false c))
    exact ⟨(down.trans (setPath_wind _ _ _)).trans training, clips.trans kept⟩

/-- The paths of a RESTART so far: an enabled one among `done` is TRAINING, the rest as they were (R168). -/
def Retrained (done : List (Fin 4)) (c d : Chip) : Prop :=
  ∀ q : Fin 4, d.paths[q].hostCap = c.paths[q].hostCap ∧
    d.paths[q].state =
      if q ∈ done ∧ c.paths[q].state ≠ .disabled then .training else c.paths[q].state

theorem restartPath_retrained (c : Chip) (p : Fin 4) : Retrained [p] c (restartPath c p) := fun q => by
  unfold restartPath
  split
  · next off =>
    refine ⟨rfl, (if_neg ?_).symm⟩
    rintro ⟨here, on⟩
    rw [List.mem_singleton.1 here] at on
    exact on off
  · next on =>
    obtain ⟨-, same, -⟩ := goDown_down p c
    have cleared : SamePaths c (clearFailed p (goDown p false c)) :=
      same.trans (setPath_samePaths rfl rfl)
    obtain ⟨state, hostCap⟩ := cleared q
    rw [enterTraining, changeState_path]
    by_cases e : q = p
    · subst e
      rw [if_pos rfl, if_pos ⟨List.mem_singleton_self _, on⟩]
      exact ⟨hostCap, rfl⟩
    · rw [if_neg e, if_neg (fun h => e (List.mem_singleton.1 h.1))]
      exact ⟨hostCap, state⟩

theorem Retrained.trans {l m : List (Fin 4)} {a b c : Chip} (h : Retrained l a b) (k : Retrained m b c) :
    Retrained (l ++ m) a c := fun q => by
  obtain ⟨cap, state⟩ := h q
  obtain ⟨cap', state'⟩ := k q
  refine ⟨cap'.trans cap, ?_⟩
  rw [state', state]
  generalize a.paths[q].state = x
  by_cases off : x = .disabled
  · simp [off]
  · by_cases first : q ∈ l <;> simp [off, first]

theorem restartPaths (l : List (Fin 4)) (c : Chip) :
    WindOnly c (l.foldl restartPath c) ∧ (l.foldl restartPath c).clips = c.clips ∧
      Retrained l c (l.foldl restartPath c) := by
  induction l generalizing c with
  | nil => exact ⟨.refl c, rfl, fun q => ⟨rfl, (if_neg fun h => List.not_mem_nil h.1).symm⟩⟩
  | cons p l ih =>
    obtain ⟨wind, clips⟩ := restartPath_wind c p
    obtain ⟨wind', clips', retrained⟩ := ih (restartPath c p)
    exact ⟨wind.trans wind', clips'.trans clips, (restartPath_retrained c p).trans retrained⟩

/-! ### The whole command -/

theorem mem_four (p : Fin 4) : p ∈ four := by revert p; decide

theorem exec_restart {a : CmdHead} {s : State} (h : takes (.restart a) s = true) :
    exec (.restart a) s = .next { s with intake := [], chip := restart a s.chip } :=
  if_pos h

/-- The mark stack is emptied, the clips and the paths are wound down (R133, R152, R168). -/
structure WoundDown (c d : Chip) : Prop where
  same : d =
    { c with
      mem.buffer := d.mem.buffer
      mem.alternating := d.mem.alternating
      cmd := d.cmd
      clips := d.clips
      tally := d.tally
      paths := d.paths
      sched.label := d.sched.label
      sched.rates := d.sched.rates
      sched.clipQ := d.sched.clipQ
      sched.returns := d.sched.returns }
  clipQ : c.sched.clipQ = [] → d.sched.clipQ = []
  returns : c.sched.returns = [] → d.sched.returns = []
  stack : d.tally.stack = []
  trim : d.clips.trim = none
  retrained : Retrained four c d
  whole : OnlyWhole c → OnlyWhole d

theorem CommandOnly.woundDown {a c d : Chip} (k : CommandOnly c d) (whole : OnlyWhole c → OnlyWhole d)
    (h : WoundDown a c) : WoundDown a d where
  same := by rw [k.same, h.same]
  clipQ e := by rw [k.sched, h.clipQ e]
  returns e := by rw [k.sched, h.returns e]
  stack := by rw [k.tally, h.stack]
  trim := by rw [k.clips, h.trim]
  retrained q := by rw [k.paths]; exact h.retrained q
  whole e := whole (h.whole e)

/-- The tally and signal unit's part empties the mark stack (R133). -/
theorem restartTally_wind (c : Chip) :
    WindOnly { c with tally.stack := [] } (restartTally c) ∧ SamePaths c (restartTally c) := by
  have log := closeStack_logOnly .restart c.tally.stack c
  have stack := closeStack_empties .restart c.tally.stack c rfl
  have paths : (restartTally c).paths = c.paths := log.paths
  unfold restartTally at paths ⊢
  generalize closeStack .restart c.tally.stack c = d at log stack paths ⊢
  refine ⟨⟨by rw [log.same], stack, log.inflight, fun e => ?_, fun e => ?_⟩, .of_eq paths⟩
  · rw [log.same]
    exact e
  · rw [log.same]
    exact e

theorem Retrained.of_same {l : List (Fin 4)} {a b c : Chip} (h : SamePaths a b) (k : Retrained l b c) :
    Retrained l a c := fun q => by
  obtain ⟨cap, state⟩ := k q
  rw [cap, state, (h q).1, (h q).2]
  exact ⟨rfl, rfl⟩

theorem restartTail_woundDown (c : Chip) :
    WoundDown c (four.foldl restartPath (restartClips (restartTally c))) := by
  obtain ⟨tally, tallyPaths⟩ := restartTally_wind c
  have clips := restartClips_wind (restartTally c)
  have clipPaths := tallyPaths.trans (restartClips_samePaths (restartTally c))
  have trim := restartClips_trim (restartTally c)
  generalize restartClips (restartTally c) = d at clips clipPaths trim ⊢
  obtain ⟨paths, kept, retrained⟩ := restartPaths four d
  generalize four.foldl restartPath d = e at paths kept retrained ⊢
  have all := (tally.trans clips).trans paths
  exact
    { same := by rw [all.same]
      clipQ := all.clipQ
      returns := all.returns
      stack := all.stack
      trim := by rw [kept, trim]
      retrained := .of_same clipPaths retrained
      whole := fun h x hx => h x (all.inflight ▸ hx) }

/-- RESTART ends the other commands, sets the fields and winds the rest down; with the own-write buffer
empty it completes at once (R26, R27). -/
theorem restart_woundDown (a : CmdHead) (c : Chip) :
    WoundDown (restartFields (endOthers (conclude 0x71 a c (.begun .whole c)))) (restart a c) := by
  unfold restart restartBlocks
  generalize endOthers (conclude 0x71 a c (.begun .whole c)) = o
  have tail := restartTail_woundDown (restartFields o)
  unfold restartFields at tail ⊢
  generalize restartMixer (restartRings (restartCoder (restartCapture (restartScheduler o)))) = b at tail ⊢
  generalize four.foldl restartPath (restartClips (restartTally b)) = d at tail ⊢
  dsimp only
  split
  · exact (finishObject_command .whole [] d).woundDown (finishObject_onlyWhole .whole []) tail
  · exact tail

/-- Settles O17. -/
theorem restartLeaves : Obligations.RestartLeaves := by
  intro a s h
  refine ⟨_, exec_restart h, ?_⟩
  have ended : CommandOnly s.chip (endOthers (conclude 0x71 a s.chip (.begun .whole s.chip))) :=
    .trans (b := conclude 0x71 a s.chip (.begun .whole s.chip)) ⟨rfl⟩ (endOthers_command _)
  have whole := endOthers_onlyWhole (conclude 0x71 a s.chip (.begun .whole s.chip))
  have wound := restart_woundDown a s.chip
  generalize endOthers (conclude 0x71 a s.chip (.begun .whole s.chip)) = o at ended whole wound
  generalize restart a s.chip = d at wound ⊢
  have rings : d.rings = (restartFields o).rings := by rw [wound.same]
  have feed : ∀ f : Fin 8, d.feeds[f] = restartFeed s.chip.feeds[f] := fun f => by
    rw [← ended.feeds, ← restartCapture_feed, wound.same]
    rfl
  have mixer : d.mixer = (restartMixer s.chip).mixer := by
    rw [restartMixer, ← ended.mixer, wound.same]
    rfl
  have paths : (restartFields o).paths = s.chip.paths := ended.paths
  refine ⟨rfl, rfl, ?_, ?_, fun f => ?_, ?_, ?_, fun f => ?_, ?_, ?_, ?_, ?_, ?_, wound.stack, wound.trim,
    ?_, ?_, wound.clipQ rfl, wound.returns rfl, ?_, fun p => ?_, wound.whole whole⟩
  case refine_1 =>
    rw [wound.same]
    show o.mem.windows = _
    rw [ended.same]
  case refine_2 =>
    rw [wound.same]
    show o.timing = _
    rw [ended.same]
  case refine_3 =>
    rw [feed]
    exact ⟨restartFeed_state _, rfl, rfl, rfl, rfl⟩
  case refine_6 =>
    rw [rings, ← ended.rings]
    exact restartRings_ring o f
  case refine_14 =>
    rw [wound.same, ← ended.sched]
    rfl
  case refine_15 =>
    obtain ⟨cap, state⟩ := wound.retrained p
    rw [paths] at cap state
    exact ⟨fun off => by rw [state, if_neg fun on => on.2 off, off],
      fun on => by rw [state, if_pos ⟨mem_four p, on⟩], cap⟩
  case refine_7 | refine_8 | refine_9 | refine_10 | refine_11 => rw [mixer]; rfl
  all_goals rw [wound.same]; rfl

end Sys2Proof.Machine
end

section
/-! SUPPORT. The links and the serves (R163 to R165, R172 to R176). -/

namespace Sys2Proof.Machine

/-! ### The beginning of a transmission -/

/-- The lines of a fragment that pending own writes cover, as they stand there (R13, R165). -/
def linesAtOnce (b : List OwnWrite) (f : Fragment) : List (Option Line) :=
  (fragmentLines f).map fun a => if covered b a then some (mergePending b a zeroLine) else none

/-- The own reads that the other lines of a fragment need (R14, R165). -/
def readsFor (p : Fin 4) (b : List OwnWrite) (f : Fragment) : List OwnRead :=
  ((fragmentLines f).zipIdx.filter fun x => !covered b x.1).map fun x =>
    { path := p, seq := f.seq, addr := x.1, index := x.2 }

theorem readsFor_length (p : Fin 4) (b : List OwnWrite) (f : Fragment) :
    (readsFor p b f).length = (fragmentLines f).countP fun a => !covered b a := by
  have first : (fragmentLines f).zipIdx.map Prod.fst = fragmentLines f := by simp
  rw [readsFor, List.length_map, ← List.countP_eq_length_filter]
  conv_rhs => rw [← first, List.countP_map]
  rfl

theorem readsFor_eq (p : Fin 4) (b : List OwnWrite) (f : Fragment) :
    readsFor p b f = (fragmentLines f).zipIdx.filterMap fun x =>
      if covered b x.1 then none else some { path := p, seq := f.seq, addr := x.1, index := x.2 } := by
  unfold readsFor
  induction (fragmentLines f).zipIdx with
  | nil => rfl
  | cons x l ih => cases e : covered b x.1 <;> simp [e, ih]

theorem mayBegin_true {r : PathRec} {f : Fragment} {rest : List Fragment} (queue : r.queue = f :: rest)
    (up : r.state = .up) (free : r.held = false) (quiet : r.link = .quiet) (due : r.due = []) :
    mayBegin r = true := by simp [mayBegin, queue, up, free, quiet, due]

theorem mayBegin_false {r : PathRec} (h : r.queue = [] ∨ r.state ≠ .up ∨ r.held = true) :
    mayBegin r = false := by
  rcases h with h | h | h <;> simp [mayBegin, h]

section
variable {p : Fin 4} {c : Chip} {f : Fragment} {rest : List Fragment}

theorem beginTransmission_begins (queue : c.paths[p].queue = f :: rest) (up : c.paths[p].state = .up)
    (free : c.paths[p].held = false) (quiet : c.paths[p].link = .quiet) (due : c.paths[p].due = []) :
    beginTransmission p c =
      setPath { c with mem.ownReads := c.mem.ownReads ++ readsFor p c.mem.buffer f } p
        { c.paths[p] with queue := rest, link := .frame f (linesAtOnce c.mem.buffer f), sent := true } := by
  unfold beginTransmission
  rw [if_pos (mayBegin_true queue up free quiet due), queue]
  rfl

theorem beginTransmission_none
    (h : c.paths[p].queue = [] ∨ c.paths[p].state ≠ .up ∨ c.paths[p].held = true) :
    beginTransmission p c = c := by
  unfold beginTransmission
  rw [if_neg (by rw [mayBegin_false h]; exact Bool.false_ne_true)]

end

/-! ### A fragment's lines -/

/-- A fragment of a unit reads the lines that hold its bytes (R165). -/
theorem fragmentLines_unit {f : Fragment} (audio : ∀ n, f.item ≠ .audio n)
    (message : ∀ k n, f.item ≠ .message k n) :
    fragmentLines f =
      (List.range ((f.addr + f.offset + f.length - 1) / 64 + 1 - (f.addr + f.offset) / 64)).map
        fun i => ((f.addr + f.offset) / 64 + i) * 64 := by
  unfold fragmentLines
  split
  · next n e => exact absurd e (audio n)
  · next k n e => exact absurd e (message k n)
  all_goals rfl

theorem fragmentLines_none {f : Fragment}
    (h : (∃ n, f.item = .audio n) ∨ ∃ k n, f.item = .message k n) : fragmentLines f = [] := by
  unfold fragmentLines
  rcases h with ⟨n, h⟩ | ⟨k, n, h⟩ <;> rw [h]

theorem fragmentLines_rising (f : Fragment) : (fragmentLines f).Pairwise (· < ·) := by
  have rising : ∀ first n : Nat,
      ((List.range n).map fun i => (first + i) * Config.lineBytes).Pairwise (· < ·) := fun first n =>
    List.pairwise_map.2 (List.pairwise_lt_range.imp fun {i j} (lt : i < j) =>
      Nat.mul_lt_mul_of_pos_right (Nat.add_lt_add_left lt first) (by decide))
  unfold fragmentLines
  split
  · exact .nil
  · exact .nil
  all_goals exact rising _ _

theorem mem_fragmentLines {f : Fragment} (audio : ∀ n, f.item ≠ .audio n)
    (message : ∀ k n, f.item ≠ .message k n) (bytes : 0 < f.length) (a : Nat) :
    a ∈ fragmentLines f ↔
      a % 64 = 0 ∧ a < f.addr + f.offset + f.length ∧ f.addr + f.offset < a + 64 := by
  rw [fragmentLines_unit audio message, List.mem_map]
  constructor
  · rintro ⟨i, hi, rfl⟩
    rw [List.mem_range] at hi
    omega
  · rintro ⟨line, below, above⟩
    exact ⟨a / 64 - (f.addr + f.offset) / 64, List.mem_range.2 (by omega), by omega⟩

/-! ### The ready path of the greatest credit -/

theorem ready_iff (r : PathRec) : ready r = true ↔
    r.state = .up ∧ r.held = false ∧ r.queue.length < 4 ∧ 0 < r.credit := by
  simp only [ready, Bool.and_eq_true, beq_iff_eq, Bool.not_eq_true', decide_eq_true_eq, and_assoc]
  rfl

/-- Path `p` goes before path `q`: more credit, or the lower number among equals (R176). -/
def Before (c : Chip) (p q : Fin 4) : Prop :=
  c.paths[q].credit < c.paths[p].credit ∨ c.paths[q].credit = c.paths[p].credit ∧ p < q

/-- The best ready path among those looked at, if there is one. -/
def IsBest (c : Chip) (l : List (Fin 4)) : Option (Fin 4) → Prop
  | none => ∀ q ∈ l, ready c.paths[q] = false
  | some p =>
    p ∈ l ∧ ready c.paths[p] = true ∧ ∀ q ∈ l, ready c.paths[q] = true → q ≠ p → Before c p q

section
variable {c : Chip} {l : List (Fin 4)} {p : Fin 4}

/-- A path that is not ready changes no choice. -/
theorem IsBest.skip {best : Option (Fin 4)} (h : IsBest c l best) (idle : ready c.paths[p] = false) :
    IsBest c (l ++ [p]) best := by
  cases best with
  | none =>
    intro q hq
    rcases List.mem_append.1 hq with hq | hq
    · exact h q hq
    · exact List.mem_singleton.1 hq ▸ idle
  | some b =>
    obtain ⟨listed, free, first⟩ := h
    refine ⟨List.mem_append_left _ listed, free, fun q hq rq ne => ?_⟩
    rcases List.mem_append.1 hq with hq | hq
    · exact first q hq rq ne
    · rw [List.mem_singleton.1 hq, idle] at rq
      cases rq

/-- A ready path behind those looked at is taken when none of them is ready or the best has less credit. -/
theorem IsBest.take {best : Option (Fin 4)} (h : IsBest c l best) (free : ready c.paths[p] = true)
    (more : ∀ b, best = some b → c.paths[b].credit < c.paths[p].credit) :
    IsBest c (l ++ [p]) (some p) := by
  refine ⟨List.mem_append_right _ (List.mem_singleton_self p), free, fun q hq rq ne => ?_⟩
  have listed : q ∈ l := (List.mem_append.1 hq).resolve_right fun e => ne (List.mem_singleton.1 e)
  cases best with
  | none =>
    rw [h q listed] at rq
    cases rq
  | some b =>
    have less := more b rfl
    by_cases e : q = b
    · exact .inl (e ▸ less)
    · rcases h.2.2 q listed rq e with first | ⟨equal, -⟩
      · exact .inl (first.trans less)
      · exact .inl (equal ▸ less)

/-- The best so far stays before a later path of no more credit. -/
theorem IsBest.keep {b : Fin 4} (h : IsBest c l (some b)) (later : ∀ q ∈ l, q < p)
    (more : ¬c.paths[b].credit < c.paths[p].credit) : IsBest c (l ++ [p]) (some b) := by
  obtain ⟨listed, free, first⟩ := h
  refine ⟨List.mem_append_left _ listed, free, fun q hq rq ne => ?_⟩
  rcases List.mem_append.1 hq with hq | hq
  · exact first q hq rq ne
  · rw [List.mem_singleton.1 hq]
    rcases lt_or_eq_of_le (not_lt.1 more) with less | equal
    · exact .inl less
    · exact .inr ⟨equal, later b listed⟩

/-- What the choice makes of the next path (R176). -/
def bestOf (c : Chip) (best : Option (Fin 4)) (p : Fin 4) : Option (Fin 4) :=
  if ready c.paths[p] then
    match best with
    | none => some p
    | some b => if c.paths[b].credit < c.paths[p].credit then some p else best
  else best

theorem bestReady_eq (c : Chip) : bestReady c = four.foldl (bestOf c) none := rfl

theorem isBest_bestOf {best : Option (Fin 4)} (h : IsBest c l best) (later : ∀ q ∈ l, q < p) :
    IsBest c (l ++ [p]) (bestOf c best p) := by
  unfold bestOf
  split
  · next free =>
    split
    · exact h.take free fun _ e => by cases e
    · next b =>
      split
      · next less => exact h.take free fun _ e => Option.some.inj e ▸ less
      · next more => exact h.keep later more
  · next idle => exact h.skip (Bool.eq_false_iff.2 idle)

theorem bestReady_isBest (c : Chip) : IsBest c four (bestReady c) := by
  have none : IsBest c [] none := fun _ h => absurd h List.not_mem_nil
  rw [bestReady_eq]
  have zero := isBest_bestOf (p := 0) none (by decide)
  have one := isBest_bestOf (p := 1) zero (by decide)
  have two := isBest_bestOf (p := 2) one (by decide)
  exact isBest_bestOf (p := 3) two (by decide)

theorem bestReady_none_iff (c : Chip) : bestReady c = none ↔ ∀ q : Fin 4, ready c.paths[q] = false := by
  refine ⟨fun h q => ?_, bestReady_none⟩
  have best := bestReady_isBest c
  rw [h] at best
  exact best q (mem_four q)

theorem bestReady_some_iff (c : Chip) (p : Fin 4) : bestReady c = some p ↔
    ready c.paths[p] = true ∧ ∀ q : Fin 4, ready c.paths[q] = true → q ≠ p → Before c p q := by
  have best := bestReady_isBest c
  constructor
  · intro h
    rw [h] at best
    exact ⟨best.2.1, fun q => best.2.2 q (mem_four q)⟩
  · rintro ⟨free, first⟩
    cases e : bestReady c with
    | none =>
      rw [(bestReady_none_iff c).1 e p] at free
      cases free
    | some b =>
      rw [e] at best
      obtain ⟨-, freeB, firstB⟩ := best
      by_contra ne
      have other : b ≠ p := fun h => ne (congrArg some h)
      rcases first b freeB other with less | ⟨equal, lower⟩ <;>
        rcases firstB p (mem_four p) free other.symm with less' | ⟨equal', lower'⟩ <;> omega

end

/-! ### The end of a frame or of a word -/

section
variable {p : Fin 4} {c : Chip}

/-- An event after which no path is ready and which issues no own read is served nothing (R15, R176). -/
theorem inReadOrder_quiet {k : Chip → Chip} (reads : (k c).mem.ownReads = c.mem.ownReads) :
    inReadOrder k c = k c := by
  have kept : (k c).mem.ownReads.take c.mem.ownReads.length ++
      (four.flatMap fun p => ((k c).mem.ownReads.drop c.mem.ownReads.length).filter fun r => r.path == p) =
        (k c).mem.ownReads := by simp [reads]
  unfold inReadOrder
  dsimp only
  rw [kept]

theorem inReadOrder_same (k : Chip → Chip) (c : Chip) :
    (inReadOrder k c).paths = (k c).paths ∧ (inReadOrder k c).sched = (k c).sched := ⟨rfl, rfl⟩

/-- A new record that is no readier than the old one leaves no path ready. -/
theorem setPath_idle {r : PathRec} (idle : ∀ q : Fin 4, ready c.paths[q] = false) (hr : ready r = false)
    (q : Fin 4) : ready (setPath c p r).paths[q] = false := by
  by_cases e : q = p
  · subst e
    rw [setPath_same]
    exact hr
  · rw [setPath_other _ _ _ _ e]
    exact idle q

/-- What is served after the link's move, with no path ready then: nothing (R163). -/
theorem moveOn_eq {d : Chip} (moved : linkFree p c = d) (idle : ∀ q : Fin 4, ready d.paths[q] = false) :
    moveOn p c = inReadOrder (linkFree p) c := by
  unfold moveOn inReadOrder
  dsimp only
  rw [moved, serve_quiet idle]

theorem moveOn_quiet {r : PathRec} (moved : linkFree p c = setPath c p r)
    (idle : ∀ q : Fin 4, ready c.paths[q] = false) (hr : ready r = false) :
    moveOn p c = setPath c p r := by
  rw [moveOn_eq moved (setPath_idle idle hr), inReadOrder_quiet (by rw [moved]; rfl), moved]

theorem linkFree_word {w : ControlWord} {more : List ControlWord} (due : c.paths[p].due = w :: more) :
    linkFree p c = setPath c p { c.paths[p] with link := .word w, due := more, sent := true } := by
  unfold linkFree
  dsimp only
  rw [due]

theorem linkFree_frame (due : c.paths[p].due = []) :
    linkFree p c = beginTransmission p (setPath c p { c.paths[p] with link := .quiet }) := by
  unfold linkFree
  dsimp only
  rw [due]

/-- With no word waiting the head fragment begins (R165). -/
theorem linkFree_begins {f : Fragment} {rest : List Fragment} (due : c.paths[p].due = [])
    (queue : c.paths[p].queue = f :: rest) (up : c.paths[p].state = .up) (free : c.paths[p].held = false) :
    ∃ got reads, linkFree p c =
      setPath { c with mem.ownReads := reads } p
        { c.paths[p] with queue := rest, link := .frame f got, sent := true } := by
  have same : (setPath c p { c.paths[p] with link := .quiet }).paths[p] =
      { c.paths[p] with link := .quiet } := setPath_same _ _ _
  have moved := (linkFree_frame due).trans
    (beginTransmission_begins (by rw [same]; exact queue) (by rw [same]; exact up)
      (by rw [same]; exact free) (by rw [same]) (by rw [same]; exact due))
  rw [same] at moved
  exact ⟨_, _, moved.trans (setPath_set { c with mem.ownReads := _ } p _ _)⟩

section
variable (idle : ∀ q : Fin 4, ready c.paths[q] = false)
include idle

/-- A waiting word goes out first (R165). -/
theorem moveOn_word {w : ControlWord} {more : List ControlWord} (due : c.paths[p].due = w :: more) :
    moveOn p c = setPath c p { c.paths[p] with link := .word w, due := more, sent := true } :=
  moveOn_quiet (linkFree_word due) idle (idle p)

/-- With nothing to send the link falls quiet (R165). -/
theorem moveOn_nothing (due : c.paths[p].due = [])
    (none : c.paths[p].queue = [] ∨ c.paths[p].state ≠ .up ∨ c.paths[p].held = true) :
    moveOn p c = setPath c p { c.paths[p] with link := .quiet } := by
  refine moveOn_quiet ?_ idle (idle p)
  rw [linkFree_frame due, beginTransmission_none]
  rw [setPath_same]
  exact none

/-- With no word waiting the head fragment begins (R165). -/
theorem moveOn_frame {f : Fragment} {rest : List Fragment} (due : c.paths[p].due = [])
    (queue : c.paths[p].queue = f :: rest) (up : c.paths[p].state = .up) (free : c.paths[p].held = false)
    (credit : c.paths[p].credit ≤ 0) :
    ∃ got, (moveOn p c).paths[p] =
        { c.paths[p] with queue := rest, link := .frame f got, sent := true } ∧
      (moveOn p c).sched = c.sched := by
  obtain ⟨got, reads, moved⟩ := linkFree_begins due queue up free
  have spent : ∀ q : Fin 4, ready (linkFree p c).paths[q] = false := fun q => by
    rw [moved]
    refine setPath_idle (c := { c with mem.ownReads := reads }) idle ?_ q
    rw [Bool.eq_false_iff, ne_eq, ready_iff]
    exact fun on => absurd on.2.2.2 (not_lt.2 credit)
  obtain ⟨paths, sched⟩ := inReadOrder_same (linkFree p) c
  rw [moveOn_eq rfl spent, paths, sched, moved]
  exact ⟨got, setPath_same _ _ _, rfl⟩

end

/-- TRANSMISSION_END and CONTROL_WORD_END move the link on; `r` is the path's record but for the link
(R165). -/
theorem linkEnd_moves {i : Instr} {s : State} {r : PathRec} (h : s.chip.resetHeld = false)
    (idle : ∀ q : Fin 4, ready s.chip.paths[q] = false)
    (ends : (i = .transmissionEnd p ∧ (∃ f got, s.chip.paths[p].link = .frame f got) ∧
          r = { s.chip.paths[p] with sent := true }) ∨
        (i = .controlWordEnd p ∧ (∃ w, s.chip.paths[p].link = .word w) ∧ r = s.chip.paths[p])) :
    ∃ c l, exec i s = .next { s with chip := moveOn p c } ∧ c.paths[p] = { r with link := l } ∧
      (∀ x, setPath c p x = setPath s.chip p x) ∧ c.sched = s.chip.sched ∧
      ∀ q : Fin 4, ready c.paths[q] = false := by
  rcases ends with ⟨rfl, ⟨f, got, link⟩, rfl⟩ | ⟨rfl, ⟨w, link⟩, rfl⟩
  · refine ⟨frameGone p s.chip, .quiet, ?_, setPath_same _ _ _, fun x => setPath_set _ _ _ _, rfl,
      setPath_idle idle (idle p)⟩
    rw [exec_event (k := frameEnds p) h rfl, frameEnds, link]
  · refine ⟨s.chip, s.chip.paths[p].link, ?_, rfl, fun _ => rfl, rfl, idle⟩
    rw [exec_event (k := wordEnds p) h rfl, wordEnds, link]

end

/-! ### One serve -/

theorem ageLive_clipQ (n : Nat) (c : Chip) : (ageLive n c).sched.clipQ = c.sched.clipQ := by
  induction n generalizing c with
  | zero => rfl
  | succ n ih =>
    rw [ageLive]
    split
    · rfl
    · split
      · rw [ih, settleMember_sched]
        rfl
      · rfl

section
variable {c : Chip} {p : Fin 4} (best : bestReady c = some p)
include best

theorem serveOnce_return {r : ReturnEntry} {rest : List ReturnEntry} (returns : c.sched.returns = r :: rest) :
    serveOnce c = (serveReturn p r rest c, true) := by
  unfold serveOnce
  rw [best]
  dsimp only
  rw [returns]

theorem serveOnce_audio {a : AudioItem} {rest : List AudioItem} (returns : c.sched.returns = [])
    (audio : c.sched.audio = a :: rest) : serveOnce c = (serveAudio p a rest c, true) := by
  unfold serveOnce
  rw [best]
  dsimp only
  rw [returns, audio]

theorem serveOnce_label {m : LabelItem} {rest : List LabelItem} (returns : c.sched.returns = [])
    (audio : c.sched.audio = []) (label : c.sched.label = m :: rest) :
    serveOnce c = (serveLabel p m rest c, true) := by
  unfold serveOnce
  rw [best]
  dsimp only
  rw [returns, audio, label]

section
variable (returns : c.sched.returns = []) (audio : c.sched.audio = []) (label : c.sched.label = [])
include returns audio label

theorem serveOnce_live {i : LiveItem} (earliest : earliestLive (ageLive c.sched.live.length c) = some i) :
    serveOnce c = (serveLive p i (ageLive c.sched.live.length c), true) := by
  unfold serveOnce
  rw [best]
  dsimp only
  rw [returns, audio, label]
  dsimp only
  rw [earliest]

theorem serveOnce_nothing (earliest : earliestLive (ageLive c.sched.live.length c) = none)
    (clipQ : c.sched.clipQ = []) : serveOnce c = (ageLive c.sched.live.length c, false) := by
  unfold serveOnce
  rw [best]
  dsimp only
  rw [returns, audio, label]
  dsimp only
  rw [earliest, ageLive_clipQ, clipQ]

theorem serveOnce_clip {q : ClipItem} {rest : List ClipItem} {u : ClipUnit} {us : List ClipUnit}
    (earliest : earliestLive (ageLive c.sched.live.length c) = none) (clipQ : c.sched.clipQ = q :: rest)
    (units : q.units = u :: us) :
    serveOnce c = (serveClip p q rest u us (ageLive c.sched.live.length c), true) := by
  unfold serveOnce
  rw [best]
  dsimp only
  rw [returns, audio, label]
  dsimp only
  rw [earliest, ageLive_clipQ, clipQ]
  dsimp only
  rw [units]

end

end

/-- The CLIP queue after a serve from its head clip's current unit (R174). -/
theorem serveClip_eq {p : Fin 4} {q : ClipItem} {rest : List ClipItem} {u : ClipUnit}
    {us : List ClipUnit} {k : Nat} {c : Chip} (hk : k = min (c.paths[p].mtu - 28) (u.length - u.cursor)) :
    serveClip p q rest u us c =
      clipHanded q.clip k
        (hand p .clip (.clipUnit q.clip u.feed u.seq) u.addr u.cursor u.length k []
          { c with
            sched.clipQ :=
              if u.cursor + k < u.length then
                { q with units := { u with cursor := u.cursor + k } :: us } :: rest
              else if us = [] then rest else { q with units := us } :: rest }) := by
  have cut : serveClip p q rest u us c =
      clipHanded q.clip k
        (hand p .clip (.clipUnit q.clip u.feed u.seq) u.addr u.cursor u.length k []
          { c with
            sched.clipQ :=
              if (if u.cursor + k < u.length then { u with cursor := u.cursor + k } :: us
                  else us).isEmpty then rest
              else { q with units :=
                if u.cursor + k < u.length then { u with cursor := u.cursor + k } :: us
                else us } :: rest }) := by
    rw [hk]
    rfl
  rw [cut]
  by_cases part : u.cursor + k < u.length
  · simp only [if_pos part]
    rfl
  · simp only [if_neg part, List.isEmpty_iff]

/-- Settles O52. -/
theorem linkTransmits : Obligations.LinkTransmits := by
  refine ⟨fun p s r h idle i ends => ?_, fun p c f rest queue up free quiet due => ?_,
    fun c => ⟨ready_iff, bestReady_none_iff c, bestReady_some_iff c⟩,
    fun p cls item addr off total k data c => rfl, fun c p k => ?_⟩
  · obtain ⟨c, l, run, here, set, sched, quiet⟩ := linkEnd_moves h idle ends
    refine ⟨fun w more due => ?_, fun due none => ?_, fun f rest due queue up free credit => ?_⟩
    · rw [run, moveOn_word quiet (by rw [here]; exact due), set, here]
    · rw [run, moveOn_nothing quiet (by rw [here]; exact due) (by rw [here]; exact none), set, here]
    · obtain ⟨got, record, kept⟩ := moveOn_frame quiet (by rw [here]; exact due)
        (by rw [here]; exact queue) (by rw [here]; exact up) (by rw [here]; exact free) (by rw [here]; exact credit)
      exact ⟨_, got, run, rfl, rfl, by rw [record, here], kept.trans sched⟩
  · rw [beginTransmission_begins queue up free quiet due, setPath_same]
    exact ⟨rfl, ⟨_, rfl, List.length_map _, rfl⟩, by simp [readsFor_length],
      by rw [setPath_mem, readsFor_eq], rfl, fragmentLines_rising f, mem_fragmentLines, fragmentLines_none, rfl⟩
  · refine ⟨fun none => by rw [serveOnce, none], fun best => ⟨fun r rest returns hk => ?_,
      fun a rest returns audio hk => ?_, fun m rest returns audio label hk => ?_,
      fun d returns audio label hd => ?_⟩⟩
    · rw [serveOnce_return best returns, hk]
      rfl
    · rw [serveOnce_audio best returns audio, hk]
      rfl
    · rw [serveOnce_label best returns audio label, hk]
      rfl
    · have paths : d.paths = c.paths := hd ▸ ageLive_paths _ _
      rw [← paths]
      subst hd
      refine ⟨fun i earliest hk => ?_, serveOnce_nothing best returns audio label,
        fun q rest u us earliest clipQ units hk => ?_⟩
      · rw [serveOnce_live best returns audio label earliest, hk]
        rfl
      · rw [serveOnce_clip best returns audio label earliest clipQ units, serveClip_eq hk]

end Sys2Proof.Machine
end

section
/-! SUPPORT. The invariant at reset, the placing and the loss of reports, the attention commands and the
status second (R20, R29 to R35, R162). -/

namespace Sys2Proof.Machine

/-! ### The state after a reset -/

/-- Settles O4: every bounded list is empty and no path is UP. -/
theorem resetHasInvariant : Obligations.ResetHasInvariant where
  canonical := rfl
  intakeBound := Nat.zero_le _
  chip :=
    { buffer := Nat.zero_le _
      staging := Nat.zero_le _
      fired := Nat.zero_le _
      sched := ⟨Nat.zero_le _, Nat.zero_le _, Nat.zero_le _, Nat.zero_le _⟩
      paths := ⟨by decide, by decide⟩
      clips :=
        { records := Nat.zero_le _
          numbers := List.nodup_nil
          sending := fun _ h => absurd h List.not_mem_nil
          depth := Nat.zero_le _
          once := List.nodup_nil
          marks := fun _ h => absurd h List.not_mem_nil
          marked := fun _ h => absurd h List.not_mem_nil } }

/-! ### Commands that end as they are taken -/

/-- A command taken: its effect is the end its owner's answer gives it (R20). -/
theorem exec_concluded {i : Instr} {s : State} {k : BitVec 16} {a : CmdHead} {v : Chip → Verdict}
    (h : takes i s = true) (e : exec i s = command i s fun c => conclude k a c (v c)) :
    exec i s = .next (s.taken (conclude k a s.chip (v s.chip))) := e.trans (command_taken h)

/-- Settles O13: the refusal asks for nothing but its RESULT. -/
theorem unknownKindRefused : Obligations.UnknownKindRefused := by
  intro h kind s _ taken
  exact ⟨_, exec_concluded (v := fun _ => .refused .badKind) taken rfl, rfl, askReport_reportOnly _ _ _,
    askReport_pending (x := .command) rfl _ _⟩

/-! ### A report's line -/

/-- Four bytes in memory order, the lower two apart, read back. -/
theorem word32_lowBytes (x : BitVec 32) :
    (x.extractLsb' 16 16 ++ (x.extractLsb' 8 8 ++ x.extractLsb' 0 8) : BitVec 32) = x := by
  have low : (x.extractLsb' 8 8 ++ x.extractLsb' 0 8 : BitVec 16) = x.extractLsb' 0 16 := by
    simpa using word16_le16 (x.extractLsb' 0 16)
  rw [low, word32_le32]

theorem word32_reportLine_index (c : Chip) (k : ReportKind) (body : List Byte) :
    word32 (reportLine c k body) 0 = c.cmd.producer := by
  simp only [word32, word16, reportLine, lineByte_lineOf]
  simp [le32, le16, word16_le16]
  exact word32_lowBytes _

theorem word32_reportLine_house (c : Chip) (k : ReportKind) (body : List Byte) :
    word32 (reportLine c k body) 8 = c.timing.count := by
  simp only [word32, word16, reportLine, lineByte_lineOf]
  simp [le32, le16, word16_le16]
  exact word32_lowBytes _

theorem lineByte_reportLine_kind (c : Chip) (k : ReportKind) (body : List Byte) :
    lineByte (reportLine c k body) 4 = byteOf (reportCode k) := by
  simp [reportLine, lineByte_lineOf, le32, le16]

theorem lineByte_reportLine_cause {k : ReportKind} {x : Cause} (h : reportCause k = some x) (c : Chip)
    (body : List Byte) : lineByte (reportLine c k body) 5 = byteOf (causeCode x) := by
  simp [reportLine, lineByte_lineOf, le32, le16, h]

/-! ### A report's way to the own-write buffer -/

/-- The own writes of reports and blocks that stand, in the order in which they drain (R11, R29). -/
def standing (c : Chip) : List OwnWrite := c.mem.buffer ++ c.cmd.staging

/-- A report's cause concerns the pending set alone (R33). -/
theorem raiseCause_eq (k : ReportKind) (c : Chip) :
    raiseCause k c = { c with cmd.pendingSet := (raiseCause k c).cmd.pendingSet } := by
  unfold raiseCause
  split <;> rfl

/-- Draining the staging list moves its head and loses nothing (R29). -/
theorem drainStaging_standing (n : Nat) (c : Chip) : standing (drainStaging n c) = standing c := by
  induction n generalizing c with
  | zero => rfl
  | succ n ih =>
    rw [drainStaging]
    split
    · rfl
    · next w rest staged =>
      split
      · rw [ih]
        simp [standing, pushOwn, staged]
      · rfl

/-- Of the command unit, draining the staging list concerns that list alone (R29). -/
theorem drainStaging_cmd (n : Nat) (c : Chip) :
    (drainStaging n c).cmd = { c.cmd with staging := (drainStaging n c).cmd.staging } := by
  induction n generalizing c with
  | zero => rfl
  | succ n ih =>
    rw [drainStaging]
    split
    · rfl
    · split
      · rw [ih]
        rfl
      · rfl

/-- The own write of a report placed: the whole line p mod N of the ring (section 11.2). -/
def reportWrite (w : Window) (k : ReportKind) (body : List Byte) (c : Chip) : OwnWrite :=
  { addr := w.base + c.cmd.producer.toNat % ringLines w * 64, data := reportLine c k body,
    mask := fullMask }

/-- A report placed stands last. -/
theorem placeReport_standing (w : Window) (k : ReportKind) (body : List Byte) (c : Chip) :
    standing (placeReport w k body c) = standing c ++ [reportWrite w k body c] := by
  unfold placeReport
  dsimp only
  rw [drainStaging_standing]
  split <;> exact (List.append_assoc _ _ _).symm

/-- A report placed takes the index p (R29). -/
theorem placeReport_producer (w : Window) (k : ReportKind) (body : List Byte) (c : Chip) :
    (placeReport w k body c).cmd.producer = c.cmd.producer + 1 := by
  unfold placeReport
  dsimp only
  rw [drainStaging_cmd]
  split <;> rfl

section
variable {c : Chip} {w : Window}

/-- When a report finds no room (R29). -/
theorem noReportRoom_iff (w : Window) (c : Chip) : noReportRoom w c = true ↔
    c.cmd.overfull = true ∨ ringLines w ≤ occupancy c ∨ 8 ≤ c.cmd.staging.length := by
  simp only [noReportRoom, Bool.or_eq_true, decide_eq_true_eq, or_assoc]
  rfl

theorem putReport_window (window : reportWindow c = some w) (k : ReportKind) (body : List Byte) :
    putReport k body c = if noReportRoom w c then loseReport c else placeReport w k body c := by
  rw [putReport, window]

/-- With a REPORT window, a report asked for is lost or placed, its cause pending (R29). -/
theorem askReport_window (window : reportWindow c = some w) (k : ReportKind) (body : List Byte) :
    askReport k body c =
      if noReportRoom w c then loseReport (raiseCause k c) else placeReport w k body (raiseCause k c) := by
  have same : reportWindow (raiseCause k c) = some w := by
    rw [raiseCause_eq]
    exact window
  have room : noReportRoom w (raiseCause k c) = noReportRoom w c := by
    rw [raiseCause_eq]
    rfl
  rw [askReport, putReport_window same, room]

theorem askReport_placed (k : ReportKind) (body : List Byte) (window : reportWindow c = some w)
    (notOver : c.cmd.overfull = false) (free : occupancy c < ringLines w)
    (room : c.cmd.staging.length < 8) :
    askReport k body c = placeReport w k body (raiseCause k c) := by
  have fits : ¬noReportRoom w c = true := by
    rw [noReportRoom_iff, notOver]
    exact not_or.2 ⟨Bool.false_ne_true, by omega⟩
  rw [askReport_window window, if_neg fits]

theorem askReport_lost (k : ReportKind) (body : List Byte) (window : reportWindow c = some w)
    (full : noReportRoom w c = true) : askReport k body c = loseReport (raiseCause k c) := by
  rw [askReport_window window, if_pos full]

/-- A report with room stands with its line, the pending set being the one its cause has joined (R29). -/
theorem askReport_placed_standing (k : ReportKind) (body : List Byte) (window : reportWindow c = some w)
    (notOver : c.cmd.overfull = false) (free : occupancy c < ringLines w)
    (room : c.cmd.staging.length < 8) :
    ∃ set, standing (askReport k body c) =
      standing c ++ [reportWrite w k body { c with cmd.pendingSet := set }] := by
  rw [askReport_placed k body window notOver free room, placeReport_standing, raiseCause_eq]
  exact ⟨_, rfl⟩

end

/-- A report takes no standing own write away (R29, R32). -/
theorem askReport_standing (k : ReportKind) (body : List Byte) (c : Chip) :
    standing c <+: standing (askReport k body c) := by
  unfold askReport putReport
  rw [raiseCause_eq]
  split
  · exact List.prefix_refl _
  · split
    · unfold loseReport
      split <;> exact List.prefix_refl _
    · rw [placeReport_standing]
      exact List.prefix_append _ _

/-- A report lost (R32, R33). -/
theorem loseReport_fields (c : Chip) : (loseReport c).cmd.producer = c.cmd.producer ∧
    (loseReport c).mem.buffer = c.mem.buffer ∧ (loseReport c).cmd.overfull = true ∧
    (loseReport c).cmd.lost = min 65535 (c.cmd.lost + 1) ∧
    (c.cmd.overfull = false → (loseReport c).cmd.pendingSet.getLsbD 7 = true) := by
  unfold loseReport
  cases mark : c.cmd.overfull with
  | true => exact ⟨rfl, rfl, rfl, rfl, nofun⟩
  | false => exact ⟨rfl, rfl, rfl, rfl, fun _ => (makePending_get .reports c 7).trans (by simp [causeCode])⟩

/-- Settles O14. -/
theorem reportPlacedOrLost : Obligations.ReportPlacedOrLost := by
  refine ⟨fun k x body c w cause window notOver free room => ⟨?_, askReport_pending cause body c, ?_⟩,
    fun k x body c w cause window full => ?_⟩
  · rw [askReport_placed k body window notOver free room, placeReport_producer, raiseCause_eq]
  · obtain ⟨set, stands⟩ := askReport_placed_standing k body window notOver free room
    refine ⟨reportWrite w k body { c with cmd.pendingSet := set }, ?_, rfl, rfl,
      word32_reportLine_index _ _ _, word32_reportLine_house _ _ _, lineByte_reportLine_kind _ _ _,
      lineByte_reportLine_cause cause _ _, fun i => lineByte_reportLine _ _ _ i⟩
    change _ ∈ standing _
    rw [stands]
    exact List.mem_concat_self
  · have pending := askReport_pending cause body c
    rw [askReport_lost k body window ((noReportRoom_iff w c).2 full)] at pending ⊢
    obtain ⟨producer, buffer, overfull, lost, first⟩ := loseReport_fields (raiseCause k c)
    rw [raiseCause_eq] at producer buffer lost first
    rw [raiseCause_eq] at pending overfull ⊢
    exact ⟨producer, buffer, overfull, lost, pending, first⟩

/-! ### Attention -/

/-- The attention line: some cause is pending and enabled (R34). -/
theorem attention_iff (c : Chip) : c.attention = true ↔
    ∃ n, n < 8 ∧ c.cmd.pendingSet.getLsbD n = true ∧ c.cmd.enableSet.getLsbD n = true := by
  rw [Chip.attention, bne_iff_ne]
  constructor
  · intro some
    by_contra none
    push Not at none
    refine some (BitVec.eq_of_getLsbD_eq fun i hi => ?_)
    change _ = (0#8).getLsbD i
    rw [BitVec.getLsbD_and, BitVec.getLsbD_zero, Bool.and_eq_false_iff, or_iff_not_imp_left,
      Bool.not_eq_false]
    exact fun pending => Bool.eq_false_iff.2 (none i hi pending)
  · rintro ⟨n, -, pending, enabled⟩ zero
    have bit : (c.cmd.pendingSet &&& c.cmd.enableSet).getLsbD n = true := by
      rw [BitVec.getLsbD_and, pending, enabled]
      rfl
    rw [zero] at bit
    exact absurd bit (by simp)

/-- A cause taken out of a set (R34). -/
theorem getLsbD_withoutCause (set : Byte) (m n : Nat) (h : n < 8) :
    (set &&& ~~~(BitVec.ofNat 8 (2 ^ m))).getLsbD n = (set.getLsbD n && decide (n ≠ m)) := by
  simp only [BitVec.getLsbD_and, BitVec.getLsbD_not, BitVec.getLsbD_ofNat, Nat.testBit_two_pow, h]
  simp [eq_comm]

/-- Settles O15. -/
theorem attentionCommands : Obligations.AttentionCommands := by
  refine ⟨attention_iff, fun a causes s h => exec_concluded (v := attentionSet causes) h rfl,
    fun a cause s h => ⟨fun above => ?_, fun below => ?_⟩⟩
  · rw [exec_concluded (v := attentionClear cause) h rfl, attentionClear, index8_none above]
    rfl
  · refine ⟨{ s.chip with
        cmd.pendingSet := s.chip.cmd.pendingSet &&& ~~~(BitVec.ofNat 8 (2 ^ cause.toNat)) }, ?_, rfl,
      getLsbD_withoutCause _ _⟩
    have index : index8 cause = some ⟨cause.toNat, Nat.lt_succ_of_le below⟩ := index8_some rfl
    rw [exec_concluded (v := attentionClear cause) h rfl, attentionClear, index]
    rfl

/-! ### The status second -/

/-- A path's record after DEGRADED was decided for it (R162). -/
def judged (r : PathRec) : PathRec := { r with errors := 0, degraded := decide (16 < r.errors) }

/-- Only the paths and what writing reports changes may differ, and no standing own write left. -/
structure PathsReported (c d : Chip) : Prop where
  same : d =
    { c with
      mem.buffer := d.mem.buffer
      mem.alternating := d.mem.alternating
      cmd := d.cmd
      paths := d.paths }
  standing : standing c <+: standing d

theorem PathsReported.trans {a b c : Chip} (h : PathsReported a b) (k : PathsReported b c) :
    PathsReported a c :=
  ⟨by rw [k.same, h.same], h.standing.trans k.standing⟩

/-- The decision on DEGRADED is a path's new record and at most a report (R162). -/
theorem decideDegraded_cases (c : Chip) (p : Fin 4) :
    decideDegraded c p = setPath c p (judged c.paths[p]) ∨
      ∃ body, decideDegraded c p = askReport .path body (setPath c p (judged c.paths[p])) := by
  unfold decideDegraded
  dsimp only
  split
  · exact .inl rfl
  · exact .inr ⟨_, rfl⟩

theorem decideDegraded_reported (c : Chip) (p : Fin 4) : PathsReported c (decideDegraded c p) := by
  rcases decideDegraded_cases c p with e | ⟨body, e⟩
  · rw [e]
    exact ⟨rfl, List.prefix_refl _⟩
  · rw [e]
    exact ⟨by rw [(askReport_reportOnly _ _ _).same]; rfl,
      askReport_standing .path body (setPath c p (judged c.paths[p]))⟩

theorem decideDegraded_paths (c : Chip) (p q : Fin 4) :
    (decideDegraded c p).paths[q] = if q = p then judged c.paths[q] else c.paths[q] := by
  have paths : (decideDegraded c p).paths = (setPath c p (judged c.paths[p])).paths := by
    rcases decideDegraded_cases c p with e | ⟨body, e⟩
    · rw [e]
    · rw [e, (askReport_reportOnly _ _ _).paths]
  rw [paths]
  split
  · next h =>
    subst h
    exact setPath_same c q _
  · next h => exact setPath_other c p q _ h

/-- The decisions path by path (R162). -/
theorem decideDegradeds (l : List (Fin 4)) (once : l.Nodup) (c : Chip) :
    PathsReported c (l.foldl decideDegraded c) ∧ ∀ q : Fin 4, (l.foldl decideDegraded c).paths[q] =
      if q ∈ l then judged c.paths[q] else c.paths[q] := by
  induction l generalizing c with
  | nil => exact ⟨⟨rfl, List.prefix_refl _⟩, fun q => by simp⟩
  | cons p l ih =>
    obtain ⟨fresh, once⟩ := List.nodup_cons.1 once
    obtain ⟨reported, paths⟩ := ih once (decideDegraded c p)
    refine ⟨(decideDegraded_reported c p).trans reported, fun q => ?_⟩
    rw [List.foldl_cons, paths, decideDegraded_paths]
    by_cases here : q = p
    · simp [here, fresh]
    · simp [here]

/-- The part as the paths decide DEGRADED: the STATUS report asked for and the marks cleared (R35). -/
def statusAsked (intake : Nat) (c : Chip) : Chip :=
  clearMarks (askReport .status (statusBody intake { c with cmd.statusTimer := some 1000 })
    { c with cmd.statusTimer := some 1000 })

theorem statusSecond_eq (intake : Nat) (c : Chip) :
    statusSecond intake c = four.foldl decideDegraded (statusAsked intake c) := rfl

/-- Beside the STATUS report and the marks nothing changed (R35). -/
theorem statusAsked_same (intake : Nat) (c : Chip) : statusAsked intake c =
    { c with
      mem.buffer := (statusAsked intake c).mem.buffer
      mem.alternating := (statusAsked intake c).mem.alternating
      cmd := (statusAsked intake c).cmd
      feeds := c.feeds.map fun r => { r with lateMark := false, incMark := false } } := by
  have report := askReport_reportOnly .status (statusBody intake { c with cmd.statusTimer := some 1000 })
    { c with cmd.statusTimer := some 1000 }
  unfold statusAsked clearMarks
  dsimp only
  rw [report.same]

/-- Beside the reports, the marks and the paths the status second changes nothing (R35, R162). -/
theorem statusSecond_same (intake : Nat) (c : Chip) : statusSecond intake c =
    { c with
      mem.buffer := (statusSecond intake c).mem.buffer
      mem.alternating := (statusSecond intake c).mem.alternating
      cmd := (statusSecond intake c).cmd
      feeds := c.feeds.map fun r => { r with lateMark := false, incMark := false }
      paths := (statusSecond intake c).paths } := by
  have reported := (decideDegradeds four (by decide) (statusAsked intake c)).1
  rw [← statusSecond_eq] at reported
  rw [reported.same, statusAsked_same]

theorem statusSecond_path (intake : Nat) (c : Chip) (p : Fin 4) :
    (statusSecond intake c).paths[p] = judged c.paths[p] := by
  rw [statusSecond_eq, (decideDegradeds four (by decide) _).2, if_pos (mem_four p), statusAsked_same]

/-- The STATUS report of a status second still stands after the paths' own (R29, R35). -/
theorem statusSecond_report (intake : Nat) {c : Chip} {w : Window} (window : reportWindow c = some w)
    (notOver : c.cmd.overfull = false) (free : occupancy c < ringLines w)
    (room : c.cmd.staging.length < 8) :
    ∃ own ∈ standing (statusSecond intake c),
      own.addr = w.base + c.cmd.producer.toNat % ringLines w * 64 ∧
      word32 own.data 0 = c.cmd.producer ∧ lineByte own.data 4 = 10 := by
  obtain ⟨set, stands⟩ := askReport_placed_standing (c := { c with cmd.statusTimer := some 1000 }) .status
    (statusBody intake { c with cmd.statusTimer := some 1000 }) window notOver free room
  have kept := (decideDegradeds four (by decide) (statusAsked intake c)).1.standing
  have asked : standing (statusAsked intake c) = _ := stands
  rw [asked] at kept
  exact ⟨_, kept.subset List.mem_concat_self, rfl, word32_reportLine_index _ _ _,
    lineByte_reportLine_kind _ _ _⟩

/-- Settles O18. -/
theorem statusSecond_settled : Obligations.StatusSecond := by
  intro s released
  have same := statusSecond_same s.intake.length s.chip
  have path := statusSecond_path s.intake.length s.chip
  have report := @statusSecond_report s.intake.length s.chip
  refine ⟨_, exec_event (k := statusSecond s.intake.length) released rfl, rfl, rfl, ?_⟩
  generalize statusSecond s.intake.length s.chip = d at same path report ⊢
  refine ⟨fun f => ?_, path, ?_, ?_, ?_, ?_, ?_, fun w => report⟩
  case refine_1 =>
    rw [same]
    exact Vector.getElem_map _ _
  all_goals rw [same]

end Sys2Proof.Machine
end

section
/-! SUPPORT. REPORTS TAKEN, FENCE and the end of an entry in flight (R22 to R24, R31, R32). -/

namespace Sys2Proof.Machine

/-! ### REPORTS TAKEN -/

section
variable {a : CmdHead} {index : Count32} {s : State} {w : Window}

theorem exec_reportsTaken (h : takes (.reportsTaken a index) s = true) :
    exec (.reportsTaken a index) s =
      .next (s.taken (conclude 0x60 a s.chip (reportsTaken index s.chip))) :=
  exec_concluded (v := reportsTaken index) h rfl

theorem reportsTaken_window {c : Chip} (window : reportWindow c = some w) :
    reportsTaken index c =
      if (c.cmd.producer - c.cmd.consumer).toNat < (index - c.cmd.consumer).toNat then .refused .badArg
      else .completed .done [] (endOverfull { c with cmd.consumer := index }) := by
  rw [reportsTaken, window]
  exact if_neg Bool.false_ne_true

/-- REPORTS TAKEN of lines that stand: the consumer index moves, which may end an overfull period (R31). -/
theorem exec_reportsTaken_moves (h : takes (.reportsTaken a index) s = true)
    (window : reportWindow s.chip = some w)
    (within : (index - s.chip.cmd.consumer).toNat ≤ (s.chip.cmd.producer - s.chip.cmd.consumer).toNat) :
    exec (.reportsTaken a index) s =
      .next (s.taken (completedBy 0x60 a .done []
        (endOverfull { s.chip with cmd.consumer := index }))) := by
  rw [exec_reportsTaken h, reportsTaken_window window, if_neg (Nat.not_lt.2 within)]
  rfl

end

/-! ### FENCE -/

theorem exec_fence {a : CmdHead} {s : State} (h : takes (.fence a) s = true) :
    exec (.fence a) s = .next (s.taken (conclude 0x70 a s.chip (fence s.chip))) :=
  exec_concluded (v := fence) h rfl

theorem fence_eq (c : Chip) : fence c =
    if c.cmd.inflight = [] then .completed .done [] c
    else if 8 ≤ c.cmd.inflight.countP (fun e => e.object == .fence) then .refused .limit
    else .begun .fence c := by
  unfold fence
  simp only [List.isEmpty_iff]
  rfl

/-! ### An entry's end -/

/-- The in-flight list after an entry's end: it has left the list and every wait set (R23). -/
def leftBy (e : InFlight) (l : List InFlight) : List InFlight :=
  (l.filter fun x => x.ident != e.ident).map fun x =>
    { x with waits := x.waits.filter fun i => i != e.ident }

theorem mem_leftBy {e y : InFlight} {l : List InFlight} : y ∈ leftBy e l ↔
    ∃ x ∈ l, x.ident ≠ e.ident ∧ y = { x with waits := x.waits.filter fun i => i != e.ident } := by
  simp only [leftBy, List.mem_map, List.mem_filter, bne_iff_ne]
  exact ⟨fun ⟨x, ⟨hx, ne⟩, hy⟩ => ⟨x, hx, ne, hy.symm⟩, fun ⟨x, hx, ne, hy⟩ => ⟨x, ⟨hx, ne⟩, hy.symm⟩⟩

theorem leftBy_idents (e : InFlight) (l : List InFlight) :
    (leftBy e l).map (·.ident) = (l.map (·.ident)).filter fun i => i != e.ident := by
  simp only [leftBy, List.map_map, List.filter_map]
  rfl

theorem leftBy_nodup (e : InFlight) {l : List InFlight} (once : (l.map (·.ident)).Nodup) :
    ((leftBy e l).map (·.ident)).Nodup := by
  rw [leftBy_idents]
  exact once.filter _

/-- The end of an entry of the list makes it shorter. -/
theorem leftBy_length {e : InFlight} {l : List InFlight} (h : e ∈ l) : (leftBy e l).length < l.length := by
  rw [leftBy, List.length_map]
  exact List.length_filter_lt_length_iff_exists.2 ⟨e, h, by simp⟩

/-- An entry's end with DONE: the list without it, and its RESULT where R23 asks for one. -/
theorem endEntry_done (e : InFlight) (payload : List Byte) (c : Chip) :
    endEntry e .done payload c =
      if e.always = true ∨ e.object = .whole then
        askResult e.kind e.tag .host .done payload { c with cmd.inflight := leftBy e c.cmd.inflight }
      else { c with cmd.inflight := leftBy e c.cmd.inflight } := by
  have done : isRefusal .done = false := rfl
  unfold endEntry
  simp only [done, Bool.or_false, Bool.or_eq_true, beq_iff_eq]
  rfl

theorem endEntry_inflight (e : InFlight) (r : ResultCode) (payload : List Byte) (c : Chip) :
    (endEntry e r payload c).cmd.inflight = leftBy e c.cmd.inflight := by
  unfold endEntry
  split
  · exact (askResult_reportOnly _ _ _ _ _ _).inflight
  · rfl

/-- The end of an entry that reports always makes cause COMMAND pending (R23, R33). -/
theorem endEntry_pending {e : InFlight} (h : e.always = true) (payload : List Byte) (c : Chip) :
    (endEntry e .done payload c).cmd.pendingSet.getLsbD 1 = true := by
  rw [endEntry_done, if_pos (.inl h)]
  exact askReport_pending (x := .command) rfl _ _

/-! ### The FENCEs that an end settles -/

/-- This entry is a FENCE that waits for nothing (R24). -/
def dueFence (e : InFlight) : Bool := e.object == .fence && e.waits.isEmpty

theorem dueFence_iff (e : InFlight) : dueFence e = true ↔ e.object = .fence ∧ e.waits = [] := by
  simp [dueFence]

/-- Every completion of a FENCE is one of an entry of the list that waits for nothing. -/
theorem settleFences_succ (n : Nat) (c : Chip) :
    ((∀ e ∈ c.cmd.inflight, dueFence e = false) ∧ settleFences (n + 1) c = c) ∨
      ∃ e ∈ c.cmd.inflight, e.object = .fence ∧ e.waits = [] ∧
        settleFences (n + 1) c = settleFences n (endEntry e .done [] c) := by
  rw [settleFences]
  split
  · next none =>
    exact .inl ⟨fun e he => Bool.eq_false_iff.2 (List.find?_eq_none.1 none e he), rfl⟩
  · next e found =>
    obtain ⟨fence, empty⟩ := (dueFence_iff e).1 (List.find?_some found)
    exact .inr ⟨e, List.mem_of_find?_eq_some found, fence, empty, rfl⟩

/-- Without a FENCE that waits for nothing none completes. -/
theorem settleFences_idle (n : Nat) {c : Chip} (h : ∀ e ∈ c.cmd.inflight, dueFence e = false) :
    settleFences n c = c := by
  cases n with
  | zero => rfl
  | succ n =>
    rcases settleFences_succ n c with ⟨-, same⟩ | ⟨e, he, fence, empty, -⟩
    · exact same
    · exact absurd ((dueFence_iff e).2 ⟨fence, empty⟩) (Bool.eq_false_iff.1 (h e he))

/-- What stays in the list has its fields but for a smaller wait set (R24). -/
theorem settleFences_origin (n : Nat) {c : Chip} {y : InFlight}
    (h : y ∈ (settleFences n c).cmd.inflight) :
    ∃ x ∈ c.cmd.inflight, y = { x with waits := y.waits } ∧ y.waits.Sublist x.waits := by
  induction n generalizing c with
  | zero => exact ⟨y, h, rfl, List.Sublist.refl _⟩
  | succ n ih =>
    rcases settleFences_succ n c with ⟨-, same⟩ | ⟨e, -, -, -, next⟩
    · rw [same] at h
      exact ⟨y, h, rfl, List.Sublist.refl _⟩
    · rw [next] at h
      obtain ⟨z, hz, eq, sub⟩ := ih h
      rw [endEntry_inflight] at hz
      obtain ⟨x, hx, -, rfl⟩ := mem_leftBy.1 hz
      exact ⟨x, hx, eq, sub.trans List.filter_sublist⟩

/-- With a step for each entry, no FENCE stays that waits for nothing (R24). -/
theorem settleFences_done (n : Nat) {c : Chip} (bound : c.cmd.inflight.length ≤ n) :
    ∀ y ∈ (settleFences n c).cmd.inflight, y.object = .fence → y.waits ≠ [] := by
  induction n generalizing c with
  | zero =>
    intro y hy
    rw [settleFences, List.eq_nil_of_length_eq_zero (Nat.le_zero.1 bound)] at hy
    cases hy
  | succ n ih =>
    rcases settleFences_succ n c with ⟨none, same⟩ | ⟨e, he, -, -, next⟩
    · rw [same]
      exact fun y hy fence empty =>
        absurd ((dueFence_iff y).2 ⟨fence, empty⟩) (Bool.eq_false_iff.1 (none y hy))
    · rw [next]
      refine ih ?_
      rw [endEntry_inflight]
      exact Nat.le_of_lt_succ (Nat.lt_of_lt_of_le (leftBy_length he) bound)

/-- An entry that no completion of a FENCE ends: it is none, or it waits for an entry that is none (R24). -/
def Lasting (l : List InFlight) (x : InFlight) : Prop :=
  x.object = .fence → ∃ i ∈ x.waits, ∀ z ∈ l, z.object = .fence → z.ident ≠ i

/-- An entry that waits for another that is no FENCE lasts beyond an entry's end. -/
theorem lasting_leftBy {e x : InFlight} {l : List InFlight}
    (waited : x.object = .fence →
      ∃ i ∈ x.waits, i ≠ e.ident ∧ ∀ z ∈ l, z.object = .fence → z.ident ≠ i) :
    Lasting (leftBy e l) { x with waits := x.waits.filter fun i => i != e.ident } := by
  intro fence
  obtain ⟨i, hi, ne, standing⟩ := waited fence
  refine ⟨i, List.mem_filter.2 ⟨hi, bne_iff_ne.2 ne⟩, fun z hz => ?_⟩
  obtain ⟨x, hx, -, rfl⟩ := mem_leftBy.1 hz
  exact standing x hx

theorem settleFences_keeps (n : Nat) {c : Chip} {x : InFlight} (once : (c.cmd.inflight.map (·.ident)).Nodup)
    (hx : x ∈ c.cmd.inflight) (lasting : Lasting c.cmd.inflight x) :
    x.ident ∈ (settleFences n c).cmd.inflight.map (·.ident) := by
  induction n generalizing c x with
  | zero => exact List.mem_map_of_mem hx
  | succ n ih =>
    rcases settleFences_succ n c with ⟨-, same⟩ | ⟨e, he, fence, empty, next⟩
    · rw [same]
      exact List.mem_map_of_mem hx
    · have other : x.ident ≠ e.ident := fun eq => by
        have same := List.inj_on_of_nodup_map once hx he eq
        obtain ⟨i, hi, -⟩ := lasting (same ▸ fence)
        rw [same, empty] at hi
        cases hi
      rw [next]
      have left := endEntry_inflight e .done [] c
      exact ih (x := { x with waits := x.waits.filter fun i => i != e.ident })
        (left ▸ leftBy_nodup e once) (left ▸ mem_leftBy.2 ⟨x, hx, other, rfl⟩)
        (left ▸ lasting_leftBy fun f => by
          obtain ⟨i, hi, standing⟩ := lasting f
          exact ⟨i, hi, (standing e he fence).symm, standing⟩)

/-- A FENCE that reports always and is gone has asked for its RESULT (R23, R24). -/
theorem settleFences_pending (n : Nat) {c : Chip} {x : InFlight}
    (once : (c.cmd.inflight.map (·.ident)).Nodup) (hx : x ∈ c.cmd.inflight) (always : x.always = true)
    (gone : x.ident ∉ (settleFences n c).cmd.inflight.map (·.ident)) :
    (settleFences n c).cmd.pendingSet.getLsbD 1 = true := by
  induction n generalizing c x with
  | zero => exact absurd (List.mem_map_of_mem hx) gone
  | succ n ih =>
    rcases settleFences_succ n c with ⟨-, same⟩ | ⟨e, he, -, -, next⟩
    · rw [same] at gone
      exact absurd (List.mem_map_of_mem hx) gone
    · rw [next] at gone ⊢
      by_cases here : x.ident = e.ident
      · have same := List.inj_on_of_nodup_map once hx he here
        exact (settleFences_grows n _).pending 1 (endEntry_pending (same ▸ always) [] c)
      · have left := endEntry_inflight e .done [] c
        exact ih (x := { x with waits := x.waits.filter fun i => i != e.ident })
          (left ▸ leftBy_nodup e once) (left ▸ mem_leftBy.2 ⟨x, hx, here, rfl⟩) always gone

/-! ### The end of the entry on an object -/

section
variable {o : Object} {payload : List Byte} {c : Chip} {e : InFlight}

theorem finishObject_none (none : c.cmd.inflight.find? (fun e => e.object == o) = none) :
    finishObject o payload c = c := by
  rw [finishObject, none]

theorem finishObject_some (found : c.cmd.inflight.find? (fun x => x.object == o) = some e) :
    finishObject o payload c =
      settleFences (leftBy e c.cmd.inflight).length (endEntry e .done payload c) := by
  rw [finishObject, found, ← endEntry_inflight e .done payload c]

/-- With no FENCE in flight nothing completes with the entry (R24). -/
theorem finishObject_noFence (found : c.cmd.inflight.find? (fun x => x.object == o) = some e)
    (none : ∀ x ∈ c.cmd.inflight, x.object ≠ .fence) :
    finishObject o payload c = endEntry e .done payload c := by
  rw [finishObject_some found]
  refine settleFences_idle _ fun y hy => Bool.eq_false_iff.2 fun due => ?_
  rw [endEntry_inflight] at hy
  obtain ⟨x, hx, -, rfl⟩ := mem_leftBy.1 hy
  exact none x hx ((dueFence_iff _).1 due).1

/-- The only FENCE, waiting for the entry alone, completes after it (R24). -/
theorem finishObject_onlyFence {x : InFlight}
    (found : c.cmd.inflight.find? (fun x => x.object == o) = some e)
    (once : (c.cmd.inflight.map (·.ident)).Nodup) (other : e.object ≠ .fence) (hx : x ∈ c.cmd.inflight)
    (fence : x.object = .fence) (waits : x.waits = [e.ident])
    (only : ∀ y ∈ c.cmd.inflight, y.object = .fence → y = x) :
    finishObject o payload c = endEntry x .done [] (endEntry e .done payload c) := by
  have he := List.mem_of_find?_eq_some found
  have apart : x.ident ≠ e.ident := fun eq =>
    other (List.inj_on_of_nodup_map once hx he eq ▸ fence)
  have freed : { x with waits := [] } ∈ leftBy e c.cmd.inflight :=
    mem_leftBy.2 ⟨x, hx, apart, by simp [waits]⟩
  have fences : ∀ y ∈ leftBy e c.cmd.inflight, y.object = .fence → y.ident = x.ident := fun y hy hf => by
    obtain ⟨z, hz, -, rfl⟩ := mem_leftBy.1 hy
    rw [← only z hz hf]
  have left := endEntry_inflight e .done payload c
  obtain ⟨n, length⟩ := Nat.exists_eq_succ_of_ne_zero (List.length_pos_of_mem freed).ne'
  rw [finishObject_some found, length]
  rcases settleFences_succ n (endEntry e .done payload c) with ⟨none, -⟩ | ⟨y, hy, hf, -, next⟩
  · exact absurd ((dueFence_iff { x with waits := [] }).2 ⟨fence, rfl⟩)
      (Bool.eq_false_iff.1 (none _ (left ▸ freed)))
  · have same : y = { x with waits := [] } :=
      List.inj_on_of_nodup_map (leftBy_nodup e once) (left ▸ hy) freed (fences y (left ▸ hy) hf)
    rw [next, same]
    refine settleFences_idle n fun z hz => Bool.eq_false_iff.2 fun due => ?_
    rw [endEntry_inflight, left] at hz
    obtain ⟨v, hv, gone, rfl⟩ := mem_leftBy.1 hz
    exact gone (fences v hv ((dueFence_iff _).1 due).1)

/-- What stays after the end of an entry and of the FENCEs it frees (R24). -/
theorem finishObject_stays {y : InFlight}
    (found : c.cmd.inflight.find? (fun x => x.object == o) = some e)
    (h : y ∈ (finishObject o payload c).cmd.inflight) :
    (y.object = .fence → y.waits ≠ []) ∧ y.ident ≠ e.ident ∧
      ∃ x ∈ c.cmd.inflight, y = { x with waits := y.waits } ∧
        y.waits.Sublist (x.waits.filter fun i => i != e.ident) := by
  have left := endEntry_inflight e .done payload c
  rw [finishObject_some found] at h
  refine ⟨settleFences_done _ (Nat.le_of_eq (congrArg _ left)) y h, ?_⟩
  obtain ⟨z, hz, eq, sub⟩ := settleFences_origin _ h
  obtain ⟨x, hx, ne, rfl⟩ := mem_leftBy.1 (left ▸ hz)
  exact ⟨by rw [eq]; exact ne, x, hx, eq, sub⟩

/-- An entry that is no FENCE, or waits for one that stands and is none, stays (R24). -/
theorem finishObject_keeps {x : InFlight}
    (found : c.cmd.inflight.find? (fun x => x.object == o) = some e)
    (once : (c.cmd.inflight.map (·.ident)).Nodup) (hx : x ∈ c.cmd.inflight) (ne : x.ident ≠ e.ident)
    (waited : x.object = .fence → ∃ i ∈ x.waits, i ≠ e.ident ∧
      ∀ z ∈ c.cmd.inflight, z.object = .fence → z.ident ≠ i) :
    x.ident ∈ (finishObject o payload c).cmd.inflight.map (·.ident) := by
  have left := endEntry_inflight e .done payload c
  rw [finishObject_some found]
  exact settleFences_keeps _ (x := { x with waits := x.waits.filter fun i => i != e.ident })
    (left ▸ leftBy_nodup e once) (left ▸ mem_leftBy.2 ⟨x, hx, ne, rfl⟩) (left ▸ lasting_leftBy waited)

/-- A FENCE that waited for nothing but the entry leaves, its RESULT asked for if it reports always (R24). -/
theorem finishObject_frees {x : InFlight}
    (found : c.cmd.inflight.find? (fun x => x.object == o) = some e)
    (once : (c.cmd.inflight.map (·.ident)).Nodup) (hx : x ∈ c.cmd.inflight) (ne : x.ident ≠ e.ident)
    (fence : x.object = .fence) (alone : ∀ i ∈ x.waits, i = e.ident) :
    x.ident ∉ (finishObject o payload c).cmd.inflight.map (·.ident) ∧
      (x.always = true → (finishObject o payload c).cmd.pendingSet.getLsbD 1 = true) := by
  have gone : x.ident ∉ (finishObject o payload c).cmd.inflight.map (·.ident) := fun h => by
    obtain ⟨y, hy, name⟩ := List.mem_map.1 h
    obtain ⟨waiting, -, z, hz, eq, sub⟩ := finishObject_stays found hy
    have same : z = x := List.inj_on_of_nodup_map once hz hx (by rw [← name, eq])
    have none : x.waits.filter (fun i => i != e.ident) = [] := by simpa using alone
    rw [same, none] at sub
    exact waiting (by rw [eq, same]; exact fence) (List.sublist_nil.1 sub)
  refine ⟨gone, fun always => ?_⟩
  have left := endEntry_inflight e .done payload c
  rw [finishObject_some found] at gone ⊢
  exact settleFences_pending _ (x := { x with waits := x.waits.filter fun i => i != e.ident })
    (left ▸ leftBy_nodup e once) (left ▸ mem_leftBy.2 ⟨x, hx, ne, rfl⟩) always gone

end

/-! ### The obligation -/

/-- Settles O16. -/
theorem reportsTakenAndFence : Obligations.ReportsTakenAndFence := by
  refine ⟨fun a index s h => ⟨fun none => ?_, fun w window beyond => ?_, fun w window notOver within => ?_,
      fun w window full within => ⟨fun free room => ?_, fun noRoom => ?_⟩⟩,
    fun a s h => ⟨fun none => ?_, fun full => ?_, fun some room => ?_⟩,
    fun e payload c d hd => ?_, fun o payload c => ⟨finishObject_none, fun e found =>
      ⟨finishObject_noFence found, fun x hx once other fence waits only =>
        finishObject_onlyFence found once other hx fence waits only, fun once =>
        ⟨fun y hy => finishObject_stays found hy, fun x hx ne => ⟨fun plain => ?_, fun fence alone =>
          finishObject_frees found once hx ne fence alone, fun _ waited => ?_⟩⟩⟩⟩⟩
  case refine_1 =>
    rw [exec_reportsTaken h, reportsTaken, none]
    rfl
  case refine_2 =>
    rw [exec_reportsTaken h, reportsTaken_window window, if_pos beyond]
    rfl
  case refine_3 => rw [exec_reportsTaken_moves h window within, endOverfull_stays
      (c := { s.chip with cmd.consumer := index }) (.inl notOver)]
  case refine_4 =>
    rw [exec_reportsTaken_moves h window within,
      endOverfull_ends (c := { s.chip with cmd.consumer := index }) full window free room]
  case refine_5 =>
    rw [exec_reportsTaken_moves h window within, endOverfull_stays]
    exact .inr (.inr (noRoom.symm.imp_right fun used => ⟨w, window, used⟩))
  case refine_6 =>
    rw [exec_fence h, fence_eq, if_pos none]
    rfl
  case refine_7 =>
    have some : s.chip.cmd.inflight ≠ [] := fun none => by
      rw [none] at full
      cases full
    rw [exec_fence h, fence_eq, if_neg some, if_pos full]
    rfl
  case refine_8 =>
    rw [exec_fence h, fence_eq, if_neg some, if_neg (Nat.not_le.2 room)]
    rfl
  case refine_9 =>
    subst hd
    rw [endEntry_done]
    exact ⟨fun quiet part => if_neg (by simp [quiet, part]), fun asked => if_pos asked⟩
  case refine_10 => exact finishObject_keeps found once hx ne fun fence => absurd fence plain
  case refine_11 => exact finishObject_keeps found once hx ne fun _ => waited

end Sys2Proof.Machine
end

section
/-! SUPPORT. FEED CONFIG (R37, R91, R184). -/

namespace Sys2Proof.Machine

/-! ### The fields of the command line -/

theorem formatOf_some {b : Byte} {x : Format} (h : formatOf b = some x) :
    b = 0 ∧ x = .sd ∨ b = 1 ∧ x = .hd720 ∨ b = 2 ∧ x = .hd1080 := by
  unfold formatOf at h
  split at h
  · next zero => exact .inl ⟨zero, (Option.some.inj h).symm⟩
  · split at h
    · next one => exact .inr (.inl ⟨one, (Option.some.inj h).symm⟩)
    · split at h
      · next two => exact .inr (.inr ⟨two, (Option.some.inj h).symm⟩)
      · cases h

theorem formatOf_isSome (b : Byte) : (formatOf b).isSome = true ↔ b.toNat ≤ 2 := by
  by_cases zero : b = 0
  · simp [formatOf, zero]
  by_cases one : b = 1
  · simp [formatOf, one]
  by_cases two : b = 2
  · simp [formatOf, two]
  · simp only [formatOf, if_neg zero, if_neg one, if_neg two, Option.isSome_none, Bool.false_eq_true,
      false_iff]
    bv_omega

theorem modeOf_some {b : Byte} {x : Mode} (h : modeOf b = some x) :
    b = 0 ∧ x = .live ∨ b = 1 ∧ x = .record := by
  unfold modeOf at h
  split at h
  · next zero => exact .inl ⟨zero, (Option.some.inj h).symm⟩
  · split at h
    · next one => exact .inr ⟨one, (Option.some.inj h).symm⟩
    · cases h

theorem modeOf_isSome (b : Byte) : (modeOf b).isSome = true ↔ b.toNat ≤ 1 := by
  by_cases zero : b = 0
  · simp [modeOf, zero]
  by_cases one : b = 1
  · simp [modeOf, one]
  · simp only [modeOf, if_neg zero, if_neg one, Option.isSome_none, Bool.false_eq_true, false_iff]
    bv_omega

theorem flagOf_some {b : Byte} {x : Bool} (h : flagOf b = some x) : x = decide (b = 1) := by
  unfold flagOf at h
  split at h
  · next zero =>
    subst zero
    exact (Option.some.inj h).symm
  · split at h
    · next one => rw [← Option.some.inj h, decide_eq_true one]
    · cases h

theorem flagOf_isSome (b : Byte) : (flagOf b).isSome = true ↔ b.toNat ≤ 1 := by
  by_cases zero : b = 0
  · simp [flagOf, zero]
  by_cases one : b = 1
  · simp [flagOf, one]
  · simp only [flagOf, if_neg zero, if_neg one, Option.isSome_none, Bool.false_eq_true, false_iff]
    bv_omega

/-- A configuration is read when every code names something and the ranges of check 3 hold (R37, R184). -/
theorem feedConfigOf_isSome (a : FeedConfigArgs) : (feedConfigOf a).isSome = true ↔
    a.format.toNat ≤ 2 ∧ a.mode.toNat ≤ 1 ∧ a.recorder.toNat ≤ 1 ∧ a.autoLog.toNat ≤ 1 ∧
      a.qMin.toNat ≤ 7 ∧ a.qMax.toNat ≤ 7 ∧ a.qRec.toNat ≤ 7 ∧ a.qMin.toNat ≤ a.qMax.toNat ∧
      1 ≤ a.weight.toNat ∧ a.weight.toNat ≤ 15 ∧ 500 ≤ a.rateMin.toNat ∧
      a.rateMax.toNat ≤ 200000 ∧ a.rateMin.toNat ≤ a.rateMax.toNat ∧
      2 ≤ a.slots.toNat ∧ a.slots.toNat ≤ 4 := by
  rw [← formatOf_isSome, ← modeOf_isSome, ← flagOf_isSome, ← flagOf_isSome]
  unfold feedConfigOf
  cases formatOf a.format with
  | none => simp
  | some format =>
    cases modeOf a.mode with
    | none => simp
    | some mode =>
      cases flagOf a.recorder with
      | none => simp
      | some recorder =>
        cases flagOf a.autoLog with
        | none => simp
        | some autoLog => simp

/-- The configuration read has the command's fields (R37). -/
theorem feedConfigOf_fields {a : FeedConfigArgs} {g : FeedConfig} (h : feedConfigOf a = some g) :
    formatOf a.format = some g.format ∧ modeOf a.mode = some g.mode ∧
      flagOf a.recorder = some g.recorder ∧ flagOf a.autoLog = some g.autoLog ∧
      g.qMin = a.qMin.toNat ∧ g.qMax = a.qMax.toNat ∧ g.qRec = a.qRec.toNat ∧
      g.weight = a.weight.toNat ∧ g.rateMin = a.rateMin.toNat ∧ g.rateMax = a.rateMax.toNat ∧
      g.maxUnit = a.maxUnit.toNat ∧ g.slots = a.slots.toNat := by
  unfold feedConfigOf at h
  split at h
  · next format mode recorder autoLog =>
    split at h
    · cases h
      exact ⟨format, mode, recorder, autoLog, rfl, rfl, rfl, rfl, rfl, rfl, rfl, rfl⟩
    · cases h
  · cases h

/-- The sizes of check 5, by format (R37, section 3.2). -/
theorem sizesOk_iff (g : FeedConfig) (x y : Nat) : sizesOk g x y = true ↔
    (g.format = .sd → 4168 ≤ g.maxUnit ∧ g.slots * 1658880 ≤ x) ∧
    (g.format = .hd720 → 5734 ≤ g.maxUnit ∧ g.slots * 3686400 ≤ x) ∧
    (g.format = .hd1080 → 8569 ≤ g.maxUnit ∧ g.slots * 8294400 ≤ x) ∧ 8 * g.maxUnit ≤ y := by
  simp only [sizesOk, Bool.and_eq_true, decide_eq_true_eq]
  rw [and_right_comm]
  cases g.format with
  | sd => simp [minUnit, slotLinesOf, bandsOf, bandLinesOf, widthOf, flatBytes, flatBits, Config.lineBytes]
  | hd720 =>
    simp [minUnit, slotLinesOf, bandsOf, bandLinesOf, widthOf, flatBytes, flatBits, Config.lineBytes]
  | hd1080 =>
    simp [minUnit, slotLinesOf, bandsOf, bandLinesOf, widthOf, flatBytes, flatBits, Config.lineBytes]

/-! ### The part's state -/

theorem findWindow_none_iff (c : Chip) (k : WindowKind) (f : Option (Fin 8)) : findWindow c k f = none ↔
    ∀ (i : Fin 24) (v : Window), c.mem.windows[i] = some v → v.kind = k → v.feed ≠ f := by
  have entry : ∀ i : Fin 24,
      (match c.mem.windows[i] with
        | some w => if w.kind = k ∧ w.feed = f then some w else none
        | none => none) = none ↔
      ∀ v, c.mem.windows[i] = some v → v.kind = k → v.feed ≠ f := fun i => by
    cases c.mem.windows[i] <;> simp
  unfold findWindow
  rw [List.findSome?_eq_none_iff]
  exact ⟨fun h i => (entry i).1 (h i (mem_entries i)), fun h i _ => (entry i).2 (h i)⟩

theorem findWindow_some {c : Chip} {k : WindowKind} {f : Option (Fin 8)} {w : Window}
    (h : findWindow c k f = some w) :
    ∃ i : Fin 24, c.mem.windows[i] = some w ∧ w.kind = k ∧ w.feed = f := by
  obtain ⟨i, -, found⟩ := List.exists_of_findSome?_eq_some h
  split at found
  · next v entry =>
    split at found
    · next named =>
      cases found
      exact ⟨i, entry, named⟩
    · cases found
  · cases found

theorem windowSize_none_iff (c : Chip) (k : WindowKind) (f : Fin 8) : windowSize c k f = none ↔
    ∀ (i : Fin 24) (v : Window), c.mem.windows[i] = some v → v.kind = k → v.feed ≠ some f := by
  rw [windowSize, Option.map_eq_none_iff, findWindow_none_iff]

theorem windowSize_some {c : Chip} {k : WindowKind} {f : Fin 8} {x : Nat} (h : windowSize c k f = some x) :
    ∃ (i : Fin 24) (v : Window),
      c.mem.windows[i] = some v ∧ v.kind = k ∧ v.feed = some f ∧ v.size = x := by
  obtain ⟨v, found, size⟩ := Option.map_eq_some_iff.1 h
  obtain ⟨i, entry, kind, feed⟩ := findWindow_some found
  exact ⟨i, v, entry, kind, feed, size⟩

theorem holding_iff (x : ClipState) :
    holding x = true ↔ x = .opened ∨ x = .closed ∨ x = .sending ∨ x = .sent := by
  cases x <;> simp [holding]

theorem feedHeld_iff (c : Chip) (f : Fin 8) : feedHeld c f = true ↔
    ∃ k ∈ c.clips.list,
      (k.state = .opened ∨ k.state = .closed ∨ k.state = .sending ∨ k.state = .sent) ∧
      ∃ u ∈ c.rings[f].units, u.complete = true ∧
        ∃ x ∈ k.feeds, x.feed = f ∧ spanIncludes x u.seq = true := by
  simp only [← holding_iff, feedHeld, holdsUnitOf, clipHolds, List.any_eq_true, Bool.and_eq_true,
    beq_iff_eq]
  constructor
  · rintro ⟨k, hk, u, hu, complete, holds, x⟩
    exact ⟨k, hk, holds, u, hu, complete, x⟩
  · rintro ⟨k, hk, holds, u, hu, complete, x⟩
    exact ⟨k, hk, u, hu, complete, holds, x⟩

theorem active_iff (c : Chip) (f : Fin 8) : active c f = true ↔
    c.feeds[f].state = .running ∨ c.feeds[f].state = .stopping := by
  simp [active]

theorem active_false {c : Chip} {f : Fin 8} (run : c.feeds[f].state ≠ .running)
    (stop : c.feeds[f].state ≠ .stopping) : active c f = false :=
  Bool.eq_false_iff.2 fun h => ((active_iff c f).1 h).elim run stop

/-! ### The checks in their order -/

theorem exec_feedConfig {h : CmdHead} {a : FeedConfigArgs} {s : State}
    (taken : takes (.feedConfig h a) s = true) :
    exec (.feedConfig h a) s = .next (s.taken (conclude 0x10 h s.chip (feedConfig a s.chip))) :=
  exec_concluded (v := feedConfig a) taken rfl

section
variable {a : FeedConfigArgs} {c : Chip} {f : Fin 8} {g : FeedConfig} {x y : Nat}

theorem feedConfig_noFeed (above : 7 < a.feed.toNat) : feedConfig a c = .refused .badArg := by
  rw [feedConfig, index8_none above]

variable (feed : index8 a.feed = some f)
include feed

theorem feedConfig_busy (busy : inFlight (.feed f) c = true ∨ active c f = true) :
    feedConfig a c = .refused .busy := by
  rcases busy with stop | running
  · simp [feedConfig, feed, stop]
  · simp [feedConfig, feed, running]

variable (idle : inFlight (.feed f) c = false) (still : active c f = false)
include idle still

theorem feedConfig_outOfRange (bad : feedConfigOf a = none) : feedConfig a c = .refused .badArg := by
  simp [feedConfig, feed, idle, still, bad]

variable (read : feedConfigOf a = some g)
include read

theorem feedConfig_noWindow (lacks : windowSize c .capture f = none ∨ windowSize c .coded f = none) :
    feedConfig a c = .refused .notReady := by
  rcases lacks with capture | coded
  · simp [feedConfig, feed, idle, still, read, capture]
  · cases capture : windowSize c .capture f with
    | none => simp [feedConfig, feed, idle, still, read, capture]
    | some x => simp [feedConfig, feed, idle, still, read, capture, coded]

variable (capture : windowSize c .capture f = some x) (coded : windowSize c .coded f = some y)
include capture coded

theorem feedConfig_tooSmall (small : sizesOk g x y = false) : feedConfig a c = .refused .badArg := by
  simp [feedConfig, feed, idle, still, read, capture, coded, small]

variable (fits : sizesOk g x y = true)
include fits

/-- A new M for a READY feed of which a clip holds a unit (R37). -/
theorem feedConfig_held (ready : c.feeds[f].state = .ready) (other : c.feeds[f].cfg.maxUnit ≠ g.maxUnit)
    (held : feedHeld c f = true) : feedConfig a c = .refused .held := by
  simp only [feedConfig, feed, idle, still, read, capture, coded, fits]
  exact if_pos (And.intro ready (And.intro other held))

/-- Check 6 passed or not to be made (R37). -/
theorem feedConfig_done (free : c.feeds[f].state = .ready → c.feeds[f].cfg.maxUnit ≠ g.maxUnit →
      feedHeld c f = false) :
    feedConfig a c = .completed .done [] (serveIfNew c (applyConfig f g c)) := by
  have passed : ¬(c.feeds[f].state = .ready ∧ c.feeds[f].cfg.maxUnit ≠ g.maxUnit ∧ feedHeld c f = true) :=
    fun ⟨ready, other, held⟩ => Bool.false_ne_true ((free ready other).symm.trans held)
  simp only [feedConfig, feed, idle, still, read, capture, coded, fits]
  exact if_neg passed

end

/-! ### The configuration given -/

section
variable {f : Fin 8} {g : FeedConfig} {c : Chip}

/-- With M as it was, or on a feed that is not READY, the unit list stays (R37). -/
theorem applyConfig_keeps (h : c.feeds[f].state = .ready → c.feeds[f].cfg.maxUnit = g.maxUnit) :
    applyConfig f g c = setFeed c f { c.feeds[f] with state := .ready, cfg := g } :=
  if_neg (not_and.2 fun ready other => other (h ready))

/-- A new M on a READY feed discards its unit list (R37, R91). -/
theorem applyConfig_discards (ready : c.feeds[f].state = .ready)
    (other : c.feeds[f].cfg.maxUnit ≠ g.maxUnit) :
    applyConfig f g c = discardList f (setFeed c f { c.feeds[f] with state := .ready, cfg := g }) :=
  if_pos ⟨ready, other⟩

end

/-! ### The obligation -/

/-- Settles O20. -/
theorem feedConfigured : Obligations.FeedConfigured := by
  refine ⟨fun h a s f g x y taken feed idle still read capture coded fits =>
      ⟨fun same => ?_, fun ready other => ⟨fun held => ?_, fun free => ?_⟩⟩,
    fun h a s taken => ⟨fun above => ?_, fun f named => ⟨fun busy => ?_, fun idle run stop =>
      ⟨fun bad => ?_, fun g read => ⟨fun lacks => ?_, fun x y capture coded small => ?_⟩⟩⟩⟩,
    fun a => ⟨feedConfigOf_isSome a, fun g read => ?_⟩, sizesOk_iff,
    fun c k f => ⟨windowSize_none_iff c k f, fun x => windowSize_some⟩, feedHeld_iff⟩
  case refine_1 =>
    rw [exec_feedConfig taken, feedConfig_done feed idle still read capture coded fits
      fun ready other => absurd (same ready) other, applyConfig_keeps same,
      serveIfNew_same (setFeed_sched _ _ _) (setFeed_paths _ _ _), conclude_done]
  case refine_2 =>
    rw [exec_feedConfig taken, feedConfig_held feed idle still read capture coded fits ready other held,
      conclude_refused]
  case refine_3 =>
    rw [exec_feedConfig taken, feedConfig_done feed idle still read capture coded fits fun _ _ => free,
      applyConfig_discards ready other, conclude_done]
  case refine_4 => rw [exec_feedConfig taken, feedConfig_noFeed above, conclude_refused]
  case refine_5 =>
    rw [exec_feedConfig taken, feedConfig_busy (index8_some named) (busy.imp_right (active_iff _ _).2),
      conclude_refused]
  case refine_6 =>
    rw [exec_feedConfig taken, feedConfig_outOfRange (index8_some named) idle (active_false run stop) bad,
      conclude_refused]
  case refine_7 =>
    rw [exec_feedConfig taken,
      feedConfig_noWindow (index8_some named) idle (active_false run stop) read lacks, conclude_refused]
  case refine_8 =>
    rw [exec_feedConfig taken,
      feedConfig_tooSmall (index8_some named) idle (active_false run stop) read capture coded small,
      conclude_refused]
  case refine_9 =>
    obtain ⟨format, mode, recorder, autoLog, fields⟩ := feedConfigOf_fields read
    exact ⟨formatOf_some format, modeOf_some mode, flagOf_some recorder, flagOf_some autoLog, fields⟩

end Sys2Proof.Machine
end

section
/-! SUPPORT. FEED START, FEED STOP and a feed's automatic clip (R38, R40, R71, R139, R171). -/

namespace Sys2Proof.Machine

/-! ### The opening of an automatic clip -/

theorem takeRecord_free {l : List Clip} (h : l.length < 256) : takeRecord l = some l := if_pos h

theorem takeRecord_none {l : List Clip} (full : 256 ≤ l.length) (held : ∀ k ∈ l, holding k.state = true) :
    takeRecord l = none := by
  have none : l.find? (fun k => !holding k.state) = none := by simpa using held
  have taken : ¬l.length < Config.clipLimit := Nat.not_lt.2 full
  unfold takeRecord
  rw [if_neg taken, none]

theorem createClip_none {c : Chip} (h : takeRecord c.clips.list = none) (origin : Origin)
    (fs : List (Fin 8)) (category : Byte) (parent : Option Nat) :
    createClip origin fs category parent c = none := by
  rw [createClip, h]

/-- The clip that a creation adds to the log (R135). -/
def createdClip (origin : Origin) (fs : List (Fin 8)) (category : Byte) (parent : Option Nat)
    (l : List Clip) (c : Chip) : Clip :=
  { number := freeNumber l Config.clipLimit c.clips.counter, origin := origin, state := .opened,
    guarded := false, parent := parent,
    feeds := fs.map fun f => { feed := f, inSeq := some c.rings[f].nextSeq, outSeq := none },
    inHouse := none, outHouse := none, category := category, rating := 0, note := [],
    reason := none, progress := none }

/-- With a record, a creation is the log with the clip and its counter, and the report OPENED (R135). -/
theorem createClip_some {c : Chip} {l : List Clip} (h : takeRecord c.clips.list = some l)
    (origin : Origin) (fs : List (Fin 8)) (category : Byte) (parent : Option Nat) :
    ∃ n body, createClip origin fs category parent c = some (n, askReport .clip body
      { c with
        clips.list := l ++ [createdClip origin fs category parent l c]
        clips.counter := numberAfter n }) := by
  rw [createClip, h]
  exact ⟨_, _, rfl⟩

section
variable {f : Fin 8} {c : Chip}

theorem callsForAuto_iff : callsForAuto c f = true ↔
    c.feeds[f].state = .running ∧ c.feeds[f].cfg.autoLog = true ∧ c.tally.feeds[f].state = .program := by
  simp [callsForAuto, and_assoc]

/-- A feed that calls for no automatic clip, or has one, opens none (R139). -/
theorem tryOpenAuto_quiet (h : callsForAuto c f = false ∨ (openAuto c f).isSome = true) :
    tryOpenAuto f c = c := by
  refine if_neg ?_
  rcases h with calls | one
  · simp [calls]
  · simp [Option.isSome_iff_ne_none.1 one]

/-- With a record, the feed's clip joins the log and OPENED is asked for (R135, R139). -/
theorem tryOpenAuto_opens {l : List Clip} (calls : callsForAuto c f = true) (none : openAuto c f = none)
    (record : takeRecord c.clips.list = some l) :
    ∃ n body, tryOpenAuto f c = setAutoFailed f false (askReport .clip body
      { c with
        clips.list := l ++ [createdClip .auto [f] 0 .none l c]
        clips.counter := numberAfter n }) := by
  obtain ⟨n, body, created⟩ := createClip_some record .auto [f] 0 .none
  refine ⟨n, body, ?_⟩
  unfold tryOpenAuto
  rw [if_pos (by rw [calls, none]; rfl), created]

/-- Without a record, NO_RECORD is reported once (R139). -/
theorem tryOpenAuto_fails (calls : callsForAuto c f = true) (none : openAuto c f = none)
    (record : takeRecord c.clips.list = .none) :
    tryOpenAuto f c = if c.clips.autoFailed[f] then c
      else askReport .clip (reportBody 6 [byteOf f.val]) (setAutoFailed f true c) := by
  unfold tryOpenAuto
  rw [if_pos (by rw [calls, none]; rfl), createClip_none record]

/-- Beside the clip log, an automatic opening is at most a report (R139). -/
theorem tryOpenAuto_reportOnly (f : Fin 8) (c : Chip) :
    ReportOnly { c with clips := (tryOpenAuto f c).clips } (tryOpenAuto f c) := by
  have asked : ∀ (b : Bool) (body : List Byte) (clips : ClipLog),
      ReportOnly { c with clips := (setAutoFailed f b (askReport .clip body { c with clips := clips })).clips }
        (setAutoFailed f b (askReport .clip body { c with clips := clips })) := fun b body clips => by
    have report := askReport_reportOnly .clip body { c with clips := clips }
    exact ⟨by unfold setAutoFailed; rw [report.same], report.grew⟩
  by_cases quiet : callsForAuto c f = false ∨ (openAuto c f).isSome = true
  · rw [tryOpenAuto_quiet quiet]
    exact .refl c
  · obtain ⟨calls, none⟩ := not_or.1 quiet
    replace calls := Bool.not_eq_false _ ▸ calls
    replace none := Option.not_isSome_iff_eq_none.1 none
    cases record : takeRecord c.clips.list with
    | some l =>
      obtain ⟨n, body, opens⟩ := tryOpenAuto_opens calls none record
      rw [opens]
      exact asked false body _
    | none =>
      rw [tryOpenAuto_fails calls none record]
      split
      · exact .refl c
      · have report := askReport_reportOnly .clip (reportBody 6 [byteOf f.val]) (setAutoFailed f true c)
        exact ⟨by rw [report.same]; rfl, report.grew⟩

end

/-! ### The closing of an automatic clip -/

theorem closeAuto_none {f : Fin 8} {c : Chip} (h : openAuto c f = none) (reason : CloseReason) :
    closeAuto f reason c = setAutoFailed f false c := by
  have none : openAuto (setAutoFailed f false c) f = .none := h
  unfold closeAuto
  dsimp only
  rw [none]

theorem closeAuto_some {f : Fin 8} {c : Chip} {k : Clip} (h : openAuto c f = some k)
    (reason : CloseReason) :
    closeAuto f reason c = closeClip k.number reason (setAutoFailed f false c) := by
  have one : openAuto (setAutoFailed f false c) f = some k := h
  unfold closeAuto
  dsimp only
  rw [one]

/-! ### The two commands -/

/-- A feed's record after FEED START (R38, R71). -/
def startedFeed (r : Feed) : Feed :=
  { r with state := .running, curSlot := none, cur := .none, q := r.cfg.qMax, errorSum := 0 }

/-- The part as a FEED START leaves it before the automatic opening (R38, R71, R171). -/
def feedStarted (f : Fin 8) (c : Chip) : Chip :=
  { setFeed c f (startedFeed c.feeds[f]) with sched.rates := c.sched.rates.set f none }

theorem feedStarted_feed (f : Fin 8) (c : Chip) : (feedStarted f c).feeds[f] = startedFeed c.feeds[f] :=
  setFeed_same c f _

theorem feedStart_ready {feed : Byte} {f : Fin 8} {c : Chip} {x y : Nat} (named : index8 feed = some f)
    (idle : inFlight (.feed f) c = false) (ready : c.feeds[f].state = .ready)
    (capture : windowSize c .capture f = some x) (coded : windowSize c .coded f = some y) :
    feedStart feed c = .completed .done [] (tryOpenAuto f (feedStarted f c)) := by
  have still : active c f = false := active_false (by rw [ready]; decide) (by rw [ready]; decide)
  simp only [feedStart, named, idle, still, ready, capture, coded]
  rfl

theorem feedStarted_noCall {f : Fin 8} {c : Chip} (off : c.feeds[f].cfg.autoLog = false) :
    callsForAuto (feedStarted f c) f = false := Bool.eq_false_iff.2 fun calls => by
  obtain ⟨-, on, -⟩ := callsForAuto_iff.1 calls
  rw [feedStarted_feed] at on
  exact Bool.false_ne_true (off.symm.trans on)

section
variable {feed : Byte} {f : Fin 8} {c : Chip} (named : index8 feed = some f)
  (idle : inFlight (.feed f) c = false) (running : c.feeds[f].state = .running)
include named idle running

/-- FEED STOP with no picture in hand (R40). -/
theorem feedStop_atOnce (pics : c.feeds[f].pics = []) : feedStop feed c =
    .completed .done [] (serveIfNew c (closeAuto f .stop
      (setFeed c f { c.feeds[f] with state := .ready, curSlot := none, cur := .none }))) := by
  simp only [feedStop, named, idle, running, pics]
  rfl

/-- FEED STOP with pictures in hand waits for them (R22, R40). -/
theorem feedStop_begins (pics : c.feeds[f].pics ≠ []) : feedStop feed c =
    .begun (.feed f) (serveIfNew c (closeAuto f .stop
      (setFeed c f { c.feeds[f] with state := .stopping, silence := some 2 }))) := by
  simp only [feedStop, named, idle, running, if_neg pics]
  rfl

end

/-- A command begun is in flight on its object (R22). -/
theorem conclude_begun_inFlight (k : BitVec 16) (h : CmdHead) (c d : Chip) (o : Object) :
    inFlight o (conclude k h c (.begun o d)) = true := by
  simp [inFlight, conclude]

/-- Beside the feed's own record, its closing clip and the serve leave the feeds alone (R40). -/
theorem stopped_feeds (b : Chip) (f : Fin 8) (r : CloseReason) (c : Chip) :
    (serveIfNew b (closeAuto f r c)).feeds = c.feeds :=
  (serveIfNew_serveOnly _ _).feeds.trans (closeAuto_logOnly _ _ _).feeds

/-- Settles O21. -/
theorem feedStartStop : Obligations.FeedStartStop := by
  refine ⟨fun h feed s f x y taken named idle ready capture coded => ?_,
    fun f c => ⟨tryOpenAuto_quiet, callsForAuto_iff, fun calls none => ⟨fun free => ?_, fun full held => ?_⟩⟩,
    fun h feed s f taken named idle running => ⟨fun pics => ?_, fun pics => ?_⟩,
    fun f reason c => ⟨fun none => closeAuto_none none reason, fun k one => closeAuto_some one reason⟩⟩
  case refine_1 =>
    have opening := tryOpenAuto_reportOnly f (feedStarted f s.chip)
    refine ⟨_, feedStarted f s.chip, ?_, rfl, rfl, opening.feeds, opening.sched, opening.rings,
      opening.paths, opening.tally, fun off => ?_⟩
    · rw [exec_concluded (v := feedStart feed) taken rfl, feedStart_ready named idle ready capture coded,
        conclude_done]
    · rw [tryOpenAuto_quiet (.inl (feedStarted_noCall off))]
      rfl
  case refine_2 =>
    have opening := tryOpenAuto_reportOnly f c
    obtain ⟨n, body, opens⟩ := tryOpenAuto_opens calls none (takeRecord_free free)
    have log := congrArg Chip.clips opens
    rw [setAutoFailed, (askReport_reportOnly _ _ _).clips] at log
    refine ⟨_, congrArg ClipLog.list log, rfl, rfl, rfl, rfl, ?_, opening⟩
    rw [log]
    exact Vector.getElem_set_self _
  case refine_3 =>
    rw [tryOpenAuto_fails calls none (takeRecord_none full held)]
    exact ⟨fun failed => if_pos failed, fun first => if_neg (Bool.eq_false_iff.1 first)⟩
  case refine_4 =>
    rw [exec_concluded (v := feedStop feed) taken rfl, feedStop_atOnce named idle running pics,
      conclude_done]
  case refine_5 =>
    refine ⟨_, exec_concluded (v := feedStop feed) taken rfl, ?_, ?_, ?_⟩
    · rw [feedStop_begins named idle running pics]
    · rw [feedStop_begins named idle running pics]
      exact (congrArg (·[f]) (stopped_feeds _ _ _ _)).trans (setFeed_same _ _ _)
    · rw [feedStop_begins named idle running pics]
      exact conclude_begun_inFlight _ _ _ _ _

end Sys2Proof.Machine
end

section
/-! SUPPORT. House timing: TIMECODE SET, FRAME_PULSE and the two timers (R49 to R52). -/

namespace Sys2Proof.Machine

/-! ### TIMECODE SET -/

theorem exec_timecodeSet {h : CmdHead} {rate : Byte} {start : Count32} {s : State}
    (taken : takes (.timecodeSet h rate start) s = true) :
    exec (.timecodeSet h rate start) s =
      .next (s.taken (conclude 0x13 h s.chip (timecodeSet rate start s.chip))) :=
  exec_concluded (v := timecodeSet rate start) taken rfl

/-- Some feed gathers writes (section 3.1). -/
theorem anyActive_iff (c : Chip) : eight.any (active c) = true ↔
    ∃ f : Fin 8, c.feeds[f].state = .running ∨ c.feeds[f].state = .stopping := by
  have all : ∀ f : Fin 8, f ∈ eight := by decide
  simp only [List.any_eq_true, active_iff]
  exact ⟨fun ⟨f, _, x⟩ => ⟨f, x⟩, fun ⟨f, x⟩ => ⟨f, all f, x⟩⟩

/-- The rate and the count are set and the running timer restarts (R52). -/
def timecodeGiven (rate : Byte) (start : Count32) (t : Timing) : Timing :=
  { t with
    rate := rate.toNat
    count := start
    lastAdvance := t.clock
    watch := if t.freeRun then none else some 2
    freeTimer := if t.freeRun then some 1 else none }

/-- A rate in pictures per second (R52). -/
def IsRate (rate : Byte) : Prop := rate = 24 ∨ rate = 25 ∨ rate = 30 ∨ rate = 50 ∨ rate = 60

section
variable {rate : Byte} {c : Chip} (start : Count32)

theorem timecodeSet_noRate (bad : ¬IsRate rate) : timecodeSet rate start c = .refused .badArg := if_pos bad

theorem timecodeSet_busy (good : IsRate rate) (busy : eight.any (active c) = true) :
    timecodeSet rate start c = .refused .busy :=
  (if_neg (not_not.2 good)).trans (if_pos busy)

theorem timecodeSet_done (good : IsRate rate) (quiet : eight.any (active c) = false) :
    timecodeSet rate start c = .completed .done [] { c with timing := timecodeGiven rate start c.timing } :=
  (if_neg (not_not.2 good)).trans (if_neg (Bool.eq_false_iff.1 quiet))

end

/-! ### FRAME_PULSE -/

/-- The house count after a pulse that ends free run: advanced once half a period has passed (R51). -/
def pulseCount (ns : Nat) (t : Timing) : Count32 :=
  if 1000000000 ≤ 2 * t.rate * (t.clock + ns - t.lastAdvance) then t.count + 1 else t.count

/-- The last advance after a pulse that ends free run (R51). -/
def pulseAdvance (ns : Nat) (t : Timing) : Nat :=
  if 1000000000 ≤ 2 * t.rate * (t.clock + ns - t.lastAdvance) then t.clock + ns else t.lastAdvance

/-- The timing after a pulse that ends free run (R51). -/
def relocked (ns : Nat) (t : Timing) : Timing :=
  { t with
    freeRun := false, count := pulseCount ns t, clock := t.clock + ns, lastAdvance := pulseAdvance ns t,
    watch := some 2, freeTimer := none }

theorem halfPeriodPassed_iff (t : Timing) : halfPeriodPassed t = true ↔
    1000000000 ≤ 2 * t.rate * (t.clock - t.lastAdvance) := by
  rw [halfPeriodPassed, decide_eq_true_iff, Nat.mul_assoc, Nat.mul_comm]

section
variable {ns : Nat} {c : Chip}

/-- In LOCKED a pulse advances the count and restarts the watch timer (R49). -/
theorem framePulse_locked (locked : c.timing.freeRun = false) : framePulse ns c =
    { c with
      timing := { c.timing with
        count := c.timing.count + 1
        clock := c.timing.clock + ns
        lastAdvance := c.timing.clock + ns
        watch := some 2 } } :=
  if_neg (Bool.eq_false_iff.1 locked)

/-- In FREE_RUN a pulse locks, advances the count if half a period has passed, and asks for REFERENCE_BACK
(R51). -/
theorem framePulse_freeRun (free : c.timing.freeRun = true) : framePulse ns c =
    askReport .feed (reportBody 2 []) { c with timing := relocked ns c.timing } := by
  have half := halfPeriodPassed_iff (advanceClock ns c).timing
  refine (if_pos free).trans (congrArg _ ?_)
  by_cases passed : 1000000000 ≤ 2 * c.timing.rate * (c.timing.clock + ns - c.timing.lastAdvance)
  · simp only [relocked, pulseCount, pulseAdvance, if_pos (half.2 passed), if_pos passed]
    rfl
  · simp only [relocked, pulseCount, pulseAdvance, if_neg (mt half.1 passed), if_neg passed]
    rfl

end

/-! ### The two timers -/

/-- The timing after the watch timer has expired (R50). -/
def freed (t : Timing) : Timing :=
  { t with
    freeRun := true, count := t.count + 2, clock := clockAfter 2 t, lastAdvance := clockAfter 2 t,
    watch := none, freeTimer := some 1 }

theorem watchExpires_running {c : Chip} (runs : c.timing.watch.isSome = true) :
    watchExpires c = askReport .feed (reportBody 1 []) { c with timing := freed c.timing } := if_pos runs

/-- The timing after the free-run timer has expired (R50). -/
def ranFree (t : Timing) : Timing :=
  { t with
    count := t.count + 1, clock := clockAfter 1 t, lastAdvance := clockAfter 1 t, freeTimer := some 1 }

theorem freeRunExpires_running {c : Chip} (runs : c.timing.freeTimer.isSome = true) :
    freeRunExpires c = { c with timing := ranFree c.timing } := if_pos runs

/-! ### The obligation -/

/-- Settles O22. -/
theorem houseTimingCommands : Obligations.HouseTimingCommands := by
  refine ⟨fun h rate start s taken => ⟨fun n24 n25 n30 n50 n60 => ?_, fun good busy => ?_,
    fun good quiet => ?_⟩, fun ns s held => ⟨fun locked => ?_, fun free => ?_⟩,
    fun s held => ⟨fun runs => ?_, fun runs => ?_⟩⟩
  case refine_1 =>
    have bad : ¬IsRate rate := fun x => by
      rcases x with x | x | x | x | x
      exacts [n24 x, n25 x, n30 x, n50 x, n60 x]
    rw [exec_timecodeSet taken, timecodeSet_noRate start bad, conclude_refused]
  case refine_2 =>
    rw [exec_timecodeSet taken, timecodeSet_busy start good ((anyActive_iff _).2 busy), conclude_refused]
  case refine_3 =>
    have none : eight.any (active s.chip) = false := Bool.eq_false_iff.2 fun x =>
      ((anyActive_iff _).1 x).elim fun f active => active.elim (quiet f).1 (quiet f).2
    rw [exec_timecodeSet taken, timecodeSet_done start good none, conclude_done]
    rfl
  case refine_4 => rw [exec_event (k := framePulse ns) held rfl, framePulse_locked locked]
  case refine_5 =>
    have report := askReport_reportOnly .feed (reportBody 2 [])
      { s.chip with timing := relocked ns s.chip.timing }
    refine ⟨_, pulseCount ns s.chip.timing, pulseAdvance ns s.chip.timing,
      exec_event (k := framePulse ns) held rfl, rfl, ?_, ?_⟩
    · split
      · next passed => exact ⟨if_pos passed, if_pos passed⟩
      · next short => exact ⟨if_neg short, if_neg short⟩
    · dsimp only
      rw [framePulse_freeRun free, report.timing, report.feeds, report.sched]
      exact ⟨rfl, rfl, rfl, rfl, askReport_pending (x := .fault) rfl _ _, rfl, rfl, rfl⟩
  case refine_6 =>
    have report := askReport_reportOnly .feed (reportBody 1 []) { s.chip with timing := freed s.chip.timing }
    refine ⟨_, exec_event (k := watchExpires) held rfl, ?_⟩
    dsimp only
    rw [watchExpires_running runs, report.timing, report.feeds, report.paths, report.sched]
    exact ⟨rfl, rfl, rfl, rfl, rfl, rfl, rfl, askReport_pending (x := .fault) rfl _ _, rfl, rfl, rfl⟩
  case refine_7 =>
    refine ⟨_, exec_event (k := freeRunExpires) held rfl, ?_⟩
    rw [freeRunExpires_running runs]
    exact ⟨rfl, rfl, rfl, rfl, rfl, rfl⟩

end Sys2Proof.Machine
end

section
/-! SUPPORT. What the closing of bands may change, and what becomes of a picture whose bands are closed by
force (R44, R47, R48, R55). -/

namespace Sys2Proof.Machine

/-! ### What gathering may change -/

/-- Beside the coder, only these fields of a feed may differ: its pictures in hand, its free buffers, its two
marks, and what the coder shows of its position (R45 to R48, R65, R70). -/
structure GatherOnly (c d : Chip) : Prop extends CoderOnly c d where
  feed : ∀ g : Fin 8, d.feeds[g] =
    { c.feeds[g] with
      pics := d.feeds[g].pics
      freeBuffers := d.feeds[g].freeBuffers
      q := d.feeds[g].q
      budget := d.feeds[g].budget
      errorSum := d.feeds[g].errorSum
      lateMark := d.feeds[g].lateMark
      incMark := d.feeds[g].incMark }

/-- A closing of bands leaves the free buffers and the late-write mark too (R46, R48). -/
structure ClosingOnly (c d : Chip) : Prop extends GatherOnly c d where
  free : ∀ g : Fin 8, d.feeds[g].freeBuffers = c.feeds[g].freeBuffers
  late : ∀ g : Fin 8, d.feeds[g].lateMark = c.feeds[g].lateMark

theorem GatherOnly.refl (c : Chip) : GatherOnly c c := ⟨.refl c, fun _ => rfl⟩

theorem GatherOnly.trans {a b c : Chip} (h : GatherOnly a b) (k : GatherOnly b c) : GatherOnly a c :=
  ⟨h.toCoderOnly.trans k.toCoderOnly, fun g => by
    have last := k.feed g
    rw [h.feed g] at last
    exact last⟩

theorem ClosingOnly.refl (c : Chip) : ClosingOnly c c := ⟨.refl c, fun _ => rfl, fun _ => rfl⟩

theorem ClosingOnly.trans {a b c : Chip} (h : ClosingOnly a b) (k : ClosingOnly b c) : ClosingOnly a c :=
  ⟨h.toGatherOnly.trans k.toGatherOnly, fun g => (k.free g).trans (h.free g),
    fun g => (k.late g).trans (h.late g)⟩

section
variable {c d : Chip}

theorem GatherOnly.state (h : GatherOnly c d) (g : Fin 8) : d.feeds[g].state = c.feeds[g].state := by
  rw [h.feed g]

theorem GatherOnly.cur (h : GatherOnly c d) (g : Fin 8) : d.feeds[g].cur = c.feeds[g].cur := by
  rw [h.feed g]

theorem GatherOnly.curSlot (h : GatherOnly c d) (g : Fin 8) :
    d.feeds[g].curSlot = c.feeds[g].curSlot := by
  rw [h.feed g]

theorem GatherOnly.silence (h : GatherOnly c d) (g : Fin 8) :
    d.feeds[g].silence = c.feeds[g].silence := by
  rw [h.feed g]

end

theorem setFeed_gatherOnly {c : Chip} {f : Fin 8} {r : Feed} (h : r =
    { c.feeds[f] with
      pics := r.pics, freeBuffers := r.freeBuffers, q := r.q, budget := r.budget, errorSum := r.errorSum,
      lateMark := r.lateMark, incMark := r.incMark }) : GatherOnly c (setFeed c f r) := by
  refine ⟨setFeed_coderOnly c f r, fun g => ?_⟩
  by_cases e : g = f
  · subst e
    rw [setFeed_same]
    exact h
  · rw [setFeed_other _ _ _ _ e]

theorem setFeed_closingOnly {c : Chip} {f : Fin 8} {r : Feed} (h : r =
    { c.feeds[f] with
      pics := r.pics, q := r.q, budget := r.budget, errorSum := r.errorSum, incMark := r.incMark }) :
    ClosingOnly c (setFeed c f r) := by
  refine ⟨setFeed_gatherOnly ?_, fun g => ?_, fun g => ?_⟩
  · rw [h]
  all_goals
    by_cases e : g = f
    · subst e
      rw [setFeed_same, h]
    · rw [setFeed_other _ _ _ _ e]

theorem mapPic_closingOnly (f : Fin 8) (n : Nat) (g : Picture → Picture) (c : Chip) :
    ClosingOnly c (mapPic f n g c) := setFeed_closingOnly rfl

/-- An update of the coder alone. -/
theorem ClosingOnly.of_coder (c : Chip) (k : BandCoder) : ClosingOnly c { c with coder := k } :=
  ⟨⟨⟨rfl⟩, fun _ => rfl⟩, fun _ => rfl, fun _ => rfl⟩

theorem beginCoding_closingOnly (f : Fin 8) (c : Chip) : ClosingOnly c (beginCoding f c) := by
  unfold beginCoding
  split
  · exact .refl c
  · exact (((ClosingOnly.of_coder c _).trans (setFeed_closingOnly (by rfl))).trans
      (mapPic_closingOnly _ _ _ _)).trans (setFeed_closingOnly (by rfl))

theorem coderKick_closingOnly (c : Chip) : ClosingOnly c (coderKick c) := by
  unfold coderKick
  split
  · exact .refl c
  · split
    · exact beginCoding_closingOnly _ c
    · exact .refl c

/-! ### What the coder's choice leaves alone -/

theorem beginCoding_incMark (f g : Fin 8) (c : Chip) :
    (beginCoding f c).feeds[g].incMark = c.feeds[g].incMark := by
  unfold beginCoding
  split
  · rfl
  · dsimp only
    by_cases e : g = f
    · subst e
      simp only [syncPosition, mapPic, setFeed_same, showPosition]
    · simp only [syncPosition, mapPic, setFeed_other _ _ _ _ e]

theorem coderKick_incMark (g : Fin 8) (c : Chip) :
    (coderKick c).feeds[g].incMark = c.feeds[g].incMark := by
  unfold coderKick
  split
  · rfl
  · split
    · exact beginCoding_incMark _ g c
    · rfl

theorem coderKick_closeCount (c : Chip) : (coderKick c).coder.closeCount = c.coder.closeCount := by
  unfold coderKick
  split
  · rfl
  · split
    · unfold beginCoding
      split <;> rfl
    · rfl

/-- A coder at work chooses nothing (R56). -/
theorem coderKick_working {c : Chip} (h : c.coder.op.isSome = true) : coderKick c = c := if_pos h

/-! ### What capture keeps of a picture -/

/-- A picture's bands, its base and whether it was abandoned (section 3.5). -/
structure Captured where
  bands : List Band
  base : Nat
  abandoned : Bool

def Picture.captured (p : Picture) : Captured := ⟨p.bands, p.base, p.abandoned⟩

/-- What a lookup by name shows of a picture's capture. -/
def capturedOf (c : Chip) (f : Fin 8) (n : Nat) : Option Captured := (findPic c f n).map Picture.captured

theorem findPic_setFeed {c : Chip} {f : Fin 8} {r : Feed} (h : r.pics = c.feeds[f].pics) (g : Fin 8)
    (n : Nat) : findPic (setFeed c f r) g n = findPic c g n := by
  unfold findPic
  by_cases e : g = f
  · subst e
    rw [setFeed_same, h]
  · rw [setFeed_other _ _ _ _ e]

theorem capturedOf_setFeed {c : Chip} {f : Fin 8} {r : Feed} (h : r.pics = c.feeds[f].pics) (g : Fin 8)
    (n : Nat) : capturedOf (setFeed c f r) g n = capturedOf c g n :=
  congrArg (Option.map _) (findPic_setFeed h g n)

theorem capturedOf_mapPic {c : Chip} {f : Fin 8} {n : Nat} {v : Captured} (h : capturedOf c f n = some v)
    {g : Picture → Picture} (hg : ∀ p, (g p).ident = p.ident) {k : Captured → Captured}
    (hk : ∀ p, (g p).captured = k p.captured) : capturedOf (mapPic f n g c) f n = some (k v) := by
  obtain ⟨p, found, rfl⟩ := Option.map_eq_some_iff.1 h
  rw [capturedOf, findPic_mapPic _ _ _ hg, found]
  exact congrArg some (hk p)

/-- The beginning of a band's coding changes nothing of a picture that capture keeps (R70). -/
theorem beginCoding_capturedOf (f g : Fin 8) (n : Nat) (c : Chip) :
    capturedOf (beginCoding f c) g n = capturedOf c g n := by
  unfold beginCoding
  split
  · rfl
  · next p b e =>
    dsimp only
    obtain ⟨rest, hp⟩ := positionBand_some e
    refine (capturedOf_setFeed (by rfl) g n).trans ?_
    unfold capturedOf
    by_cases ef : g = f
    · subst ef
      rw [findPic, mapPic_pics, setFeed_same, find_map_pics, Option.map_map]
      · refine Option.map_congr fun y hy => ?_
        have name : y.ident = n := by simpa using List.find?_some hy
        by_cases same : y.ident = p.ident
        · have first : y = p := by
            change c.feeds[g].pics.find? _ = _ at hy
            rw [hp, List.find?_cons_of_pos (by simp [← same, name])] at hy
            exact (Option.some.inj hy).symm
          subst first
          simp only [Function.comp, if_true]
          rfl
        · simp only [Function.comp, if_neg same]
      · intro y
        split
        · next h => exact h.symm
        · rfl
    · rw [findPic, mapPic, setFeed_other _ _ _ _ ef, setFeed_other _ _ _ _ ef]
      rfl

theorem coderKick_capturedOf (g : Fin 8) (n : Nat) (c : Chip) :
    capturedOf (coderKick c) g n = capturedOf c g n := by
  unfold coderKick
  split
  · rfl
  · split
    · exact beginCoding_capturedOf _ g n c
    · rfl

/-! ### The closing of one band -/

/-- A band of a picture in hand. -/
def bandOf (c : Chip) (f : Fin 8) (n i : Nat) : Option Band :=
  (findPic c f n).bind fun p => p.bands[i]?

theorem bandOf_captured {c : Chip} {f : Fin 8} {n : Nat} {v : Captured} (h : capturedOf c f n = some v)
    (i : Nat) : bandOf c f n i = v.bands[i]? := by
  obtain ⟨p, found, rfl⟩ := Option.map_eq_some_iff.1 h
  rw [bandOf, found]
  rfl

/-- A picture of which a band was replaced by a closed one; its base follows (R45, R47). -/
def Picture.close (i : Nat) (b : Band) (p : Picture) : Picture :=
  { p with bands := p.bands.set i b, base := lowestOpen (p.bands.set i b) }

/-- The same of what capture keeps. -/
def Captured.close (i : Nat) (b : Band) (v : Captured) : Captured :=
  { v with bands := v.bands.set i b, base := lowestOpen (v.bands.set i b) }

theorem mapPic_close_capturedOf {c : Chip} {f : Fin 8} {n : Nat} {v : Captured}
    (h : capturedOf c f n = some v) (i : Nat) (b : Band) :
    capturedOf (mapPic f n (Picture.close i b) c) f n = some (v.close i b) :=
  capturedOf_mapPic h (g := Picture.close i b) (fun _ => rfl) (k := Captured.close i b) fun _ => rfl

/-- The coding queue's entries for a band that closes (R55). -/
def queuedOn (f : Fin 8) (n i : Nat) (b : Band) (e : Nat) : List QueuedBand :=
  if b.hasBuffer then [{ feed := f, pic := n, band := i, closeEvent := e }] else []

/-- The part after a band has closed, before an idle coder chooses (R47, R48, R55). -/
def bandClosed (f : Fin 8) (n i : Nat) (s : BandState) (b : Band) (c : Chip) : Chip :=
  mapPic f n (Picture.close i { b with state := s, closeEvent := c.coder.closeCount })
    (setFeed
      { c with
        coder.closeCount := c.coder.closeCount + 1
        coder.queue := c.coder.queue ++ queuedOn f n i b c.coder.closeCount }
      f { c.feeds[f] with incMark := c.feeds[f].incMark || s != .complete })

section
variable {c : Chip} {f : Fin 8} {n i : Nat} {b : Band} (s : BandState)

theorem closeBand_some (h : bandOf c f n i = some b) :
    closeBand f n i s c = coderKick (bandClosed f n i s b c) := by
  unfold bandOf at h
  unfold closeBand
  rw [h]
  rfl

theorem closeBand_none (h : bandOf c f n i = none) : closeBand f n i s c = c := by
  unfold bandOf at h
  unfold closeBand
  rw [h]

theorem closeBand_closingOnly (c : Chip) : ClosingOnly c (closeBand f n i s c) := by
  cases h : bandOf c f n i with
  | none =>
    rw [closeBand_none s h]
    exact .refl c
  | some b =>
    rw [closeBand_some s h]
    exact (((ClosingOnly.of_coder c _).trans (setFeed_closingOnly (by rfl))).trans
      (mapPic_closingOnly _ _ _ _)).trans (coderKick_closingOnly _)

theorem closeBand_incMark (h : bandOf c f n i = some b) :
    (closeBand f n i s c).feeds[f].incMark = (c.feeds[f].incMark || s != .complete) := by
  rw [closeBand_some s h, coderKick_incMark, bandClosed, mapPic, setFeed_same, setFeed_same]

theorem closeBand_closeCount (h : bandOf c f n i = some b) :
    (closeBand f n i s c).coder.closeCount = c.coder.closeCount + 1 := by
  rw [closeBand_some s h, coderKick_closeCount]
  rfl

/-- While the coder works, a closed band with a buffer waits at the queue's tail (R55). -/
theorem closeBand_coder (h : bandOf c f n i = some b) (works : c.coder.op.isSome = true) :
    (closeBand f n i s c).coder.op = c.coder.op ∧
      (closeBand f n i s c).coder.queue = c.coder.queue ++ queuedOn f n i b c.coder.closeCount := by
  rw [closeBand_some s h, coderKick_working (c := bandClosed f n i s b c) works]
  exact ⟨rfl, rfl⟩

theorem closeBand_capturedOf {v : Captured} (h : capturedOf c f n = some v) (hb : v.bands[i]? = some b) :
    capturedOf (closeBand f n i s c) f n =
      some (v.close i { b with state := s, closeEvent := c.coder.closeCount }) := by
  rw [closeBand_some s ((bandOf_captured h i).trans hb), coderKick_capturedOf, bandClosed]
  refine mapPic_close_capturedOf ?_ _ _
  rw [capturedOf_setFeed (by rfl)]
  exact h

end

/-! ### Bands closed by force -/

/-- A band after it has been closed by force at a close event (R47). -/
def forcedBand (e : Nat) (z : Band) : Band := { z with state := forcedState z.state, closeEvent := e }

theorem forcedState_closed (x : BandState) : closedState (forcedState x) = true := by cases x <;> rfl

theorem forcedState_same {x : BandState} (h : closedState x = true) : forcedState x = x := by
  cases x
  case waiting | opened | short => cases h
  all_goals rfl

theorem forcedBand_closed {z : Band} (h : closedState z.state = true) : forcedBand z.closeEvent z = z := by
  unfold forcedBand
  rw [forcedState_same h]

theorem forcedState_incomplete {x : BandState} (h : closedState x = false) :
    (forcedState x != .complete) = true := by
  cases x
  case complete | incomplete | empty => cases h
  all_goals rfl

theorem forcedState_eq (x : BandState) : forcedState x =
    if x = .opened ∨ x = .short then .incomplete else if x = .waiting then .empty else x := by
  cases x <;> rfl

/-- A band of a picture that is not closed. -/
def openAt (bs : List Band) (i : Nat) : Bool := bs[i]?.any fun z => !closedState z.state

/-- A band of a picture that is not closed and has a buffer. -/
def bufferedAt (bs : List Band) (i : Nat) : Bool :=
  bs[i]?.any fun z => !closedState z.state && z.hasBuffer

/-- A coding queue's entry but for its close event. -/
def QueuedBand.key (y : QueuedBand) : Fin 8 × Nat × Nat := (y.feed, y.pic, y.band)

/-- From `c` to `d` the bands `l` of a picture were closed by force, in that order, and what capture keeps of
it went from `v` to `w` (R44, R47, R48, R55). -/
structure Forced (f : Fin 8) (n : Nat) (l : List Nat) (v : Captured) (c : Chip) (w : Captured) (d : Chip) :
    Prop where
  only : ClosingOnly c d
  found : capturedOf d f n = some w
  abandoned : w.abandoned = v.abandoned
  bands : ∀ i, ∃ e, w.bands[i]? = v.bands[i]?.map fun z => if i ∈ l then forcedBand e z else z
  base : v.base = lowestOpen v.bands ∨ l.any (openAt v.bands) = true → w.base = lowestOpen w.bands
  mark : d.feeds[f].incMark = (c.feeds[f].incMark || l.any (openAt v.bands))
  coder : c.coder.op.isSome = true → d.coder.op = c.coder.op ∧
    d.coder.queue.map QueuedBand.key =
      c.coder.queue.map QueuedBand.key ++ (l.filter (bufferedAt v.bands)).map fun i => (f, n, i)

section
variable {f : Fin 8} {n i : Nat} {v : Captured} {c : Chip}

theorem forceBand_absent (h : bandOf c f n i = none) : forceBand f n c i = c := by
  unfold bandOf at h
  unfold forceBand
  rw [h]

theorem forceBand_closed {b : Band} (h : bandOf c f n i = some b) (closed : closedState b.state = true) :
    forceBand f n c i = c := by
  unfold bandOf at h
  unfold forceBand
  rw [h]
  exact if_pos closed

theorem forceBand_open {b : Band} (h : bandOf c f n i = some b) (opened : closedState b.state = false) :
    forceBand f n c i = closeBand f n i (forcedState b.state) c := by
  unfold bandOf at h
  unfold forceBand
  rw [h]
  exact if_neg (Bool.eq_false_iff.1 opened)

/-- Nothing is closed where no band is open. -/
theorem Forced.nothing {l : List Nat} (h : capturedOf c f n = some v)
    (closed : ∀ i ∈ l, ∀ z, v.bands[i]? = some z → closedState z.state = true) : Forced f n l v c v c := by
  have none : ∀ i ∈ l, openAt v.bands i = false := fun i hi => by
    rw [openAt]
    cases hz : v.bands[i]? with
    | none => rfl
    | some z => simp [closed i hi z hz]
  have quiet : l.any (openAt v.bands) = false := List.any_eq_false.2 fun i hi => by simp [none i hi]
  have unqueued : l.filter (bufferedAt v.bands) = [] := List.filter_eq_nil_iff.2 fun i hi => by
    rw [bufferedAt]
    cases hz : v.bands[i]? with
    | none => simp
    | some z => simp [closed i hi z hz]
  constructor
  case only => exact .refl c
  case found => exact h
  case abandoned => rfl
  case bands =>
    intro i
    cases hz : v.bands[i]? with
    | none => exact ⟨0, rfl⟩
    | some z =>
      refine ⟨z.closeEvent, congrArg some ?_⟩
      split
      · next hi => exact (forcedBand_closed (closed i hi z hz)).symm
      · rfl
  case base => exact fun x => x.resolve_right (by rw [quiet]; exact Bool.false_ne_true)
  case mark => rw [quiet, Bool.or_false]
  case coder => exact fun _ => ⟨rfl, by rw [unqueued, List.map_nil, List.append_nil]⟩

/-- One open band closed by force. -/
theorem Forced.one {b : Band} (h : capturedOf c f n = some v) (hb : v.bands[i]? = some b)
    (opened : closedState b.state = false) :
    Forced f n [i] v c (v.close i (forcedBand c.coder.closeCount b))
      (closeBand f n i (forcedState b.state) c) := by
  have band := (bandOf_captured h i).trans hb
  have any : [i].any (openAt v.bands) = true := by simp [openAt, hb, opened]
  constructor
  case only => exact closeBand_closingOnly _ c
  case found => exact closeBand_capturedOf _ h hb
  case abandoned => rfl
  case bands =>
    intro j
    refine ⟨c.coder.closeCount, ?_⟩
    by_cases e : j = i
    · subst e
      have bound : j < v.bands.length := (List.getElem?_eq_some_iff.1 hb).1
      rw [Captured.close, List.getElem?_set_self bound, hb]
      simp
    · simp [Captured.close, List.getElem?_set_ne (Ne.symm e), e]
  case base => exact fun _ => rfl
  case mark => rw [closeBand_incMark _ band, forcedState_incomplete opened, any]
  case coder =>
    intro works
    obtain ⟨op, queue⟩ := closeBand_coder (forcedState b.state) band works
    refine ⟨op, ?_⟩
    rw [queue, List.map_append]
    refine congrArg _ ?_
    cases buffer : b.hasBuffer <;> simp [queuedOn, bufferedAt, hb, opened, buffer, QueuedBand.key]

theorem forceBand_forced (h : capturedOf c f n = some v) (i : Nat) :
    ∃ w, Forced f n [i] v c w (forceBand f n c i) := by
  cases hb : v.bands[i]? with
  | none =>
    rw [forceBand_absent ((bandOf_captured h i).trans hb)]
    refine ⟨v, .nothing h fun j hj z hz => ?_⟩
    cases List.mem_singleton.1 hj
    cases hb.symm.trans hz
  | some b =>
    cases closed : closedState b.state with
    | true =>
      rw [forceBand_closed ((bandOf_captured h i).trans hb) closed]
      refine ⟨v, .nothing h fun j hj z hz => ?_⟩
      cases List.mem_singleton.1 hj
      cases hb.symm.trans hz
      exact closed
    | false =>
      rw [forceBand_open ((bandOf_captured h i).trans hb) closed]
      exact ⟨_, .one h hb closed⟩

/-- One band closed by force, then others. -/
theorem Forced.cons {l : List Nat} {u w : Captured} {d e : Chip} (h : Forced f n [i] v c u d)
    (k : Forced f n l u d w e) (fresh : i ∉ l) : Forced f n (i :: l) v c w e := by
  have same : ∀ j ∈ l, u.bands[j]? = v.bands[j]? := fun j hj => by
    obtain ⟨x, hx⟩ := h.bands j
    have ne : j ≠ i := fun e => fresh (e ▸ hj)
    simpa [ne] using hx
  have opens : l.any (openAt u.bands) = l.any (openAt v.bands) :=
    Bool.eq_iff_iff.2 <| by
      simp only [List.any_eq_true]
      exact exists_congr fun j => and_congr_right fun hj => by rw [openAt, same j hj, openAt]
  have buffers : l.filter (bufferedAt u.bands) = l.filter (bufferedAt v.bands) :=
    List.filter_congr fun j hj => by rw [bufferedAt, same j hj, bufferedAt]
  constructor
  case only => exact h.only.trans k.only
  case found => exact k.found
  case abandoned => exact k.abandoned.trans h.abandoned
  case bands =>
    intro j
    obtain ⟨x, hx⟩ := h.bands j
    obtain ⟨y, hy⟩ := k.bands j
    by_cases e : j = i
    · subst e
      refine ⟨x, ?_⟩
      rw [hy, hx]
      simp [fresh, Function.comp_def]
    · refine ⟨y, ?_⟩
      rw [hy, hx]
      simp [e]
  case base =>
    intro x
    rw [List.any_cons, Bool.or_eq_true, ← or_assoc] at x
    refine k.base (x.imp (fun y => h.base ?_) (fun y => opens.trans y))
    simpa using y
  case mark =>
    rw [k.mark, h.mark, opens, List.any_cons, List.any_cons, List.any_nil, Bool.or_false, Bool.or_assoc]
  case coder =>
    intro works
    obtain ⟨op, queue⟩ := h.coder works
    obtain ⟨op', queue'⟩ := k.coder (by rw [op]; exact works)
    refine ⟨op'.trans op, ?_⟩
    rw [queue', queue, buffers, List.append_assoc, ← List.map_append, ← List.filter_append]
    rfl

theorem forceBands_forced {l : List Nat} (once : l.Nodup) (h : capturedOf c f n = some v) :
    ∃ w, Forced f n l v c w (l.foldl (forceBand f n) c) := by
  induction l generalizing c v with
  | nil => exact ⟨v, .nothing h fun i hi => absurd hi List.not_mem_nil⟩
  | cons i l ih =>
    obtain ⟨fresh, once⟩ := List.nodup_cons.1 once
    obtain ⟨u, first⟩ := forceBand_forced h i
    obtain ⟨w, rest⟩ := ih once first.found
    exact ⟨w, first.cons rest fresh⟩

end

/-! ### Abandoning a picture -/

theorem openPicture_some {c : Chip} {f : Fin 8} {p : Picture} (h : openPicture c f = some p) :
    findPic c f p.ident = some p := by
  unfold openPicture at h
  split at h
  · obtain ⟨found, -⟩ := Option.filter_eq_some_iff.1 h
    rw [findPic_ident found]
    exact found
  all_goals cases h

theorem abandon_none {f : Fin 8} {c : Chip} (h : openPicture c f = none) : abandon f c = c := by
  unfold abandon
  rw [h]

/-- An open picture that is abandoned has every band closed and is the current one no more (R44). -/
theorem abandon_some {f : Fin 8} {c : Chip} {p : Picture} (h : openPicture c f = some p) :
    ∃ d, ClosingOnly c d ∧ abandon f c = setFeed d f { d.feeds[f] with cur := .none } ∧
      ∃ q, findPic d f p.ident = some q ∧ q.abandoned = true ∧
        ∀ b ∈ q.bands, closedState b.state = true := by
  have marked := capturedOf_mapPic (v := p.captured) (congrArg (Option.map _) (openPicture_some h))
    (g := fun x => { x with abandoned := true }) (fun _ => rfl)
    (k := fun v => { v with abandoned := true }) (fun _ => rfl)
  obtain ⟨w, forced⟩ := forceBands_forced (l := List.range p.bands.length) List.nodup_range marked
  obtain ⟨q, found, rfl⟩ := Option.map_eq_some_iff.1 forced.found
  refine ⟨_, (mapPic_closingOnly f p.ident _ c).trans forced.only, ?_, q, found, forced.abandoned,
    fun b hb => ?_⟩
  · unfold abandon
    rw [h]
  · obtain ⟨i, hi⟩ := List.mem_iff_getElem?.1 hb
    obtain ⟨e, he⟩ := forced.bands i
    obtain ⟨z, hz, rfl⟩ := Option.map_eq_some_iff.1 (he.symm.trans hi)
    have bound : i ∈ List.range p.bands.length := List.mem_range.2 (List.getElem?_eq_some_iff.1 hz).1
    rw [if_pos bound]
    exact forcedState_closed z.state

theorem abandon_coderOnly (f : Fin 8) (c : Chip) : CoderOnly c (abandon f c) := by
  cases h : openPicture c f with
  | none =>
    rw [abandon_none h]
    exact .refl c
  | some p =>
    obtain ⟨d, only, e, -⟩ := abandon_some h
    rw [e]
    exact only.toCoderOnly.trans (setFeed_coderOnly _ _ _)

theorem abandon_state (f : Fin 8) (c : Chip) : (abandon f c).feeds[f].state = c.feeds[f].state := by
  cases h : openPicture c f with
  | none => rw [abandon_none h]
  | some p =>
    obtain ⟨d, only, e, -⟩ := abandon_some h
    rw [e, setFeed_same]
    exact only.state f

theorem abandon_silence (f : Fin 8) (c : Chip) : (abandon f c).feeds[f].silence = c.feeds[f].silence := by
  cases h : openPicture c f with
  | none => rw [abandon_none h]
  | some p =>
    obtain ⟨d, only, e, -⟩ := abandon_some h
    rw [e, setFeed_same]
    exact only.silence f

/-- What is left of an open picture that is abandoned (R44). -/
theorem abandon_closes {f : Fin 8} {c : Chip} {p : Picture} (h : openPicture c f = some p) :
    (abandon f c).feeds[f].cur = .none ∧
      ∃ q, findPic (abandon f c) f p.ident = some q ∧ q.abandoned = true ∧
        ∀ b ∈ q.bands, closedState b.state = true := by
  obtain ⟨d, -, e, q, found, closed⟩ := abandon_some h
  rw [e, setFeed_same, findPic_setFeed (by rfl)]
  exact ⟨rfl, q, found, closed⟩

/-! ### The silence timer -/

theorem openPicture_setFeed {c : Chip} {f : Fin 8} {r : Feed} (cur : r.cur = c.feeds[f].cur)
    (pics : r.pics = c.feeds[f].pics) : openPicture (setFeed c f r) f = openPicture c f := by
  unfold openPicture
  rw [setFeed_same, cur]
  simp only [findPic_setFeed pics]

theorem silenceEnds_running {f : Fin 8} {c : Chip} (h : c.feeds[f].silence.isSome = true) :
    silenceEnds f c = abandon f (setFeed c f { c.feeds[f] with silence := none }) := if_pos h

/-- Settles O23. -/
theorem silenceAbandons : Obligations.SilenceAbandons := by
  intro f s held runs
  have still : openPicture (setFeed s.chip f { s.chip.feeds[f] with silence := none }) f =
      openPicture s.chip f := openPicture_setFeed rfl rfl
  refine ⟨fun none => ?_, fun p some => ?_⟩
  · rw [exec_event (k := silenceEnds f) held rfl, silenceEnds_running runs, abandon_none (still.trans none)]
  · obtain ⟨cur, closed⟩ := abandon_closes (still.trans some)
    refine ⟨_, exec_event (k := silenceEnds f) held rfl, rfl, rfl, ?_⟩
    dsimp only
    rw [silenceEnds_running runs, abandon_silence, abandon_state, (abandon_coderOnly f _).same, setFeed_same]
    exact ⟨rfl, cur, rfl, rfl, closed⟩

end Sys2Proof.Machine
end

section
/-! SUPPORT. What becomes of a write gathered for a picture (R45 to R48). -/

namespace Sys2Proof.Machine

/-! ### One band written -/

/-- What capture keeps of a picture of which a band was replaced (R46). -/
def Captured.put (i : Nat) (b : Band) (v : Captured) : Captured := { v with bands := v.bands.set i b }

theorem setBand_capturedOf {c : Chip} {f : Fin 8} {n : Nat} {v : Captured} (h : capturedOf c f n = some v)
    (i : Nat) (b : Band) : capturedOf (setBand f n i b c) f n = some (v.put i b) :=
  capturedOf_mapPic h (g := fun p => { p with bands := p.bands.set i b }) (fun _ => rfl)
    (k := Captured.put i b) fun _ => rfl

theorem setBand_closingOnly (f : Fin 8) (n i : Nat) (b : Band) (c : Chip) :
    ClosingOnly c (setBand f n i b c) := mapPic_closingOnly _ _ _ _

/-- A band is more than one line (section 3.2). -/
theorem one_lt_bandLinesOf (x : Format) : 1 < bandLinesOf x := by cases x <;> decide

/-- A band replaced by one that is as open leaves the lowest open band where it was (section 3.5). -/
theorem lowestOpen_set {bs : List Band} {i : Nat} {b b' : Band} (hb : bs[i]? = some b)
    (same : closedState b'.state = closedState b.state) : lowestOpen (bs.set i b') = lowestOpen bs := by
  obtain ⟨bound, rfl⟩ := List.getElem?_eq_some_iff.1 hb
  have states : (bs.set i b').map (fun z => !closedState z.state) = bs.map fun z => !closedState z.state := by
    rw [List.map_set, same]
    refine List.ext_getElem (by simp) fun j _ _ => ?_
    by_cases e : i = j
    · subst e
      simp
    · simp [e]
  have shown := congrArg (List.findIdx id) states
  rw [List.findIdx_map, List.findIdx_map] at shown
  exact shown

section
variable {c : Chip} {f : Fin 8} {n x o : Nat} {data : Line} {mask : Mask} {b : Band}

theorem storeInBand_stores
    (more : (storeLine b.lines o data mask).length < bandLinesOf c.feeds[f].cfg.format) :
    storeInBand f n x b o data mask c = setBand f n x { b with lines := storeLine b.lines o data mask } c := by
  unfold storeInBand
  dsimp only
  rw [setBand, mapPic, setFeed_same]
  exact if_neg (Nat.not_le.2 more)

theorem storeInBand_completes
    (full : bandLinesOf c.feeds[f].cfg.format ≤ (storeLine b.lines o data mask).length) :
    storeInBand f n x b o data mask c =
      closeBand f n x .complete (setBand f n x { b with lines := storeLine b.lines o data mask } c) := by
  unfold storeInBand
  dsimp only
  rw [setBand, mapPic, setFeed_same]
  exact if_pos full

theorem storeInBand_closingOnly (f : Fin 8) (n x : Nat) (b : Band) (o : Nat) (data : Line) (mask : Mask)
    (c : Chip) : ClosingOnly c (storeInBand f n x b o data mask c) := by
  unfold storeInBand
  dsimp only
  split
  · exact (setBand_closingOnly _ _ _ _ _).trans (closeBand_closingOnly _ _)
  · exact setBand_closingOnly _ _ _ _ _

theorem writeBand_gatherOnly (f : Fin 8) (n x o : Nat) (data : Line) (mask : Mask) (c : Chip) :
    GatherOnly c (writeBand f n x o data mask c) := by
  unfold writeBand
  split
  · exact .refl c
  · split
    · split
      · exact (setFeed_gatherOnly (by rfl)).trans (storeInBand_closingOnly _ _ _ _ _ _ _ _).toGatherOnly
      · exact (setBand_closingOnly _ _ _ _ _).toGatherOnly
    · exact (storeInBand_closingOnly _ _ _ _ _ _ _ _).toGatherOnly
    all_goals exact .refl c

section
variable (h : bandOf c f n x = some b)
include h

/-- A write into a band that is not closed, by the band's state (R46). -/
theorem writeBand_some :
    (b.state = .opened → writeBand f n x o data mask c = storeInBand f n x b o data mask c) ∧
      (b.state = .short → writeBand f n x o data mask c = c) ∧
      (b.state = .waiting → writeBand f n x o data mask c =
        if 0 < c.feeds[f].freeBuffers then
          storeInBand f n x { b with state := .opened, hasBuffer := true } o data mask
            (setFeed c f { c.feeds[f] with freeBuffers := c.feeds[f].freeBuffers - 1 })
        else setBand f n x { b with state := .short } c) := by
  unfold bandOf at h
  unfold writeBand
  rw [h]
  dsimp only
  refine ⟨fun opened => ?_, fun short => ?_, fun waits => ?_⟩
  · rw [opened]
  · rw [short]
  · rw [waits]

theorem writeBand_opened (opened : b.state = .opened) :
    writeBand f n x o data mask c = storeInBand f n x b o data mask c := (writeBand_some h).1 opened

theorem writeBand_drops (short : b.state = .short) : writeBand f n x o data mask c = c :=
  (writeBand_some h).2.1 short

theorem writeBand_short (waits : b.state = .waiting) (none : c.feeds[f].freeBuffers = 0) :
    writeBand f n x o data mask c = setBand f n x { b with state := .short } c := by
  obtain ⟨-, -, first⟩ := writeBand_some h (o := o) (data := data) (mask := mask)
  exact (first waits).trans (if_neg (by rw [none]; exact Nat.lt_irrefl 0))

/-- The first write into a band opens it with a free buffer (R46). -/
theorem writeBand_opens (waits : b.state = .waiting) (fresh : b.lines = [])
    (free : 0 < c.feeds[f].freeBuffers) : writeBand f n x o data mask c =
      setBand f n x
        { b with state := .opened, hasBuffer := true, lines := [(o, mergeLine zeroLine data mask)] }
        (setFeed c f { c.feeds[f] with freeBuffers := c.feeds[f].freeBuffers - 1 }) := by
  obtain ⟨-, -, first⟩ := writeBand_some h (o := o) (data := data) (mask := mask)
  refine ((first waits).trans (if_pos free)).trans ?_
  have line : storeLine b.lines o data mask = [(o, mergeLine zeroLine data mask)] := by
    rw [fresh]
    rfl
  rw [storeInBand_stores, line]
  dsimp only
  rw [line]
  exact one_lt_bandLinesOf _

end

/-! ### The bands behind a write -/

/-- The bands a write closes by force, in band order, are those the statement names (R45). -/
theorem bandsBehind_eq (b x : Nat) : bandsBehind b x = (List.range x).filter (forcedBy b x) := by
  unfold bandsBehind
  split
  · next near =>
    refine (List.filter_eq_nil_iff.2 fun i _ => ?_).symm
    simp only [forcedBy, decide_eq_true_iff]
    omega
  · split
    · next two =>
      subst two
      have below : (List.range b).filter (forcedBy b (b + 2)) = [] := List.filter_eq_nil_iff.2 fun i hi => by
        rw [List.mem_range] at hi
        simp only [forcedBy, decide_eq_true_iff]
        omega
      rw [List.range_succ, List.range_succ, List.filter_append, List.filter_append, below]
      simp [forcedBy]
    · next near two =>
      obtain ⟨k, rfl⟩ : ∃ k, x = b + k := ⟨x - b, by omega⟩
      have below : (List.range b).filter (forcedBy b (b + k)) = [] := List.filter_eq_nil_iff.2 fun i hi => by
        rw [List.mem_range] at hi
        simp only [forcedBy, decide_eq_true_iff]
        omega
      have above : ((List.range k).map (b + ·)).filter (forcedBy b (b + k)) = (List.range k).map (b + ·) :=
        List.filter_eq_self.2 fun i hi => by
          obtain ⟨j, hj, rfl⟩ := List.mem_map.1 hi
          rw [List.mem_range] at hj
          simp only [forcedBy, decide_eq_true_iff]
          omega
      rw [List.range_add, List.filter_append, below, above, Nat.add_sub_cancel_left, List.nil_append]

theorem mem_bandsBehind {b x i : Nat} : i ∈ bandsBehind b x ↔ forcedBy b x i = true := by
  rw [bandsBehind_eq, List.mem_filter, List.mem_range, and_iff_right_iff_imp, forcedBy, decide_eq_true_iff]
  omega

theorem bandsBehind_nodup (b x : Nat) : (bandsBehind b x).Nodup := by
  rw [bandsBehind_eq]
  exact List.nodup_range.filter _

/-! ### A write gathered -/

section
variable {p : Picture}

theorem gather_none (absent : findPic c f n = none) : gather f n x o data mask c = markLate f c := by
  unfold gather
  rw [absent]

section
variable (found : findPic c f n = some p)
include found

theorem gather_noBand (hb : p.bands[x]? = none) : gather f n x o data mask c = c := by
  unfold gather
  rw [found]
  dsimp only
  rw [hb]

variable (hb : p.bands[x]? = some b)
include hb

theorem gather_late (closed : closedState b.state = true) : gather f n x o data mask c = markLate f c := by
  unfold gather
  rw [found]
  dsimp only
  rw [hb]
  exact if_pos closed

theorem gather_far (opened : closedState b.state = false) : gather f n x o data mask c =
    writeBand f n x o data mask ((bandsBehind p.base x).foldl (forceBand f n) c) := by
  unfold gather
  rw [found]
  dsimp only
  rw [hb]
  exact if_neg (Bool.eq_false_iff.1 opened)

/-- At or one past the base nothing is closed by force (R45). -/
theorem gather_near (near : x ≤ p.base + 1) (opened : closedState b.state = false) :
    gather f n x o data mask c = writeBand f n x o data mask c := by
  rw [gather_far found hb opened, bandsBehind, if_pos near, List.foldl_nil]

theorem bandOf_found : bandOf c f n x = some b := by
  rw [bandOf, found]
  exact hb

section
variable (near : x ≤ p.base + 1)
include near

theorem gather_stores (opened : b.state = .opened)
    (more : (storeLine b.lines o data mask).length < bandLinesOf c.feeds[f].cfg.format) :
    gather f n x o data mask c = setBand f n x { b with lines := storeLine b.lines o data mask } c := by
  rw [gather_near found hb near (by rw [opened]; rfl), writeBand_opened (bandOf_found found hb) opened,
    storeInBand_stores more]

theorem gather_short (waits : b.state = .waiting) (none : c.feeds[f].freeBuffers = 0) :
    gather f n x o data mask c = setBand f n x { b with state := .short } c := by
  rw [gather_near found hb near (by rw [waits]; rfl), writeBand_short (bandOf_found found hb) waits none]

theorem gather_opens (waits : b.state = .waiting) (fresh : b.lines = [])
    (free : 0 < c.feeds[f].freeBuffers) : gather f n x o data mask c =
      setBand f n x
        { b with state := .opened, hasBuffer := true, lines := [(o, mergeLine zeroLine data mask)] }
        (setFeed c f { c.feeds[f] with freeBuffers := c.feeds[f].freeBuffers - 1 }) := by
  rw [gather_near found hb near (by rw [waits]; rfl), writeBand_opens (bandOf_found found hb) waits fresh free]

theorem gather_drops (short : b.state = .short) : gather f n x o data mask c = c := by
  rw [gather_near found hb near (by rw [short]; rfl), writeBand_drops (bandOf_found found hb) short]

end

end

theorem markLate_gatherOnly (f : Fin 8) (c : Chip) : GatherOnly c (markLate f c) :=
  setFeed_gatherOnly rfl

theorem gather_gatherOnly (f : Fin 8) (n x o : Nat) (data : Line) (mask : Mask) (c : Chip) :
    GatherOnly c (gather f n x o data mask c) := by
  cases found : findPic c f n with
  | none =>
    rw [gather_none found]
    exact markLate_gatherOnly f c
  | some p =>
    cases hb : p.bands[x]? with
    | none =>
      rw [gather_noBand found hb]
      exact .refl c
    | some b =>
      cases closed : closedState b.state with
      | true =>
        rw [gather_late found hb closed]
        exact markLate_gatherOnly f c
      | false =>
        obtain ⟨w, forced⟩ := forceBands_forced (bandsBehind_nodup p.base x)
          (congrArg (Option.map Picture.captured) found)
        rw [gather_far found hb closed]
        exact forced.only.toGatherOnly.trans (writeBand_gatherOnly _ _ _ _ _ _ _)

/-- The last missing line of an open band closes it COMPLETE, and its buffer joins the queue of a coder at
work (R46 to R48, R55). -/
theorem gather_completes {d : Chip} (hd : d = gather f n x o data mask c) (found : findPic c f n = some p)
    (hb : p.bands[x]? = some b) (near : x ≤ p.base + 1) (opened : b.state = .opened)
    (full : bandLinesOf c.feeds[f].cfg.format ≤ (storeLine b.lines o data mask).length) :
    ClosingOnly c d ∧ d.feeds[f].incMark = c.feeds[f].incMark ∧
      (∃ q, findPic d f n = some q ∧ q.base = lowestOpen q.bands ∧ q.bands = p.bands.set x
        { b with
          state := .complete, lines := storeLine b.lines o data mask,
          closeEvent := c.coder.closeCount }) ∧
      d.coder.closeCount = c.coder.closeCount + 1 ∧
      (c.coder.op.isSome = true →
        d.coder.queue = c.coder.queue ++ queuedOn f n x b c.coder.closeCount) := by
  have stored := setBand_capturedOf (congrArg (Option.map Picture.captured) found) x
    { b with lines := storeLine b.lines o data mask }
  have bound : x < p.bands.length := (List.getElem?_eq_some_iff.1 hb).1
  have band : (p.bands.set x { b with lines := storeLine b.lines o data mask })[x]? =
      some { b with lines := storeLine b.lines o data mask } := List.getElem?_set_self bound
  have there := (bandOf_captured stored x).trans band
  rw [gather_near found hb near (by rw [opened]; rfl), writeBand_opened (bandOf_found found hb) opened,
    storeInBand_completes full] at hd
  subst hd
  refine ⟨(setBand_closingOnly _ _ _ _ _).trans (closeBand_closingOnly _ _), ?_, ?_,
    closeBand_closeCount _ there, fun works => (closeBand_coder _ there works).2⟩
  · rw [closeBand_incMark _ there, setBand, mapPic, setFeed_same]
    exact Bool.or_false _
  · obtain ⟨q, hq, e⟩ := Option.map_eq_some_iff.1 (closeBand_capturedOf .complete stored band)
    have bands := congrArg Captured.bands e
    have base := congrArg Captured.base e
    refine ⟨q, hq, base.trans (congrArg lowestOpen bands.symm), bands.trans ?_⟩
    exact List.set_set ..

/-- What the write itself makes of a WAITING band (R46). -/
def firstWrite (o : Nat) (data : Line) (mask : Mask) (free : Nat) (b : Band) : Band :=
  if 0 < free then
    { b with state := .opened, hasBuffer := true, lines := [(o, mergeLine zeroLine data mask)] }
  else { b with state := .short }

theorem firstWrite_open (o : Nat) (data : Line) (mask : Mask) (free : Nat) (b : Band) :
    closedState (firstWrite o data mask free b).state = false := by
  unfold firstWrite
  split <;> rfl

/-- The first write into a WAITING band replaces the band and takes a buffer if there is one (R46). -/
theorem writeBand_first {v : Captured} {d : Chip} (hd : d = writeBand f n x o data mask c)
    (h : capturedOf c f n = some v) (hb : v.bands[x]? = some b) (waits : b.state = .waiting)
    (fresh : b.lines = []) :
    capturedOf d f n = some (v.put x (firstWrite o data mask c.feeds[f].freeBuffers b)) ∧
      d.feeds[f].freeBuffers = c.feeds[f].freeBuffers - 1 ∧ d.feeds[f].incMark = c.feeds[f].incMark ∧
      d.feeds[f].lateMark = c.feeds[f].lateMark ∧ d.coder = c.coder := by
  have band := (bandOf_captured h x).trans hb
  unfold firstWrite
  by_cases free : 0 < c.feeds[f].freeBuffers
  · rw [writeBand_opens band waits fresh free] at hd
    subst hd
    rw [if_pos free, setBand_capturedOf ((capturedOf_setFeed (by rfl) _ _).trans h), setBand, mapPic,
      setFeed_same, setFeed_same]
    exact ⟨rfl, rfl, rfl, rfl, rfl⟩
  · have none := Nat.eq_zero_of_not_pos free
    rw [writeBand_short band waits none] at hd
    subst hd
    rw [if_neg free, setBand_capturedOf h, setBand, mapPic, setFeed_same]
    exact ⟨rfl, by dsimp only; rw [none], rfl, rfl, rfl⟩

/-- A write two or more past an open base closes the bands behind it by force and is then gathered in its
WAITING band (R45 to R48). -/
theorem gather_forces {d : Chip} {u : Band} (hd : d = gather f n x o data mask c)
    (found : findPic c f n = some p) (hb : p.bands[x]? = some b) (far : p.base + 2 ≤ x)
    (waits : b.state = .waiting) (fresh : b.lines = []) (hu : p.bands[p.base]? = some u)
    (opened : closedState u.state = false) :
    GatherOnly c d ∧ d.feeds[f].incMark = true ∧ d.feeds[f].lateMark = c.feeds[f].lateMark ∧
      d.feeds[f].freeBuffers = c.feeds[f].freeBuffers - 1 ∧
      (∃ q, findPic d f n = some q ∧ q.base = lowestOpen q.bands ∧
        q.bands[x]? = some (firstWrite o data mask c.feeds[f].freeBuffers b) ∧
        ∀ i, i ≠ x → ∃ e, q.bands[i]? =
          p.bands[i]?.map fun z => if forcedBy p.base x i then forcedBand e z else z) ∧
      (c.coder.op.isSome = true →
        d.coder.queue.map QueuedBand.key = c.coder.queue.map QueuedBand.key ++
          ((List.range x).filter fun i => forcedBy p.base x i && bufferedAt p.bands i).map
            fun i => (f, n, i)) := by
  obtain ⟨v, forced⟩ := forceBands_forced (bandsBehind_nodup p.base x)
    (congrArg (Option.map Picture.captured) found)
  have closes : (bandsBehind p.base x).any (openAt p.captured.bands) = true := by
    have behind : p.base ∈ bandsBehind p.base x :=
      mem_bandsBehind.2 (by rw [forcedBy, decide_eq_true_iff]; omega)
    exact List.any_eq_true.2 ⟨_, behind, by rw [openAt, Picture.captured, hu, Option.any_some, opened]; rfl⟩
  have band : v.bands[x]? = some b := by
    obtain ⟨e, he⟩ := forced.bands x
    have ahead : x ∉ bandsBehind p.base x := fun y => by
      have := mem_bandsBehind.1 y
      rw [forcedBy, decide_eq_true_iff] at this
      omega
    rw [he]
    simp only [if_neg ahead]
    rw [Option.map_id']
    exact hb
  obtain ⟨written, buffers, mark, late, coder⟩ :=
    writeBand_first rfl forced.found band waits fresh (o := o) (data := data) (mask := mask)
  rw [gather_far found hb (by rw [waits]; rfl)] at hd
  subst hd
  rw [forced.only.free] at written buffers
  refine ⟨forced.only.toGatherOnly.trans (writeBand_gatherOnly _ _ _ _ _ _ _), ?_,
    late.trans (forced.only.late f), buffers, ?_, fun works => ?_⟩
  · rw [mark, forced.mark, closes, Bool.or_true]
  · obtain ⟨q, hq, e⟩ := Option.map_eq_some_iff.1 written
    have bands := congrArg Captured.bands e
    have base := congrArg Captured.base e
    refine ⟨q, hq, ?_, ?_, fun i ne => ?_⟩
    · rw [show q.base = v.base from base, forced.base (.inr closes)]
      refine (lowestOpen_set band ?_).symm.trans (congrArg lowestOpen bands.symm)
      rw [firstWrite_open, waits]
      rfl
    · exact (congrArg (·[x]?) bands).trans (List.getElem?_set_self (List.getElem?_eq_some_iff.1 band).1)
    · obtain ⟨e, he⟩ := forced.bands i
      refine ⟨e, ((congrArg (·[i]?) bands).trans (List.getElem?_set_ne ne.symm)).trans ?_⟩
      simp only [mem_bandsBehind] at he
      exact he
  · obtain ⟨-, queue⟩ := forced.coder works
    have order : (bandsBehind p.base x).filter (bufferedAt p.bands) =
        (List.range x).filter fun i => forcedBy p.base x i && bufferedAt p.bands i := by
      rw [bandsBehind_eq, List.filter_filter]
      exact List.filter_congr fun i _ => Bool.and_comm _ _
    rw [coder, queue]
    exact congrArg (fun l => _ ++ List.map _ l) order

end

end

end Sys2Proof.Machine
end

section
/-! SUPPORT. The beginning of a picture and the capture tap (R39 to R42, R76). -/

namespace Sys2Proof.Machine

/-! ### The beginning of a picture -/

theorem foldl_serveOnly {α : Type} {g : Chip → α → Chip} (k : ∀ c x, ServeOnly c (g c x)) (l : List α)
    (c : Chip) : ServeOnly c (l.foldl g c) := by
  induction l generalizing c with
  | nil => exact .refl c
  | cons x l ih => exact (k c x).trans (ih _)

theorem withdrawLive_serveOnly (f : Fin 8) (seq : Count32) (c : Chip) :
    ServeOnly c (withdrawLive f seq c) := ⟨rfl, List.prefix_refl _⟩

theorem setRing_serveOnly (c : Chip) (f : Fin 8) (r : CodedRing) : ServeOnly c (setRing c f r) :=
  ⟨rfl, List.prefix_refl _⟩

/-- A reclaimed record is withdrawn and reported, and leaves its ring (R82). -/
theorem reclaim_serveOnly (f : Fin 8) (c : Chip) (u : UnitRec) : ServeOnly c (reclaim f c u) := by
  have withdrawn : ServeOnly c (if u.live then withdrawLive f u.seq c else c) := by
    split
    · exact withdrawLive_serveOnly f u.seq c
    · exact .refl c
  have reported : ∀ d body, ServeOnly d
      (if d.feeds[f].cfg.recorder && !u.recorded then askReport .ring body d else d) := fun d body => by
    split
    · exact (askReport_reportOnly _ _ _).serveOnly
    · exact .refl d
  exact (setRing_serveOnly _ _ _).after ((reported _ _).after withdrawn)

theorem takeRegion_serveOnly (f : Fin 8) (x : Nat) (extra : Option UnitRec) (c : Chip) :
    ServeOnly c (takeRegion f x extra c) :=
  (setRing_serveOnly _ _ _).after (foldl_serveOnly (reclaim_serveOnly f) _ c)

theorem withdrawIfSent_serveOnly (k : Clip) (c : Chip) : ServeOnly c (withdrawIfSent k c) := by
  unfold withdrawIfSent
  split
  · exact ⟨rfl, List.prefix_refl _⟩
  · exact .refl c

theorem dropHolds_serveOnly (k : Clip) (c : Chip) : ServeOnly c (dropHolds k c) :=
  foldl_serveOnly (fun c _ => setRing_serveOnly c _ _) _ c

theorem lapseClip_serveOnly (k : Clip) (f : Fin 8) (c : Chip) : ServeOnly c (lapseClip k f c) := by
  have lapsed : ∀ d, ServeOnly d (mapClip k.number (fun x => { x with state := .lapsed }) d) :=
    fun d => ⟨rfl, List.prefix_refl _⟩
  unfold lapseClip
  dsimp only
  refine (askReport_reportOnly _ _ _).serveOnly.after ((dropHolds_serveOnly _ _).after ((lapsed _).after ?_))
  split
  · exact (withdrawIfSent_serveOnly k c).trans ⟨rfl, List.prefix_refl _⟩
  · exact withdrawIfSent_serveOnly k c

theorem holdPressure_serveOnly (f : Fin 8) (r : Request) (c : Chip) : ServeOnly c (holdPressure f r c) := by
  unfold holdPressure
  split
  · dsimp only
    split
    · exact (lapseClip_serveOnly _ _ _).after (askReport_reportOnly _ _ _).serveOnly
    · exact (askReport_reportOnly _ _ _).serveOnly
  · exact .refl c

theorem ServeOnly.hostQ {c d : Chip} (h : ServeOnly c d) : d.mem.hostQ = c.mem.hostQ := by rw [h.same]

theorem CoderOnly.hostQ {c d : Chip} (h : CoderOnly c d) : d.mem.hostQ = c.mem.hostQ := by rw [h.same]

/-- A request depends on the rings, the windows and the feed's configuration (R76 to R80). -/
theorem requestRegion_congr {c d : Chip} {f : Fin 8} (rings : d.rings = c.rings)
    (windows : d.mem.windows = c.mem.windows) (cfg : d.feeds[f].cfg = c.feeds[f].cfg) :
    requestRegion d f = requestRegion c f := by
  have lines : reserveLines d f = reserveLines c f := by rw [reserveLines, cfg, reserveLines]
  have size : ringSize d f = ringSize c f := by simp only [ringSize, findWindow, windows]
  have found : search d f = search c f := by rw [search, rings, lines, size, search]
  have taken : doomed d f = doomed c f := by
    unfold doomed
    rw [rings, lines]
  have checked : listCheck d f = listCheck c f := by
    unfold listCheck
    rw [rings, lines, taken]
  rw [requestRegion, found, checked, requestRegion]

/-- The current picture after a reservation request: the next picture, or a dropped one (R41). -/
def begunCur (c : Chip) (f : Fin 8) : CurrentPicture :=
  if (requestRegion c f).1.start.isSome then .present c.coder.picCount else .dropped

/-- Beside what serves may change, a beginning picture is the feed's current one, and its state and slot stand
as they are (R41). -/
theorem beginPicture_feed (f : Fin 8) (slot : Nat) (c : Chip) :
    (beginPicture f slot c).feeds[f].state = c.feeds[f].state ∧
      (beginPicture f slot c).feeds[f].curSlot = c.feeds[f].curSlot ∧
      (beginPicture f slot c).feeds[f].cur = begunCur c f ∧
      (beginPicture f slot c).mem.hostQ = c.mem.hostQ := by
  unfold beginPicture begunCur
  dsimp only
  have pressure := holdPressure_serveOnly f (requestRegion c f).1
  cases (requestRegion c f).1.start with
  | some x =>
    have region := takeRegion_serveOnly f x (requestRegion c f).2 c
    rw [(pressure _).feeds, (pressure _).hostQ]
    unfold keepPicture
    dsimp only
    rw [setFeed_same, setFeed_mem, region.feeds, region.hostQ]
    exact ⟨rfl, rfl, rfl, rfl⟩
  | none =>
    rw [(pressure _).feeds, (pressure _).hostQ]
    unfold dropPicture
    have report := askReport_reportOnly .feed (reportBody 0 [byteOf f.val, byteOf slot])
      (setFeed c f { c.feeds[f] with cur := .dropped })
    rw [report.feeds, report.hostQ, setFeed_same]
    exact ⟨rfl, rfl, rfl, rfl⟩

/-! ### The tap -/

theorem restartSilence_running {f : Fin 8} {c : Chip} (h : c.feeds[f].state = .running) :
    restartSilence f c = c := if_neg (by rw [h]; decide)

theorem restartSilence_stopping {f : Fin 8} {c : Chip} (h : c.feeds[f].state = .stopping) :
    restartSilence f c = setFeed c f { c.feeds[f] with silence := some 2 } := if_pos h

/-- At most the silence timer changes (R40). -/
theorem restartSilence_silence (f : Fin 8) (c : Chip) :
    ∃ k, restartSilence f c = setFeed c f { c.feeds[f] with silence := k } := by
  by_cases h : c.feeds[f].state = .stopping
  · exact ⟨some 2, if_pos h⟩
  · have same : setFeed c f c.feeds[f] = c := by simp [setFeed]
    exact ⟨c.feeds[f].silence, (if_neg h).trans same.symm⟩

section
variable {f : Fin 8} {x o : Nat} {data : Line} {mask : Mask} {c : Chip}

theorem sameSlot_present {ident : Nat} (h : c.feeds[f].cur = .present ident) :
    sameSlot f x o data mask c = gather f ident x o data mask c := by
  unfold sameSlot
  rw [h]

theorem sameSlot_dropped (h : c.feeds[f].cur = .dropped) : sameSlot f x o data mask c = c := by
  unfold sameSlot
  rw [h]

theorem sameSlot_none (h : c.feeds[f].cur = .none) : sameSlot f x o data mask c = markLate f c := by
  unfold sameSlot
  rw [h]

theorem sameSlot_gatherOnly (f : Fin 8) (x o : Nat) (data : Line) (mask : Mask) (c : Chip) :
    GatherOnly c (sameSlot f x o data mask c) := by
  unfold sameSlot
  split
  · exact gather_gatherOnly _ _ _ _ _ _ _
  · exact .refl c
  · exact markLate_gatherOnly f c

/-- A write gathered for the current picture, if there is one (R42). -/
def gatherCur (f : Fin 8) (x o : Nat) (data : Line) (mask : Mask) (c : Chip) : Chip :=
  match c.feeds[f].cur with
  | .present ident => gather f ident x o data mask c
  | .none | .dropped => c

theorem gatherCur_gatherOnly (f : Fin 8) (x o : Nat) (data : Line) (mask : Mask) (c : Chip) :
    GatherOnly c (gatherCur f x o data mask c) := by
  unfold gatherCur
  split
  · exact gather_gatherOnly _ _ _ _ _ _ _
  all_goals exact .refl c

/-- The part with a picture begun in a new current slot of a feed (R41, R42). -/
def pictureBegun (f : Fin 8) (slot : Nat) (c : Chip) : Chip :=
  beginPicture f slot (setFeed c f { c.feeds[f] with curSlot := some slot })

theorem otherSlot_running {slot : Nat} (h : c.feeds[f].state = .running) :
    otherSlot f slot x o data mask c = gatherCur f x o data mask (pictureBegun f slot (abandon f c)) :=
  if_pos ((abandon_state f c).trans h)

theorem otherSlot_stopping {slot : Nat} (h : c.feeds[f].state = .stopping) :
    otherSlot f slot x o data mask c =
      setFeed (abandon f c) f { (abandon f c).feeds[f] with curSlot := none } :=
  if_neg (by rw [abandon_state, h]; decide)

section
variable {offset slot : Nat} (act : active c f = true)
  (inside : offset < c.feeds[f].cfg.slots * slotLinesOf c.feeds[f].cfg.format)
  (hs : slot = offset / slotLinesOf c.feeds[f].cfg.format)
  (hx : x = offset % slotLinesOf c.feeds[f].cfg.format / bandLinesOf c.feeds[f].cfg.format)
  (ho : o = offset % slotLinesOf c.feeds[f].cfg.format % bandLinesOf c.feeds[f].cfg.format)
include act inside hs hx ho

/-- A write into a slot of a feed that gathers restarts a STOPPING feed's silence timer and goes to that slot's
case (R39, R40, R42). -/
theorem captureTap_inside : captureTap f offset data mask c =
    if c.feeds[f].curSlot = some slot then sameSlot f x o data mask (restartSilence f c)
    else otherSlot f slot x o data mask (restartSilence f c) := by
  subst hs hx ho
  obtain ⟨k, e⟩ := restartSilence_silence f c
  have slot : (restartSilence f c).feeds[f].curSlot = c.feeds[f].curSlot := by rw [e, setFeed_same]
  unfold captureTap
  dsimp only
  rw [slot]
  exact if_neg (by rw [act, not_or]; exact ⟨nofun, Nat.not_le.2 inside⟩)

end

theorem captureTap_outside {offset : Nat} (h : active c f = false ∨
    c.feeds[f].cfg.slots * slotLinesOf c.feeds[f].cfg.format ≤ offset) :
    captureTap f offset data mask c = c := if_pos h

end

/-! ### The host's write -/

section
variable {addr : BitVec 36} {data : Line} {mask : Mask} {s : State} {e : Fin 24} {w : Window} {f : Fin 8}
  (held : s.chip.resetHeld = false) (nonempty : mask ≠ 0)
  (window : classify s.chip (lineAddr addr) = some (e, w)) (kind : w.kind = .capture) (feed : w.feed = some f)
include held nonempty window kind feed

/-- A write into a CAPTURE window is forwarded, tapped and served (R1, R39, R176). -/
theorem exec_captureWrite : exec (.hostWrite addr data mask) s =
    .next { s with
      chip := serveIfNew s.chip (captureTap f (lineOffset w (lineAddr addr)) data mask
        (forward (.write (lineAddr addr) data mask) s.chip)) } := by
  have tap : writeTap e w (lineAddr addr) data mask (s.passed addr data mask) =
      { s with
        chip := captureTap f (lineOffset w (lineAddr addr)) data mask
          (forward (.write (lineAddr addr) data mask) s.chip) } := by
    unfold writeTap
    rw [kind, feed]
    rfl
  refine congrArg Host.Outcome.next ?_
  show hostWrite addr data mask s = _
  rw [hostWrite_tapped held window nonempty, if_neg (by rw [kind]; decide), tap]

/-- A write that the feed does not gather is forwarded alone (R39). -/
theorem exec_captureWrite_outside (h : active s.chip f = false ∨
    s.chip.feeds[f].cfg.slots * slotLinesOf s.chip.feeds[f].cfg.format ≤ lineOffset w (lineAddr addr)) :
    exec (.hostWrite addr data mask) s =
      .next { s with chip := forward (.write (lineAddr addr) data mask) s.chip } := by
  rw [exec_captureWrite held nonempty window kind feed, captureTap_outside (by exact h)]
  exact next_unserved rfl rfl

section
variable {slot x o : Nat} (act : active s.chip f = true)
  (inside : lineOffset w (lineAddr addr) <
    s.chip.feeds[f].cfg.slots * slotLinesOf s.chip.feeds[f].cfg.format)
  (hs : slot = lineOffset w (lineAddr addr) / slotLinesOf s.chip.feeds[f].cfg.format)
  (hx : x = lineOffset w (lineAddr addr) % slotLinesOf s.chip.feeds[f].cfg.format /
    bandLinesOf s.chip.feeds[f].cfg.format)
  (ho : o = lineOffset w (lineAddr addr) % slotLinesOf s.chip.feeds[f].cfg.format %
    bandLinesOf s.chip.feeds[f].cfg.format)
include act inside hs hx ho

/-- A write into the current slot has nothing served (R39, R176). -/
theorem exec_captureWrite_same (cur : s.chip.feeds[f].curSlot = some slot) :
    exec (.hostWrite addr data mask) s =
      .next { s with
        chip := sameSlot f x o data mask
          (restartSilence f (forward (.write (lineAddr addr) data mask) s.chip)) } := by
  obtain ⟨k, silence⟩ := restartSilence_silence f (forward (.write (lineAddr addr) data mask) s.chip)
  have only := sameSlot_gatherOnly f x o data mask
    (restartSilence f (forward (.write (lineAddr addr) data mask) s.chip))
  rw [exec_captureWrite held nonempty window kind feed,
    captureTap_inside (c := forward (.write (lineAddr addr) data mask) s.chip) act inside hs hx ho,
    if_pos (by exact cur)]
  refine next_unserved ?_ ?_
  all_goals
    rw [only.same, silence]
    rfl

/-- A write into another slot, before what it frees or queues is served (R42, R176). -/
theorem exec_captureWrite_other (cur : s.chip.feeds[f].curSlot ≠ some slot) :
    exec (.hostWrite addr data mask) s =
      .next { s with
        chip := serveIfNew s.chip (otherSlot f slot x o data mask
          (restartSilence f (forward (.write (lineAddr addr) data mask) s.chip))) } := by
  rw [exec_captureWrite held nonempty window kind feed,
    captureTap_inside (c := forward (.write (lineAddr addr) data mask) s.chip) act inside hs hx ho,
    if_neg (by exact cur)]

end

end

/-! ### A picture begun by a write -/

/-- A write into another slot of a RUNNING feed without an open current picture, up to the serves (R41, R42). -/
theorem otherSlot_begins {f : Fin 8} {slot x o : Nat} {data : Line} {mask : Mask} {b c : Chip}
    (run : c.feeds[f].state = .running) (none : openPicture c f = none) {d : Chip}
    (hd : d = serveIfNew b (otherSlot f slot x o data mask c)) :
    d.feeds[f].state = .running ∧ d.feeds[f].curSlot = some slot ∧ d.feeds[f].cur = begunCur c f ∧
      d.mem.hostQ = c.mem.hostQ := by
  have serves := serveIfNew_serveOnly b (otherSlot f slot x o data mask c)
  have gathered := gatherCur_gatherOnly f x o data mask (pictureBegun f slot c)
  obtain ⟨state, curSlot, cur, hostQ⟩ :=
    beginPicture_feed f slot (setFeed c f { c.feeds[f] with curSlot := some slot })
  have request : begunCur (setFeed c f { c.feeds[f] with curSlot := some slot }) f = begunCur c f := by
    unfold begunCur
    rw [requestRegion_congr (c := c) (by rfl) (by rfl) (by rw [setFeed_same])]
    rfl
  rw [otherSlot_running run, abandon_none none] at serves hd
  subst hd
  rw [serves.feeds, serves.hostQ, gathered.state, gathered.curSlot, gathered.cur, gathered.hostQ, pictureBegun,
    state, curSlot, cur, hostQ, setFeed_same, request]
  exact ⟨run, rfl, rfl, rfl⟩

/-! ### The obligation -/

/-- Settles O19. -/
theorem captureWrites : Obligations.CaptureWrites := by
  intro addr data mask s e w f held nonempty window kind feed slot x o format d r hf hs hx ho hd hr
  subst hf hd hr
  have outside := exec_captureWrite_outside (data := data) held nonempty window kind feed
  have same := fun act inside =>
    exec_captureWrite_same (data := data) held nonempty window kind feed act inside hs hx ho
  have other := fun act inside =>
    exec_captureWrite_other (data := data) held nonempty window kind feed act inside hs hx ho
  clear held nonempty window kind feed hs hx ho
  set d := forward (.write (lineAddr addr) data mask) s.chip
  have running : s.chip.feeds[f].state = .running → active s.chip f = true :=
    fun h => (active_iff _ _).2 (.inl h)
  have stopping : s.chip.feeds[f].state = .stopping → active s.chip f = true :=
    fun h => (active_iff _ _).2 (.inr h)
  refine ⟨fun idle => ?forwarded, fun run inside => ⟨fun ident p b cur pres found hb => ?current,
      fun cur none => ?begins, fun a g cur ha hg => ?other, fun cur dropped => ?dropped,
      fun cur none => ?late⟩,
    fun stop inside => ⟨fun cur none => ?stopLate, fun cur dropped => ?stopDropped,
      fun ident p b cur pres found hb near opened more => ?stopStores, fun a cur ha => ?stopOther⟩,
    fun none => abandon_none (c := d) none, fun p some => abandon_closes (c := d) some,
    fun act inside ident p b cur pres found hb => ?closes⟩
  case forwarded =>
    refine outside ?_
    rcases idle with idle | ready | past
    · exact .inl (active_false (by rw [idle]; decide) (by rw [idle]; decide))
    · exact .inl (active_false (by rw [ready]; decide) (by rw [ready]; decide))
    · exact .inr past
  case current =>
    have gathers : exec (.hostWrite addr data mask) s =
        .next { s with chip := gather f ident x o data mask d } := by
      rw [same (running run) inside cur, restartSilence_running (c := d) run,
        sameSlot_present (c := d) pres]
    rw [gathers]
    refine ⟨fun closed => ?_, fun near => ⟨fun opened more => ?_, fun waits none => ?_,
      fun waits fresh free => ?_, fun short => ?_⟩⟩
    · rw [gather_late (c := d) found hb closed]
      rfl
    · rw [gather_stores (c := d) found hb near opened more]
    · rw [gather_short (c := d) found hb near waits none]
    · rw [gather_opens (c := d) found hb near waits fresh free]
      rfl
    · rw [gather_drops (c := d) found hb near short]
  case begins =>
    obtain ⟨state, curSlot, begun, hostQ⟩ := otherSlot_begins (b := s.chip) (c := d) (slot := slot) (x := x)
      (o := o) (data := data) (mask := mask) run none rfl
    refine ⟨_, other (running run) inside cur, rfl, rfl, ?_⟩
    rw [restartSilence_running (c := d) run]
    refine ⟨state, curSlot, begun.trans ?_, hostQ⟩
    rw [begunCur, requestRegion_congr (c := s.chip) (d := d) rfl rfl rfl]
    cases (requestRegion s.chip f).1.start <;> rfl
  case other =>
    subst ha hg
    rw [other (running run) inside cur, restartSilence_running (c := d) run, otherSlot_running (c := d) run]
    rfl
  case dropped =>
    rw [same (running run) inside cur, restartSilence_running (c := d) run, sameSlot_dropped (c := d) dropped]
  case late =>
    rw [same (running run) inside cur, restartSilence_running (c := d) run, sameSlot_none (c := d) none]
    rfl
  case stopLate =>
    rw [same (stopping stop) inside cur, restartSilence_stopping (c := d) stop,
      sameSlot_none (by rw [setFeed_same]; exact none), markLate, setFeed_same, setFeed_set]
    rfl
  case stopDropped =>
    rw [same (stopping stop) inside cur, restartSilence_stopping (c := d) stop,
      sameSlot_dropped (by rw [setFeed_same]; exact dropped)]
    rfl
  case stopStores =>
    rw [same (stopping stop) inside cur, restartSilence_stopping (c := d) stop,
      sameSlot_present (ident := ident) (by rw [setFeed_same]; exact pres),
      gather_stores (c := setFeed d f { d.feeds[f] with silence := some 2 })
        ((findPic_setFeed (by rfl) _ _).trans found) hb near opened (by rw [setFeed_same]; exact more)]
    rfl
  case stopOther =>
    subst ha
    rw [other (stopping stop) inside cur, restartSilence_stopping (c := d) stop,
      otherSlot_stopping (by rw [setFeed_same]; exact stop)]
    rfl
  case closes =>
    obtain ⟨k, silence⟩ := restartSilence_silence f d
    have written := same ((active_iff _ _).2 act) inside cur
    have feed := setFeed_same d f { d.feeds[f] with silence := k }
    have there : findPic (setFeed d f { d.feeds[f] with silence := k }) f ident = some p :=
      (findPic_setFeed (by rfl) _ _).trans found
    rw [silence, sameSlot_present (ident := ident) (by rw [feed]; exact pres)] at written
    refine ⟨fun near opened full => ?_, fun u far waits fresh hu opened => ?_⟩
    · obtain ⟨only, mark, ⟨q, hq, base, bands⟩, count, queue⟩ :=
        gather_completes rfl there hb near opened (by rw [feed]; exact full)
      have slot := only.curSlot f
      have shown := only.cur f
      have late := only.late f
      rw [feed] at mark slot shown late
      exact ⟨_, q, written, rfl, rfl, only.hostQ, slot, shown, mark, late, hq, base, bands, count, queue⟩
    · obtain ⟨only, mark, late, free, ⟨q, hq, base, band, others⟩, queue⟩ :=
        gather_forces (o := o) (data := data) (mask := mask) rfl there hb far waits fresh hu opened
      have slot := only.curSlot f
      have shown := only.cur f
      rw [feed] at late free band slot shown
      refine ⟨_, q, written, rfl, rfl, only.hostQ, slot, shown, mark, late, free, hq, base, band,
        fun i z ne hz => ?_, queue⟩
      obtain ⟨e, he⟩ := others i ne
      simp only [hz, Option.map_some] at he
      refine ⟨_, he, fun spared => ?_, fun closed => ?_⟩
      · rw [spared]
        rfl
      · rw [if_pos closed, forcedBand, forcedState_eq]

end Sys2Proof.Machine
end

section
/-! SUPPORT. The band coder's arithmetic: the codes EG(v), quantisation and reconstruction, the decision of
a LIVE band and the space guard (R60 to R68). -/

namespace Sys2Proof.Machine

/-! ### The bits of a number -/

/-- The low `m` bits of `x`, most significant first. -/
def lowBits (x m : Nat) : List Bool := (List.range m).map fun i => x.testBit (m - 1 - i)

@[simp] theorem length_lowBits (x m : Nat) : (lowBits x m).length = m := by simp [lowBits]

/-- The last of the low bits is the number's lowest; the ones before it are half the number's. -/
theorem lowBits_succ (x m : Nat) : lowBits x (m + 1) = lowBits (x / 2) m ++ [x.testBit 0] := by
  have earlier : ∀ i ∈ List.range m, x.testBit (m - i) = (x / 2).testBit (m - 1 - i) := fun i hi => by
    rw [← Nat.testBit_succ, Nat.succ_eq_add_one, show m - 1 - i + 1 = m - i by
      have := List.mem_range.1 hi
      omega]
  simp [lowBits, List.range_succ, List.map_congr_left earlier]

theorem head?_lowBits_succ (x m : Nat) : (lowBits x (m + 1)).head? = some (x.testBit m) := by
  simp [lowBits, List.range_succ_eq_map]

theorem bitsNat_append_bit (bs : List Bool) (b : Bool) : bitsNat (bs ++ [b]) = 2 * bitsNat bs + bitOf b := by
  simp [bitsNat]

theorem bitOf_testBit_zero (x : Nat) : bitOf (x.testBit 0) = x % 2 := by
  rcases Nat.mod_two_eq_zero_or_one x with h | h <;> simp [bitOf, Nat.testBit_zero, h]

theorem bitsNat_lowBits (x m : Nat) : bitsNat (lowBits x m) = x % 2 ^ m := by
  induction m generalizing x with
  | zero => simp [lowBits, bitsNat, Nat.mod_one]
  | succ m ih =>
    rw [lowBits_succ, bitsNat_append_bit, ih, bitOf_testBit_zero, Nat.pow_succ', Nat.mod_mul, Nat.add_comm]

/-! ### EG(v) (R62) -/

theorem expGolomb_eq (v : Nat) : expGolomb v =
    List.replicate (Nat.log 2 (v + 1)) false ++ lowBits (v + 1) (Nat.log 2 (v + 1) + 1) := by
  rw [← Nat.log2_eq_log_two]
  rfl

theorem length_expGolomb (v : Nat) : (expGolomb v).length = 2 * Nat.log 2 (v + 1) + 1 := by
  rw [expGolomb_eq, List.length_append, List.length_replicate, length_lowBits]
  omega

/-- v + 1 in binary begins with its highest bit, a one. -/
theorem head?_lowBits_log (v : Nat) : (lowBits (v + 1) (Nat.log 2 (v + 1) + 1)).head? = some true := by
  rw [head?_lowBits_succ, ← Nat.log2_eq_log_two, Nat.testBit_log2 v.succ_ne_zero]

theorem bitsNat_lowBits_log (v : Nat) : bitsNat (lowBits (v + 1) (Nat.log 2 (v + 1) + 1)) = v + 1 := by
  rw [bitsNat_lowBits, Nat.mod_eq_of_lt (Nat.lt_pow_succ_log_self Nat.one_lt_two _)]

theorem length_expGolomb_le {v : Nat} (h : v ≤ 2045) : (expGolomb v).length ≤ 21 := by
  have : Nat.log 2 (v + 1) < 11 := Nat.log_lt_of_lt_pow v.succ_ne_zero (by omega)
  rw [length_expGolomb]
  omega

/-! ### The symbols of a component line (R61, R62) -/

/-- The run counts and mapped residuals of a component line, with the run count so far. -/
def lineValues : Nat → List Int → List Nat
  | z, [] => if 0 < z then [z] else []
  | z, k :: r => if k = 0 then lineValues (z + 1) r else z :: mapResidual k :: lineValues 0 r

theorem lineSymbols_eq (z : Nat) (ks : List Int) :
    lineSymbols z ks = ((lineValues z ks).map expGolomb).flatten := by
  induction ks generalizing z with
  | nil => by_cases h : 0 < z <;> simp [lineSymbols, lineValues, h]
  | cons k r ih => by_cases h : k = 0 <;> simp [lineSymbols, lineValues, h, ih]

theorem mem_lineValues {v z : Nat} {ks : List Int} (h : v ∈ lineValues z ks) :
    v ≤ z + ks.length ∨ ∃ k ∈ ks, k ≠ 0 ∧ v = mapResidual k := by
  induction ks generalizing z with
  | nil =>
    unfold lineValues at h
    split at h
    · exact .inl (List.mem_singleton.1 h).le
    · cases h
  | cons k r ih =>
    have later : ∀ y, v ∈ lineValues y r → y ≤ z + 1 →
        v ≤ z + (k :: r).length ∨ ∃ x ∈ k :: r, x ≠ 0 ∧ v = mapResidual x := fun y hv hy => by
      rcases ih hv with le | ⟨x, hx, named⟩
      · exact .inl (by rw [List.length_cons]; omega)
      · exact .inr ⟨x, List.mem_cons_of_mem _ hx, named⟩
    unfold lineValues at h
    split at h
    · exact later _ h (Nat.le_refl _)
    · next nonzero =>
      rcases List.mem_cons.1 h with rfl | h
      · exact .inl (Nat.le_add_right _ _)
      rcases List.mem_cons.1 h with rfl | h
      · exact .inr ⟨k, List.mem_cons_self, nonzero, rfl⟩
      · exact later _ h (Nat.zero_le _)

theorem mapResidual_le {k : Int} (low : -1023 ≤ k) (high : k ≤ 1023) : mapResidual k ≤ 2045 := by
  unfold mapResidual
  split <;> omega

/-- Settles O25. -/
theorem expGolombCode : Obligations.ExpGolombCode := by
  refine ⟨fun v => ⟨_, expGolomb_eq v, head?_lowBits_log v, bitsNat_lowBits_log v, length_expGolomb v⟩,
    fun ks short range => ⟨lineValues 0 ks, lineSymbols_eq 0 ks, fun v hv => ?_⟩⟩
  have kind := mem_lineValues hv
  rw [Nat.zero_add] at kind
  have bound : v ≤ 2045 := by
    rcases kind with run | ⟨k, hk, -, rfl⟩
    · omega
    · exact mapResidual_le (range k hk).1 (range k hk).2
  exact ⟨kind, bound, length_expGolomb_le bound⟩

/-! ### Quantisation and reconstruction (R60) -/

theorem rebuild_range (q : Nat) (p k : Int) : 0 ≤ rebuild q p k ∧ rebuild q p k ≤ 1023 :=
  ⟨le_max_left _ _, max_le (by decide) (min_le_left _ _)⟩

/-- Inside 0..1023 saturation does not act. -/
theorem rebuild_unsaturated {q : Nat} {p k : Int} (low : 0 ≤ p + k * 2 ^ q) (high : p + k * 2 ^ q ≤ 1023) :
    rebuild q p k = p + k * 2 ^ q := by
  rw [rebuild, min_eq_right high, max_eq_right low]

/-- Rounding to the nearest multiple of 2h is off by at most h. -/
theorem round_error (a : Nat) {h : Nat} (pos : 0 < h) :
    ((a : Int) - ((a + h) / (2 * h) : Nat) * (2 * h : Nat)).natAbs ≤ h := by
  have division := Nat.div_add_mod' (a + h) (2 * h)
  have rest := Nat.mod_lt (a + h) (Nat.mul_pos Nat.two_pos pos)
  rw [← Nat.cast_mul]
  omega

/-- The rounding is of the magnitude, and the residual's sign comes back on both sides. -/
theorem quantise_error (q : Nat) (e : Int) :
    (e - quantise (q + 1) e * 2 ^ (q + 1)).natAbs ≤ 2 ^ q := by
  have signed : e - quantise (q + 1) e * 2 ^ (q + 1) =
      e.sign * ((e.natAbs : Int) - ((e.natAbs + 2 ^ q) / (2 * 2 ^ q) : Nat) * (2 * 2 ^ q : Nat)) := by
    rw [mul_sub, Int.sign_mul_natAbs, quantise, if_neg q.succ_ne_zero, Nat.add_sub_cancel,
      Nat.pow_succ', mul_assoc]
    push_cast
    rw [pow_succ']
  have unit : e.sign.natAbs ≤ 1 := by
    rw [Int.natAbs_sign]
    split <;> decide
  rw [signed, Int.natAbs_mul]
  exact (Nat.mul_le_mul unit (round_error _ (Nat.two_pow_pos q))).trans (Nat.one_mul _).le

/-- Settles O26. -/
theorem reconstructionError : Obligations.ReconstructionError := by
  intro q s p sLow sHigh _ _
  constructor
  · rintro rfl
    have sum : p + quantise 0 (s - p) * 2 ^ 0 = s := by
      rw [quantise, if_pos rfl]
      omega
    rw [rebuild_unsaturated (by rwa [sum]) (by rwa [sum]), sum]
  · intro pos _
    obtain ⟨low, high⟩ := rebuild_range q p (quantise q (s - p))
    refine ⟨low, high, fun above below => ?_⟩
    obtain ⟨n, rfl⟩ := Nat.exists_eq_add_of_le' pos
    rw [rebuild_unsaturated above below, ← Int.sub_sub, Nat.add_sub_cancel]
    exact quantise_error n (s - p)

/-! ### The space guard (R64, R68) -/

/-- Eight band lines, each the run counts of its Y, Cb and Cr line. -/
theorem length_flatSymbols (f : Format) : (flatSymbols f).length =
    8 * ((2 * Nat.log 2 (widthOf f + 1) + 1) + 2 * (2 * Nat.log 2 (widthOf f / 2 + 1) + 1)) := by
  simp only [flatSymbols, List.length_flatten, List.map_replicate, List.sum_replicate, List.length_append,
    length_expGolomb, smul_eq_mul]
  ring

theorem codingBytes_flatCoding (f : Format) (retry : Bool) :
    codingBytes (flatCoding f retry) = flatBytes f := by
  rw [codingBytes, flatCoding, length_flatSymbols]
  cases f <;> decide

/-- The band kept leaves the flat bands after it their room, where a flat band in its place would. -/
theorem spaceGuard_fits {f : Format} {u after m : Nat} (k : Coding)
    (room : u + (after + 1) * flatBytes f ≤ m) :
    u + codingBytes (spaceGuard f u after m k) + after * flatBytes f ≤ m := by
  unfold spaceGuard
  split
  · assumption
  · rw [codingBytes_flatCoding]
    rw [Nat.add_one_mul] at room
    omega

/-- A band's decision is the space guard's. -/
theorem decideBand_guarded (c : Chip) (f : Fin 8) (p : Picture) (b : Band) :
    ∃ k, decideBand c f p b = spaceGuard c.feeds[f].cfg.format p.bytes (p.bands.length - (p.coded + 1))
      c.feeds[f].cfg.maxUnit k := ⟨_, rfl⟩

/-- A picture begins with its header's bytes and all its bands to come. -/
theorem newPicture_fits {c : Chip} {f : Fin 8} (slot start : Nat)
    (enough : minUnit c.feeds[f].cfg.format ≤ c.feeds[f].cfg.maxUnit) :
    (newPicture c f slot start).coded < (newPicture c f slot start).bands.length ∧
    (newPicture c f slot start).bytes +
        ((newPicture c f slot start).bands.length - (newPicture c f slot start).coded) *
          flatBytes c.feeds[f].cfg.format ≤ c.feeds[f].cfg.maxUnit := by
  have bands : (newPicture c f slot start).bands.length = bandsOf c.feeds[f].cfg.format :=
    List.length_replicate
  rw [bands]
  exact ⟨show 0 < _ by cases c.feeds[f].cfg.format <;> decide, enough⟩

/-- A band's coding keeps the picture's bytes, and its bands to come flat, within M. -/
theorem picAfter_fits {c : Chip} {f : Fin 8} {p : Picture} (b : Band) (incomplete : Bool)
    (left : p.coded < p.bands.length)
    (room : p.bytes + (p.bands.length - p.coded) * flatBytes c.feeds[f].cfg.format ≤
      c.feeds[f].cfg.maxUnit) :
    (picAfter p (decideBand c f p b) incomplete).bytes +
        (p.bands.length - (p.coded + 1)) * flatBytes c.feeds[f].cfg.format ≤
      c.feeds[f].cfg.maxUnit := by
  obtain ⟨k, guarded⟩ := decideBand_guarded c f p b
  rw [show p.bands.length - p.coded = p.bands.length - (p.coded + 1) + 1 by omega] at room
  rw [guarded]
  exact spaceGuard_fits k room

/-- Settles O27. -/
theorem unitNeverExceedsM : Obligations.UnitNeverExceedsM := by
  refine ⟨fun f u after m k => spaceGuard_fits k, ?_, ?_⟩
  · rintro c f slot start _ rfl
    exact newPicture_fits slot start
  · rintro c f p _ b incomplete left room rfl
    have fits := picAfter_fits b incomplete left room
    exact ⟨fits, (Nat.le_add_right _ _).trans fits⟩

/-! ### The decision of a LIVE band (R66) -/

section
variable {f : Format} {codings : Nat → Bool → Coding} {q qMax ceiling : Nat}

theorem decideLive_first (fits : codingBits (codings q false) ≤ ceiling) :
    decideLive f codings q qMax ceiling = codings q false := if_pos fits

theorem decideLive_again (exceeds : ceiling < codingBits (codings q false)) (room : q < qMax)
    (fits : codingBits (codings (min (q + 2) qMax) true) ≤ ceiling) :
    decideLive f codings q qMax ceiling = codings (min (q + 2) qMax) true := by
  have coarser : q < min (q + 2) qMax := lt_min (by omega) room
  simp only [decideLive, if_neg exceeds.not_ge, if_pos coarser, if_pos fits]

theorem decideLive_againOver (exceeds : ceiling < codingBits (codings q false)) (room : q < qMax)
    (exceedsAgain : ceiling < codingBits (codings (min (q + 2) qMax) true)) :
    decideLive f codings q qMax ceiling = flatCoding f true := by
  have coarser : q < min (q + 2) qMax := lt_min (by omega) room
  simp only [decideLive, if_neg exceeds.not_ge, if_pos coarser, if_neg exceedsAgain.not_ge]

theorem decideLive_atMax (exceeds : ceiling < codingBits (codings q false)) (atMax : q = qMax) :
    decideLive f codings q qMax ceiling = flatCoding f false := by
  have coarsest : ¬q < min (q + 2) qMax := by omega
  simp only [decideLive, if_neg exceeds.not_ge, if_neg coarsest]

/-- The codings the decision can keep, one for each row of R66's table. -/
theorem decideLive_cases (f : Format) (codings : Nat → Bool → Coding) (ceiling : Nat) (range : q ≤ qMax) :
    (codingBits (codings q false) ≤ ceiling ∧ decideLive f codings q qMax ceiling = codings q false) ∨
    (q < qMax ∧ codingBits (codings (min (q + 2) qMax) true) ≤ ceiling ∧
      decideLive f codings q qMax ceiling = codings (min (q + 2) qMax) true) ∨
    (q < qMax ∧ decideLive f codings q qMax ceiling = flatCoding f true) ∨
    decideLive f codings q qMax ceiling = flatCoding f false := by
  rcases le_or_gt (codingBits (codings q false)) ceiling with fits | exceeds
  · exact .inl ⟨fits, decideLive_first fits⟩
  rcases range.lt_or_eq with room | atMax
  · rcases le_or_gt (codingBits (codings (min (q + 2) qMax) true)) ceiling with fits | exceedsAgain
    · exact .inr (.inl ⟨room, fits, decideLive_again exceeds room fits⟩)
    · exact .inr (.inr (.inl ⟨room, decideLive_againOver exceeds room exceedsAgain⟩))
  · exact .inr (.inr (.inr (decideLive_atMax exceeds atMax)))

end

theorem decideLive_withinCeiling (f : Format) (lines : List (Nat × Line)) {q qMax : Nat} (ceiling : Nat)
    (range : q ≤ qMax) :
    ((decideLive f (codeAt f lines) q qMax ceiling).flat = true ∨
      (codingBits (decideLive f (codeAt f lines) q qMax ceiling) ≤ ceiling ∧
        q ≤ (decideLive f (codeAt f lines) q qMax ceiling).q ∧
        (decideLive f (codeAt f lines) q qMax ceiling).q ≤ qMax)) ∧
    ((decideLive f (codeAt f lines) q qMax ceiling).retry = true → q < qMax) := by
  rcases decideLive_cases f (codeAt f lines) ceiling range with
    ⟨fits, kept⟩ | ⟨room, fits, kept⟩ | ⟨room, kept⟩ | kept <;> rw [kept]
  · exact ⟨.inr ⟨fits, le_refl q, range⟩, nofun⟩
  · exact ⟨.inr ⟨fits, le_min (Nat.le_add_right q 2) range, min_le_right _ _⟩, fun _ => room⟩
  · exact ⟨.inl rfl, fun _ => room⟩
  · exact ⟨.inl rfl, nofun⟩

/-- A band that carries data in a LIVE feed takes the LIVE decision, then the space guard (R66, R68). -/
theorem decideBand_live {c : Chip} {f : Fin 8} {p : Picture} {b : Band} {g : Budget}
    (live : c.feeds[f].cfg.mode = .live) (data : b.hasBuffer = true) (budget : p.budget = some g) :
    decideBand c f p b =
      spaceGuard c.feeds[f].cfg.format p.bytes (p.bands.length - (p.coded + 1)) c.feeds[f].cfg.maxUnit
        (decideLive c.feeds[f].cfg.format (codeAt c.feeds[f].cfg.format b.lines) c.feeds[f].q
          c.feeds[f].cfg.qMax g.ceiling) := by
  simp only [decideBand, live, if_pos data, budget, Option.map_some, Option.getD_some]

/-- Settles O28. -/
theorem liveBandWithinCeiling : Obligations.LiveBandWithinCeiling := by
  refine ⟨fun f lines q qMax ceiling => decideLive_withinCeiling f lines ceiling, ?_,
    fun c f p b g => decideBand_live⟩
  intro f lines q qMax ceiling at' flat' _ coded flat
  obtain rfl : at' = codeAt f lines := coded
  obtain rfl : flat' = flatCoding f := flat
  exact ⟨decideLive_first,
    fun exceeds room => ⟨decideLive_again exceeds room, decideLive_againOver exceeds room⟩,
    decideLive_atMax⟩

end Sys2Proof.Machine
end

section
/-! SUPPORT. The clips at their max length, and the record, ring and report of a completed unit (R83, R84,
R86, R87, R138). -/

namespace Sys2Proof.Machine

/-! ### The clips at their max length -/

theorem reachedMax_iff (c : Chip) (among : Fin 8 → Bool) (k : Clip) : reachedMax c among k = true ↔
    k.state = .opened ∧ ∃ x ∈ k.feeds, among x.feed = true ∧ c.clips.maxLen ≤ clipLength c x := by
  simp [reachedMax]

/-- A clip's length depends on the rings (R137). -/
theorem clipLength_congr {c d : Chip} (rings : d.rings = c.rings) : clipLength d = clipLength c := by
  funext x
  unfold clipLength
  rw [rings]

theorem reachedMax_congr {c d : Chip} (rings : d.rings = c.rings) (maxLen : d.clips.maxLen = c.clips.maxLen)
    (among : Fin 8 → Bool) (k : Clip) : reachedMax d among k = reachedMax c among k := by
  rw [reachedMax, clipLength_congr rings, maxLen, reachedMax]

theorem openAuto_some {c : Chip} {f : Fin 8} {k : Clip} (h : openAuto c f = some k) :
    k ∈ c.clips.list ∧ k.origin = .auto ∧ k.state = .opened := by
  have auto := List.find?_some h
  simp only [Bool.and_eq_true, beq_iff_eq] at auto
  exact ⟨List.mem_of_find?_eq_some h, auto.1⟩

section
variable {c : Chip} {among : Fin 8 → Bool}

theorem closeAutoAtMax_below {f : Fin 8}
    (below : ∀ k, openAuto c f = some k → reachedMax c among k = false) :
    closeAutoAtMax among f c = c := by
  unfold closeAutoAtMax
  split
  · next k one => rw [if_neg (by rw [below k one]; exact Bool.false_ne_true)]
  · rfl

theorem closeAutoAtMax_reached {f : Fin 8} {k : Clip} (one : openAuto c f = some k)
    (reached : reachedMax c among k = true) :
    closeAutoAtMax among f c = tryOpenAuto f (closeClip k.number .maxLength c) := by
  unfold closeAutoAtMax
  rw [one]
  exact if_pos reached

/-- With no OPEN AUTO clip at its max length the automatic clips stand as they are (R138). -/
theorem closeAutosAtMax_below
    (below : ∀ k ∈ c.clips.list, k.origin = .auto → k.state = .opened → reachedMax c among k = false)
    (l : List (Fin 8)) : l.foldl (fun c f => closeAutoAtMax among f c) c = c := by
  induction l with
  | nil => rfl
  | cons f l ih =>
    have first : closeAutoAtMax among f c = c := closeAutoAtMax_below fun k one => by
      obtain ⟨mem, auto, opened⟩ := openAuto_some one
      exact below k mem auto opened
    rw [List.foldl_cons, first]
    exact ih

theorem stackedReached_false {n : Nat}
    (below : ∀ k, findClip c n = some k → reachedMax c among k = false) :
    stackedReached c among n = false := by
  unfold stackedReached
  split
  · next k found => exact below k found
  · rfl

/-- With no clip at its max length nothing closes (R138). -/
theorem closeAtMax_below (below : ∀ k ∈ c.clips.list, reachedMax c among k = false) :
    closeAtMax among c = c := by
  have stacked : c.tally.stack.reverse.find? (stackedReached c among) = none :=
    List.find?_eq_none.2 fun n _ => by
      simp [stackedReached_false fun k found => below k (List.mem_of_find?_eq_some found)]
  unfold closeAtMax
  rw [stacked]
  exact closeAutosAtMax_below (fun k mem _ _ => below k mem) _

end

/-! ### The completed record -/

section
variable {before after : List UnitRec} {u : UnitRec} (done : ∀ x ∈ before, x.complete = true)
  (reserved : u.complete = false)
include done reserved

/-- The first RESERVED record alone is replaced (R83). -/
theorem mapReserved_first (g : UnitRec → UnitRec) :
    mapReserved g (before ++ u :: after) = before ++ g u :: after := by
  induction before with
  | nil => simp [mapReserved, reserved]
  | cons x before ih =>
    obtain ⟨first, rest⟩ := List.forall_mem_cons.1 done
    simp [mapReserved, first, ih rest]

/-- The RESERVED records of a list, from the first on. -/
theorem filter_reserved : (before ++ u :: after).filter (fun x => !x.complete) =
    u :: after.filter fun x => !x.complete := by
  have none : before.filter (fun x => !x.complete) = [] :=
    List.filter_eq_nil_iff.2 fun x mem => by simp [done x mem]
  simp [none, reserved]

variable {c : Chip} {f : Fin 8} (units : c.rings[f].units = before ++ u :: after)
include units

theorem completeRing_units (p : Picture) :
    (completeRing c f p u).units = before ++ completeRec c f p u :: after := by
  rw [completeRing, units, mapReserved_first done reserved]

/-- The head moves to the end of the list's last unit (R83). -/
theorem completeRing_head_last (p : Picture) (last : after = []) :
    (completeRing c f p u).head =
      wrapLine (ringSize c f) (u.start + (p.bytes + 63) / 64) := by
  unfold completeRing
  dsimp only
  rw [units, filter_reserved done reserved, last]
  rfl

/-- The head stays when a later picture has reserved (R83). -/
theorem completeRing_head_stays (p : Picture) (later : ∃ x ∈ after, x.complete = false) :
    (completeRing c f p u).head = c.rings[f].head := by
  have more : after.filter (fun x => !x.complete) ≠ [] := by
    obtain ⟨x, mem, reserved⟩ := later
    exact List.ne_nil_of_mem (List.mem_filter.2 ⟨mem, by rw [reserved]; rfl⟩)
  unfold completeRing
  dsimp only
  rw [units, filter_reserved done reserved, if_neg (by simpa using more)]

end

/-! ### The completion with nothing to close -/

/-- With no clip at its max length and no automatic clip that failed to open, nothing follows a unit (R138,
R139). -/
theorem unitClosings_quiet {f : Fin 8} {c : Chip}
    (below : ∀ k ∈ c.clips.list, reachedMax c (fun g => g == f) k = false)
    (opened : c.clips.autoFailed[f] = false) : unitClosings f c = c := by
  rw [unitClosings, closeAtMax_below below, if_neg (by rw [opened]; exact Bool.false_ne_true)]

theorem completeUnit_quiet {f : Fin 8} {p : Picture} {u : UnitRec} {c : Chip}
    (reserved : c.rings[f].units.find? (fun x => !x.complete) = some u)
    (below : ∀ k ∈ c.clips.list, reachedMax (unitJoined f p u c) (fun g => g == f) k = false)
    (opened : c.clips.autoFailed[f] = false) :
    completeUnit f p c = unitReported f (completeRec c f p u) (unitJoined f p u c) := by
  have reported : ReportOnly (unitJoined f p u c)
      (unitReported f (completeRec c f p u) (unitJoined f p u c)) := by
    unfold unitReported
    split
    · exact askReport_reportOnly _ _ _
    · exact .refl _
  rw [completeUnit_eq reserved]
  refine unitClosings_quiet (fun k mem => ?_) ?_
  · rw [reported.clips] at mem
    rw [reachedMax_congr reported.rings (by rw [reported.clips])]
    exact below k mem
  · rw [reported.clips]
    exact opened

/-- Settles O30: the ring by the first RESERVED record, the rest by what follows a unit. -/
theorem completionTakesSequence : Obligations.CompletionTakesSequence := by
  constructor
  · intro c f p before after u units done reserved
    refine ⟨completeRing_units done reserved units p, rfl, rfl, rfl, ?_, ?_, rfl, rfl, rfl, rfl, rfl, rfl,
      rfl, completeRing_head_last done reserved units p, completeRing_head_stays done reserved units p⟩
    · show 64 * ((p.bytes + 63) / 64) < p.bytes + 64
      omega
    · show p.bytes ≤ 64 * ((p.bytes + 63) / 64)
      omega
  · intro c f p u d reserved
    refine ⟨(completeUnit_some reserved).1.rings, ?_⟩
    intro joined below opened
    obtain rfl : d = unitJoined f p u c := joined
    rw [completeUnit_quiet reserved below opened, unitReported]
    refine ⟨fun off => if_neg (Bool.eq_false_iff.1 off), fun on => ?_⟩
    rw [if_pos (show (unitJoined f p u c).feeds[f].cfg.recorder = true from on)]
    simp only [List.append_assoc, List.singleton_append]
    rfl

end Sys2Proof.Machine
end

section
/-! SUPPORT. CLIP LABEL, CLIP PROTECT and CLIP UNPROTECT (R88, R141, R142, R150, R175). -/

namespace Sys2Proof.Machine

/-! ### A clip's record and its notice -/

theorem findClip_number {c : Chip} {n : Nat} {k : Clip} (h : findClip c n = some k) : k.number = n := by
  simpa using List.find?_some h

/-- A change that keeps the number is the change of the record that the number names. -/
theorem findClip_mapClip {c : Chip} {n : Nat} {k : Clip} {g : Clip → Clip} (h : findClip c n = some k)
    (number : ∀ x, (g x).number = x.number) : findClip (mapClip n g c) n = some (g k) := by
  have same : ((fun x : Clip => x.number == n) ∘ fun x : Clip => if x.number = n then g x else x) =
      fun x => x.number == n := by
    funext x
    by_cases named : x.number = n <;> simp [named, number]
  rw [findClip] at h
  rw [findClip, mapClip, List.find?_map, same, h, Option.map_some, if_pos (findClip_number h)]

theorem joinLabel_room {c : Chip} (room : c.sched.label.length < 32) (m : LabelItem) :
    joinLabel m c = { c with sched.label := c.sched.label ++ [m] } :=
  if_pos (decide_eq_true room)

theorem joinLabel_full {c : Chip} (full : 32 ≤ c.sched.label.length) (m : LabelItem) :
    joinLabel m c = askReport .home (reportBody 4 (byteOf m.kind :: leNat16 m.number)) c :=
  if_neg fun room => Nat.not_lt.2 full (of_decide_eq_true room)

theorem giveNotice_off {c : Chip} (off : c.sched.notify = false) (n : Nat) : giveNotice n c = c :=
  if_neg (Bool.eq_false_iff.1 off)

theorem giveNotice_on {c : Chip} {n : Nat} {k : Clip} (on : c.sched.notify = true)
    (found : findClip c n = some k) :
    giveNotice n c = joinLabel { kind := 0, number := n, data := noticeBody k, cursor := 0 } c := by
  rw [giveNotice, if_pos on, found]

/-! ### CLIP LABEL -/

/-- The record of a labelled clip (R141). -/
def labelled (a : ClipLabelArgs) (k : Clip) : Clip :=
  { k with
    category := a.category
    rating := a.rating
    note := a.note.toList.take a.noteLength.toNat }

section
variable {a : ClipLabelArgs} {c : Chip} {k : Clip}

theorem clipLabel_badArg (bad : 3 < a.rating.toNat ∨ 40 < a.noteLength.toNat) :
    clipLabel a c = .refused .badArg := if_pos bad

variable (rating : a.rating.toNat ≤ 3) (note : a.noteLength.toNat ≤ 40)
include rating note

theorem clipLabel_noClip (none : findClip c a.clip.toNat = none) :
    clipLabel a c = .refused .noSuchClip := by
  unfold clipLabel
  dsimp only
  rw [if_neg (by omega), none]

variable (found : findClip c a.clip.toNat = some k)
include found

theorem clipLabel_wrongState (gone : k.state = .released ∨ k.state = .lapsed) :
    clipLabel a c = .refused .wrongState := by
  unfold clipLabel
  dsimp only
  rw [if_neg (by omega), found]
  exact if_pos gone

/-- A clip that is not RELEASED or LAPSED takes its label, and gives a notice if it is not OPEN (R141,
R150). -/
theorem clipLabel_done (released : k.state ≠ .released) (lapsed : k.state ≠ .lapsed) :
    clipLabel a c = .completed .done []
      (serveIfNew c
        (if k.state = .opened then mapClip a.clip.toNat (labelled a) c
        else giveNotice a.clip.toNat (mapClip a.clip.toNat (labelled a) c))) := by
  unfold clipLabel
  dsimp only
  rw [if_neg (by omega), found]
  exact if_neg (not_or.2 ⟨released, lapsed⟩)

variable (released : k.state ≠ .released) (lapsed : k.state ≠ .lapsed)
include released lapsed

theorem clipLabel_quiet (quiet : k.state = .opened ∨ c.sched.notify = false) :
    clipLabel a c = .completed .done [] (mapClip a.clip.toNat (labelled a) c) := by
  have same : (if k.state = .opened then mapClip a.clip.toNat (labelled a) c
      else giveNotice a.clip.toNat (mapClip a.clip.toNat (labelled a) c)) =
      mapClip a.clip.toNat (labelled a) c := by
    split
    · rfl
    · next closed => exact giveNotice_off (c := mapClip _ _ c) (quiet.resolve_left closed) _
  rw [clipLabel_done rating note found released lapsed, same]
  exact congrArg _ (serveIfNew_same rfl rfl)

variable (closed : k.state ≠ .opened) (on : c.sched.notify = true)
include closed on

/-- With notify on the notice carries the clip as labelled (R150). -/
theorem clipLabel_notifies : clipLabel a c = .completed .done []
    (serveIfNew c
      (joinLabel { kind := 0, number := k.number, data := noticeBody (labelled a k), cursor := 0 }
        (mapClip a.clip.toNat (labelled a) c))) := by
  have notice := giveNotice_on (c := mapClip a.clip.toNat (labelled a) c) on
    (findClip_mapClip (g := labelled a) found fun _ => rfl)
  rw [clipLabel_done rating note found released lapsed, if_neg closed, notice, findClip_number found]

theorem clipLabel_queued (room : c.sched.label.length < 32) : clipLabel a c = .completed .done []
    (serveIfNew c
      { mapClip a.clip.toNat (labelled a) c with
        sched.label := c.sched.label ++
          [{ kind := 0, number := k.number, data := noticeBody (labelled a k), cursor := 0 }] }) := by
  rw [clipLabel_notifies rating note found released lapsed closed on,
    joinLabel_room (c := mapClip _ _ c) room]
  rfl

theorem clipLabel_dropped (full : 32 ≤ c.sched.label.length) : clipLabel a c = .completed .done []
    (askReport .home (reportBody 4 (0 :: leNat16 k.number)) (mapClip a.clip.toNat (labelled a) c)) := by
  have report := askReport_reportOnly .home (reportBody 4 (0 :: leNat16 k.number))
    (mapClip a.clip.toNat (labelled a) c)
  rw [clipLabel_notifies rating note found released lapsed closed on,
    joinLabel_full (c := mapClip _ _ c) full]
  exact congrArg _ (serveIfNew_same report.sched report.paths)

end

/-! ### CLIP PROTECT and CLIP UNPROTECT -/

/-- The states of a clip that may be protected: CLOSED, SENDING, SENT (R142). -/
theorem guardable_false {x : ClipState} (h : x = .opened ∨ x = .released ∨ x = .lapsed) :
    ¬(x = .closed ∨ x = .sending ∨ x = .sent) := by
  rcases h with rfl | rfl | rfl <;> decide

section
variable {n : Nat} {c : Chip} {k : Clip}

theorem clipProtect_noClip (none : findClip c n = none) : clipProtect n c = .refused .noSuchClip := by
  rw [clipProtect, none]

theorem clipUnprotect_noClip (none : findClip c n = none) : clipUnprotect n c = .refused .noSuchClip := by
  rw [clipUnprotect, none]

variable (found : findClip c n = some k)
include found

theorem clipProtect_busy (trim : inTrim c n = true) : clipProtect n c = .refused .busy := by
  rw [clipProtect, found]
  exact if_pos trim

theorem clipUnprotect_wrongState (other : k.state = .opened ∨ k.state = .released ∨ k.state = .lapsed) :
    clipUnprotect n c = .refused .wrongState := by
  rw [clipUnprotect, found]
  exact if_pos (guardable_false other)

theorem clipUnprotect_done (state : k.state = .closed ∨ k.state = .sending ∨ k.state = .sent) :
    clipUnprotect n c = .completed .done [] (mapClip n (fun x => { x with guarded := false }) c) := by
  rw [clipUnprotect, found]
  exact if_neg (not_not_intro state)

variable (free : inTrim c n = false)
include free

theorem clipProtect_wrongState (other : k.state = .opened ∨ k.state = .released ∨ k.state = .lapsed) :
    clipProtect n c = .refused .wrongState := by
  rw [clipProtect, found]
  dsimp only
  rw [if_neg (Bool.eq_false_iff.1 free), if_pos (guardable_false other)]

variable (state : k.state = .closed ∨ k.state = .sending ∨ k.state = .sent)
include state

theorem clipProtect_limit (clear : k.guarded = false) (no : mayProtect c k = false) :
    clipProtect n c = .refused .limit := by
  rw [clipProtect, found]
  dsimp only
  rw [if_neg (Bool.eq_false_iff.1 free), if_neg (not_not_intro state), if_pos (by rw [clear, no]; rfl)]

theorem clipProtect_done (yes : k.guarded = true ∨ mayProtect c k = true) :
    clipProtect n c = .completed .done [] (mapClip n (fun x => { x with guarded := true }) c) := by
  have passes : ¬(!k.guarded && !mayProtect c k) = true := by
    rcases yes with set | answer
    · simp [set]
    · simp [answer]
  rw [clipProtect, found]
  dsimp only
  rw [if_neg (Bool.eq_false_iff.1 free), if_neg (not_not_intro state), if_neg passes]

end

/-! ### The ring manager's answer -/

theorem clipHolds_iff (k : Clip) (f : Fin 8) (q : Count32) : clipHolds k f q = true ↔
    (k.state = .opened ∨ k.state = .closed ∨ k.state = .sending ∨ k.state = .sent) ∧
      ∃ x ∈ k.feeds, x.feed = f ∧ spanIncludes x q = true := by
  simp [clipHolds, ← holding_iff]

/-- A unit counts among a feed's protected bytes when clip `k` or a protected clip holds it (R88). -/
theorem protectedUnit_iff (c : Chip) (k : Clip) (f : Fin 8) (u : UnitRec) :
    (u.complete &&
        (clipHolds k f u.seq || c.clips.list.any fun x => x.guarded && clipHolds x f u.seq)) = true ↔
      u.complete = true ∧ ∃ y, (y = k ∨ y ∈ c.clips.list ∧ y.guarded = true) ∧
        (y.state = .opened ∨ y.state = .closed ∨ y.state = .sending ∨ y.state = .sent) ∧
        ∃ x ∈ y.feeds, x.feed = f ∧ spanIncludes x u.seq = true := by
  simp only [← clipHolds_iff]
  simp only [Bool.and_eq_true, Bool.or_eq_true, List.any_eq_true, or_and_right, exists_or, exists_eq_left,
    and_assoc]

theorem mayProtect_iff (c : Chip) (k : Clip) : mayProtect c k = true ↔
    ∀ x ∈ k.feeds, protectedBytes c k x.feed ≤ ringSize c x.feed * 64 / 2 := by
  have half : ∀ a b : Nat, 2 * a ≤ b ↔ a ≤ b / 2 := fun a b => by omega
  simp only [mayProtect, List.all_eq_true, decide_eq_true_eq, half, Config.lineBytes]

/-- Settles O42: the checks of each command in order, and the answer by the units that count. -/
theorem clipLabelAndProtection : Obligations.ClipLabelAndProtection := by
  refine ⟨fun h a s taken => ?label, fun h clip s => ?protection, ?answer, ?size⟩
  case label =>
    have label := exec_concluded (k := 0x42) (v := clipLabel a) taken rfl
    refine ⟨fun bad => ?_, fun rating note none => ?_, ?_⟩
    · rw [label, clipLabel_badArg bad, conclude_refused]
    · rw [label, clipLabel_noClip rating note none, conclude_refused]
    · intro k y c rating note found hy hc
      obtain rfl : y = labelled a k := hy
      obtain rfl : c = mapClip a.clip.toNat (labelled a) s.chip := hc
      refine ⟨fun gone => ?_, fun released lapsed =>
        ⟨fun quiet => ?_, fun closed on => ⟨fun room => ?_, fun full => ?_⟩⟩⟩
      · rw [label, clipLabel_wrongState rating note found gone, conclude_refused]
      · rw [label, clipLabel_quiet rating note found released lapsed quiet, conclude_done]
      · rw [label, clipLabel_queued rating note found released lapsed closed on room, conclude_done]
        rfl
      · rw [label, clipLabel_dropped rating note found released lapsed closed on full, conclude_done]
  case protection =>
    have protect := fun taken => exec_concluded (i := .clipProtect h clip) (s := s) (k := 0x43) (a := h)
      (v := clipProtect clip.toNat) taken rfl
    have unprotect := fun taken => exec_concluded (i := .clipUnprotect h clip) (s := s) (k := 0x44) (a := h)
      (v := clipUnprotect clip.toNat) taken rfl
    refine ⟨fun none => ⟨fun taken => ?_, fun taken => ?_⟩,
      fun k found taken => ⟨fun trim => ?_,
        fun free => ⟨fun other => ?_, fun state => ⟨fun clear no => ?_, fun yes => ?_⟩⟩⟩,
      fun k found taken => ⟨fun other => ?_, fun state => ?_⟩⟩
    · rw [protect taken, clipProtect_noClip none, conclude_refused]
    · rw [unprotect taken, clipUnprotect_noClip none, conclude_refused]
    · rw [protect taken, clipProtect_busy found trim, conclude_refused]
    · rw [protect taken, clipProtect_wrongState found free other, conclude_refused]
    · rw [protect taken, clipProtect_limit found free state clear no, conclude_refused]
    · rw [protect taken, clipProtect_done found free state yes, conclude_done]
    · rw [unprotect taken, clipUnprotect_wrongState found other, conclude_refused]
    · rw [unprotect taken, clipUnprotect_done found state, conclude_done]
  case answer =>
    intro c k kept counts
    have bytes : ∀ f : Fin 8, ((c.rings[f].units.filter (kept f)).map fun u => u.length * 64).sum =
        protectedBytes c k f := fun f => by
      have same : kept f = fun u => u.complete && (clipHolds k f u.seq ||
          c.clips.list.any fun x => x.guarded && clipHolds x f u.seq) :=
        funext fun u => Bool.eq_iff_iff.2 ((counts f u).trans (protectedUnit_iff c k f u).symm)
      rw [same]
      rfl
    simp only [mayProtect_iff, bytes]
  case size =>
    intro c f w found
    rw [ringSize, found]
    rfl

end Sys2Proof.Machine
end

section
/-! SUPPORT. CLIP RELEASE and the lapse by hold pressure (R81, R86, R140, R143, R145, R146, R179). -/

namespace Sys2Proof.Machine

/-! ### Holds dropped -/

/-- A unit after the spans of listed feeds have dropped in feed `f` (R86, R140). -/
def lessHeld (xs : List ClipFeed) (f : Fin 8) (u : UnitRec) : UnitRec :=
  if u.complete && xs.any (fun x => x.feed == f && spanIncludes x u.seq) then { u with held := u.held - 1 }
  else u

theorem lessHeld_unlisted {xs : List ClipFeed} {f : Fin 8} (h : ∀ x ∈ xs, x.feed ≠ f) :
    lessHeld xs f = id := by
  funext u
  refine if_neg fun drops => ?_
  simp only [Bool.and_eq_true, List.any_eq_true, beq_iff_eq] at drops
  obtain ⟨-, x, mem, feed, -⟩ := drops
  exact h x mem feed

theorem lessHeld_cons_other {x : ClipFeed} {f : Fin 8} (h : x.feed ≠ f) (xs : List ClipFeed) :
    lessHeld (x :: xs) f = lessHeld xs f := by
  funext u
  simp [lessHeld, h]

theorem lessHeld_cons_same {x : ClipFeed} {xs : List ClipFeed} (h : ∀ y ∈ xs, y.feed ≠ x.feed) :
    lessHeld (x :: xs) x.feed = fun u =>
      if u.complete && spanIncludes x u.seq then { u with held := u.held - 1 } else u := by
  funext u
  have rest : xs.any (fun y => y.feed == x.feed && spanIncludes y u.seq) = false :=
    List.any_eq_false.2 fun y mem => by simp [h y mem]
  simp [lessHeld, rest]

/-- A span that drops takes one hold from each COMPLETE unit it includes (R86). -/
theorem changeHolds_drops (x : ClipFeed) (c : Chip) :
    changeHolds x.feed (spanIncludes x) (fun _ => false) c =
      setRing c x.feed { c.rings[x.feed] with
        units := c.rings[x.feed].units.map fun u =>
          if u.complete && spanIncludes x u.seq then { u with held := u.held - 1 } else u } := by
  unfold changeHolds mapUnits
  simp only [Bool.and_false, Bool.false_and, Bool.false_eq_true, if_false, Bool.not_false, Bool.and_true]

theorem dropSpans_rings {xs : List ClipFeed} (once : (xs.map (·.feed)).Nodup) (c : Chip) (f : Fin 8) :
    (xs.foldl (fun c x => changeHolds x.feed (spanIncludes x) (fun _ => false) c) c).rings[f] =
      { c.rings[f] with units := c.rings[f].units.map (lessHeld xs f) } := by
  induction xs generalizing c with
  | nil => rw [lessHeld_unlisted (by simp), List.map_id, List.foldl_nil]
  | cons x xs ih =>
    obtain ⟨fresh, once⟩ := List.nodup_cons.1 once
    have others : ∀ y ∈ xs, y.feed ≠ x.feed := fun y mem same =>
      fresh (List.mem_map.2 ⟨y, mem, same⟩)
    rw [List.foldl_cons, ih once, changeHolds_drops]
    by_cases same : x.feed = f
    · subst same
      rw [setRing_same, lessHeld_unlisted others, List.map_id, lessHeld_cons_same others]
    · rw [setRing_other _ _ _ _ (Ne.symm same), lessHeld_cons_other same]

theorem dropHolds_holdsDropped {k : Clip} (once : (k.feeds.map (·.feed)).Nodup) (c : Chip) :
    HoldsDropped c k (dropHolds k c) := fun f => dropSpans_rings once c f

theorem dropHolds_same (k : Clip) (c : Chip) : dropHolds k c = { c with rings := (dropHolds k c).rings } := by
  have spans : ∀ (xs : List ClipFeed) (c : Chip),
      xs.foldl (fun c x => changeHolds x.feed (spanIncludes x) (fun _ => false) c) c =
        { c with rings :=
          (xs.foldl (fun c x => changeHolds x.feed (spanIncludes x) (fun _ => false) c) c).rings } := by
    intro xs
    induction xs with
    | nil => exact fun _ => rfl
    | cons x xs ih => exact fun c => (ih _).trans rfl
  exact spans k.feeds c

/-! ### A clip that gives up its units -/

/-- The part after clip `k` gave up its units for state `t`: its waiting bytes are withdrawn, its state
changes and its holds drop (R143, R146). -/
def gaveUp (k : Clip) (t : ClipState) (c : Chip) : Chip :=
  dropHolds k (mapClip k.number (fun x => { x with state := t }) (withdrawIfSent k c))

theorem withdrawIfSent_rings (k : Clip) (c : Chip) : (withdrawIfSent k c).rings = c.rings := by
  unfold withdrawIfSent
  split <;> rfl

section
variable {k : Clip} (t : ClipState) (c : Chip)

theorem gaveUp_holdsDropped (once : (k.feeds.map (·.feed)).Nodup) : HoldsDropped c k (gaveUp k t c) :=
  fun f => by
    have dropped := dropHolds_holdsDropped once
      (mapClip k.number (fun x => { x with state := t }) (withdrawIfSent k c)) f
    rw [show (mapClip k.number (fun x => { x with state := t }) (withdrawIfSent k c)).rings = c.rings from
      withdrawIfSent_rings k c] at dropped
    exact dropped

/-- A clip that is SENDING or SENT loses its send progress and its bytes (R145, R179). -/
theorem gaveUp_sent (sent : k.state = .sending ∨ k.state = .sent) : gaveUp k t c =
    { withoutClip k.number c with
      clips.list := c.clips.list.map fun x =>
        if x.number = k.number then { x with state := t, progress := none } else x
      rings := (gaveUp k t c).rings } := by
  have records : (c.clips.list.map fun x =>
          if x.number = k.number then { x with progress := none } else x).map
        (fun x => if x.number = k.number then { x with state := t } else x) =
      c.clips.list.map fun x =>
        if x.number = k.number then { x with state := t, progress := none } else x := by
    rw [List.map_map]
    refine List.map_congr_left fun x _ => ?_
    by_cases named : x.number = k.number <;> simp [named]
  have withdrawn : withdrawIfSent k c = abortSend k.number c := if_pos sent
  rw [← records]
  refine (dropHolds_same k _).trans ?_
  rw [gaveUp, withdrawn]
  rfl

theorem gaveUp_unsent (sending : k.state ≠ .sending) (sent : k.state ≠ .sent) : gaveUp k t c =
    { c with
      clips.list := c.clips.list.map fun x => if x.number = k.number then { x with state := t } else x
      rings := (gaveUp k t c).rings } := by
  have kept : withdrawIfSent k c = c := if_neg (not_or.2 ⟨sending, sent⟩)
  refine (dropHolds_same k _).trans ?_
  rw [gaveUp, kept]
  rfl

end

/-! ### Serves after a withdrawal -/

/-- The clip log and the CLIP queue stand as they were. -/
structure SendsKept (c d : Chip) : Prop where
  clips : d.clips = c.clips
  queue : d.sched.clipQ = c.sched.clipQ

theorem SendsKept.trans {a b c : Chip} (h : SendsKept a b) (k : SendsKept b c) : SendsKept a c :=
  ⟨k.clips.trans h.clips, k.queue.trans h.queue⟩

/-- What came before is an update of other fields. -/
theorem SendsKept.after {a b c : Chip} (k : SendsKept b c) (h : SendsKept a b) : SendsKept a c := h.trans k

theorem settleMember_sendsKept (i : Item) (c : Chip) : SendsKept c (settleMember i c) := by
  unfold settleMember
  split
  · split <;> exact ⟨rfl, rfl⟩
  all_goals exact ⟨rfl, rfl⟩

theorem hand_sendsKept (p : Fin 4) (cls : UplinkClass) (i : Item) (a o t k : Nat) (l : List Byte) (c : Chip) :
    SendsKept c (hand p cls i a o t k l c) := by
  unfold hand beginTransmission
  dsimp only
  split
  · split <;> exact ⟨rfl, rfl⟩
  · exact ⟨rfl, rfl⟩

theorem ageLive_sendsKept (n : Nat) (c : Chip) : SendsKept c (ageLive n c) := by
  induction n generalizing c with
  | zero => exact ⟨rfl, rfl⟩
  | succ n ih =>
    rw [ageLive]
    split
    · exact ⟨rfl, rfl⟩
    · next i _ =>
      split
      · have dropped : SendsKept c (dropLive i.feed i.seq c) := ⟨rfl, rfl⟩
        exact (dropped.trans (settleMember_sendsKept _ _)).trans (ih _)
      · exact ⟨rfl, rfl⟩

theorem serveReturn_sendsKept (p : Fin 4) (r : ReturnEntry) (rest : List ReturnEntry) (c : Chip) :
    SendsKept c (serveReturn p r rest c) := by
  unfold serveReturn
  exact (settleMember_sendsKept _ _).after ((hand_sendsKept _ _ _ _ _ _ _ _ _).after ⟨rfl, rfl⟩)

theorem serveAudio_sendsKept (p : Fin 4) (a : AudioItem) (rest : List AudioItem) (c : Chip) :
    SendsKept c (serveAudio p a rest c) := by
  unfold serveAudio
  exact (hand_sendsKept _ _ _ _ _ _ _ _ _).after ⟨rfl, rfl⟩

theorem serveLabel_sendsKept (p : Fin 4) (m : LabelItem) (rest : List LabelItem) (c : Chip) :
    SendsKept c (serveLabel p m rest c) := by
  unfold serveLabel
  exact (hand_sendsKept _ _ _ _ _ _ _ _ _).after ⟨rfl, rfl⟩

theorem serveLive_sendsKept (p : Fin 4) (i : LiveItem) (c : Chip) : SendsKept c (serveLive p i c) := by
  unfold serveLive
  exact (settleMember_sendsKept _ _).after ((hand_sendsKept _ _ _ _ _ _ _ _ _).after ⟨rfl, rfl⟩)

/-- Clip `n` is RELEASED and none of it waits in the CLIP queue. -/
structure ClipGone (n : Nat) (c : Chip) : Prop where
  queue : ∀ q ∈ c.sched.clipQ, q.clip ≠ n
  released : ∀ x ∈ c.clips.list, x.number = n → x.state = .released

section
variable {n : Nat} {c d : Chip}

theorem ClipGone.kept (h : ClipGone n c) (k : SendsKept c d) : ClipGone n d :=
  ⟨by rw [k.queue]; exact h.queue, by rw [k.clips]; exact h.released⟩

/-- A change of another clip's record. -/
theorem ClipGone.mapClip_other {m : Nat} (h : ClipGone n c) (other : m ≠ n) (g : Clip → Clip)
    (number : ∀ x, (g x).number = x.number) : ClipGone n (mapClip m g c) := by
  refine ⟨h.queue, fun x changed named => ?_⟩
  obtain ⟨y, mem, rfl⟩ := List.mem_map.1 changed
  split at named
  · next changed => exact absurd (changed.symm.trans ((number y).symm.trans named)) other
  · next same =>
    rw [if_neg same]
    exact h.released y mem named

theorem clipHanded_gone {m : Nat} (h : ClipGone n c) (other : m ≠ n) (k : Nat) :
    ClipGone n (clipHanded m k c) := by
  unfold clipHanded
  split
  · exact h
  · split
    · exact h
    · split
      · have report := askReport_reportOnly .clip (reportBody 2 (leNat16 m))
          (mapClip m (fun x => { x with state := .sent, progress := none }) c)
        have sent := h.mapClip_other other (fun x => { x with state := .sent, progress := none }) fun _ => rfl
        exact sent.kept ⟨report.clips, by rw [report.sched]⟩
      · exact h.mapClip_other other _ fun _ => rfl

theorem serveClip_gone {q : ClipItem} {rest : List ClipItem} (h : ClipGone n c)
    (queue : c.sched.clipQ = q :: rest) (p : Fin 4) (u : ClipUnit) (us : List ClipUnit) :
    ClipGone n (serveClip p q rest u us c) := by
  obtain ⟨head, tail⟩ := List.forall_mem_cons.1 (queue ▸ h.queue)
  have left : ∀ units : List ClipUnit, ClipGone n
      { c with sched.clipQ := if units.isEmpty then rest else { q with units := units } :: rest } :=
    fun units => ⟨by
      dsimp only
      split
      · exact tail
      · exact List.forall_mem_cons.2 ⟨head, tail⟩, h.released⟩
  exact clipHanded_gone ((left _).kept (hand_sendsKept _ _ _ _ _ _ _ _ _)) head _

/-- A serve touches no clip but those of the CLIP queue (R145, R176). -/
theorem serveOnce_gone (h : ClipGone n c) : ClipGone n (serveOnce c).1 := by
  have aged := h.kept (ageLive_sendsKept c.sched.live.length c)
  unfold serveOnce
  split
  · exact h
  · split
    · exact h.kept (serveReturn_sendsKept _ _ _ _)
    · split
      · exact h.kept (serveAudio_sendsKept _ _ _ _)
      · split
        · exact h.kept (serveLabel_sendsKept _ _ _ _)
        · dsimp only
          split
          · exact aged.kept (serveLive_sendsKept _ _ _)
          · split
            · exact aged
            · next queue =>
              split
              · exact aged
              · exact serveClip_gone aged queue _ _ _

theorem serveLoop_gone (fuel : Nat) (h : ClipGone n c) : ClipGone n (serveLoop fuel c) := by
  induction fuel generalizing c with
  | zero => exact h
  | succ fuel ih =>
    have once := serveOnce_gone h
    rw [serveLoop]
    split
    · next e => rw [e] at once; exact ih once
    · next e => rw [e] at once; exact once

theorem serveIfNew_gone (b : Chip) (h : ClipGone n c) : ClipGone n (serveIfNew b c) := by
  unfold serveIfNew
  split
  · exact h
  · exact (serveLoop_gone _ h).kept ⟨rfl, rfl⟩

end

/-- A clip that is SENDING or SENT and gave up its units is gone from the CLIP queue (R179). -/
theorem gaveUp_gone {k : Clip} (sent : k.state = .sending ∨ k.state = .sent) (c : Chip) :
    ClipGone k.number (gaveUp k .released c) := by
  rw [gaveUp_sent _ c sent]
  refine ⟨fun q mem => ?_, fun x mem named => ?_⟩
  · simpa using (List.mem_filter.1 mem).2
  · obtain ⟨y, -, rfl⟩ := List.mem_map.1 mem
    split at named
    · next same => rw [if_pos same]
    · next other => exact absurd named other

/-! ### CLIP RELEASE -/

section
variable {c : Chip} {k : Clip} {n : Nat} (found : findClip c n = some k) (free : inTrim c n = false)
  (clear : k.guarded = false)
include found free clear

/-- A CLOSED, SENDING or SENT clip that is not protected gives up its units (R143). -/
theorem clipRelease_done (state : k.state = .closed ∨ k.state = .sending ∨ k.state = .sent) :
    clipRelease n c = .completed .done [] (serveIfNew c (gaveUp k .released c)) := by
  have releasable : ¬(k.state = .opened ∨ k.state = .released ∨ k.state = .lapsed) := by
    rcases state with h | h | h <;> simp [h]
  rw [clipRelease, found]
  dsimp only
  rw [if_neg (Bool.eq_false_iff.1 free), if_neg releasable, if_neg (Bool.eq_false_iff.1 clear), gaveUp,
    findClip_number found]

theorem clipRelease_closed (state : k.state = .closed) :
    clipRelease n c = .completed .done [] (gaveUp k .released c) := by
  have unsent := gaveUp_unsent .released c (k := k) (by simp [state]) (by simp [state])
  rw [clipRelease_done found free clear (.inl state), serveIfNew_same]
  · rw [unsent]
  · rw [unsent]

end

/-! ### Hold pressure's choice and its lapse -/

/-- The first element of a list that meets two conditions. -/
theorem find?_filter_append {α : Type} {p q : α → Bool} {before after : List α} {k : α}
    (none : ∀ x ∈ before, p x = true → q x = false) (hp : p k = true) (hq : q k = true) :
    ((before ++ k :: after).filter p).find? q = some k := by
  have skip : (before.filter p).find? q = .none :=
    List.find?_eq_none.2 fun x mem => by
      obtain ⟨mem, meets⟩ := List.mem_filter.1 mem
      simp [none x mem meets]
  simp [List.find?_append, skip, hp, hq]

/-- A clip that hold pressure may choose for feed `f` (R81). -/
def mayLapse (c : Chip) (f : Fin 8) (k : Clip) : Bool := holdsUnitOf c k f && !k.guarded

theorem mayLapse_iff (c : Chip) (f : Fin 8) (k : Clip) :
    mayLapse c f k = true ↔ k.guarded = false ∧ holdsUnitOf c k f = true := by
  simp [mayLapse, and_comm]

/-- The choice in its order: a CLOSED or SENT clip, else a SENDING one (R81). -/
theorem lapseChoice_eq (c : Chip) (f : Fin 8) : lapseChoice c f =
    ((c.clips.list.filter (mayLapse c f)).find? fun x => x.state == .closed || x.state == .sent).or
      ((c.clips.list.filter (mayLapse c f)).find? fun x => x.state == .sending) := by
  unfold lapseChoice
  dsimp only
  split
  · next first => exact (congrArg (Option.or · _) first).symm
  · next first => exact (congrArg (Option.or · _) first).symm

section
variable {c : Chip} {f : Fin 8}

theorem lapseChoice_first {before after : List Clip} {k : Clip} (list : c.clips.list = before ++ k :: after)
    (may : mayLapse c f k = true) (state : k.state = .closed ∨ k.state = .sent)
    (first : ∀ x ∈ before, mayLapse c f x = true → x.state ≠ .closed ∧ x.state ≠ .sent) :
    lapseChoice c f = some k := by
  rw [lapseChoice_eq, list,
    find?_filter_append (fun x mem can => by simp [first x mem can]) may (by simpa using state),
    Option.some_or]

/-- With no CLOSED or SENT clip to choose, the choice is among the SENDING ones (R81). -/
theorem lapseChoice_sending
    (none : ∀ x ∈ c.clips.list, mayLapse c f x = true → x.state ≠ .closed ∧ x.state ≠ .sent) :
    lapseChoice c f = (c.clips.list.filter (mayLapse c f)).find? fun x => x.state == .sending := by
  have skip : (c.clips.list.filter (mayLapse c f)).find? (fun x => x.state == .closed || x.state == .sent) =
      .none :=
    List.find?_eq_none.2 fun x mem => by
      obtain ⟨mem, can⟩ := List.mem_filter.1 mem
      simp [none x mem can]
  rw [lapseChoice_eq, skip, Option.none_or]

end

/-- A lapse is the clip giving up its units outside any trim session, and the report LAPSED (R146). -/
theorem lapseClip_eq (k : Clip) (f : Fin 8) (c : Chip) : lapseClip k f c =
    askReport .clip
      (reportBody 5 (leNat16 k.number ++
        [byteOf f.val, byteOf (clipStateCode k.state),
          byteOf ((if k.state = .sending then 1 else 0) + if inTrim c k.number = true then 2 else 0)]))
      (gaveUp k .lapsed
        { c with clips.trim := if inTrim c k.number = true then none else c.clips.trim }) := by
  have flags : bitOf (k.state == .sending) + 2 * bitOf (inTrim c k.number) =
      (if k.state = .sending then 1 else 0) + if inTrim c k.number = true then 2 else 0 := by
    by_cases sending : k.state = .sending <;> cases inTrim c k.number <;> simp [sending, bitOf]
  have ended : (if inTrim c k.number = true then
        { withdrawIfSent k c with clips.trim := none } else withdrawIfSent k c) =
      withdrawIfSent k { c with clips.trim := if inTrim c k.number = true then none else c.clips.trim } := by
    unfold withdrawIfSent
    split <;> split <;> rfl
  unfold lapseClip
  dsimp only
  rw [flags, ended, gaveUp]

/-- Settles O43: both are the clip giving up its units, a release with a serve and a lapse with a report. -/
theorem clipReleaseDropsHolds : Obligations.ClipReleaseDropsHolds := by
  refine ⟨fun h clip s k taken found free clear => ⟨fun sent => ?gone, fun sent once => ?sent,
    fun closed once => ?closed⟩, fun c f can chooses => ?choice, fun c k f once => ?lapse⟩
  case gone =>
    have done := clipRelease_done found free clear (.inr sent)
    have named := findClip_number found
    obtain ⟨queue, released⟩ := serveIfNew_gone s.chip (gaveUp_gone sent s.chip)
    refine ⟨serveIfNew s.chip (gaveUp k .released s.chip), ?_, named ▸ queue, ?_, named ▸ released⟩
    · rw [exec_concluded (v := clipRelease clip.toNat) taken rfl, done, conclude_done]
    · rw [(serveIfNew_serveOnly _ _).feeds, gaveUp_sent _ _ sent]
      rfl
  case sent =>
    have done := clipRelease_done found free clear (.inr sent)
    refine ⟨gaveUp k .released s.chip, ?_, ?_, gaveUp_holdsDropped _ _ once⟩
    · rw [exec_concluded (v := clipRelease clip.toNat) taken rfl, done, conclude_done]
    · rw [← findClip_number found]
      exact gaveUp_sent _ _ sent
  case closed =>
    have unsent := gaveUp_unsent .released s.chip (k := k) (by simp [closed]) (by simp [closed])
    refine ⟨gaveUp k .released s.chip, ?_, ?_, ?_, ?_, ?_, fun f => ?_⟩
    · rw [exec_concluded (v := clipRelease clip.toNat) taken rfl, clipRelease_closed found free clear closed,
        conclude_done]
    · rw [← findClip_number found, unsent]
    · rw [unsent]
    · rw [unsent]
    · rw [unsent]
    · rw [gaveUp_holdsDropped .released s.chip once f]
  case choice =>
    have may : ∀ x, can x ↔ mayLapse c f x = true := fun x => by rw [chooses, mayLapse_iff]
    simp only [may]
    refine ⟨fun before k after => lapseChoice_first,
      fun none => ⟨fun before k after list can sending first => ?_, fun others => ?_⟩⟩
    · rw [lapseChoice_sending none, list]
      exact find?_filter_append (fun x mem can => by simp [first x mem can]) can (by simp [sending])
    · rw [lapseChoice_sending none]
      exact List.find?_eq_none.2 fun x mem => by
        obtain ⟨mem, can⟩ := List.mem_filter.1 mem
        simp [others x mem can]
  case lapse =>
    exact ⟨_, lapseClip_eq k f c, gaveUp_holdsDropped .lapsed _ once, fun sent => gaveUp_sent _ _ sent,
      fun sending sent => gaveUp_unsent _ _ sending sent⟩

end Sys2Proof.Machine
end

section
/-! SUPPORT. Reservation in a coded ring: the search, the list check, the reclaims and hold pressure (R76 to
R82). -/

namespace Sys2Proof.Machine

/-! ### The search -/

theorem overlaps_false_iff (s n : Nat) (u : UnitRec) : overlaps s n u = false ↔
    u.start + regionLen u ≤ s ∨ s + n ≤ u.start := by
  simp only [overlaps, Bool.and_eq_false_iff, decide_eq_false_iff_not]
  omega

theorem blocking_iff (u : UnitRec) : blocking u = true ↔ 0 < u.held ∨ u.complete = false := by
  simp [blocking]

/-- A search that succeeds ends at lines inside the ring that no blocking record's region shares (R77). -/
theorem searchRing_found {us : List UnitRec} {n size s : Nat} (fits : n ≤ size) (fuel h a : Nat)
    (noted : List Nat) (found : (searchRing us n size fuel h a noted).start = some s) :
    s + n ≤ size ∧ ∀ u ∈ us, blocking u = true → overlaps s n u = false := by
  induction fuel generalizing h a noted with
  | zero => cases found
  | succ fuel ih =>
    rw [searchRing] at found
    dsimp only at found
    generalize candidate : (if size < h + n then 0 else h) = s' at found
    generalize (if size < h + n then a + (size - h) else a) = a' at found
    split at found
    · cases found
    · split at found
      · next free =>
        cases found
        refine ⟨by split at candidate <;> omega, fun u mem blocks => ?_⟩
        have unshared := List.filter_eq_nil_iff.1 free u mem
        rw [blocks, Bool.and_true] at unshared
        exact Bool.eq_false_iff.2 unshared
      · exact ih _ _ _ found

/-! ### The request -/

/-- A request gives a region that its search found and its list check let pass, or none (R76 to R80). -/
theorem requestRegion_cases {c : Chip} {f : Fin 8} {r : Request} {e : Option UnitRec}
    (request : requestRegion c f = (r, e)) :
    (∃ x, r.start = some x ∧ (search c f).start = some x ∧ listCheck c f x = some e) ∨
      (r.start = none ∧ e = none) := by
  unfold requestRegion at request
  dsimp only at request
  split at request
  · cases request
    exact .inr ⟨rfl, rfl⟩
  · next x found =>
    split at request
    · cases request
      exact .inr ⟨rfl, rfl⟩
    · next checked =>
      cases request
      exact .inl ⟨x, rfl, found, checked⟩

/-- The list check chooses a COMPLETE unheld record outside the region (R79). -/
theorem listCheck_chosen {c : Chip} {f : Fin 8} {x : Nat} {u : UnitRec}
    (checked : listCheck c f x = some (some u)) :
    u ∈ c.rings[f].units ∧ u.complete = true ∧ u.held = 0 ∧
      overlaps x (reserveLines c f) u = false := by
  unfold listCheck at checked
  dsimp only at checked
  split at checked
  · cases checked
  · split at checked
    · next chosen =>
      cases checked
      have meets := List.find?_some chosen
      simp only [Bool.and_eq_true, decide_eq_true_eq, Bool.not_eq_true', and_assoc] at meets
      exact ⟨List.mem_of_find?_eq_some chosen, meets⟩
    · cases checked

/-! ### One record reclaimed -/

/-- The part after a reclaimed record's withdrawal, if it is a live member (R82). -/
def liveWithdrawn (f : Fin 8) (c : Chip) (u : UnitRec) : Chip :=
  if u.live then withdrawLive f u.seq c else c

/-- A reclaim is the withdrawal, at most a RECORD_OVERRUN report, and the record's leaving the list (R82). -/
theorem reclaim_eq (f : Fin 8) (c : Chip) (u : UnitRec) : ∃ d, ReportOnly (liveWithdrawn f c u) d ∧
    (c.feeds[f].cfg.recorder = true → u.recorded = false → d.cmd.pendingSet.getLsbD 3 = true) ∧
    reclaim f c u = setRing d f { d.rings[f] with
      units := d.rings[f].units.filter fun x => !(x.complete && x.seq == u.seq) } := by
  have feeds : (liveWithdrawn f c u).feeds = c.feeds := by
    unfold liveWithdrawn
    split <;> rfl
  refine ⟨if (liveWithdrawn f c u).feeds[f].cfg.recorder && !u.recorded then
      askReport .ring
        (reportBody 0 (byteOf f.val :: (le32 u.seq ++ le32 u.house ++ leNat32 u.start))) (liveWithdrawn f c u)
    else liveWithdrawn f c u, ?_, fun on missed => ?_, rfl⟩
  · split
    · exact askReport_reportOnly _ _ _
    · exact .refl _
  · rw [feeds, on, missed, if_pos (by rfl)]
    exact askReport_pending (x := .ring) rfl _ _

theorem withdrawLive_ring (f : Fin 8) (seq : Count32) (c : Chip) : (withdrawLive f seq c).rings[f] =
    { c.rings[f] with
      units := c.rings[f].units.map fun u =>
        if u.complete && u.seq == seq then { u with live := false } else u } :=
  setRing_same _ _ _

/-- The end of a unit's live membership does not show in the list once the unit has left it. -/
theorem filter_endLive (seq : Count32) (us : List UnitRec) :
    (us.map fun u => if u.complete && u.seq == seq then { u with live := false } else u).filter
        (fun x => !(x.complete && x.seq == seq)) =
      us.filter fun x => !(x.complete && x.seq == seq) := by
  induction us with
  | nil => rfl
  | cons u us ih =>
    by_cases named : (u.complete && u.seq == seq) = true
    · rw [List.map_cons, if_pos named, List.filter_cons_of_neg (by simpa using named),
        List.filter_cons_of_neg (by simpa using named), ih]
    · rw [List.map_cons, if_neg named,
        List.filter_cons_of_pos (by simpa only [Bool.not_eq_true', Bool.not_eq_true] using named),
        List.filter_cons_of_pos (by simpa only [Bool.not_eq_true', Bool.not_eq_true] using named), ih]

theorem reclaim_rings (f : Fin 8) (c : Chip) (u : UnitRec) :
    (reclaim f c u).rings[f] = { c.rings[f] with
        units := c.rings[f].units.filter fun x => !(x.complete && x.seq == u.seq) } ∧
      ∀ g : Fin 8, g ≠ f → (reclaim f c u).rings[g] = c.rings[g] := by
  obtain ⟨d, report, -, reclaimed⟩ := reclaim_eq f c u
  rw [reclaimed, setRing_same, report.rings]
  constructor
  · unfold liveWithdrawn
    split
    · rw [withdrawLive_ring, filter_endLive]
    · rfl
  · intro g other
    rw [setRing_other _ _ _ _ other, report.rings]
    unfold liveWithdrawn
    split
    · exact (withdrawLive_rings f u.seq c).2 g other
    · rfl

/-- Beside its ring and the reports, a reclaim is the withdrawal of a live member (R82). -/
theorem reclaim_sends (f : Fin 8) (c : Chip) (u : UnitRec) :
    (reclaim f c u).sched = (liveWithdrawn f c u).sched ∧
      (reclaim f c u).paths = (liveWithdrawn f c u).paths := by
  obtain ⟨d, report, -, reclaimed⟩ := reclaim_eq f c u
  rw [reclaimed]
  exact ⟨report.sched, report.paths⟩

theorem mem_dropLive {f : Fin 8} {seq : Count32} {c : Chip} {i : LiveItem} :
    i ∈ (dropLive f seq c).sched.live ↔ i ∈ c.sched.live ∧ ¬(i.feed = f ∧ i.seq = seq) := by
  simp [dropLive, imp_iff_not_or]

/-- A withdrawn live unit is nowhere on its way (R179). -/
theorem withdrawLive_gone (f : Fin 8) (seq : Count32) (c : Chip) :
    (∀ i ∈ (withdrawLive f seq c).sched.live, ¬(i.feed = f ∧ i.seq = seq)) ∧
      (∀ i ∈ (withdrawLive f seq c).sched.returns, i.item ≠ .liveUnit f seq) ∧
      ∀ p : Fin 4, ∀ i ∈ (withdrawLive f seq c).paths[p].queue, i.item ≠ .liveUnit f seq := by
  refine ⟨fun i mem => (mem_dropLive.1 mem).2, fun i mem => ?_, fun p i mem => ?_⟩
  · simpa using (List.mem_filter.1 mem).2
  · have queue : (withdrawLive f seq c).paths[p].queue =
        c.paths[p].queue.filter fun i => !(i.item == .liveUnit f seq) := by
      simp [withdrawLive, withdrawItems, setLive, mapUnits, dropLive]
    rw [queue] at mem
    simpa using (List.mem_filter.1 mem).2

/-! ### The region taken -/

/-- The records that leave a list when those of `l` are reclaimed (R82). -/
theorem reclaims_rings (f : Fin 8) (l : List UnitRec) (c : Chip) :
    (l.foldl (reclaim f) c).rings[f] = { c.rings[f] with
        units := c.rings[f].units.filter fun y => !(y.complete && l.any fun z => z.seq == y.seq) } ∧
      ∀ g : Fin 8, g ≠ f → (l.foldl (reclaim f) c).rings[g] = c.rings[g] := by
  induction l generalizing c with
  | nil => exact ⟨by simp, fun _ _ => rfl⟩
  | cons u l ih =>
    obtain ⟨first, firstOthers⟩ := reclaim_rings f c u
    obtain ⟨rest, restOthers⟩ := ih (reclaim f c u)
    refine ⟨?_, fun g other => (restOthers g other).trans (firstOthers g other)⟩
    rw [List.foldl_cons, rest, first]
    dsimp only
    rw [List.filter_filter]
    congr 2
    funext y
    rw [List.any_cons, BEq.comm (a := u.seq)]
    cases y.complete <;> cases y.seq == u.seq <;> simp

theorem ServeOnly.windows {c d : Chip} (h : ServeOnly c d) : d.mem.windows = c.mem.windows := by rw [h.same]

theorem ServeOnly.timing {c d : Chip} (h : ServeOnly c d) : d.timing = c.timing := by rw [h.same]

theorem ServeOnly.coder {c d : Chip} (h : ServeOnly c d) : d.coder = c.coder := by rw [h.same]

/-- A ring's size depends on the windows (R76). -/
theorem ringSize_congr {c d : Chip} (windows : d.mem.windows = c.mem.windows) (f : Fin 8) :
    ringSize d f = ringSize c f := by
  simp only [ringSize, findWindow, windows]

/-- The record that a reservation adds (R78). -/
def reservedRec (c : Chip) (f : Fin 8) (x : Nat) : UnitRec :=
  { complete := false, seq := 0, house := c.timing.count, start := x, reserved := reserveLines c f,
    length := 0, bytes := 0, recorded := false, held := 0, live := false }

/-- The reclaimed records leave, the RESERVED one joins the end, and the head stands after it (R78). -/
theorem takeRegion_rings (f : Fin 8) (x : Nat) (e : Option UnitRec) (c : Chip) :
    (takeRegion f x e c).rings[f] = { c.rings[f] with
        units := (c.rings[f].units.filter fun y =>
          !(y.complete && (doomed c f x ++ e.toList).any fun z => z.seq == y.seq)) ++ [reservedRec c f x]
        head := wrapLine (ringSize c f) (x + reserveLines c f) } ∧
      ∀ g : Fin 8, g ≠ f → (takeRegion f x e c).rings[g] = c.rings[g] := by
  obtain ⟨ring, others⟩ := reclaims_rings f (doomed c f x ++ e.toList) c
  have reclaimed := foldl_serveOnly (reclaim_serveOnly f) (doomed c f x ++ e.toList) c
  unfold takeRegion
  dsimp only
  rw [setRing_same, ring, reclaimed.timing, ringSize_congr reclaimed.windows]
  exact ⟨rfl, fun g other => (setRing_other _ _ _ _ other).trans (others g other)⟩

section
variable {c : Chip} {f : Fin 8} {r : Request} {e : Option UnitRec} (request : requestRegion c f = (r, e))
include request

theorem beginPicture_request (slot : Nat) : beginPicture f slot c =
    holdPressure f r
      (match r.start with
      | some x => keepPicture f slot x e c
      | none => dropPicture f slot c) := by
  simp only [beginPicture, request] <;> rfl

theorem beginPicture_kept (slot : Nat) {x : Nat} (start : r.start = some x) (calm : r.pressed = false) :
    beginPicture f slot c = keepPicture f slot x e c := by
  rw [beginPicture_request request, start]
  exact if_neg (Bool.eq_false_iff.1 calm)

theorem beginPicture_dropped (slot : Nat) (start : r.start = none) (calm : r.pressed = false) :
    beginPicture f slot c = dropPicture f slot c := by
  rw [beginPicture_request request, start]
  exact if_neg (Bool.eq_false_iff.1 calm)

end

/-- A picture kept joins the pictures in hand as the feed's current one (R41). -/
theorem keepPicture_feed (f : Fin 8) (slot x : Nat) (e : Option UnitRec) (c : Chip) :
    (keepPicture f slot x e c).feeds[f].pics = c.feeds[f].pics ++ [newPicture c f slot x] ∧
      (keepPicture f slot x e c).feeds[f].cur = .present c.coder.picCount := by
  unfold keepPicture
  dsimp only
  rw [setFeed_same, (takeRegion_serveOnly f x e c).feeds]
  exact ⟨rfl, rfl⟩

/-! ### Hold pressure -/

/-- The part after a PRESSURE report, which names the clip chosen before it (R81). -/
def pressureReported (f : Fin 8) (r : Request) (c : Chip) : Chip :=
  askReport .ring
    (reportBody 1
      ([byteOf f.val, byteOf (bitOf r.start.isNone)] ++ leNat16 r.stepped ++
        leNat16 (((lapseChoice c f).map (·.number)).getD 0))) c

section
variable {f : Fin 8} {r : Request} {c : Chip} (pressed : r.pressed = true)
include pressed

theorem holdPressure_alone (none : lapseChoice c f = none) :
    holdPressure f r c = pressureReported f r c := by
  rw [holdPressure, if_pos pressed, pressureReported, none]

theorem holdPressure_lapses {k : Clip} (chosen : lapseChoice c f = some k) :
    holdPressure f r c = lapseClip k f (pressureReported f r c) := by
  rw [holdPressure, if_pos pressed, pressureReported, chosen]

end

/-- Settles O29: the search by its moves, the request by its outcome, a reclaim by its parts. -/
theorem searchAvoidsHeld : Obligations.SearchAvoidsHeld := by
  refine ⟨fun us n size fuel h a noted s fits found => ?search,
    fun c f slot r e request => ⟨fun x start => ?found, fun u chosen => ?chosen,
      fun x start calm => ?kept, fun start calm => ?dropped, fun _ => ?pressed⟩,
    fun f c u => ⟨fun live => ?live, fun off => ?off, fun on missed => ?overrun⟩,
    fun f r c d n pressed number report => ?pressure⟩
  case search =>
    obtain ⟨inside, free⟩ := searchRing_found fits fuel h a noted found
    exact ⟨inside, fun u mem blocks =>
      (overlaps_false_iff s n u).1 (free u mem ((blocking_iff u).2 blocks))⟩
  case found =>
    rcases requestRegion_cases request with ⟨y, given, found, checked⟩ | ⟨none, -⟩
    · obtain rfl : y = x := Option.some.inj (given.symm.trans start)
      exact ⟨found, checked⟩
    · rw [none] at start
      cases start
  case chosen =>
    rcases requestRegion_cases request with ⟨y, given, -, checked⟩ | ⟨-, none⟩
    · obtain ⟨mem, complete, free, outside⟩ := listCheck_chosen (chosen ▸ checked)
      refine ⟨mem, complete, free, fun x start => ?_⟩
      obtain rfl : y = x := Option.some.inj (given.symm.trans start)
      exact outside
    · rw [none] at chosen
      cases chosen
  case kept =>
    obtain ⟨ring, others⟩ := takeRegion_rings f x e c
    have rings : (keepPicture f slot x e c).rings = (takeRegion f x e c).rings := rfl
    rw [beginPicture_kept request slot start calm, rings, ring]
    exact ⟨rfl, rfl, rfl, others, keepPicture_feed f slot x e c⟩
  case dropped => exact beginPicture_dropped request slot start calm
  case pressed => exact beginPicture_request request slot
  case live =>
    have withdrawn : liveWithdrawn f c u = withdrawLive f u.seq c := if_pos live
    rw [(reclaim_sends f c u).1, (reclaim_sends f c u).2, withdrawn]
    exact withdrawLive_gone f u.seq c
  case off =>
    have kept : liveWithdrawn f c u = c := if_neg (Bool.eq_false_iff.1 off)
    rw [(reclaim_sends f c u).1, (reclaim_sends f c u).2, kept]
    exact ⟨rfl, rfl⟩
  case overrun =>
    obtain ⟨d, -, pending, reclaimed⟩ := reclaim_eq f c u
    rw [reclaimed]
    exact pending on missed
  case pressure =>
    subst number
    obtain rfl : d = pressureReported f r c := report
    exact ⟨holdPressure_alone pressed, fun k => holdPressure_lapses pressed⟩

end Sys2Proof.Machine
end

section
/-! SUPPORT. UPLINK SET and its closings, HOME SIGNAL, and the LIVE queue (R87, R131, R138, R139, R173, R175
to R177, R181). -/

namespace Sys2Proof.Machine

/-! ### UPLINK SET -/

/-- The uplink settings given (R138, R181). -/
def uplinkGiven (headroom share age : Byte) (on : Bool) (len : BitVec 16) (c : Chip) : Chip :=
  { c with
    sched.headroom := headroom.toNat
    sched.share := share.toNat
    sched.ageLimit := age.toNat
    sched.notify := on
    clips.maxLen := len.toNat }

theorem uplinkSet_badArg {headroom share age notify : Byte} {len : BitVec 16} (c : Chip)
    (bad : headroom.toNat < 50 ∨ 100 < headroom.toNat ∨ 50 < share.toNat ∨ age.toNat < 2 ∨
      100 < age.toNat ∨ 1 < notify.toNat ∨ len.toNat < 25 ∨ 30000 < len.toNat) :
    uplinkSet headroom share age notify len c = .refused .badArg := by
  unfold uplinkSet
  split
  · rfl
  · next on flag =>
    have range : notify.toNat ≤ 1 := (flagOf_isSome notify).1 (by rw [flag]; rfl)
    exact if_neg (by omega)

section
variable {headroom share age notify : Byte} {len : BitVec 16} {on : Bool} (c : Chip)
  (range : 50 ≤ headroom.toNat ∧ headroom.toNat ≤ 100 ∧ share.toNat ≤ 50 ∧ 2 ≤ age.toNat ∧
    age.toNat ≤ 100 ∧ 25 ≤ len.toNat ∧ len.toNat ≤ 30000) (flag : flagOf notify = some on)
include range flag

theorem uplinkSet_done : uplinkSet headroom share age notify len c = .completed .done []
    (serveIfNew c (closeAtMax (fun _ => true) (uplinkGiven headroom share age on len c))) := by
  rw [uplinkSet, flag]
  exact if_pos range

/-- With every OPEN clip below the new max length the settings are all that changes (R181). -/
theorem uplinkSet_quiet (below : ∀ k ∈ c.clips.list, k.state = .opened →
      ∀ x ∈ k.feeds, clipLength c x < len.toNat) :
    uplinkSet headroom share age notify len c = .completed .done []
      (uplinkGiven headroom share age on len c) := by
  have stands : closeAtMax (fun _ => true) (uplinkGiven headroom share age on len c) =
      uplinkGiven headroom share age on len c :=
    closeAtMax_below fun k mem => Bool.eq_false_iff.2 fun reached => by
      obtain ⟨opened, x, listed, -, long⟩ := (reachedMax_iff _ _ k).1 reached
      exact Nat.not_lt.2 long (below k mem opened x listed)
  rw [uplinkSet_done c range flag, stands]
  exact congrArg _ (if_pos ⟨rfl, rfl, rfl, rfl, rfl, rfl⟩)

end

/-! ### HOME SIGNAL -/

theorem serveIfNew_label {b a : Chip} (new : a.sched.label ≠ b.sched.label) : serveIfNew b a = serve a :=
  if_neg fun same => new same.1

section
variable {code : BitVec 16} {c : Chip} (range : code.toNat ≤ 255)
include range

theorem signalCode_toNat : (code.setWidth 8).toNat = code.toNat := by
  rw [BitVec.toNat_setWidth]
  omega

theorem homeSignal_done : homeSignal code c =
    .completed .done [] (serveIfNew c (signalHome (code.setWidth 8) .host c)) := if_neg (by omega)

theorem homeSignal_queued (room : c.sched.label.length < 32) : homeSignal code c =
    .completed .done []
      (serve
        (askReport .home (reportBody 5 [code.setWidth 8, 0, 0xFF, 0])
          { c with
            sched.label := c.sched.label ++
              [{ kind := 2, number := code.toNat, data := [code.setWidth 8], cursor := 0 }] })) := by
  have free : labelRoom c = true := decide_eq_true room
  rw [homeSignal_done range, signalHome, joinLabel_room room, free, signalCode_toNat range, serveIfNew_label]
  · rfl
  · rw [(askReport_reportOnly _ _ _).sched]
    simp

theorem homeSignal_dropped (full : 32 ≤ c.sched.label.length) : homeSignal code c =
    .completed .done []
      (askReport .home (reportBody 5 [code.setWidth 8, 0, 0xFF, 1])
        (askReport .home (reportBody 4 (2 :: leNat16 code.toNat)) c)) := by
  have none : labelRoom c = false := decide_eq_false (Nat.not_lt.2 full)
  rw [homeSignal_done range, signalHome, joinLabel_full full, none, signalCode_toNat range, serveIfNew_report]
  · rfl
  · exact (askReport_reportOnly _ _ _).trans (askReport_reportOnly _ _ _)

end

/-! ### A clip's close in the log -/

theorem closedClip_congr {c d : Chip} (rings : d.rings = c.rings) (r : CloseReason) :
    closedClip d r = closedClip c r := by
  have feed : closeFeed d = closeFeed c := funext fun x => by
    rw [closeFeed, rings, closeFeed]
  have house : unitHouse d = unitHouse c := funext fun f => funext fun q => by
    rw [unitHouse, findUnit, rings, unitHouse, findUnit]
  funext k
  unfold closedClip
  rw [feed, house]

theorem giveNotice_clips (n : Nat) (c : Chip) : (giveNotice n c).clips = c.clips := by
  unfold giveNotice joinLabel
  split
  · split
    · split
      · rfl
      · exact (askReport_reportOnly _ _ _).clips
    · rfl
  · rfl

theorem closeClip_none {n : Nat} {c : Chip} (r : CloseReason) (none : findClip c n = none) :
    closeClip n r c = c := by
  rw [closeClip, none]

/-- In the clip log, a close is the clip's new record (R136). -/
theorem closeClip_clips {n : Nat} {c : Chip} {k : Clip} (r : CloseReason) (found : findClip c n = some k) :
    (closeClip n r c).clips = (mapClip n (fun _ => closedClip c r k) c).clips := by
  rw [closeClip, found]
  unfold closedReport
  dsimp only
  split <;> split
  · rw [giveNotice_clips, (askReport_reportOnly _ _ _).clips, (askReport_reportOnly _ _ _).clips]
  · rw [giveNotice_clips, (askReport_reportOnly _ _ _).clips]
  · rw [(askReport_reportOnly _ _ _).clips, (askReport_reportOnly _ _ _).clips]
  · rw [(askReport_reportOnly _ _ _).clips]

theorem closeClip_tally (n : Nat) (r : CloseReason) (c : Chip) : (closeClip n r c).tally = c.tally := by
  have stack := closeClip_stack n r c
  have log := congrArg Chip.tally (closeClip_logOnly n r c).same
  rw [stack] at log
  exact log

theorem closeClip_list {n : Nat} {c : Chip} (once : (c.clips.list.map (·.number)).Nodup) (r : CloseReason) :
    (closeClip n r c).clips.list =
      c.clips.list.map fun x => if x.number = n then closedClip c r x else x := by
  cases found : findClip c n with
  | none =>
    have other : ∀ x ∈ c.clips.list, x.number ≠ n := by simpa [findClip] using found
    rw [closeClip_none r found]
    exact (List.map_id _).symm.trans (List.map_congr_left fun x mem => (if_neg (other x mem)).symm)
  | some k =>
    rw [closeClip_clips r found]
    refine List.map_congr_left fun x mem => ?_
    split
    · next named =>
      have same : x = k := List.inj_on_of_nodup_map once mem (List.mem_of_find?_eq_some found)
        (named.trans (findClip_number found).symm)
      rw [same]
    · rfl

/-- After closings every clip still OPEN stands as it was, and so does the max length. -/
structure Closings (c d : Chip) : Prop where
  log : LogOnly c d
  maxLen : d.clips.maxLen = c.clips.maxLen
  opened : ∀ x ∈ d.clips.list, x.state = .opened → x ∈ c.clips.list

theorem Closings.trans {a b c : Chip} (h : Closings a b) (k : Closings b c) : Closings a c :=
  ⟨h.log.trans k.log, k.maxLen.trans h.maxLen, fun x mem stays => h.opened x (k.opened x mem stays) stays⟩

theorem closeClip_closings (n : Nat) (r : CloseReason) (c : Chip) : Closings c (closeClip n r c) := by
  cases found : findClip c n with
  | none =>
    rw [closeClip_none r found]
    exact ⟨.refl c, rfl, fun x mem _ => mem⟩
  | some k =>
    have clips := closeClip_clips r found
    refine ⟨closeClip_logOnly n r c, by rw [clips]; rfl, fun x mem stays => ?_⟩
    rw [clips] at mem
    obtain ⟨y, mem, rfl⟩ := List.mem_map.1 mem
    split at stays
    · exact absurd stays (closedClip_state c r k).1
    · next other => rwa [if_neg other]

/-! ### The mark stack's closings -/

/-- The part after the top of the stack was popped and its clip closed (R131). -/
def closePopped (top : Nat) (r : CloseReason) (rest : List Nat) (c : Chip) : Chip :=
  closeClip top r { c with tally.stack := rest }

theorem closeStackTo_last (n : Nat) (r : CloseReason) (rest : List Nat) (c : Chip) :
    closeStackTo n r (n :: rest) c = closePopped n r rest c := if_pos rfl

theorem closeStackTo_next {top n : Nat} (other : top ≠ n) (r : CloseReason) (rest : List Nat) (c : Chip) :
    closeStackTo n r (top :: rest) c = closeStackTo n r rest (closePopped top r rest c) := if_neg other

section
variable (top n : Nat) (r : CloseReason) (rest : List Nat) (c : Chip)

theorem closePopped_closings : Closings c (closePopped top r rest c) :=
  .trans ⟨.of_update c c.clips rest c.sched.label, rfl, fun _ mem _ => mem⟩
    (closeClip_closings top r { c with tally.stack := rest })

theorem closePopped_tally : (closePopped top r rest c).tally = { c.tally with stack := rest } :=
  closeClip_tally top r { c with tally.stack := rest }

theorem closePopped_list (numbers : (c.clips.list.map (·.number)).Nodup) :
    (closePopped top r rest c).clips.list =
      c.clips.list.map fun x => if x.number = top then closedClip c r x else x := by
  have same : closedClip { c with tally.stack := rest } r = closedClip c r := closedClip_congr rfl r
  have closed := closeClip_list (c := { c with tally.stack := rest }) (n := top) numbers r
  rw [same] at closed
  exact closed

theorem closePopped_numbers (numbers : (c.clips.list.map (·.number)).Nodup) :
    (closePopped top r rest c).clips.list.map (·.number) = c.clips.list.map (·.number) := by
  rw [closePopped_list _ _ _ _ numbers, List.map_map]
  refine List.map_congr_left fun x _ => ?_
  dsimp only [Function.comp]
  split
  · exact closedClip_number c r x
  · rfl

theorem closeStackTo_closings (s : List Nat) : Closings c (closeStackTo n r s c) := by
  induction s generalizing c with
  | nil => exact ⟨.refl c, rfl, fun x mem _ => mem⟩
  | cons top rest ih =>
    have popped := closePopped_closings top r rest c
    by_cases last : top = n
    · subst last
      rw [closeStackTo_last]
      exact popped
    · rw [closeStackTo_next last]
      exact popped.trans (ih _)

/-- The stack is left as it was below the clip it is popped to (R131). -/
theorem closeStackTo_tally {above below : List Nat} (fresh : n ∉ above) :
    (closeStackTo n r (above ++ n :: below) c).tally = { c.tally with stack := below } := by
  induction above generalizing c with
  | nil => rw [List.nil_append, closeStackTo_last, closePopped_tally]
  | cons top above ih =>
    obtain ⟨other, fresh⟩ := not_or.1 (List.mem_cons.not.1 fresh)
    rw [List.cons_append, closeStackTo_next (Ne.symm other), ih _ fresh, closePopped_tally]

/-- The clips above and the clip popped to close, and no other (R131). -/
theorem closeStackTo_list {above below : List Nat} (once : (above ++ [n]).Nodup)
    (numbers : (c.clips.list.map (·.number)).Nodup) :
    (closeStackTo n r (above ++ n :: below) c).clips.list =
      c.clips.list.map fun x => if x.number ∈ above ++ [n] then closedClip c r x else x := by
  induction above generalizing c with
  | nil =>
    rw [List.nil_append, closeStackTo_last, closePopped_list _ _ _ _ numbers]
    simp only [List.nil_append, List.mem_singleton]
  | cons top above ih =>
    obtain ⟨fresh, once⟩ := List.nodup_cons.1 (show (top :: (above ++ [n])).Nodup from once)
    have other : top ≠ n := fun same => fresh (same ▸ List.mem_append_right above List.mem_cons_self)
    have rings := (closePopped_closings top r (above ++ n :: below) c).log.rings
    rw [List.cons_append, closeStackTo_next other, ih _ once (by rwa [closePopped_numbers _ _ _ _ numbers]),
      closedClip_congr rings, closePopped_list _ _ _ _ numbers, List.map_map]
    refine List.map_congr_left fun x _ => ?_
    dsimp only [Function.comp]
    by_cases named : x.number = top
    · have out : (closedClip c r x).number ∉ above ++ [n] := by rwa [closedClip_number, named]
      simp only [if_pos named, if_neg out]
      exact (if_pos (by rw [named]; exact List.mem_cons_self)).symm
    · simp only [List.cons_append, List.mem_cons, named, false_or, if_false]

end

/-- The stack closes down to the lowest of its clips at the max length (R131, R138). -/
theorem closeAtMax_stacked {among : Fin 8 → Bool} {c : Chip} {n : Nat} {above below : List Nat} {k : Clip}
    (stack : c.tally.stack = above ++ n :: below) (found : findClip c n = some k)
    (reached : reachedMax c among k = true)
    (lowest : ∀ m ∈ below, ∀ x, findClip c m = some x → reachedMax c among x = false)
    (autos : ∀ x ∈ c.clips.list, x.origin = .auto → reachedMax c among x = false) :
    closeAtMax among c = closeStackTo n .maxLength c.tally.stack c := by
  have first : c.tally.stack.reverse.find? (stackedReached c among) = some n := by
    have skip : below.reverse.find? (stackedReached c among) = none :=
      List.find?_eq_none.2 fun m mem => by
        simp [stackedReached_false (lowest m (List.mem_reverse.1 mem))]
    have here : stackedReached c among n = true := by rw [stackedReached, found]; exact reached
    rw [stack, List.reverse_append, List.reverse_cons, List.append_assoc, List.find?_append, skip]
    simp [here]
  have closings := closeStackTo_closings n .maxLength c c.tally.stack
  unfold closeAtMax
  rw [first]
  refine closeAutosAtMax_below (fun x mem auto opened => ?_) _
  rw [reachedMax_congr closings.log.rings closings.maxLen]
  exact autos x (closings.opened x mem opened) auto

/-! ### The unit to be served -/

/-- The LIVE class serves `i` before `b` (R173). -/
def Earlier (i b : LiveItem) : Prop :=
  i.house.toNat < b.house.toNat ∨ (i.house = b.house ∧ i.feed < b.feed)

/-- The better of the best unit so far and the next one (R173). -/
def earlierOf (best : Option LiveItem) (i : LiveItem) : Option LiveItem :=
  match best with
  | none => some i
  | some b =>
    if i.house.toNat < b.house.toNat ∨ (i.house = b.house ∧ i.feed < b.feed) then some i else some b

theorem earliestLive_eq (c : Chip) : earliestLive c = c.sched.live.foldl earlierOf none := by
  unfold earliestLive
  congr
  funext best i
  cases best <;> rfl

theorem earlierOf_earlier {b i : LiveItem} (first : Earlier i b) : earlierOf (some b) i = some i :=
  if_pos first

theorem earlierOf_later {b i : LiveItem} (later : ¬Earlier i b) : earlierOf (some b) i = some b :=
  if_neg later

/-- The better unit is the next one, or the best so far stays. -/
theorem earlierOf_cases (best : Option LiveItem) (i : LiveItem) :
    earlierOf best i = some i ∨ (earlierOf best i = best ∧ best ≠ none) := by
  cases best with
  | none => exact .inl rfl
  | some b =>
    by_cases first : Earlier i b
    · exact .inl (earlierOf_earlier first)
    · exact .inr ⟨earlierOf_later first, Option.some_ne_none b⟩

/-- The best of a list is one of its units, or the best so far stays. -/
theorem foldl_earlierOf_cases (l : List LiveItem) (best : Option LiveItem) :
    (∃ i ∈ l, l.foldl earlierOf best = some i) ∨
      (l.foldl earlierOf best = best ∧ (l ≠ [] → best ≠ none)) := by
  induction l generalizing best with
  | nil => exact .inr ⟨rfl, fun h => absurd rfl h⟩
  | cons x l ih =>
    rw [List.foldl_cons]
    rcases ih (earlierOf best x) with ⟨i, mem, rest⟩ | ⟨rest, -⟩
    · exact .inl ⟨i, List.mem_cons_of_mem x mem, rest⟩
    · rw [rest]
      rcases earlierOf_cases best x with taken | ⟨kept, some⟩
      · exact .inl ⟨x, List.mem_cons_self, taken⟩
      · exact .inr ⟨kept, fun _ => some⟩

theorem earliestLive_mem {c : Chip} {i : LiveItem} (first : earliestLive c = some i) :
    i ∈ c.sched.live := by
  rw [earliestLive_eq] at first
  rcases foldl_earlierOf_cases c.sched.live none with ⟨x, mem, best⟩ | ⟨none, -⟩
  · exact Option.some.inj (best.symm.trans first) ▸ mem
  · rw [none] at first
    cases first

theorem earliestLive_none_iff (c : Chip) : earliestLive c = none ↔ c.sched.live = [] := by
  rw [earliestLive_eq]
  constructor
  · intro none
    rcases foldl_earlierOf_cases c.sched.live .none with ⟨x, -, best⟩ | ⟨-, some⟩
    · rw [none] at best
      cases best
    · exact not_not.1 fun more => some more rfl
  · intro empty
    rw [empty]
    rfl

theorem foldl_earlierOf_keeps {i : LiveItem} {l : List LiveItem} (later : ∀ x ∈ l, ¬Earlier x i) :
    l.foldl earlierOf (some i) = some i := by
  induction l with
  | nil => rfl
  | cons x l ih =>
    obtain ⟨head, tail⟩ := List.forall_mem_cons.1 later
    rw [List.foldl_cons, earlierOf_later head, ih tail]

/-- The unit before all that joined earlier, and behind none that joined later, is served (R173). -/
theorem earliestLive_first {c : Chip} {before after : List LiveItem} {i : LiveItem}
    (live : c.sched.live = before ++ i :: after) (first : ∀ x ∈ before, Earlier i x)
    (later : ∀ x ∈ after, ¬Earlier x i) : earliestLive c = some i := by
  have taken : earlierOf (before.foldl earlierOf none) i = some i := by
    rcases foldl_earlierOf_cases before none with ⟨x, mem, best⟩ | ⟨none, -⟩
    · rw [best, earlierOf_earlier (first x mem)]
    · rw [none]
      rfl
  rw [earliestLive_eq, live, List.foldl_append, List.foldl_cons, taken, foldl_earlierOf_keeps later]

/-! ### The ageing of the LIVE queue -/

/-- How long ago a unit's picture was, in house counts (R177). -/
def ageOf (c : Chip) (i : LiveItem) : Nat := (c.timing.count - i.house).toNat

/-- The part after a unit older than the live age limit was dropped (R87, R177). -/
def agedOut (i : LiveItem) (c : Chip) : Chip :=
  settleMember (.liveUnit i.feed i.seq) (dropLive i.feed i.seq c)

theorem ageLive_old {c : Chip} {i : LiveItem} (first : earliestLive c = some i)
    (old : c.sched.ageLimit < ageOf c i) (n : Nat) : ageLive (n + 1) c = ageLive n (agedOut i c) := by
  rw [ageLive, first]
  exact if_pos old

theorem ageLive_young {c : Chip} (young : ∀ i, earliestLive c = some i → ageOf c i ≤ c.sched.ageLimit)
    (n : Nat) : ageLive n c = c := by
  cases n with
  | zero => rfl
  | succ n =>
    rw [ageLive]
    split
    · rfl
    · next i first => exact if_neg (Nat.not_lt.2 (young i first))

section
variable (i : LiveItem) (c : Chip)

theorem agedOut_sched : (agedOut i c).sched =
    { c.sched with live := c.sched.live.filter fun x => !(x.feed == i.feed && x.seq == i.seq) } :=
  settleMember_sched _ _

theorem agedOut_timing : (agedOut i c).timing = c.timing := (settleMember_serveOnly _ _).timing

theorem agedOut_live_sublist : (agedOut i c).sched.live.Sublist c.sched.live := by
  rw [agedOut_sched]
  exact List.filter_sublist

end

theorem agedOut_live_shorter {i : LiveItem} {c : Chip} (mem : i ∈ c.sched.live) :
    (agedOut i c).sched.live.length < c.sched.live.length := by
  rw [agedOut_sched]
  exact List.length_filter_lt_length_iff_exists.2 ⟨i, mem, by simp⟩

/-- Ageing runs through the units to be served: one older than the limit is dropped, and it stops at the first
that is young enough (R177). -/
theorem ageLive_induction {P : Chip → Chip → Prop}
    (stops : ∀ c, (∀ i, earliestLive c = some i → ageOf c i ≤ c.sched.ageLimit) → P c c)
    (drops : ∀ c i d, earliestLive c = some i → c.sched.ageLimit < ageOf c i →
      P (agedOut i c) d → P c d)
    (n : Nat) (c : Chip) (enough : c.sched.live.length ≤ n) : P c (ageLive n c) := by
  by_cases young : ∀ i, earliestLive c = some i → ageOf c i ≤ c.sched.ageLimit
  · rw [ageLive_young young]
    exact stops c young
  · simp only [not_forall, Nat.not_le] at young
    obtain ⟨i, first, old⟩ := young
    have shorter := agedOut_live_shorter (earliestLive_mem first)
    cases n with
    | zero => omega
    | succ n =>
      rw [ageLive_old first old]
      exact drops c i _ first old (ageLive_induction stops drops n _ (by omega))

/-- A unit's live membership has ended (R87). -/
def MemberEnded (f : Fin 8) (seq : Count32) (c : Chip) : Prop :=
  ∀ u ∈ c.rings[f].units, u.complete = true → u.seq = seq → u.live = false

theorem setLive_units (f : Fin 8) (seq : Count32) (b : Bool) (c : Chip) :
    (setLive f seq b c).rings[f].units =
      c.rings[f].units.map fun u => if u.complete && u.seq == seq then { u with live := b } else u :=
  congrArg CodedRing.units (setRing_same _ _ _)

theorem setLive_ends (f : Fin 8) (seq : Count32) (c : Chip) : MemberEnded f seq (setLive f seq false c) := by
  intro u mem complete named
  rw [setLive_units] at mem
  obtain ⟨v, -, rfl⟩ := List.mem_map.1 mem
  split
  · rfl
  · next other =>
    rw [if_neg other] at complete named
    simp [complete, named] at other

/-- The end of a membership brings none back. -/
theorem MemberEnded.setLive {f : Fin 8} {seq : Count32} {c : Chip} (h : MemberEnded f seq c) (g : Fin 8)
    (q : Count32) : MemberEnded f seq (setLive g q false c) := by
  by_cases same : f = g
  · subst same
    intro u changed complete named
    rw [setLive_units] at changed
    obtain ⟨v, mem, rfl⟩ := List.mem_map.1 changed
    split
    · rfl
    · next other =>
      rw [if_neg other] at complete named
      exact h v mem complete named
  · have ring : (Machine.setLive g q false c).rings[f] = c.rings[f] := setRing_other _ _ _ _ same
    rw [MemberEnded, ring]
    exact h

theorem agedOut_ends {i : LiveItem} {c : Chip}
    (none : ∀ r ∈ c.sched.returns, r.item ≠ .liveUnit i.feed i.seq) :
    MemberEnded i.feed i.seq (agedOut i c) := by
  have queue : ((dropLive i.feed i.seq c).sched.live.any fun x => x.feed == i.feed && x.seq == i.seq) =
      false := List.any_eq_false.2 fun x mem => by simpa using (mem_dropLive.1 mem).2
  have returns : ((dropLive i.feed i.seq c).sched.returns.any fun r => r.item == .liveUnit i.feed i.seq) =
      false := List.any_eq_false.2 fun r mem => by simpa using none r mem
  have gone : hasLiveBytes (dropLive i.feed i.seq c) i.feed i.seq = false := by
    rw [hasLiveBytes, queue, returns, Bool.or_false]
  rw [agedOut, settleMember, gone]
  exact setLive_ends _ _ _

theorem MemberEnded.agedOut {f : Fin 8} {seq : Count32} {c : Chip} (h : MemberEnded f seq c)
    (i : LiveItem) : MemberEnded f seq (agedOut i c) := by
  have dropped : MemberEnded f seq (dropLive i.feed i.seq c) := h
  rw [Machine.agedOut, settleMember]
  split
  · exact dropped
  · exact dropped.setLive _ _

/-- What ageing makes of the LIVE queue: the unit to be served is young enough, and of units with distinct
names exactly old ones leave, their membership ended when none of their bytes were returned (R87, R177). -/
structure AgedTo (c d : Chip) : Prop where
  sched : d.sched = { c.sched with live := d.sched.live }
  sublist : d.sched.live.Sublist c.sched.live
  young : ∀ i, earliestLive d = some i → ageOf c i ≤ c.sched.ageLimit
  keeps : ∀ f seq, MemberEnded f seq c → MemberEnded f seq d
  old : (c.sched.live.map fun i => (i.feed, i.seq)).Nodup → ∀ i ∈ c.sched.live, i ∉ d.sched.live →
    c.sched.ageLimit < ageOf c i
  ended : (c.sched.live.map fun i => (i.feed, i.seq)).Nodup → ∀ i ∈ c.sched.live, i ∉ d.sched.live →
    (∀ r ∈ c.sched.returns, r.item ≠ .liveUnit i.feed i.seq) → MemberEnded i.feed i.seq d

/-- A unit that left when `j` aged is `j` itself. -/
theorem agedOut_live_only {c : Chip} {i j : LiveItem}
    (once : (c.sched.live.map fun i => (i.feed, i.seq)).Nodup) (hj : j ∈ c.sched.live)
    (hi : i ∈ c.sched.live)
    (left : i ∉ (agedOut j c).sched.live) : i = j := by
  have dropped : i ∉ (dropLive j.feed j.seq c).sched.live := by
    rwa [agedOut, settleMember_sched] at left
  obtain ⟨feed, seq⟩ : i.feed = j.feed ∧ i.seq = j.seq :=
    not_not.1 fun other => dropped (mem_dropLive.2 ⟨hi, other⟩)
  exact List.inj_on_of_nodup_map once hi hj (Prod.ext feed seq)

/-- One unit more aged out. -/
theorem AgedTo.drop {c d : Chip} {j : LiveItem} (first : earliestLive c = some j)
    (old : c.sched.ageLimit < ageOf c j) (h : AgedTo (agedOut j c) d) : AgedTo c d := by
  have mem := earliestLive_mem first
  have less := agedOut_live_sublist j c
  have limit : (agedOut j c).sched.ageLimit = c.sched.ageLimit := by rw [agedOut_sched]
  have returns : (agedOut j c).sched.returns = c.sched.returns := by rw [agedOut_sched]
  have age : ageOf (agedOut j c) = ageOf c := funext fun i => by rw [ageOf, agedOut_timing, ageOf]
  constructor
  case sched => rw [h.sched, agedOut_sched]
  case sublist => exact h.sublist.trans less
  case young => rw [← age, ← limit]; exact h.young
  case keeps => exact fun f seq ended => h.keeps f seq (ended.agedOut j)
  case old =>
    intro once i hi left
    by_cases stays : i ∈ (agedOut j c).sched.live
    · rw [← age, ← limit]
      exact h.old (once.sublist (less.map _)) i stays left
    · rw [agedOut_live_only once mem hi stays]
      exact old
  case ended =>
    intro once i hi left none
    by_cases stays : i ∈ (agedOut j c).sched.live
    · exact h.ended (once.sublist (less.map _)) i stays left (by rw [returns]; exact none)
    · obtain rfl : i = j := agedOut_live_only once mem hi stays
      exact h.keeps _ _ (agedOut_ends none)

theorem ageLive_agedTo (n : Nat) (c : Chip) (enough : c.sched.live.length ≤ n) :
    AgedTo c (ageLive n c) :=
  ageLive_induction
    (fun _ young => ⟨rfl, .refl _, young, fun _ _ h => h, fun _ _ mem left => absurd mem left,
      fun _ _ mem left => absurd mem left⟩)
    (fun _ _ _ first old h => h.drop first old) n c enough

/-- Settles O58: the two commands by their checks, the closings by the stack, the ageing by its runs. -/
theorem uplinkCommands : Obligations.UplinkCommands := by
  refine ⟨fun h headroom share age notify len s taken => ?settings, fun h code s taken => ?signal,
    fun among c reached meets => ?maxLength, fun n reason above below c d once stack result => ?stack,
    fun c => ⟨earliestLive_none_iff c, fun before i after => earliestLive_first⟩,
    fun c d result => ?ageing⟩
  case settings =>
    have settings := exec_concluded (k := 0x52) (v := uplinkSet headroom share age notify len) taken rfl
    refine ⟨fun bad => ?_, fun on hLow hHigh sHigh aLow aHigh flag lLow lHigh below => ?_,
      fun on hLow hHigh sHigh aLow aHigh flag lLow lHigh => ?_⟩
    · rw [settings, uplinkSet_badArg _ bad, conclude_refused]
    · rw [settings, uplinkSet_quiet _ ⟨hLow, hHigh, sHigh, aLow, aHigh, lLow, lHigh⟩ flag below,
        conclude_done]
      rfl
    · rw [settings, uplinkSet_done _ ⟨hLow, hHigh, sHigh, aLow, aHigh, lLow, lHigh⟩ flag, conclude_done]
      rfl
  case signal =>
    have signal := exec_concluded (k := 0x53) (v := homeSignal code) taken rfl
    refine ⟨fun bad => ?_, fun range room => ?_, fun range full => ?_⟩
    · rw [signal, show homeSignal code s.chip = .refused .badArg from if_pos bad, conclude_refused]
    · rw [signal, homeSignal_queued range room, conclude_done]
    · rw [signal, homeSignal_dropped range full, conclude_done]
  case maxLength =>
    have iff : ∀ k, reached k ↔ reachedMax c among k = true := fun k => by rw [meets, reachedMax_iff]
    simp only [iff, Bool.not_eq_true]
    exact ⟨closeAtMax_below, fun n above below k => closeAtMax_stacked, fun f => closeAutoAtMax_below,
      fun f k => closeAutoAtMax_reached⟩
  case stack =>
    have log := (closeStackTo_closings n reason c c.tally.stack).log
    rw [← result] at log
    have fresh : n ∉ above := fun mem => List.disjoint_of_nodup_append once mem List.mem_cons_self
    rw [stack] at result
    refine ⟨?_, log.rings, log.feeds, log.paths, fun numbers => ?_⟩
    · rw [result, closeStackTo_tally _ _ _ fresh]
    · rw [result, closeStackTo_list _ _ _ once numbers]
  case ageing =>
    subst result
    have aged := ageLive_agedTo c.sched.live.length c (Nat.le_refl _)
    exact ⟨aged.sched, ageLive_paths _ c, aged.sublist, aged.young, fun once i mem left =>
      ⟨aged.old once i mem left, aged.ended once i mem left⟩⟩

end Sys2Proof.Machine
end

section
/-! SUPPORT. The gathering and firing of the sound mixer's blocks (R95, R98 to R101, R103, R113). -/

namespace Sys2Proof.Machine

/-! ### What an AUDIO_IN write may change -/

/-- `d` is `c` but for the mixer, the command unit, the own-write buffer and the arbiter's state. -/
structure MixerOnly (c d : Chip) : Prop where
  same : d =
    { c with
      mem.buffer := d.mem.buffer, mem.alternating := d.mem.alternating, cmd := d.cmd, mixer := d.mixer }

theorem MixerOnly.refl (c : Chip) : MixerOnly c c := ⟨rfl⟩

theorem MixerOnly.trans {a b c : Chip} (h : MixerOnly a b) (k : MixerOnly b c) : MixerOnly a c :=
  ⟨by rw [k.same, h.same]⟩

theorem CommandOnly.mixerOnly {c d : Chip} (h : CommandOnly c d) : MixerOnly c d := ⟨by rw [h.same]⟩

theorem MixerOnly.sched {c d : Chip} (h : MixerOnly c d) : d.sched = c.sched := by rw [h.same]
theorem MixerOnly.paths {c d : Chip} (h : MixerOnly c d) : d.paths = c.paths := by rw [h.same]

/-! ### The pending recall -/

/-- The part with a pending recall's settings in force, before its command completes (R113). -/
def recalled (c : Chip) : Chip :=
  match c.mixer.recalling with
  | none => c
  | some r => applyScene r.scene { c with mixer.recalling := none }

theorem recalled_none {c : Chip} (h : c.mixer.recalling = none) : recalled c = c := by
  rw [recalled, h]

theorem recalled_some {c : Chip} {r : Recall} (h : c.mixer.recalling = some r) :
    recalled c = applyScene r.scene { c with mixer.recalling := none } := by
  rw [recalled, h]

theorem applyRecall_none {c : Chip} (h : c.mixer.recalling = none) : applyRecall c = c := by
  rw [applyRecall, h]

/-- Applied, a recall ends the command that asked for it (R113). -/
theorem applyRecall_some {c : Chip} {r : Recall} (h : c.mixer.recalling = some r) :
    applyRecall c = if r.fromCommand then finishObject .mixerRecall [] (recalled c) else recalled c := by
  rw [applyRecall, recalled, h]

/-- Beside the new settings, a recall applied concerns the command unit alone (R113). -/
theorem applyRecall_command (c : Chip) : CommandOnly (recalled c) (applyRecall c) := by
  cases pending : c.mixer.recalling with
  | none =>
    rw [applyRecall_none pending, recalled_none pending]
    exact .refl c
  | some r =>
    rw [applyRecall_some pending]
    split
    · exact finishObject_command _ _ _
    · exact .refl _

theorem recalled_mixerOnly (c : Chip) : MixerOnly c (recalled c) := by
  unfold recalled
  split <;> exact ⟨rfl⟩

theorem recalled_recalling (c : Chip) : (recalled c).mixer.recalling = none := by
  unfold recalled
  split
  · assumption
  · rfl

theorem recalled_buf (c : Chip) : (recalled c).mixer.buf = c.mixer.buf := by
  unfold recalled
  split <;> rfl

theorem recalled_fireQ (c : Chip) : (recalled c).mixer.fireQ = c.mixer.fireQ := by
  unfold recalled
  split <;> rfl

theorem applyRecall_buf (c : Chip) : (applyRecall c).mixer.buf = c.mixer.buf := by
  rw [(applyRecall_command c).mixer, recalled_buf]

/-! ### A block that fires -/

/-- Presence decided concerns the starved inputs and a report at most (R101). -/
theorem updatePresence_reportOnly (n : Count32) (now : BitVec 32) (c : Chip) :
    ReportOnly { c with mixer.starved := now } (updatePresence n now c) := by
  unfold updatePresence
  dsimp only
  split
  · exact .refl _
  · exact askReport_reportOnly _ _ _

/-- The part at a firing, the recall applied and presence decided (R101, R113). -/
def presenceDecided (n : Count32) (c : Chip) : Chip :=
  updatePresence n (starvedInputs (applyRecall c).mixer.buf) (applyRecall c)

/-- The fired block as it stands after presence is decided (R100, R101, R103). -/
def firedFrom (n : Count32) (kind : FireKind) (starved : BitVec 32) (c : Chip) : FiredBlock where
  number := n
  kind := kind
  buf := c.mixer.buf
  house := c.timing.count
  steps := effectiveSteps c.mixer c.tally.feeds
  starved := starved
  outBase := ((findWindow c .mixOut none).map (·.base)).getD 0
  last := false

/-- A fired block joins the fire queue, its mix beginning at once on an empty one; with two there it is
discarded MIX_LATE (R100). -/
def queueBlock (b : FiredBlock) (c : Chip) : Chip :=
  match c.mixer.fireQ with
  | [] => beginMix { c with mixer.fireQ := [b] }
  | q =>
    if q.length < Config.fireQueueLimit then { c with mixer.fireQ := q ++ [b] }
    else askReport .audio (reportBody 2 (le32 b.number)) c

section
variable (b : FiredBlock) (c : Chip)

theorem beginMix_mixerOnly : MixerOnly c (beginMix c) := by
  unfold beginMix
  split <;> exact ⟨rfl⟩

theorem beginMix_gathering : (beginMix c).mixer.buf = c.mixer.buf ∧
    (beginMix c).mixer.recalling = c.mixer.recalling := by
  unfold beginMix
  split <;> exact ⟨rfl, rfl⟩

theorem queueBlock_mixerOnly : MixerOnly c (queueBlock b c) := by
  unfold queueBlock
  split
  · exact MixerOnly.trans ⟨rfl⟩ (beginMix_mixerOnly _)
  · split
    · exact ⟨rfl⟩
    · exact (askReport_reportOnly _ _ _).command.mixerOnly

/-- The queue takes the lines gathered and the pending recall as they are. -/
theorem queueBlock_gathering : (queueBlock b c).mixer.buf = c.mixer.buf ∧
    (queueBlock b c).mixer.recalling = c.mixer.recalling := by
  unfold queueBlock
  split
  · exact beginMix_gathering _
  · split
    · exact ⟨rfl, rfl⟩
    · rw [(askReport_reportOnly _ _ _).mixer]
      exact ⟨rfl, rfl⟩

/-- With fewer than two blocks in the queue, the fired one is its last (R100). -/
theorem queueBlock_joins (h : c.mixer.fireQ.length < 2) :
    (queueBlock b c).mixer.fireQ = c.mixer.fireQ ++ [b] := by
  unfold queueBlock
  split
  · next e =>
    rw [beginMix_fireQ, e]
    rfl
  · rw [if_pos (by exact h)]

/-- With two, it is discarded and MIX_LATE asked for (R100). -/
theorem queueBlock_late (h : 2 ≤ c.mixer.fireQ.length) :
    queueBlock b c = askReport .audio (reportBody 2 (le32 b.number)) c := by
  unfold queueBlock
  split
  · next e =>
    rw [e] at h
    exact absurd h (by decide)
  · exact if_neg (Nat.not_lt.2 h)

end

section
variable (n : Count32) (kind : FireKind) (c : Chip)

theorem presenceDecided_command : CommandOnly
    { recalled c with mixer.starved := starvedInputs c.mixer.buf } (presenceDecided n c) := by
  have applied := applyRecall_command c
  have report := (updatePresence_reportOnly n (starvedInputs c.mixer.buf) (applyRecall c)).command
  unfold presenceDecided
  rw [applyRecall_buf]
  exact CommandOnly.trans (b := { applyRecall c with mixer.starved := starvedInputs c.mixer.buf })
    ⟨by rw [applied.same]⟩ report

theorem presenceDecided_mixer : (presenceDecided n c).mixer =
    { (recalled c).mixer with starved := starvedInputs c.mixer.buf } := (presenceDecided_command n c).mixer

theorem presenceDecided_mixerOnly : MixerOnly c (presenceDecided n c) :=
  ((recalled_mixerOnly c).trans (c := { recalled c with mixer.starved := starvedInputs c.mixer.buf })
    ⟨rfl⟩).trans (presenceDecided_command n c).mixerOnly

/-- The fire queue of the part at a firing is still the one before (R100). -/
theorem presenceDecided_fireQ : (presenceDecided n c).mixer.fireQ = c.mixer.fireQ := by
  rw [presenceDecided_mixer]
  exact recalled_fireQ c

theorem presenceDecided_buf : (presenceDecided n c).mixer.buf = c.mixer.buf := by
  rw [presenceDecided_mixer]
  exact recalled_buf c

/-- A firing in its three parts (R98 to R101, R113). -/
theorem fireBlock_eq : fireBlock n kind c =
    queueBlock (firedFrom n kind (starvedInputs c.mixer.buf) (presenceDecided n c))
      { presenceDecided n c with mixer.buf := [] } := by
  rw [← applyRecall_buf c]
  rfl

/-- What a firing does: `d` is `c` after its gathered block fired as block `n` (R98 to R101, R103, R113). -/
structure Fired (n : Count32) (kind : FireKind) (c d : Chip) : Prop where
  only : MixerOnly c d
  buf : d.mixer.buf = []
  recalling : d.mixer.recalling = none
  fires : BlockFires c n kind c.mixer.buf d.mixer.fireQ
  late : 2 ≤ c.mixer.fireQ.length → d.cmd.pendingSet.getLsbD 4 = true

theorem firedFrom_house (starved : BitVec 32) :
    (firedFrom n kind starved (presenceDecided n c)).house = c.timing.count := by
  rw [firedFrom, (presenceDecided_mixerOnly n c).same]

/-- With no recall pending, the steps are those of the settings before the firing (R103). -/
theorem firedFrom_steps (starved : BitVec 32) (none : c.mixer.recalling = none) :
    (firedFrom n kind starved (presenceDecided n c)).steps = effectiveSteps c.mixer c.tally.feeds := by
  rw [firedFrom, presenceDecided_mixer, recalled_none none, (presenceDecided_mixerOnly n c).same]
  rfl

theorem fireBlock_fired : Fired n kind c (fireBlock n kind c) := by
  have fireQ := presenceDecided_fireQ n c
  have cleared : MixerOnly c { presenceDecided n c with mixer.buf := [] } :=
    (presenceDecided_mixerOnly n c).trans ⟨rfl⟩
  rw [fireBlock_eq]
  obtain ⟨buf, recalling⟩ := queueBlock_gathering
    (firedFrom n kind (starvedInputs c.mixer.buf) (presenceDecided n c))
    { presenceDecided n c with mixer.buf := [] }
  refine ⟨cleared.trans (queueBlock_mixerOnly _ _), buf, recalling.trans ?_, ⟨fun two => ?_, fun room => ?_⟩,
    fun two => ?_⟩
  · dsimp only
    rw [presenceDecided_mixer]
    exact recalled_recalling c
  · rw [queueBlock_late _ _ (by rw [fireQ]; exact two), (askReport_reportOnly _ _ _).mixer]
    exact fireQ
  · rw [queueBlock_joins _ _ (by rw [fireQ]; exact room)]
    exact ⟨firedFrom n kind (starvedInputs c.mixer.buf) (presenceDecided n c), by rw [fireQ], rfl, rfl,
      presenceDecided_buf n c, firedFrom_house n kind c _, rfl, firedFrom_steps n kind c _⟩
  · rw [queueBlock_late _ _ (by rw [fireQ]; exact two)]
    exact askReport_pending (x := .audio) rfl _ _

end

/-! ### Lines gathered -/

section
variable {n : Count32} {o : Nat} {data : Line} {mask : Mask} {c : Chip}

/-- A line that is not the block's last is stored (R95). -/
theorem gatherLine_stores (h : (storeLine c.mixer.buf o data mask).length < 96) :
    gatherLine n o data mask c = { c with mixer.buf := storeLine c.mixer.buf o data mask } :=
  if_neg (Nat.not_le.2 h)

/-- The 96th line fires the block COMPLETE (R98). -/
theorem gatherLine_fires (h : 96 ≤ (storeLine c.mixer.buf o data mask).length) :
    gatherLine n o data mask c =
      { fireBlock n .complete { c with mixer.buf := storeLine c.mixer.buf o data mask } with
        mixer.block := .fired n } := if_pos h

/-- The part with block `n` begun by a line at `o` (R98). -/
def blockBegun (n : Count32) (o : Nat) (data : Line) (mask : Mask) (c : Chip) : Chip :=
  { c with mixer.block := .gathering n, mixer.buf := [(o, mergeLine zeroLine data mask)] }

/-- A block's first line is never its last (R98). -/
theorem startBlock_eq (n : Count32) (o : Nat) (data : Line) (mask : Mask) (c : Chip) :
    startBlock n o data mask c = blockBegun n o data mask c := by
  unfold startBlock
  exact gatherLine_stores (show 1 < 96 by decide)

theorem gatherLine_mixerOnly (n : Count32) (o : Nat) (data : Line) (mask : Mask) (c : Chip) :
    MixerOnly c (gatherLine n o data mask c) := by
  rcases Nat.lt_or_ge (storeLine c.mixer.buf o data mask).length 96 with short | full
  · rw [gatherLine_stores short]
    exact ⟨rfl⟩
  · rw [gatherLine_fires full]
    exact (MixerOnly.trans ⟨rfl⟩ (fireBlock_fired _ _ _).only).trans ⟨rfl⟩

theorem blockBegun_mixerOnly (n : Count32) (o : Nat) (data : Line) (mask : Mask) (c : Chip) :
    MixerOnly c (blockBegun n o data mask c) := ⟨rfl⟩

/-- RESYNC is asked for from block `n` to the one `k` slots on (R99). -/
def resyncAsked (n : Count32) (k : Nat) (c : Chip) : Chip :=
  askReport .audio (reportBody 1 (le32 n ++ le32 (n + BitVec.ofNat 32 k) ++ [byteOf (k - 1)])) c

theorem resyncAsked_reportOnly (n : Count32) (k : Nat) (c : Chip) : ReportOnly c (resyncAsked n k c) :=
  askReport_reportOnly _ _ _

theorem resync_eq (n : Count32) (k o : Nat) (data : Line) (mask : Mask) (c : Chip) :
    resync n k o data mask c =
      blockBegun (n + BitVec.ofNat 32 k) o data mask (resyncAsked n k c) := startBlock_eq _ _ _ _ _

/-! ### The tap, by the slot's distance from the current block -/

/-- A slot's distance from the current block, 0 to 15 (R98). -/
def slotDistance (slot : Nat) (n : Count32) : Nat := (slot + 16 - n.toNat % 16) % 16

theorem slotDistance_eq {slot k : Nat} (h : slot = (n.toNat + k) % 16) (small : k < 16) :
    slotDistance slot n = k := by
  unfold slotDistance
  omega

/-- The slot before the current block's stands 15 on (R98). -/
theorem slotDistance_before {slot : Nat} (h : slot < 16) (before : (slot + 1) % 16 = n.toNat % 16) :
    slotDistance slot n = 15 := by
  unfold slotDistance
  omega

variable {offset : Nat}

theorem audioTap_stopped (h : c.mixer.running = false) : audioTap offset data mask c = c := by
  simp [audioTap, h]

section
variable (running : c.mixer.running = true)
include running

theorem audioTap_waiting (block : c.mixer.block = .waiting) : audioTap offset data mask c =
    blockBegun (BitVec.ofNat 32 (offset / 96)) (offset % 96) data mask c := by
  simp [audioTap, running, block, startBlock_eq]

theorem audioTap_gathering (block : c.mixer.block = .gathering n) : audioTap offset data mask c =
    if slotDistance (offset / 96) n = 0 then gatherLine n (offset % 96) data mask c
    else if slotDistance (offset / 96) n = 1 then
      blockBegun (n + 1) (offset % 96) data mask (fireBlock n .next c)
    else if slotDistance (offset / 96) n = 15 then c
    else
      blockBegun (n + BitVec.ofNat 32 (slotDistance (offset / 96) n)) (offset % 96) data mask
        (resyncAsked n (slotDistance (offset / 96) n) (fireBlock n .stray c)) := by
  simp only [audioTap, running, block, startBlock_eq, resync_eq]
  rfl

theorem audioTap_fired (block : c.mixer.block = .fired n) : audioTap offset data mask c =
    if slotDistance (offset / 96) n = 1 then blockBegun (n + 1) (offset % 96) data mask c
    else if slotDistance (offset / 96) n = 0 ∨ slotDistance (offset / 96) n = 15 then c
    else
      blockBegun (n + BitVec.ofNat 32 (slotDistance (offset / 96) n)) (offset % 96) data mask
        (resyncAsked n (slotDistance (offset / 96) n) c) := by
  simp only [audioTap, running, block, startBlock_eq, resync_eq]
  rfl

end

/-- A RESYNC asked for after a firing leaves the firing as it was (R99). -/
theorem Fired.thenResync {kind : FireKind} {d : Chip} (h : Fired n kind c d) (m : Count32) (k : Nat) :
    Fired n kind c (resyncAsked m k d) := by
  have report := resyncAsked_reportOnly m k d
  refine ⟨h.only.trans report.command.mixerOnly, ?_, ?_, ?_, fun two => ?_⟩
  · rw [report.mixer, h.buf]
  · rw [report.mixer, h.recalling]
  · rw [report.mixer]
    exact h.fires
  · exact askReport_keeps_pending _ _ _ 4 (h.late two)

/-- The part with block `n` fired by a line `k` slots on, RESYNC asked for if the line is stray (R98, R99). -/
def blockMoved (n : Count32) (k : Nat) (c : Chip) : Chip :=
  if k = 1 then fireBlock n .next c else resyncAsked n k (fireBlock n .stray c)

theorem blockMoved_fired (n : Count32) (k : Nat) (c : Chip) :
    Fired n (if k = 1 then .next else .stray) c (blockMoved n k c) := by
  unfold blockMoved
  split
  · exact fireBlock_fired _ _ _
  · exact (fireBlock_fired _ _ _).thenResync _ _

/-- Cause AUDIO is pending after a stray line, and after a firing that finds two blocks queued (R99, R100). -/
theorem blockMoved_pending {k : Nat} (h : 2 ≤ k ∨ 2 ≤ c.mixer.fireQ.length) :
    (blockMoved n k c).cmd.pendingSet.getLsbD 4 = true := by
  rcases h with stray | two
  · rw [blockMoved, if_neg (by omega)]
    exact askReport_pending (x := .audio) rfl _ _
  · exact (blockMoved_fired n k c).late two

/-- A line 1 to 14 slots on fires the block gathered and begins another (R98, R99). -/
theorem audioTap_moves {k : Nat} (running : c.mixer.running = true) (block : c.mixer.block = .gathering n)
    (dist : slotDistance (offset / 96) n = k) (low : 1 ≤ k) (high : k ≤ 14) :
    audioTap offset data mask c =
      blockBegun (n + BitVec.ofNat 32 k) (offset % 96) data mask (blockMoved n k c) := by
  rw [audioTap_gathering running block, dist, if_neg (by omega), blockMoved]
  by_cases one : k = 1
  · rw [if_pos one, if_pos one, one]
    rfl
  · rw [if_neg one, if_neg one, if_neg (by omega)]

theorem audioTap_mixerOnly (offset : Nat) (data : Line) (mask : Mask) (c : Chip) :
    MixerOnly c (audioTap offset data mask c) := by
  cases running : c.mixer.running with
  | false =>
    rw [audioTap_stopped running]
    exact .refl c
  | true =>
    cases block : c.mixer.block with
    | waiting =>
      rw [audioTap_waiting running block]
      exact blockBegun_mixerOnly _ _ _ _ _
    | gathering n =>
      rw [audioTap_gathering running block]
      split_ifs
      · exact gatherLine_mixerOnly _ _ _ _ _
      · exact (fireBlock_fired _ _ _).only.trans (blockBegun_mixerOnly _ _ _ _ _)
      · exact .refl c
      · exact ((fireBlock_fired _ _ _).thenResync _ _).only.trans (blockBegun_mixerOnly _ _ _ _ _)
    | fired n =>
      rw [audioTap_fired running block]
      split_ifs
      · exact blockBegun_mixerOnly _ _ _ _ _
      · exact .refl c
      · exact (resyncAsked_reportOnly _ _ _).command.mixerOnly.trans (blockBegun_mixerOnly _ _ _ _ _)

end

/-! ### The host's write -/

/-- A write into the AUDIO_IN window is forwarded and tapped, and nothing is served (R1, R95, R176). -/
theorem exec_audioWrite {addr : BitVec 36} {data : Line} {mask : Mask} {s : State} {e : Fin 24} {w : Window}
    (held : s.chip.resetHeld = false) (nonempty : mask ≠ 0)
    (window : classify s.chip (lineAddr addr) = some (e, w)) (kind : w.kind = .audioIn) :
    exec (.hostWrite addr data mask) s =
      .next { s with
        chip := audioTap (lineOffset w (lineAddr addr)) data mask
          (forward (.write (lineAddr addr) data mask) s.chip) } := by
  have only := audioTap_mixerOnly (lineOffset w (lineAddr addr)) data mask
    (forward (.write (lineAddr addr) data mask) s.chip)
  have tap : writeTap e w (lineAddr addr) data mask (s.passed addr data mask) =
      { s with
        chip := audioTap (lineOffset w (lineAddr addr)) data mask
          (forward (.write (lineAddr addr) data mask) s.chip) } := by
    unfold writeTap
    rw [kind]
    rfl
  refine Eq.trans (congrArg Host.Outcome.next ?_) (next_unserved only.sched only.paths)
  rw [hostWrite_tapped held window nonempty, if_neg (by rw [kind]; decide), tap]

/-- Settles O32, by the block state and the slot's distance from the current block. -/
theorem audioWrites : Obligations.AudioWrites := by
  intro addr data mask s e w held nonempty window kind slot o d first hs ho hd hf
  subst hs ho hd hf
  rw [exec_audioWrite held nonempty window kind]
  refine ⟨fun stopped => ?stopped, fun running => ⟨fun block => ?waiting, fun n block same =>
    ⟨fun short => ?stores, fun full => ?completes⟩, fun n k block low high on => ?moves,
    fun n block on => ?follows, fun n k block low high on => ?strays, fun n block same => ?again,
    fun n block small before => ?before⟩⟩
  case stopped => rw [audioTap_stopped (by exact stopped)]
  case waiting =>
    rw [audioTap_waiting (by exact running) (by exact block)]
    rfl
  case stores =>
    rw [audioTap_gathering (by exact running) (by exact block),
      if_pos (slotDistance_eq (k := 0) same (by decide)), gatherLine_stores (by exact short)]
    rfl
  case completes =>
    refine ⟨_, rfl, rfl, ?_⟩
    dsimp only
    rw [audioTap_gathering (by exact running) (by exact block),
      if_pos (slotDistance_eq (k := 0) same (by decide)), gatherLine_fires (by exact full)]
    have fired := fireBlock_fired n .complete { forward (.write (lineAddr addr) data mask) s.chip with
      mixer.buf := storeLine s.chip.mixer.buf (lineOffset w (lineAddr addr) % 96) data mask }
    exact ⟨rfl, fired.buf, fired.fires, fired.recalling, fired.late⟩
  case moves =>
    refine ⟨_, rfl, rfl, rfl, ?_⟩
    dsimp only
    rw [audioTap_moves (by exact running) (by exact block) (slotDistance_eq on (by omega)) low high]
    have fired := blockMoved_fired n k (forward (.write (lineAddr addr) data mask) s.chip)
    exact ⟨rfl, rfl, fired.fires, fired.recalling,
      blockMoved_pending (c := forward (.write (lineAddr addr) data mask) s.chip)⟩
  case follows =>
    rw [audioTap_fired (by exact running) (by exact block), if_pos (slotDistance_eq on (by decide))]
    rfl
  case strays =>
    rw [audioTap_fired (by exact running) (by exact block), slotDistance_eq on (by omega), if_neg (by omega),
      if_neg (by omega)]
    rfl
  case again =>
    rw [audioTap_fired (by exact running) (by exact block), slotDistance_eq (k := 0) same (by decide),
      if_neg (by decide), if_pos (.inl rfl)]
  case before =>
    have dist := slotDistance_before small before
    rcases block with gathering | fired
    · rw [audioTap_gathering (by exact running) (by exact gathering), dist]
      rfl
    · rw [audioTap_fired (by exact running) (by exact fired), dist]
      rfl

end Sys2Proof.Machine
end

section
/-! SUPPORT. The rounding of leg samples, and the sound mixer's commands (R96, R97, R105, R109 to R113). -/

namespace Sys2Proof.Machine

/-! ### Leg samples -/

/-- The remainder decides the rounding: down below the tie, up above it, to the even one at it (R105). -/
theorem roundSample_cases (a : Int) :
    a % 32768 < 16384 ∧ roundSample a = a / 32768 ∨
      16384 < a % 32768 ∧ roundSample a = a / 32768 + 1 ∨
      a % 32768 = 16384 ∧ roundSample a % 2 = 0 ∧
        (roundSample a = a / 32768 ∨ roundSample a = a / 32768 + 1) := by
  unfold roundSample
  dsimp only
  split_ifs with below above even
  · exact .inl ⟨below, rfl⟩
  · exact .inr (.inl ⟨above, rfl⟩)
  · exact .inr (.inr ⟨by omega, even, .inl rfl⟩)
  · exact .inr (.inr ⟨by omega, by omega, .inr rfl⟩)

theorem roundSample_nearest (a : Int) : 2 * (a - roundSample a * 32768).natAbs ≤ 32768 := by
  rcases roundSample_cases a with ⟨_, y⟩ | ⟨_, y⟩ | ⟨_, _, y | y⟩ <;> omega

theorem roundSample_tie (a : Int) (tie : 2 * (a - roundSample a * 32768).natAbs = 32768) :
    roundSample a % 2 = 0 := by
  rcases roundSample_cases a with ⟨_, y⟩ | ⟨_, y⟩ | ⟨_, even, _⟩
  · omega
  · omega
  · exact even

theorem mixedSample_saturated (a : Int) : (mixedSample a).saturated = true ↔
    roundSample a < -8388608 ∨ 8388607 < roundSample a := by
  rw [mixedSample, Bool.or_eq_true, decide_eq_true_iff, decide_eq_true_iff]
  rfl

/-- A sample is its rounded sum brought into the range (R105). -/
theorem mixedSample_value (a : Int) :
    (mixedSample a).value = max (-8388608) (min 8388607 (roundSample a)) := rfl

/-- Settles O31. -/
theorem legSampleRounding : Obligations.LegSampleRounding := by
  intro a
  have saturated := mixedSample_saturated a
  have value := mixedSample_value a
  refine ⟨roundSample_nearest a, roundSample_tie a, bne_iff_ne, decide_eq_true_iff, saturated, ?_, ?_,
    fun inside => ?_⟩
  · omega
  · omega
  · rw [inside] at saturated
    have := mt saturated.2 Bool.false_ne_true
    omega

/-! ### Settings -/

section
variable {c : Chip}

theorem inputSet_done {input fader afv depth : Byte} {i : Fin 32} {a : Option (Fin 8)}
    (hi : index32 input = some i) (ha : afvOf afv = some a) (hf : fader.toNat ≤ 63)
    (hd : depth.toNat ≤ 63) :
    inputSet input fader afv depth c = .completed .done []
      (changeCopy
        (fun x => { x with
          inputs := x.inputs.set i { fader := fader.toNat, afv := a, depth := depth.toNat } })
        { c with
          mixer.inputs := c.mixer.inputs.set i
            { fader := fader.toNat, afv := a, depth := depth.toNat } }) := by
  unfold inputSet
  rw [hi, ha]
  exact if_neg (by omega)

theorem sendSet_done {input leg level : Byte} {i : Fin 32} {l : Fin 8} (hi : index32 input = some i)
    (hl : index8 leg = some l) (hg : level.toNat ≤ 63) :
    sendSet input leg level c = .completed .done []
      (changeCopy (fun x => { x with sends := setStep x.sends i l level.toNat })
        { c with mixer.sends := setStep c.mixer.sends i l level.toNat }) := by
  unfold sendSet
  rw [hi, hl]
  exact if_neg (by omega)

section
variable {leg master uplink alarm : Byte} {l : Fin 8} {u a : Bool} (hl : index8 leg = some l)
  (hu : flagOf uplink = some u) (ha : flagOf alarm = some a) (hm : master.toNat ≤ 63)
include hl hu ha hm

/-- A fifth uplinked leg is refused (R110). -/
theorem legSet_limit (on : u = true) (off : c.mixer.legs[l].uplink = false)
    (four : 4 ≤ (uplinkLegs c.mixer).length) :
    legSet leg master uplink alarm c = .refused .limit := by
  unfold legSet
  rw [hl, hu, ha]
  dsimp only
  rw [if_neg (by omega), on, off]
  exact if_pos (decide_eq_true four)

theorem legSet_done
    (room : u = false ∨ c.mixer.legs[l].uplink = true ∨ (uplinkLegs c.mixer).length < 4) :
    legSet leg master uplink alarm c = .completed .done []
      (changeCopy (fun x => { x with legs := x.legs.set l (master.toNat, a) })
        { c with
          mixer.legs := c.mixer.legs.set l
            { setLegAlarm c.mixer.legs[l] master.toNat a with uplink := u } }) := by
  have fits : ¬(u && !c.mixer.legs[l].uplink &&
      decide (Config.uplinkLegLimit ≤ (uplinkLegs c.mixer).length)) = true := by
    rw [Bool.and_eq_true, Bool.and_eq_true, Bool.not_eq_true', decide_eq_true_iff]
    rintro ⟨⟨on, off⟩, four⟩
    rcases room with off' | on' | few
    · exact Bool.false_ne_true (off'.symm.trans on)
    · exact Bool.false_ne_true (off.symm.trans on')
    · exact Nat.not_lt.2 four few
  unfold legSet
  rw [hl, hu, ha]
  dsimp only
  rw [if_neg (by omega), if_neg fits]

end

end

/-- Settles O33. -/
theorem mixerSettings : Obligations.MixerSettings := by
  refine ⟨fun h input fader afv depth s i a r taken hi ha hf hd hr => ?input,
    fun h input leg level s i l taken hi hl hg => ?send,
    fun h leg master uplink alarm s l u a taken hl hu ha hm =>
      ⟨fun on off four => ?limit, fun room => ?leg⟩⟩
  case input =>
    subst hr
    rw [exec_concluded (v := inputSet input fader afv depth) taken rfl, inputSet_done hi ha hf hd,
      conclude_done]
    rfl
  case send =>
    rw [exec_concluded (v := sendSet input leg level) taken rfl, sendSet_done hi hl hg, conclude_done]
    rfl
  case limit =>
    rw [exec_concluded (v := legSet leg master uplink alarm) taken rfl, legSet_limit hl hu ha hm on off four,
      conclude_refused]
  case leg =>
    rw [exec_concluded (v := legSet leg master uplink alarm) taken rfl, legSet_done hl hu ha hm room,
      conclude_done]
    rfl

/-! ### Scenes and latches -/

theorem sceneSave_done {slot : Byte} {n : Fin 8} {c : Chip} (hn : index8 slot = some n) :
    sceneSave slot c = .completed .done []
      { c with mixer.scenes := c.mixer.scenes.set n (some (currentScene c.mixer)) } := by
  rw [sceneSave, hn]

theorem sceneSave_noSlot {slot : Byte} {c : Chip} (hn : index8 slot = none) :
    sceneSave slot c = .refused .badArg := by
  rw [sceneSave, hn]

/-- Settles O34. -/
theorem sceneSaveCopies : Obligations.SceneSaveCopies := by
  refine fun h slot s taken => ⟨fun above => ?_, fun n named => ?_⟩
  · rw [exec_concluded (v := sceneSave slot) taken rfl, sceneSave_noSlot (index8_none above),
      conclude_refused]
  · rw [exec_concluded (v := sceneSave slot) taken rfl, sceneSave_done (index8_some named), conclude_done]
    rfl

/-- A leg's record after a scene: its uplink flag stays, an alarm turned off clears the latch (R109, R113). -/
theorem applyScene_leg (x : Scene) (c : Chip) (l : Fin 8) : (applyScene x c).mixer.legs[l] =
    { c.mixer.legs[l] with
      master := x.legs[l].1, alarm := x.legs[l].2, latch := c.mixer.legs[l].latch && x.legs[l].2 } := by
  simp [applyScene, setLegAlarm]

section
variable {slot : Byte} {n : Fin 8} {c : Chip} (hn : index8 slot = some n)
  (free : inFlight .mixerRecall c = false)
include hn free

theorem sceneRecall_empty (empty : c.mixer.scenes[n] = none) : sceneRecall slot c = .refused .empty := by
  simp only [sceneRecall, free, recallScene, hn, empty]
  rfl

variable {x : Scene} (held : c.mixer.scenes[n] = some x)
include held

theorem sceneRecall_busy (pending : c.mixer.recalling.isSome = true) :
    sceneRecall slot c = .refused .busy := by
  simp only [sceneRecall, free, recallScene, hn, held, pending]
  rfl

/-- A STOPPED mixer takes the scene at once (R112). -/
theorem sceneRecall_stopped (idle : c.mixer.recalling = none) (stopped : c.mixer.running = false) :
    sceneRecall slot c = .completed .done [] (applyScene x c) := by
  simp only [sceneRecall, free, recallScene, hn, held, idle, stopped]
  rfl

/-- A RUNNING mixer keeps a copy for the next firing (R112). -/
theorem sceneRecall_running (idle : c.mixer.recalling = none) (running : c.mixer.running = true) :
    sceneRecall slot c = .begun .mixerRecall
      { c with mixer.recalling := some { scene := x, fromCommand := true } } := by
  simp only [sceneRecall, free, recallScene, hn, held, idle, running]
  rfl

end

theorem overloadClear_done {leg : Byte} {l : Fin 8} {c : Chip} (hl : index8 leg = some l) :
    overloadClear leg c = .completed .done []
      { c with mixer.legs := c.mixer.legs.set l { c.mixer.legs[l] with latch := false } } := by
  rw [overloadClear, hl]

/-- Settles O35. -/
theorem scenesAndLatches : Obligations.ScenesAndLatches := by
  refine ⟨fun h slot s n x taken hn free => ?scene, fun h leg s l taken hl => ?clear⟩
  case scene =>
    rw [exec_concluded (v := sceneRecall slot) taken rfl]
    refine ⟨fun empty => ?_, fun held pending => ?_, fun held idle stopped => ?_,
      fun held idle running => ?_⟩
    · rw [sceneRecall_empty hn free empty, conclude_refused]
    · rw [sceneRecall_busy hn free held pending, conclude_refused]
    · rw [sceneRecall_stopped hn free held idle stopped, conclude_done]
      exact ⟨_, rfl, rfl, rfl, applyScene_leg x s.chip, rfl⟩
    · rw [sceneRecall_running hn free held idle running]
      rfl
  case clear =>
    rw [exec_concluded (v := overloadClear leg) taken rfl, overloadClear_done hl, conclude_done]

/-! ### AUDIO START and AUDIO STOP -/

theorem audioStart_done {c : Chip} {v w : Window} (audio : findWindow c .audioIn none = some v)
    (mix : findWindow c .mixOut none = some w) (stopped : c.mixer.running = false) :
    audioStart c = .completed .done []
      { c with
        mixer.running := true
        mixer.block := .waiting
        mixer.buf := []
        mixer.starved := 0
        mixer.lastSteps := Steps.off
        mixer.frame := none } := by
  simp only [audioStart, audio, mix, stopped]
  rfl

/-- The mixer stopped, before a pending recall is applied (R97). -/
def audioStopped (c : Chip) : Chip :=
  { c with
    mixer.running := false
    mixer.block := .waiting
    mixer.buf := []
    mixer.fireQ := (c.mixer.fireQ.take 1).map fun b => { b with last := true }
    mixer.frame := none }

theorem audioStop_refused {c : Chip} (stopped : c.mixer.running = false) :
    audioStop c = .refused .wrongState := by
  rw [audioStop, stopped]
  rfl

theorem audioStop_done {c : Chip} (running : c.mixer.running = true) :
    audioStop c = .completed .done [] (applyRecall (audioStopped c)) := by
  rw [audioStop, running]
  rfl

/-- Settles O36. -/
theorem audioStartStop : Obligations.AudioStartStop := by
  refine ⟨fun h s v w taken audio mix stopped => ?start, fun h s taken => ?stop⟩
  case start =>
    rw [exec_concluded (v := audioStart) taken rfl, audioStart_done audio mix stopped, conclude_done]
  case stop =>
    rw [exec_concluded (v := audioStop) taken rfl]
    refine ⟨fun stopped => ?_, fun running none => ?_, fun r running pending => ?_⟩
    · rw [audioStop_refused stopped, conclude_refused]
    · rw [audioStop_done running, applyRecall_none (by exact none), conclude_done]
      rfl
    · have scene := recalled_some (c := audioStopped s.chip) (r := r) pending
      refine ⟨applyRecall (audioStopped s.chip), recalled (audioStopped s.chip), ?_,
        applyRecall_some (by exact pending), ?_, (applyRecall_command _).mixer, fun l => ?_⟩
      · rw [audioStop_done running, conclude_done]
      · rw [scene]
        rfl
      · rw [scene, applyScene_leg]
        rfl

end Sys2Proof.Machine
end

section
/-! SUPPORT. Tally states, CALL and their drives: TALLY SET, TALLY AUTHORITY and the tally timers (R117 to
R122). -/

namespace Sys2Proof.Machine

/-! ### The output drive -/

@[simp] theorem redrive_state (t : TallyFeed) : (redrive t).state = t.state := by
  unfold redrive
  dsimp only
  split <;> rfl

@[simp] theorem redrive_call (t : TallyFeed) : (redrive t).call = t.call := by
  unfold redrive
  dsimp only
  split <;> rfl

@[simp] theorem redrive_callTimer (t : TallyFeed) : (redrive t).callTimer = t.callTimer := by
  unfold redrive
  dsimp only
  split <;> rfl

@[simp] theorem redrive_drive (t : TallyFeed) : (redrive t).drive = decideDrive t.call t.state := by
  unfold redrive
  dsimp only
  split
  · next same => exact same.symm
  · rfl

theorem redrive_same {t : TallyFeed} (same : decideDrive t.call t.state = t.drive) : redrive t = t :=
  if_pos same

theorem redrive_lit {t : TallyFeed} (other : decideDrive t.call t.state ≠ t.drive) :
    (redrive t).lit = decide (decideDrive t.call t.state ≠ .off) := by
  unfold redrive
  dsimp only
  rw [if_neg other]
  cases decideDrive t.call t.state <;> rfl

theorem decideDrive_eq (call : Bool) (x : TallyState) : decideDrive call x =
    if call then .fast else if x = .program then .steady else if x = .preview then .slow else .off := by
  cases call <;> cases x <;> rfl

theorem decideDrive_quiet (x : TallyState) : decideDrive false x ≠ .fast := by
  cases x <;> decide

/-! ### A feed's tally -/

section
variable {c d : Chip}

theorem LogOnly.tallyFeeds (h : LogOnly c d) : d.tally.feeds = c.tally.feeds := by rw [h.same]
theorem LogOnly.authority (h : LogOnly c d) : d.tally.authority = c.tally.authority := by rw [h.same]
theorem LogOnly.lines (h : LogOnly c d) : d.tally.lines = c.tally.lines := by rw [h.same]
theorem LogOnly.filter (h : LogOnly c d) : d.filter = c.filter := by rw [h.same]

end

@[simp] theorem setTallyFeed_self (c : Chip) (f : Fin 8) : setTallyFeed c f c.tally.feeds[f] = c := by
  simp [setTallyFeed]

/-- A feed's tally record in a new state (R117, R120). -/
def tallied (x : TallyState) (t : TallyFeed) : TallyFeed :=
  if t.state = x then t else redrive { t with state := x }

@[simp] theorem tallied_state (x : TallyState) (t : TallyFeed) : (tallied x t).state = x := by
  unfold tallied
  split
  · assumption
  · exact redrive_state _

@[simp] theorem tallied_call (x : TallyState) (t : TallyFeed) : (tallied x t).call = t.call := by
  unfold tallied
  split
  · rfl
  · exact redrive_call _

section
variable (f : Fin 8) (x : TallyState) (c : Chip)

theorem setTally_same (same : c.tally.feeds[f].state = x) : setTally f x c = c := if_pos same

/-- A change of a feed's tally state: the clip log opens or closes at a change into or out of PROGRAM (R117,
R124, R139). -/
theorem setTally_changed (other : c.tally.feeds[f].state ≠ x) : setTally f x c =
    if x = .program then tryOpenAuto f (setTallyFeed c f (tallied x c.tally.feeds[f]))
    else if c.tally.feeds[f].state = .program then
      closeAuto f .tally (setTallyFeed c f (tallied x c.tally.feeds[f]))
    else setTallyFeed c f (tallied x c.tally.feeds[f]) := by
  have new : tallied x c.tally.feeds[f] = redrive { c.tally.feeds[f] with state := x } := if_neg other
  rw [new]
  exact if_neg other

/-- Beside the feed's record, a tally state concerns the clip log alone (R117, R124). -/
theorem setTally_logOnly : LogOnly (setTallyFeed c f (tallied x c.tally.feeds[f])) (setTally f x c) := by
  by_cases same : c.tally.feeds[f].state = x
  · rw [setTally_same f x c same, tallied, if_pos same, setTallyFeed_self]
    exact .refl c
  · rw [setTally_changed f x c same]
    split
    · exact tryOpenAuto_logOnly _ _
    · split
      · exact closeAuto_logOnly _ _ _
      · exact .refl _

theorem setTally_feed : (setTally f x c).tally.feeds[f] = tallied x c.tally.feeds[f] :=
  (congrArg (·[f]) (setTally_logOnly f x c).tallyFeeds).trans (setTallyFeed_same _ _ _)

theorem setTally_other (g : Fin 8) (other : g ≠ f) :
    (setTally f x c).tally.feeds[g] = c.tally.feeds[g] :=
  (congrArg (·[g]) (setTally_logOnly f x c).tallyFeeds).trans (setTallyFeed_other _ _ _ _ other)

/-- A feed with no automatic clip to open or close leaves the log and the scheduler alone (R139). -/
theorem setTally_quiet (off : c.feeds[f].cfg.autoLog = false) (none : openAuto c f = none) :
    (setTally f x c).clips.list = c.clips.list ∧ (setTally f x c).sched = c.sched ∧
      (setTally f x c).paths = c.paths := by
  by_cases same : c.tally.feeds[f].state = x
  · rw [setTally_same f x c same]
    exact ⟨rfl, rfl, rfl⟩
  · rw [setTally_changed f x c same]
    have still : callsForAuto (setTallyFeed c f (tallied x c.tally.feeds[f])) f = false :=
      Bool.eq_false_iff.2 fun calls => Bool.false_ne_true (off.symm.trans (callsForAuto_iff.1 calls).2.1)
    split
    · rw [tryOpenAuto_quiet (.inl still)]
      exact ⟨rfl, rfl, rfl⟩
    · split
      · rw [closeAuto_none (c := setTallyFeed _ _ _) none]
        exact ⟨rfl, rfl, rfl⟩
      · exact ⟨rfl, rfl, rfl⟩

end

/-! ### TALLY SET -/

/-- The part after a call setting, none for KEEP (R118, R119). -/
def calledAs (f : Fin 8) (call : Option Bool) (c : Chip) : Chip :=
  match call with
  | some true => setCall f c
  | some false => setTallyFeed c f (dropCall c.tally.feeds[f])
  | none => c

/-- The call setting a byte names (section 11.1). -/
def callOf (call : Byte) : Option Bool :=
  if call = 0 then some false else if call = 1 then some true else none

section
variable (f : Fin 8) (call : Option Bool) (c : Chip)

/-- A call setting changes the feed's tally record alone (R119). -/
theorem calledAs_eq : ∃ t, calledAs f call c = setTallyFeed c f t ∧ t.state = c.tally.feeds[f].state := by
  unfold calledAs
  split
  · exact ⟨_, rfl, redrive_state _⟩
  · exact ⟨_, rfl, redrive_state _⟩
  · exact ⟨_, (setTallyFeed_self c f).symm, rfl⟩

theorem calledAs_set : (calledAs f (some true) c).tally.feeds[f] = raiseCall c.tally.feeds[f] :=
  setTallyFeed_same _ _ _

theorem calledAs_clear : (calledAs f (some false) c).tally.feeds[f] = dropCall c.tally.feeds[f] :=
  setTallyFeed_same _ _ _

theorem applyTallySet_refused (home : c.tally.authority = .home) (x : TallyState) :
    applyTallySet f (some x) call c = .refused .authority := by
  unfold applyTallySet vanMaySet
  rw [home]
  rfl

theorem applyTallySet_state (van : c.tally.authority ≠ .home) (x : TallyState) :
    applyTallySet f (some x) call c = .completed .done [] (calledAs f call (setTally f x c)) := by
  have may : vanMaySet c = true := by simpa [vanMaySet] using van
  unfold applyTallySet
  rw [may]
  rfl

theorem applyTallySet_keep : applyTallySet f none call c = .completed .done [] (calledAs f call c) := rfl

end

theorem tallyOf_isSome (b : Byte) : (tallyOf b).isSome = true ↔ b.toNat ≤ 2 := by
  by_cases zero : b = 0
  · simp [tallyOf, zero]
  by_cases one : b = 1
  · simp [tallyOf, one]
  by_cases two : b = 2
  · simp [tallyOf, two]
  · simp only [tallyOf, if_neg zero, if_neg one, if_neg two, Option.isSome_none, Bool.false_eq_true,
      false_iff]
    bv_omega

theorem tallyOf_le {b : Byte} {x : TallyState} (h : tallyOf b = some x) : b.toNat ≤ 2 :=
  (tallyOf_isSome b).1 (by rw [h]; rfl)

theorem exec_tallySet {h : CmdHead} {feed tally call : Byte} {s : State}
    (taken : takes (.tallySet h feed tally call) s = true) : exec (.tallySet h feed tally call) s =
      .next (s.taken (conclude 0x30 h s.chip (tallySet feed tally call s.chip))) :=
  exec_concluded (v := tallySet feed tally call) taken rfl

theorem tallySet_badArg {feed tally call : Byte} (c : Chip)
    (bad : 7 < feed.toNat ∨ 3 < tally.toNat ∨ 2 < call.toNat) :
    tallySet feed tally call c = .refused .badArg := by
  unfold tallySet
  split
  · rfl
  · next f named =>
    have feedRange : ¬7 < feed.toNat := fun above => by
      rw [index8_none above] at named
      cases named
    exact if_pos (by omega)

section
variable {feed tally call : Byte} {f : Fin 8} {c : Chip} (named : index8 feed = some f)
  (range : call.toNat ≤ 2)
include named range

theorem tallySet_refused (state : tally.toNat ≤ 2) (home : c.tally.authority = .home) :
    tallySet feed tally call c = .refused .authority := by
  obtain ⟨x, read⟩ := Option.isSome_iff_exists.1 ((tallyOf_isSome tally).2 state)
  unfold tallySet
  rw [named]
  dsimp only
  rw [if_neg (by omega), read, applyTallySet_refused _ _ _ home]

theorem tallySet_state {x : TallyState} (read : tallyOf tally = some x) (van : c.tally.authority ≠ .home) :
    tallySet feed tally call c =
      .completed .done [] (serveIfNew c (calledAs f (callOf call) (setTally f x c))) := by
  have state := tallyOf_le read
  unfold tallySet
  rw [named]
  dsimp only
  rw [if_neg (by omega), read, applyTallySet_state _ _ _ van]
  rfl

/-- With KEEP the call setting alone acts, and nothing is served (R118, R176). -/
theorem tallySet_keep (keep : tally = 3) :
    tallySet feed tally call c = .completed .done [] (calledAs f (callOf call) c) := by
  obtain ⟨t, called, -⟩ := calledAs_eq f (callOf call) c
  subst keep
  have unserved : serveIfNew c (calledAs f (callOf call) c) = calledAs f (callOf call) c :=
    serveIfNew_same (by rw [called]; rfl) (by rw [called]; rfl)
  unfold tallySet
  rw [named]
  dsimp only
  rw [if_neg (by simp; omega)]
  exact congrArg (Verdict.completed .done []) unserved

end

/-! ### TALLY AUTHORITY -/

theorem tallyAuthority_home {a : Byte} (ha : a = 1) {c : Chip} (other : c.tally.authority ≠ .home) :
    tallyAuthority a c = .completed .done []
      { c with
        tally.authority := .home
        tally.fallback := if c.tally.upCount = 0 then some 2000 else none } := by
  subst ha
  exact if_neg other

theorem tallyAuthority_stays {a : Byte} (ha : a = 1) {c : Chip} (home : c.tally.authority = .home) :
    tallyAuthority a c = .completed .done [] c := by
  subst ha
  exact if_pos home

theorem tallyAuthority_badArg {a : Byte} (above : 1 < a.toNat) (c : Chip) :
    tallyAuthority a c = .refused .badArg := by
  have n0 : a ≠ 0 := fun e => by subst e; exact absurd above (by decide)
  have n1 : a ≠ 1 := fun e => by subst e; exact absurd above (by decide)
  rw [tallyAuthority, if_neg n0, if_neg n1]

/-! ### The obligations -/

/-- Settles O38: a state is a new tally record with the clip log's part, a call setting the record alone. -/
theorem tallyCommands : Obligations.TallyCommands := by
  refine ⟨fun h feed tally call s f taken named range =>
      ⟨fun state home => ?refused, fun x read van => ?state, fun keep set => ?_, fun keep clear => ?_,
        fun keep none => ?_⟩,
    fun h feed tally call s taken bad => ?badArg,
    fun h a s taken => ⟨fun van => ?_, fun ha other => ?_, fun ha home => ?_, fun above => ?_⟩⟩
  case refused =>
    rw [exec_tallySet taken, tallySet_refused named range state home, conclude_refused]
  case state =>
    obtain ⟨t, called, kept⟩ := calledAs_eq f (callOf call) (setTally f x s.chip)
    have log := setTally_logOnly f x s.chip
    have feed := setTally_feed f x s.chip
    have serves := serveIfNew_serveOnly s.chip (calledAs f (callOf call) (setTally f x s.chip))
    refine ⟨_, by rw [exec_tallySet taken, tallySet_state named range read van, conclude_done],
      ?_, ?_, fun clear => ?_, fun set => ?_, fun keep => ?_, fun off none => ?_, fun g other => ?_⟩
    · rw [serves.tally, called, setTallyFeed_same, kept, feed, tallied_state]
    · rw [serves.feeds, called]
      exact log.feeds
    · subst clear
      rw [serves.tally]
      exact (calledAs_clear f _).symm ▸ ⟨redrive_call _, redrive_callTimer _⟩
    · subst set
      rw [serves.tally]
      exact (calledAs_set f _).symm ▸ ⟨redrive_call _, redrive_callTimer _⟩
    · subst keep
      rw [serves.tally]
      exact (congrArg TallyFeed.call feed).trans (tallied_call _ _)
    · obtain ⟨list, sched, paths⟩ := setTally_quiet f x s.chip off none
      rw [called, serveIfNew_same (a := setTallyFeed _ _ _) sched paths]
      exact ⟨list, paths⟩
    · rw [serves.tally, called, setTallyFeed_other _ _ _ _ other, setTally_other _ _ _ _ other]
  case badArg => rw [exec_tallySet taken, tallySet_badArg _ bad, conclude_refused]
  · rw [exec_tallySet taken, tallySet_keep named range keep, set, conclude_done]
    rfl
  · rw [exec_tallySet taken, tallySet_keep named range keep, clear, conclude_done]
    rfl
  · rw [exec_tallySet taken, tallySet_keep named range keep, none, conclude_done]
    rfl
  all_goals rw [exec_concluded (v := tallyAuthority a) taken rfl]
  · subst van
    rfl
  · rw [tallyAuthority_home ha other, conclude_done]
  · rw [tallyAuthority_stays ha home, conclude_done]
  · rw [tallyAuthority_badArg above, conclude_refused]

/-- Settles O39, from the equations of `redrive`. -/
theorem tallyOutputsAndTimers : Obligations.TallyOutputsAndTimers := by
  refine ⟨fun t => ⟨(redrive_drive t).trans (decideDrive_eq _ _), fun same => ?_, fun other => ?_,
      redrive_state t, redrive_call t, redrive_callTimer t⟩,
    fun f s free => ⟨fun running => ⟨dropCall s.chip.tally.feeds[f], ?_, redrive_call _,
      redrive_callTimer _, redrive_state _, ?_⟩, fun blinks => ?_, fun running => ?_⟩⟩
  · exact redrive_same ((redrive_drive t).symm.trans same)
  · rw [redrive_drive] at other ⊢
    exact redrive_lit other
  · rw [exec_event (k := callExpires f) free rfl, callExpires, if_pos running]
  · rw [dropCall, redrive_drive]
    exact decideDrive_quiet _
  · rw [exec_event (k := fun c => setTallyFeed c f (blinkTally c.tally.feeds[f])) free rfl, blinkTally,
      if_pos blinks]
  · refine ⟨_, exec_event (k := fallbackExpires) free rfl, ?_, fun n _ => ?_⟩
    · rw [fallbackExpires, if_pos running]
      rfl
    · rw [fallbackExpires, if_pos running]
      exact makePending_get .home _ n

end Sys2Proof.Machine
end

section
/-! SUPPORT. MARK IN, MARK OUT and a clip's close (R129, R130, R135, R136, R150). -/

namespace Sys2Proof.Machine

/-! ### The creation of a marked clip -/

theorem takeRecord_reclaims {l : List Clip} {k : Clip} (full : 256 ≤ l.length)
    (found : l.find? (fun k => !holding k.state) = some k) :
    takeRecord l = some (l.filter fun x => x.number != k.number) := by
  have taken : ¬l.length < Config.clipLimit := Nat.not_lt.2 full
  unfold takeRecord
  rw [if_neg taken, found]

/-- A clip's number goes on the top of the mark stack (R129). -/
def markPushed (n : Nat) (c : Chip) : Chip := { c with tally.stack := n :: c.tally.stack }

section
variable {feeds category : Byte} {c : Chip}

theorem markIn_noFeed (none : feedsOf feeds = []) : markIn feeds category c = .refused .badArg := by
  unfold markIn
  rw [none]
  rfl

variable (listed : feedsOf feeds ≠ [])
include listed

theorem markIn_notRunning (stands : ∃ f ∈ feedsOf feeds, c.feeds[f].state ≠ .running) :
    markIn feeds category c = .refused .notRunning := by
  have stands : ((feedsOf feeds).any fun f => c.feeds[f].state != .running) = true := by simpa using stands
  unfold markIn
  dsimp only
  rw [if_neg (by simpa using listed), if_pos stands]

variable (running : ∀ f ∈ feedsOf feeds, c.feeds[f].state = .running)
include running

theorem markIn_running : markIn feeds category c =
    if 8 ≤ c.tally.stack.length then .refused .stackFull
    else
      match createClip .manual (feedsOf feeds) category c.tally.stack.head? c with
      | none => .refused .logFull
      | some (n, d) => .completed .done (leNat16 n) (markPushed n d) := by
  have running : ¬((feedsOf feeds).any fun f => c.feeds[f].state != .running) = true := by simpa using running
  unfold markIn
  dsimp only
  rw [if_neg (by simpa using listed), if_neg running]
  rfl

theorem markIn_stackFull (full : 8 ≤ c.tally.stack.length) :
    markIn feeds category c = .refused .stackFull := by
  rw [markIn_running listed running, if_pos full]

variable (room : c.tally.stack.length < 8)
include room

theorem markIn_logFull (record : takeRecord c.clips.list = none) :
    markIn feeds category c = .refused .logFull := by
  rw [markIn_running listed running, if_neg (by omega), createClip_none record]

/-- With a record, MARK IN creates its clip and pushes it (R129, R135). -/
theorem markIn_done {l : List Clip} (record : takeRecord c.clips.list = some l) :
    ∃ body, markIn feeds category c =
      .completed .done (leNat16 (freeNumber l 256 c.clips.counter))
        (markPushed (freeNumber l 256 c.clips.counter) (askReport .clip body
          { c with
            clips.list := l ++ [createdClip .manual (feedsOf feeds) category c.tally.stack.head? l c]
            clips.counter := numberAfter (freeNumber l 256 c.clips.counter) })) := by
  rw [markIn_running listed running, if_neg (by omega), createClip, record]
  exact ⟨_, rfl⟩

end

/-! ### A clip's record at its close -/

section
variable (c : Chip) (reason : CloseReason) (k : Clip)

theorem closedClip_feeds : (closedClip c reason k).feeds = k.feeds.map (closeFeed c) := by
  unfold closedClip
  dsimp only
  split <;> rfl

theorem closedClip_same : closedClip c reason k = { k with
    feeds := (closedClip c reason k).feeds
    state := (closedClip c reason k).state
    reason := (closedClip c reason k).reason
    inHouse := (closedClip c reason k).inHouse
    outHouse := (closedClip c reason k).outHouse } := by
  unfold closedClip
  dsimp only
  split <;> rfl

theorem closedClip_nonBare : nonBare (closedClip c reason k) =
    nonBare { k with feeds := k.feeds.map (closeFeed c) } := by
  unfold nonBare
  rw [closedClip_feeds]

/-- A clip with no unit in any feed is RELEASED as EMPTY (R136). -/
theorem closedClip_empty (bare : nonBare (closedClip c reason k) = []) :
    (closedClip c reason k).state = .released ∧ (closedClip c reason k).reason = some .empty := by
  rw [closedClip_nonBare] at bare
  unfold closedClip
  dsimp only
  rw [bare]
  exact ⟨rfl, rfl⟩

/-- A clip with a unit is CLOSED, with the house counts of its first feed's points (R136). -/
theorem closedClip_full {y : ClipFeed} {ys : List ClipFeed}
    (first : nonBare (closedClip c reason k) = y :: ys) :
    (closedClip c reason k).state = .closed ∧ (closedClip c reason k).reason = some reason ∧
      (closedClip c reason k).inHouse = y.inSeq.bind (unitHouse c y.feed) ∧
      (closedClip c reason k).outHouse = y.outSeq.bind (unitHouse c y.feed) := by
  rw [closedClip_nonBare] at first
  unfold closedClip
  dsimp only
  rw [first]
  exact ⟨rfl, rfl, rfl, rfl⟩

end

/-! ### The close in the part -/

theorem mapClip_congr {n : Nat} {g g' : Clip → Clip} (same : ∀ x, x.number = n → g x = g' x) (c : Chip) :
    mapClip n g c = mapClip n g' c := by
  have list : (fun x : Clip => if x.number = n then g x else x) =
      fun x => if x.number = n then g' x else x := by
    funext x
    split
    · next named => exact same x named
    · rfl
  rw [mapClip, list, mapClip]

theorem findClip_congr {c d : Chip} (clips : d.clips = c.clips) (n : Nat) : findClip d n = findClip c n := by
  rw [findClip, clips, findClip]

/-- A new record under the clip's number is the record found there. -/
theorem findClip_replaced {c : Chip} {n : Nat} {k x : Clip} (found : findClip c n = some k)
    (number : x.number = k.number) : findClip (mapClip n (fun _ => x) c) n = some x := by
  have named := findClip_number found
  have same : mapClip n (fun _ => x) c = mapClip n (fun y => { x with number := y.number }) c :=
    mapClip_congr (fun y here => by rw [here, ← named, ← number]) c
  rw [same, findClip_mapClip (g := fun y => { x with number := y.number }) found fun _ => rfl, ← number]

/-- The part with a clip's new record and the CLOSED reports asked for (R136). -/
def closeReported (n : Nat) (x : Clip) (c : Chip) : Chip :=
  let d := closedReport x 0 ((nonBare x).take 5) (mapClip n (fun _ => x) c)
  if 5 < (nonBare x).length then closedReport x 1 ((nonBare x).drop 5) d else d

section
variable (n : Nat) (x : Clip) (c : Chip)

theorem closeReported_reportOnly : ReportOnly (mapClip n (fun _ => x) c) (closeReported n x c) := by
  unfold closeReported closedReport
  dsimp only
  split
  · exact (askReport_reportOnly _ _ _).trans (askReport_reportOnly _ _ _)
  · exact askReport_reportOnly _ _ _

theorem closeReported_pending : (closeReported n x c).cmd.pendingSet.getLsbD 5 = true := by
  have asked := fun body d => askReport_pending (k := .clip) (x := .clip) rfl body d
  unfold closeReported
  dsimp only
  split
  · exact asked _ _
  · exact asked _ _

end

section
variable {n : Nat} {c : Chip} {k : Clip} (found : findClip c n = some k) (reason : CloseReason)
include found

theorem closeClip_eq : closeClip n reason c =
    if (closedClip c reason k).state = .closed then
      giveNotice n (closeReported n (closedClip c reason k) c)
    else closeReported n (closedClip c reason k) c := by
  rw [closeClip, found]
  rfl

theorem closeReported_found :
    findClip (closeReported n (closedClip c reason k) c) n = some (closedClip c reason k) :=
  (findClip_congr (closeReported_reportOnly _ _ _).clips n).trans
    (findClip_replaced found (closedClip_number c reason k))

theorem closeClip_pending : (closeClip n reason c).cmd.pendingSet.getLsbD 5 = true := by
  rw [closeClip_eq found]
  split
  · exact (giveNotice_logOnly _ _).grows.pending 5 (closeReported_pending _ _ _)
  · exact closeReported_pending _ _ _

/-- With notify off a close leaves the scheduler alone (R150). -/
theorem closeClip_quiet (off : c.sched.notify = false) : (closeClip n reason c).sched = c.sched := by
  have sched := (closeReported_reportOnly n (closedClip c reason k) c).sched
  rw [closeClip_eq found]
  split
  · rw [giveNotice_off ((congrArg Scheduler.notify sched).trans off)]
    exact sched
  · exact sched

/-- A close gives a notice of a clip that became CLOSED, while notify is on and the LABEL queue has room
(R150, R175). -/
theorem closeClip_label : (closeClip n reason c).sched.label = c.sched.label ++
    (if (closedClip c reason k).state = .closed ∧ c.sched.notify = true ∧ c.sched.label.length < 32 then
      [{ kind := 0, number := n, data := noticeBody (closedClip c reason k), cursor := 0 }]
    else []) := by
  have sched : (closeReported n (closedClip c reason k) c).sched = c.sched :=
    (closeReported_reportOnly _ _ _).sched
  by_cases closed : (closedClip c reason k).state = .closed
  · by_cases on : c.sched.notify = true
    · rw [closeClip_eq found, if_pos closed,
        giveNotice_on (by rw [sched]; exact on) (closeReported_found found reason)]
      by_cases room : c.sched.label.length < 32
      · rw [joinLabel_room (by rw [sched]; exact room), if_pos ⟨closed, on, room⟩, sched]
      · rw [joinLabel_full (by rw [sched]; omega), (askReport_reportOnly _ _ _).sched, sched,
          if_neg fun all => room all.2.2, List.append_nil]
    · rw [closeClip_quiet found reason (Bool.eq_false_iff.2 on), if_neg fun all => on all.2.1, List.append_nil]
  · rw [closeClip_eq found, if_neg closed, if_neg fun all => closed all.1, List.append_nil, sched]

end

/-! ### MARK OUT -/

theorem completedBy_reportOnly (kind : BitVec 16) (h : CmdHead) (r : ResultCode) (payload : List Byte)
    (c : Chip) : ReportOnly c (completedBy kind h r payload c) := by
  unfold completedBy
  split
  · exact askResult_reportOnly _ _ _ _ _ _
  · exact .refl c

theorem exec_markOut {h : CmdHead} {s : State} (taken : takes (.markOut h) s = true) :
    exec (.markOut h) s =
      .next (s.taken (serveIfNew s.chip (conclude 0x41 h s.chip (markOut s.chip)))) :=
  command_taken (k := served fun c => conclude 0x41 h c (markOut c)) taken

theorem markOut_empty {c : Chip} (empty : c.tally.stack = []) : markOut c = .refused .stackEmpty := by
  rw [markOut, empty]

theorem markOut_pops {c : Chip} {n : Nat} {rest : List Nat} (top : c.tally.stack = n :: rest) :
    markOut c = .completed .done (leNat16 n) (closePopped n .markOut rest c) := by
  rw [markOut, top]
  rfl

section
variable {n : Nat} {c : Chip} {k : Clip} (found : findClip c n = some k) (reason : CloseReason)
  (rest : List Nat)
include found

theorem closePopped_quiet (off : c.sched.notify = false) :
    (closePopped n reason rest c).sched = c.sched :=
  closeClip_quiet (c := { c with tally.stack := rest }) found reason off

theorem closePopped_found : findClip (closePopped n reason rest c) n = some (closedClip c reason k) := by
  have same : closedClip { c with tally.stack := rest } reason = closedClip c reason := closedClip_congr rfl _
  rw [closePopped, findClip_congr (closeClip_clips reason (c := { c with tally.stack := rest }) found), same]
  exact findClip_replaced (c := { c with tally.stack := rest }) found (closedClip_number _ _ _)

end

/-- Settles O41, by the checks of `markIn` in their order and the parts of a clip's close. -/
theorem markCommands : Obligations.MarkCommands := by
  refine ⟨fun h feeds category s taken => ?markIn,
    fun h s taken => ⟨fun empty => ?_, fun n rest top => ?_⟩,
    fun n reason c k x found same => ?close⟩
  case markIn =>
    rw [exec_concluded (v := markIn feeds category) taken rfl]
    refine ⟨fun none => ?_, fun listed stands => ?_, fun listed running =>
      ⟨fun full => ?_, fun room => ⟨fun full held => ?_, fun l record => ?_⟩⟩⟩
    · rw [markIn_noFeed none, conclude_refused]
    · rw [markIn_notRunning listed stands, conclude_refused]
    · rw [markIn_stackFull listed running full, conclude_refused]
    · rw [markIn_logFull listed running room (takeRecord_none full held), conclude_refused]
    · have record : takeRecord s.chip.clips.list = some l := by
        rcases record with ⟨free, rfl⟩ | ⟨full, k, found, rfl⟩
        · exact takeRecord_free free
        · exact takeRecord_reclaims full found
      obtain ⟨body, done⟩ := markIn_done (category := category) listed running room record
      have report := fun c => askReport_reportOnly .clip body c
      rw [done, conclude_done]
      refine ⟨_, _, rfl, rfl, fun few => freeNumber_free few _, ?_, ?_, ?_,
        (report _).rings, (report _).feeds, (report _).sched, askReport_pending (x := .clip) rfl body _⟩
      · exact congrArg ClipLog.counter (report _).clips
      · exact congrArg (List.cons _) (congrArg TallyUnit.stack (report _).tally)
      · exact congrArg ClipLog.list (report _).clips
  · rw [exec_markOut taken, markOut_empty empty, conclude_refused,
      serveIfNew_report (refusedBy_reportOnly _ _ _ _)]
  · have popped := exec_markOut taken
    rw [markOut_pops top, conclude_done] at popped
    have report := completedBy_reportOnly 0x41 h .done (leNat16 n) (closePopped n .markOut rest s.chip)
    have serves := serveIfNew_serveOnly s.chip
      (completedBy 0x41 h .done (leNat16 n) (closePopped n .markOut rest s.chip))
    have log := (closePopped_closings n .markOut rest s.chip).log
    refine ⟨popped, _, popped, rfl, rfl, ?_, ?_, fun k found off => ?_⟩
    · rw [taken_chip, serves.tally, report.tally, closePopped_tally]
    · rw [taken_chip, serves.feeds, report.feeds, log.feeds]
    · have sched := report.sched.trans (closePopped_quiet found .markOut rest off)
      have paths := report.paths.trans log.paths
      rw [taken_chip, serveIfNew_same sched paths]
      exact ⟨report.rings.trans log.rings, paths,
        (findClip_congr report.clips n).trans (closePopped_found found .markOut rest)⟩
  case close =>
    subst same
    have log := closeClip_logOnly n reason c
    exact ⟨closedClip_same c reason k, closedClip_feeds c reason k, closedClip_empty c reason k,
      fun y ys => closedClip_full c reason k, congrArg ClipLog.list (closeClip_clips reason found),
      log.rings, log.paths, closeClip_pending found reason, closeClip_label found reason⟩

end Sys2Proof.Machine
end

section
/-! SUPPORT. The signal lines: SIGNAL LINE SET, a change of level, the debounce and every action (R125 to
R128). -/

namespace Sys2Proof.Machine

/-! ### SIGNAL LINE SET -/

section
variable {a : SignalLineArgs} {c : Chip} {n : Fin 8} {on pulse low : Bool} {act : LineAction}
  (line : index8 a.line = some n) (enabled : flagOf a.enabled = some on) (kind : flagOf a.kind = some pulse)
  (polarity : flagOf a.polarity = some low) (action : actionOf a.action = some act)
include line enabled kind polarity action

/-- With every code naming something, the argument and the feed list decide (R125). -/
theorem signalLineSet_eq : signalLineSet a c =
    if actionOk act a.argument a.feeds then
      .completed .done []
        (setLine c n
          { enabled := on, pulse := pulse, activeHigh := !low, action := act, argument := a.argument,
            feeds := a.feeds, category := a.category, debounced := c.linePins[n] == !low,
            pendingLevel := none, debounce := none, markOpen := false })
    else .refused .badArg := by
  unfold signalLineSet
  rw [line, enabled, kind, polarity, action]
  rfl

end

/-! ### What an edge leaves of its line -/

/-- Of line `n` nothing but mark open may differ (R127). -/
def LineStands (n : Fin 8) (c d : Chip) : Prop :=
  d.tally.lines[n] = { c.tally.lines[n] with markOpen := d.tally.lines[n].markOpen }

section
variable {n : Fin 8} {a c d : Chip}

theorem LineStands.of_lines (same : d.tally.lines = c.tally.lines) : LineStands n c d := by
  rw [LineStands, same]

theorem LineStands.trans (h : LineStands n a c) (k : LineStands n c d) : LineStands n a d := by
  unfold LineStands at h k ⊢
  rw [k, h]

theorem LogOnly.lineStands (h : LogOnly c d) : LineStands n c d := .of_lines h.lines

theorem setLine_markOpen (b : Bool) : LineStands n c (setLine c n { c.tally.lines[n] with markOpen := b }) := by
  rw [LineStands, setLine_same]

end

/-- The part that a verdict leaves has the property, if the verdict gives one. -/
def Verdict.Leaves (P : Chip → Prop) : Verdict → Prop
  | .completed _ _ c => P c
  | .refused _ => True
  | .begun _ c => P c

theorem Verdict.Leaves.imp {P Q : Chip → Prop} {v : Verdict} (h : v.Leaves P) (pq : ∀ c, P c → Q c) :
    v.Leaves Q := by
  cases v with
  | completed => exact pq _ h
  | refused => trivial
  | begun => exact pq _ h

/-! ### The commands that lines carry out -/

theorem createClip_sched {o : Origin} {fs : List (Fin 8)} {cat : Byte} {par : Option Nat} {n : Nat}
    {c d : Chip} (e : createClip o fs cat par c = some (n, d)) : d.sched = c.sched := by
  unfold createClip at e
  split at e
  · cases e
  · cases e
    exact (askReport_reportOnly _ _ _).sched

/-- MARK IN concerns the clip log and the mark stack, and leaves the scheduler (R129, R135). -/
theorem markIn_leaves (feeds category : Byte) (c : Chip) :
    (markIn feeds category c).Leaves fun d => LogOnly c d ∧ d.sched = c.sched := by
  unfold markIn
  dsimp only
  split
  · trivial
  · split
    · trivial
    · split
      · trivial
      · split
        · trivial
        · next n d created =>
          have sched := createClip_sched created
          exact ⟨(createClip_logOnly created).trans (.of_update d d.clips _ d.sched.label), sched⟩

theorem markOut_leaves (c : Chip) : (markOut c).Leaves (LogOnly c) := by
  cases top : c.tally.stack with
  | nil =>
    rw [markOut_empty top]
    trivial
  | cons n rest =>
    rw [markOut_pops top]
    exact (closePopped_closings n .markOut rest c).log

/-- A recall concerns the mixer alone (R112). -/
theorem recallScene_leaves (slot : Byte) (command : Bool) (c : Chip) :
    (recallScene slot command c).Leaves (MixerOnly c) := by
  unfold recallScene
  split
  · trivial
  · split
    · trivial
    · split
      · trivial
      · split
        · exact ⟨rfl⟩
        · exact ⟨rfl⟩

theorem applyTallySet_lines (f : Fin 8) (x : Option TallyState) (call : Option Bool) (c : Chip) :
    (applyTallySet f x call c).Leaves fun d => d.tally.lines = c.tally.lines := by
  cases x with
  | none =>
    obtain ⟨t, called, -⟩ := calledAs_eq f call c
    rw [applyTallySet_keep, called]
    exact rfl
  | some x =>
    by_cases home : c.tally.authority = .home
    · rw [applyTallySet_refused f call c home]
      trivial
    · obtain ⟨t, called, -⟩ := calledAs_eq f call (setTally f x c)
      rw [applyTallySet_state f call c home, called]
      exact (setTally_logOnly f x c).lines

/-! ### A line's actions -/

/-- A line's edge, at an activation or a deactivation (R127). -/
def lineEdge (n : Fin 8) (level : Bool) (l : SignalLine) (c : Chip) : Chip :=
  if level then activate n l c else deactivate n l c

section
variable {n : Fin 8} {level : Bool} {l : SignalLine} {c : Chip}

theorem lineEdge_nothing (h : level = false ∧
    (l.pulse = true ∨ l.action = .markIn ∨ l.action = .markOut ∨ l.action = .call ∨
      l.action = .signalHome ∨ l.action = .scene)) : lineEdge n level l c = c := by
  obtain ⟨rfl, idle⟩ := h
  show deactivate n l c = c
  unfold deactivate
  split
  · rfl
  · next notPulse =>
    rcases idle with pulse | act | act | act | act | act
    · exact absurd pulse notPulse
    all_goals rw [act]

theorem lineEdge_markIn (h : level = true ∧
    (l.action = .markIn ∨ l.action = .mark ∧ (l.pulse = false ∨ l.markOpen = false))) :
    lineEdge n level l c = lineMarkIn n l c := by
  obtain ⟨rfl, act | ⟨act, begins⟩⟩ := h
  · simp only [lineEdge, activate, act, if_true]
  · have closed : (l.pulse && l.markOpen) = false := Bool.and_eq_false_iff.2 begins
    simp [lineEdge, activate, act, closed]

theorem lineEdge_markOut (h : level = true ∧ (l.action = .markOut ∨
      l.action = .mark ∧ l.pulse = true ∧ l.markOpen = true) ∨
    level = false ∧ l.pulse = false ∧ l.action = .mark) : lineEdge n level l c = lineMarkOut n l c := by
  rcases h with ⟨rfl, act | ⟨act, pulse, opened⟩⟩ | ⟨rfl, pulse, act⟩
  · simp [lineEdge, activate, act]
  · simp [lineEdge, activate, act, pulse, opened]
  · simp [lineEdge, deactivate, act, pulse]

theorem lineEdge_tally {x : TallyState} (h : level = true ∧ l.action = .program ∧ x = .program ∨
    level = true ∧ l.action = .preview ∧ x = .preview ∨
    level = false ∧ l.pulse = false ∧ (l.action = .program ∨ l.action = .preview) ∧ x = .off) :
    lineEdge n level l c = lineTally n l.argument (some x) none c := by
  rcases h with ⟨rfl, act, rfl⟩ | ⟨rfl, act, rfl⟩ | ⟨rfl, pulse, act | act, rfl⟩
  · simp [lineEdge, activate, act]
  · simp [lineEdge, activate, act]
  · simp [lineEdge, deactivate, act, pulse]
  · simp [lineEdge, deactivate, act, pulse]

theorem lineEdge_call (up : level = true) (act : l.action = .call) :
    lineEdge n level l c = lineTally n l.argument none (some true) c := by
  simp [lineEdge, activate, act, up]

theorem lineEdge_signal (up : level = true) (act : l.action = .signalHome) :
    lineEdge n level l c = signalHome l.argument (.line n) c := by
  simp [lineEdge, activate, act, up]

theorem lineEdge_scene (up : level = true) (act : l.action = .scene) :
    lineEdge n level l c = lineOutcome n 0x26 c (recallScene l.argument false c) := by
  simp [lineEdge, activate, act, up]

/-! ### What each action comes to -/

theorem lineMarkIn_refused {r : ResultCode} (refused : markIn l.feeds l.category c = .refused r) :
    lineMarkIn n l c = askResult 0x40 0 (.line n) r [] c := by
  rw [lineMarkIn, refused]
  rfl

theorem lineMarkIn_done {r : ResultCode} {pay : List Byte} {d : Chip}
    (done : markIn l.feeds l.category c = .completed r pay d) : lineMarkIn n l c =
      if l.pulse = true ∧ l.action = .mark then
        setLine d n { d.tally.lines[n] with markOpen := true }
      else d := by
  rw [lineMarkIn, done]
  simp

/-- The part with mark open cleared on a PULSE MARK line (R127). -/
def markCleared (n : Fin 8) (l : SignalLine) (c : Chip) : Chip :=
  if l.pulse = true ∧ l.action = .mark then setLine c n { c.tally.lines[n] with markOpen := false } else c

theorem lineMarkOut_eq :
    lineMarkOut n l c = lineOutcome n 0x41 (markCleared n l c) (markOut (markCleared n l c)) := by
  simp [lineMarkOut, markCleared]

theorem markCleared_same : (markCleared n l c).sched = c.sched ∧ (markCleared n l c).paths = c.paths := by
  unfold markCleared
  split <;> exact ⟨rfl, rfl⟩

theorem lineTally_named {b : Byte} {f : Fin 8} (named : b.toNat = f.val) (x : Option TallyState)
    (call : Option Bool) : lineTally n b x call c = lineOutcome n 0x30 c (applyTallySet f x call c) := by
  rw [lineTally, index8_some named]

theorem lineOutcome_reportOnly (kind : BitVec 16) (r : ResultCode) :
    ReportOnly c (lineOutcome n kind c (.refused r)) := askResult_reportOnly _ _ _ _ _ _

theorem lineOutcome_stands (kind : BitVec 16) {v : Verdict} (h : v.Leaves (LineStands n c)) :
    LineStands n c (lineOutcome n kind c v) := by
  cases v with
  | completed => exact h
  | refused r => exact .of_lines (congrArg TallyUnit.lines (lineOutcome_reportOnly kind r).tally)
  | begun => exact h

theorem lineMarkIn_stands : LineStands n c (lineMarkIn n l c) := by
  have leaves := markIn_leaves l.feeds l.category c
  unfold lineMarkIn
  split
  · next done =>
    rw [done] at leaves
    split
    · exact leaves.1.lineStands.trans (setLine_markOpen true)
    · exact leaves.1.lineStands
  · exact lineOutcome_stands 0x40 (leaves.imp fun d both => both.1.lineStands)

theorem lineMarkOut_stands : LineStands n c (lineMarkOut n l c) := by
  have cleared : LineStands n c (markCleared n l c) := by
    unfold markCleared
    split
    · exact setLine_markOpen false
    · exact .of_lines rfl
  rw [lineMarkOut_eq]
  exact cleared.trans (lineOutcome_stands 0x41 ((markOut_leaves _).imp fun d log => log.lineStands))

theorem lineTally_stands (b : Byte) (x : Option TallyState) (call : Option Bool) :
    LineStands n c (lineTally n b x call c) := by
  unfold lineTally
  split
  · exact lineOutcome_stands 0x30 ((applyTallySet_lines _ _ _ _).imp fun d same => .of_lines same)
  · exact lineOutcome_stands 0x30 trivial

theorem signalHome_logOnly (code : Byte) (src : Source) : LogOnly c (signalHome code src c) :=
  (joinLabel_logOnly _ _).trans (askReport_logOnly _ _ _)

/-- An edge leaves its line's debounced level, pending level and timer as they were decided (R126, R127). -/
theorem lineEdge_stands : LineStands n c (lineEdge n level l c) := by
  unfold lineEdge
  split
  · unfold activate
    split
    · split
      · exact lineMarkOut_stands
      · exact lineMarkIn_stands
    · exact lineMarkIn_stands
    · exact lineMarkOut_stands
    · exact lineTally_stands _ _ _
    · exact lineTally_stands _ _ _
    · exact lineTally_stands _ _ _
    · exact (signalHome_logOnly _ _).lineStands
    · exact lineOutcome_stands 0x26 ((recallScene_leaves _ _ _).imp fun d mixer =>
        .of_lines (by rw [mixer.same]))
  · unfold deactivate
    split
    · exact .of_lines rfl
    · split
      · exact lineMarkOut_stands
      · exact lineTally_stands _ _ _
      · exact lineTally_stands _ _ _
      all_goals exact .of_lines rfl

end

/-! ### The two events -/

theorem exec_signalLineChange {n : Fin 8} {high : Bool} {s : State} (free : s.chip.resetHeld = false) :
    exec (.signalLineChange n high) s =
      .next { s with chip := lineChanges n high { s.chip with linePins := s.chip.linePins.set n high } } :=
  event_runs (s := { s with chip := setPin n high s.chip }) (k := lineChanges n high) free

theorem lineChanges_enabled {n : Fin 8} {high : Bool} {c : Chip} (on : c.tally.lines[n].enabled = true) :
    lineChanges n high c = setLine c n
      (if (high == c.tally.lines[n].activeHigh) = c.tally.lines[n].debounced then
        { c.tally.lines[n] with pendingLevel := none, debounce := none }
      else
        { c.tally.lines[n] with
          pendingLevel := some (high == c.tally.lines[n].activeHigh), debounce := some 10 }) := by
  rw [apply_ite (setLine c n)]
  exact if_pos on

/-- A line's record with its pending level debounced (R126). -/
def debouncedAt (level : Bool) (l : SignalLine) : SignalLine :=
  { l with debounced := level, pendingLevel := none, debounce := none }

section
variable {n : Fin 8} {s : State} {l : SignalLine} {level : Bool} (free : s.chip.resetHeld = false)
  (line : l = s.chip.tally.lines[n]) (on : l.enabled = true) (pending : l.pendingLevel = some level)
  (running : l.debounce.isSome = true)
include free line on pending running

theorem exec_debounceTimer : exec (.debounceTimer n) s =
    .next { s with
      chip := serveIfNew s.chip
        (lineEdge n level (debouncedAt level l) (setLine s.chip n (debouncedAt level l))) } := by
  obtain ⟨time, timer⟩ := Option.isSome_iff_exists.1 running
  have expires : debounceExpires n s.chip =
      lineEdge n level (debouncedAt level l) (setLine s.chip n (debouncedAt level l)) := by
    unfold debounceExpires
    dsimp only
    rw [← line]
    split
    · next lvl _ _ found _ =>
      obtain rfl : level = lvl := Option.some.inj (pending.symm.trans found)
      rfl
    · next other => exact absurd timer (other level time on pending)
  rw [exec_event (k := served (debounceExpires n)) free rfl, served, expires]

/-- An edge that leaves the scheduler and the paths alone is served nothing (R176). -/
theorem exec_debounceTimer_unserved {d : Chip}
    (edge : lineEdge n level (debouncedAt level l) (setLine s.chip n (debouncedAt level l)) = d)
    (sched : d.sched = s.chip.sched) (paths : d.paths = s.chip.paths) :
    exec (.debounceTimer n) s = .next { s with chip := d } := by
  rw [exec_debounceTimer free line on pending running, edge]
  exact next_unserved sched paths

/-- An action that would be refused asks for its RESULT alone (R128). -/
theorem exec_debounceTimer_refused {kind : BitVec 16} {r : ResultCode} {d : Chip}
    (edge : lineEdge n level (debouncedAt level l) (setLine s.chip n (debouncedAt level l)) =
      askResult kind 0 (.line n) r [] d)
    (sched : d.sched = s.chip.sched) (paths : d.paths = s.chip.paths) :
    exec (.debounceTimer n) s = .next { s with chip := askResult kind 0 (.line n) r [] d } :=
  exec_debounceTimer_unserved free line on pending running edge
    ((askResult_reportOnly _ _ _ _ _ _).sched.trans sched)
    ((askResult_reportOnly _ _ _ _ _ _).paths.trans paths)

theorem debounceTimer_line :
    ∃ t, exec (.debounceTimer n) s = .next t ∧ t.dram = s.dram ∧ t.intake = s.intake ∧
      t.chip.tally.lines[n].debounced = level ∧ t.chip.tally.lines[n].pendingLevel = none ∧
      t.chip.tally.lines[n].debounce = none := by
  refine ⟨_, exec_debounceTimer free line on pending running, rfl, rfl, ?_⟩
  have stands := lineEdge_stands (n := n) (level := level) (l := debouncedAt level l)
    (c := setLine s.chip n (debouncedAt level l))
  dsimp only
  rw [(serveIfNew_serveOnly _ _).tally, stands, setLine_same]
  exact ⟨rfl, rfl, rfl⟩

theorem debounceTimer_markIn (h : level = true ∧
    (l.action = .markIn ∨ l.action = .mark ∧ (l.pulse = false ∨ l.markOpen = false))) :
    (∀ r, markIn l.feeds l.category (setLine s.chip n (debouncedAt level l)) = .refused r →
      exec (.debounceTimer n) s =
        .next { s with
          chip := askResult 0x40 0 (.line n) r [] (setLine s.chip n (debouncedAt level l)) }) ∧
    (∀ r pay d, markIn l.feeds l.category (setLine s.chip n (debouncedAt level l)) = .completed r pay d →
      exec (.debounceTimer n) s =
        .next { s with
          chip :=
            if l.pulse = true ∧ l.action = .mark then
              setLine d n { d.tally.lines[n] with markOpen := true }
            else d }) := by
  have edge := lineEdge_markIn (n := n) (l := debouncedAt level l)
    (c := setLine s.chip n (debouncedAt level l)) h
  refine ⟨fun r refused => ?_, fun r pay d done => ?_⟩
  · exact exec_debounceTimer_refused free line on pending running
      (edge.trans (lineMarkIn_refused refused)) rfl rfl
  · have leaves := markIn_leaves l.feeds l.category (setLine s.chip n (debouncedAt level l))
    rw [done] at leaves
    obtain ⟨log, sched⟩ := leaves
    refine exec_debounceTimer_unserved free line on pending running (edge.trans (lineMarkIn_done done)) ?_ ?_
    · exact (apply_ite Chip.sched _ _ _).trans ((ite_self _).trans sched)
    · exact (apply_ite Chip.paths _ _ _).trans ((ite_self _).trans log.paths)

theorem debounceTimer_markOut (h : level = true ∧ (l.action = .markOut ∨
      l.action = .mark ∧ l.pulse = true ∧ l.markOpen = true) ∨
    level = false ∧ l.pulse = false ∧ l.action = .mark) {d : Chip}
    (cleared : d = markCleared n l (setLine s.chip n (debouncedAt level l))) :
    (d.tally.stack = [] →
      exec (.debounceTimer n) s = .next { s with chip := askResult 0x41 0 (.line n) .stackEmpty [] d }) ∧
    (∀ k rest, d.tally.stack = k :: rest →
      exec (.debounceTimer n) s =
        .next { s with chip := serveIfNew s.chip (closePopped k .markOut rest d) }) := by
  obtain ⟨sched, paths⟩ := markCleared_same (n := n) (l := l) (c := setLine s.chip n (debouncedAt level l))
  have edge : lineEdge n level (debouncedAt level l) (setLine s.chip n (debouncedAt level l)) =
      lineOutcome n 0x41 d (markOut d) := by
    rw [cleared]
    exact (lineEdge_markOut (l := debouncedAt level l) h).trans lineMarkOut_eq
  refine ⟨fun empty => ?_, fun k rest top => ?_⟩
  · rw [markOut_empty empty] at edge
    subst cleared
    exact exec_debounceTimer_refused free line on pending running edge sched paths
  · rw [markOut_pops top] at edge
    rw [exec_debounceTimer free line on pending running, edge]
    rfl

theorem debounceTimer_tally {f : Fin 8} {x : TallyState} (named : l.argument.toNat = f.val)
    (h : level = true ∧ l.action = .program ∧ x = .program ∨
      level = true ∧ l.action = .preview ∧ x = .preview ∨
      level = false ∧ l.pulse = false ∧ (l.action = .program ∨ l.action = .preview) ∧ x = .off) :
    (s.chip.tally.authority = .home →
      exec (.debounceTimer n) s =
        .next { s with
          chip := askResult 0x30 0 (.line n) .authority [] (setLine s.chip n (debouncedAt level l)) }) ∧
    (s.chip.tally.authority ≠ .home →
      exec (.debounceTimer n) s =
        .next { s with
          chip := serveIfNew s.chip (setTally f x (setLine s.chip n (debouncedAt level l))) }) := by
  have edge := (lineEdge_tally (n := n) (l := debouncedAt level l)
    (c := setLine s.chip n (debouncedAt level l)) h).trans (lineTally_named named (some x) none)
  refine ⟨fun home => ?_, fun van => ?_⟩
  · rw [applyTallySet_refused (c := setLine _ _ _) f none home] at edge
    exact exec_debounceTimer_refused free line on pending running edge rfl rfl
  · rw [applyTallySet_state (c := setLine _ _ _) f none van] at edge
    rw [exec_debounceTimer free line on pending running, edge]
    rfl

theorem debounceTimer_call {f : Fin 8} (up : level = true) (act : l.action = .call)
    (named : l.argument.toNat = f.val) :
    exec (.debounceTimer n) s =
      .next { s with chip := setCall f (setLine s.chip n (debouncedAt level l)) } :=
  exec_debounceTimer_unserved free line on pending running
    ((lineEdge_call (l := debouncedAt level l) up act).trans (lineTally_named named none (some true))) rfl rfl

theorem debounceTimer_scene (up : level = true) (act : l.action = .scene) :
    (∀ r, recallScene l.argument false (setLine s.chip n (debouncedAt level l)) = .refused r →
      exec (.debounceTimer n) s =
        .next { s with
          chip := askResult 0x26 0 (.line n) r [] (setLine s.chip n (debouncedAt level l)) }) ∧
    (∀ d, (∃ o, recallScene l.argument false (setLine s.chip n (debouncedAt level l)) = .begun o d) ∨
        (∃ r pay,
          recallScene l.argument false (setLine s.chip n (debouncedAt level l)) = .completed r pay d) →
      exec (.debounceTimer n) s = .next { s with chip := d }) := by
  have edge := lineEdge_scene (n := n) (l := debouncedAt level l)
    (c := setLine s.chip n (debouncedAt level l)) up act
  have leaves := recallScene_leaves l.argument false (setLine s.chip n (debouncedAt level l))
  refine ⟨fun r refused => ?_, fun d accepted => ?_⟩
  · exact exec_debounceTimer_refused free line on pending running
      (edge.trans (congrArg (lineOutcome n 0x26 _) refused)) rfl rfl
  · rcases accepted with ⟨o, begun⟩ | ⟨r, pay, done⟩
    · rw [begun] at leaves
      exact exec_debounceTimer_unserved free line on pending running
        (edge.trans (congrArg (lineOutcome n 0x26 _) begun)) leaves.sched leaves.paths
    · rw [done] at leaves
      exact exec_debounceTimer_unserved free line on pending running
        (edge.trans (congrArg (lineOutcome n 0x26 _) done)) leaves.sched leaves.paths

end

/-- Settles O40: the edge of a debounced line is one of its seven actions, or none. -/
theorem signalLines : Obligations.SignalLines := by
  refine ⟨fun h a s n on pulse low act taken line enabled kind polarity action => ?set,
    fun n high s free on => ?change, fun n s l level c free line on pending running same => ?debounce,
    fun f x c => ⟨setTally_same f x c, fun _ => ?tally⟩,
    fun t => ⟨redrive_call _, redrive_callTimer _, redrive_state _, redrive_drive _⟩⟩
  case set =>
    rw [exec_concluded (v := signalLineSet a) taken rfl,
      signalLineSet_eq line enabled kind polarity action]
    refine ⟨fun bad => ?_, fun ok => ?_⟩
    · rw [if_neg (Bool.eq_false_iff.1 bad), conclude_refused]
    · rw [if_pos ok, conclude_done]
  case change =>
    rw [exec_signalLineChange free,
      lineChanges_enabled (c := { s.chip with linePins := s.chip.linePins.set n high }) on]
  case tally => rw [setTally_feed, tallied_state]
  case debounce =>
    subst same
    exact ⟨debounceTimer_line free line on pending running,
      fun idle => exec_debounceTimer_unserved free line on pending running
        (lineEdge_nothing (l := debouncedAt level l) idle) rfl rfl,
      debounceTimer_markIn free line on pending running,
      fun d h cleared => debounceTimer_markOut free line on pending running h cleared,
      fun f x named h => debounceTimer_tally free line on pending running named h,
      fun f up act named => debounceTimer_call free line on pending running up act named,
      fun up act => (exec_debounceTimer free line on pending running).trans
        (by rw [lineEdge_signal (l := debouncedAt level l) up act]; rfl),
      debounceTimer_scene free line on pending running⟩

end Sys2Proof.Machine
end

section
/-! SUPPORT. The changes of a path's state: the record, the report, the commands they complete, and what going
down leaves (R153 to R159, R169, R178). -/

namespace Sys2Proof.Machine

/-! ### The end of a PATH RETRAIN -/

section
variable {o : Object} {c : Chip} {e : InFlight} {payload : List Byte}
  (found : c.cmd.inflight.find? (fun x => x.object == o) = some e)
include found

/-- The only entry on an object is gone with its end (R23). -/
theorem finishObject_leaves (only : ∀ x ∈ c.cmd.inflight, x.object = o → x.ident = e.ident) :
    ∀ x ∈ (finishObject o payload c).cmd.inflight, x.object ≠ o := by
  intro x stays on
  rw [finishObject_some found] at stays
  obtain ⟨y, left, same, -⟩ := settleFences_origin _ stays
  obtain ⟨z, mem, other, -, object⟩ := mem_endEntry left
  have kept : x.object = y.object := by rw [same]
  exact other (only z mem (object.trans (kept.symm.trans on)))

/-- An entry with its report-always flag asks for its RESULT (R23). -/
theorem finishObject_pending (always : e.always = true) :
    (finishObject o payload c).cmd.pendingSet.getLsbD 1 = true := by
  rw [finishObject_some found]
  exact (settleFences_grows _ _).pending 1 (endEntry_pending always payload c)

end

section
variable (p : Fin 4) {x : PathState} (c : Chip)

theorem endRetrain_stays (state : x = .training ∨ x = .negotiating) : endRetrain p x c = c := by
  rcases state with rfl | rfl <;> rfl

theorem endRetrain_ends {k : Byte}
    (state : x = .up ∧ k = 3 ∨ x = .failed ∧ k = 4 ∨ x = .disabled ∧ k = 0) :
    endRetrain p x c = finishObject (.path p) [k] c := by
  rcases state with ⟨rfl, rfl⟩ | ⟨rfl, rfl⟩ | ⟨rfl, rfl⟩ <;> rfl

theorem endRetrain_grows (x : PathState) : Grows c (endRetrain p x c) := by
  cases x with
  | training | negotiating => exact .refl c
  | up | failed | disabled => exact finishObject_grows _ _ _

end

/-! ### The tally unit's count -/

theorem tellTally_cmd (old new : PathState) (c : Chip) : (tellTally old new c).cmd = c.cmd := by
  unfold tellTally
  split
  · rfl
  · split <;> rfl

theorem tellTally_upCount (old new : PathState) (c : Chip) : (tellTally old new c).tally.upCount =
    if new = .up then c.tally.upCount + 1
    else if old = .up then c.tally.upCount - 1 else c.tally.upCount := by
  unfold tellTally
  split
  · rfl
  · split <;> rfl

theorem tellTally_left {old new : PathState} (other : new ≠ .up) (c : Chip) :
    tellTally old new c = if old = .up then pathWentDown c else c := if_neg other

/-! ### A change of state -/

/-- The part with a path's new record, the STATE report asked for and the allocation run (R153, R169). -/
def stateAsked (p : Fin 4) (reason : PathReason) (returned : Nat) (r : PathRec) (c : Chip) : Chip :=
  allocate (stateReport p c.paths[p].state reason returned r (setPath c p { r with due := [] }))

section
variable (p : Fin 4) (reason : PathReason) (n : Nat) (r : PathRec) (c : Chip)

theorem changeState_eq : changeState p reason n r c =
    endRetrain p r.state (tellTally c.paths[p].state r.state (stateAsked p reason n r c)) := rfl

theorem told_inflight :
    (tellTally c.paths[p].state r.state (stateAsked p reason n r c)).cmd.inflight = c.cmd.inflight := by
  rw [tellTally_cmd]
  exact (stateReport_reportOnly p _ reason n r _).inflight

theorem told_pending :
    (tellTally c.paths[p].state r.state (stateAsked p reason n r c)).cmd.pendingSet.getLsbD 2 = true := by
  rw [tellTally_cmd]
  exact askReport_pending (k := .path) (x := .path) rfl _ _

/-- Cause PATH is pending after a change of state (R153). -/
theorem changeState_pending : (changeState p reason n r c).cmd.pendingSet.getLsbD 2 = true :=
  (endRetrain_grows p _ r.state).pending 2 (told_pending p reason n r c)

theorem changeState_upCount : (changeState p reason n r c).tally.upCount =
    if r.state = .up then c.tally.upCount + 1
    else if c.paths[p].state = .up then c.tally.upCount - 1 else c.tally.upCount := by
  have count := congrArg TallyUnit.upCount (changeState_command p reason n r c).tally
  exact count.trans (tellTally_upCount _ _ _)

theorem changeState_capture :
    (changeState p reason n r c).feeds = c.feeds ∧ (changeState p reason n r c).rings = c.rings := by
  have command := changeState_command p reason n r c
  obtain ⟨-, feeds, rings⟩ :=
    tellTally_other c.paths[p].state r.state (allocate (setPath c p { r with due := [] }))
  exact ⟨command.feeds.trans feeds, command.rings.trans rings⟩

theorem changeState_own : (changeState p reason n r c).paths[p] =
    { r with due := [], pacingCap := pathCap r } := (changeState_path p p reason n r c).trans (if_pos rfl)

theorem pathCap_down {r : PathRec} (down : r.state ≠ .up) : pathCap r = 0 := if_neg down

/-- A record that is not UP has pacing cap 0 (R170). -/
theorem changeState_down {r : PathRec} (down : r.state ≠ .up) : (changeState p reason n r c).paths[p] =
    { r with due := [], pacingCap := 0 } := by
  rw [changeState_own, pathCap_down down]

end

/-! ### Going down -/

/-- A link whose frame has stopped; a control word goes on (R157; DESIGN CHOICE, log 15). -/
def frameStopped : Link → Link
  | .frame _ _ => .quiet
  | .quiet => .quiet
  | .word w => .word w

section
variable (p : Fin 4) (c : Chip)

theorem loseFrame_eq : loseFrame p c =
    setPath c p { c.paths[p] with link := frameStopped c.paths[p].link } := by
  have stands (h : frameStopped c.paths[p].link = c.paths[p].link) :
      setPath c p { c.paths[p] with link := frameStopped c.paths[p].link } = c := by
    rw [h]
    exact setPath_self c p
  unfold loseFrame
  split
  · next link => rw [link]; rfl
  · next link => exact (stands (by rw [link]; rfl)).symm
  · next link => exact (stands (by rw [link]; rfl)).symm

theorem makeReturnRoom_paths : (makeReturnRoom c).paths = c.paths := by
  unfold makeReturnRoom
  split
  · rfl
  · split
    · rfl
    · exact settleMember_paths _ _

theorem rejoin_paths (i : Item) : (rejoin i c).paths = c.paths := by
  cases i <;> rfl

theorem returnFragment_paths (f : Fragment) : (returnFragment f c).paths = c.paths := by
  unfold returnFragment
  split
  · exact (rejoin_paths _ _).trans (makeReturnRoom_paths c)
  · rfl

/-- Of the paths, a returned queue concerns the one it left (R178). -/
theorem returnQueue_paths : (returnQueue p c).paths = (setPath c p { c.paths[p] with queue := [] }).paths := by
  have fragments : ∀ (l : List Fragment) (d : Chip),
      (l.foldl (fun d f => returnFragment f d) d).paths = d.paths := by
    intro l
    induction l with
    | nil => exact fun d => rfl
    | cons f l ih => exact fun d => (ih _).trans (returnFragment_paths d f)
  exact fragments _ _

end

section
variable {p : Fin 4} {c : Chip} (returning : Bool) (up : c.paths[p].state = .up)
include up

/-- The record of a path that went down (R157). -/
theorem goDown_paths : (goDown p returning c).paths =
    (setPath c p (downRec { c.paths[p] with link := frameStopped c.paths[p].link, queue := [] })).paths := by
  have emptied : (if returning then returnQueue p (loseFrame p c)
      else setPath (loseFrame p c) p { (loseFrame p c).paths[p] with queue := [] }).paths =
      (setPath c p { c.paths[p] with link := frameStopped c.paths[p].link, queue := [] }).paths := by
    split
    · rw [returnQueue_paths, loseFrame_eq, setPath_set, setPath_same]
    · rw [loseFrame_eq, setPath_set, setPath_same]
  unfold goDown
  rw [if_pos up]
  dsimp only [setPath] at emptied ⊢
  rw [emptied]
  simp

theorem goDown_own : (goDown p returning c).paths[p] =
    downRec { c.paths[p] with link := frameStopped c.paths[p].link, queue := [] } :=
  (congrArg (·[p]) (goDown_paths returning up)).trans (setPath_same _ _ _)

theorem goDown_other (q : Fin 4) (other : q ≠ p) : (goDown p returning c).paths[q] = c.paths[q] :=
  (congrArg (·[q]) (goDown_paths returning up)).trans (setPath_other _ _ _ _ other)

end

theorem goDown_discards_sched {p : Fin 4} (c : Chip) : (goDown p false c).sched = c.sched := by
  unfold goDown
  split
  · dsimp only
    rw [if_neg Bool.false_ne_true, loseFrame_eq]
    rfl
  · rfl

theorem goDown_idle {p : Fin 4} {c : Chip} (down : c.paths[p].state ≠ .up) (returning : Bool) :
    goDown p returning c = c := if_neg down

/-! ### The states entered -/

theorem sendWord_own (p : Fin 4) (w : ControlWord) (c : Chip) : (sendWord p w c).paths[p] =
    { c.paths[p] with
      link := if c.paths[p].link = .quiet then .word w else c.paths[p].link
      due := if c.paths[p].link = .quiet then c.paths[p].due else c.paths[p].due ++ [w] } := by
  unfold sendWord
  dsimp only
  split
  · exact setPath_same _ _ _
  · exact setPath_same _ _ _

/-- The record of a path as it enters NEGOTIATING, before its OFFER (R156). -/
def negotiatingRec (r : PathRec) : PathRec :=
  { r with
    state := .negotiating, good := 0, trainingTimer := none, window := none, offerTimer := some 10,
    negotiation := some 100 }

/-- The OFFER goes out at once, or waits for the link (R156, R165). -/
theorem enterNegotiating_own (p : Fin 4) (c : Chip) : (enterNegotiating p c).paths[p] =
    { c.paths[p] with
      state := .negotiating, good := 0, trainingTimer := none, window := none, offerTimer := some 10,
      negotiation := some 100, pacingCap := 0
      link := if c.paths[p].link = .quiet then .word .offer else c.paths[p].link
      due := if c.paths[p].link = .quiet then [] else [.offer] } := by
  have entered := changeState_down p .trained 0 c (r := negotiatingRec c.paths[p])
    (show PathState.negotiating ≠ .up by decide)
  exact (sendWord_own p .offer _).trans (by rw [← negotiatingRec, entered]; rfl)

/-- The record of a path that PATH SET OFF disables (R154). -/
def disabledRec (r : PathRec) : PathRec :=
  { r with
    state := .disabled, link := .quiet, good := 0, failed := 0, errors := 0, degraded := false,
    trainingTimer := none, window := none, offerTimer := none, negotiation := none }

theorem disablePath_own (p : Fin 4) (c : Chip) : (disablePath p c).paths[p] =
    { disabledRec (goDown p true c).paths[p] with due := [], pacingCap := 0 } :=
  changeState_down p .disabled (returnCount p c) (goDown p true c)
    (r := disabledRec (goDown p true c).paths[p]) (show PathState.disabled ≠ .up by decide)

/-- Settles O48, from the record, the report and the completion that `changeState` is made of. -/
theorem pathStateChanges : Obligations.PathStateChanges := by
  refine ⟨fun p reason n r c => ?record,
    fun p reason n r c => ⟨fun state => ?stays, fun k state => ⟨?ends, ?_⟩⟩,
    fun p reason n old r c d was asked => ?report,
    fun p c => ⟨fun up => if_pos up, fun down => if_neg down, rfl⟩,
    fun p returning c up => ⟨?down, fun discards => ?_, goDown_other returning up⟩,
    fun p reason n c r same => ?states⟩
  case record =>
    obtain ⟨feeds, rings⟩ := changeState_capture p reason n r c
    exact ⟨changeState_own p reason n r c,
      fun q other => (changeState_path p q reason n r c).trans (if_neg other),
      changeState_pending p reason n r c, feeds, rings, changeState_upCount p reason n r c⟩
  case stays =>
    rw [changeState_eq, endRetrain_stays p _ state]
    exact told_inflight p reason n r c
  case ends =>
    exact ⟨_, endRetrain_ends p _ state, told_inflight p reason n r c, told_pending p reason n r c⟩
  · intro e found only
    have told := told_inflight p reason n r c
    rw [changeState_eq, endRetrain_ends p _ state]
    rw [← told] at found only ⊢
    exact ⟨finishObject_leaves found only, finishObject_pending found,
      fun none => ⟨_, rfl, told_pending p reason n r c, finishObject_noFence found none⟩⟩
  case report =>
    subst was
    obtain rfl : d = stateAsked p reason n r c := asked
    rw [changeState_eq]
    refine ⟨fun state => ?_, fun state => ?_, fun up => ?_⟩
    · rw [endRetrain_stays p _ state, tellTally_left (by rcases state with h | h <;> rw [h] <;> decide)]
    · rcases state with h | h <;> rw [h] <;> rfl
    · rw [up]
      rfl
  case down =>
    rw [goDown_own returning up]
    cases c.paths[p].link <;> rfl
  · rw [discards]
    exact goDown_discards_sched c
  case states =>
    subst same
    refine ⟨changeState_down p reason n c (r := trainingRec c.paths[p])
        (show PathState.training ≠ .up by decide),
      enterNegotiating_own p c,
      changeState_down p .attempts 0 c (show PathState.failed ≠ .up by decide),
      fun down => ?_, fun up => ?_⟩
    · rw [disablePath_own, goDown_idle down]
      rfl
    · rw [disablePath_own, goDown_own true up]
      rfl

end Sys2Proof.Machine
end

section
/-! SUPPORT. The return messages: TALLY, CALL, RATE_CAP, SIGNAL and CLIP_REQUEST, their effects and their
reports (R123, R149, R166, R167, R180). -/

namespace Sys2Proof.Machine

/-! ### What every serve keeps -/

/-- A property that each of a serve's doings keeps (R176). -/
structure ServeClosed (P : Chip → Prop) : Prop where
  queues : ∀ (c : Chip) (audio : List AudioItem) (label : List LabelItem) (live : List LiveItem)
    (clipQ : List ClipItem) (returns : List ReturnEntry), P c →
      P { c with
        sched.audio := audio, sched.label := label, sched.live := live, sched.clipQ := clipQ,
        sched.returns := returns }
  reads : ∀ (c : Chip) (reads : List OwnRead), P c → P { c with mem.ownReads := reads }
  member : ∀ (i : Item) (c : Chip), P c → P (settleMember i c)
  fragment : ∀ (p : Fin 4) (cls : UplinkClass) (i : Item) (a o t k : Nat) (l : List Byte) (c : Chip),
    P c → P (hand p cls i a o t k l c)
  handed : ∀ (n k : Nat) (c : Chip), P c → P (clipHanded n k c)

section
variable {P : Chip → Prop} (closed : ServeClosed P) {c : Chip}
include closed

theorem ServeClosed.aged (fuel : Nat) (h : P c) : P (ageLive fuel c) := by
  induction fuel generalizing c with
  | zero => exact h
  | succ fuel ih =>
    rw [ageLive]
    split
    · exact h
    · split
      · exact ih (closed.member _ _ (closed.queues c _ _ _ _ _ h))
      · exact h

theorem ServeClosed.live (p : Fin 4) (i : LiveItem) (h : P c) : P (serveLive p i c) := by
  unfold serveLive
  exact closed.member _ _ (closed.fragment _ _ _ _ _ _ _ _ _ (closed.queues c _ _ _ _ _ h))

theorem ServeClosed.once (h : P c) : P (serveOnce c).1 := by
  unfold serveOnce
  split
  · exact h
  · split
    · exact closed.member _ _ (closed.fragment _ _ _ _ _ _ _ _ _ (closed.queues c _ _ _ _ _ h))
    · split
      · exact closed.fragment _ _ _ _ _ _ _ _ _ (closed.queues c _ _ _ _ _ h)
      · split
        · exact closed.fragment _ _ _ _ _ _ _ _ _ (closed.queues c _ _ _ _ _ h)
        · have aged := closed.aged c.sched.live.length h
          dsimp only
          split
          · exact closed.live _ _ aged
          · split
            · exact aged
            · split
              · exact aged
              · exact closed.handed _ _ _
                  (closed.fragment _ _ _ _ _ _ _ _ _ (closed.queues _ _ _ _ _ _ aged))

theorem ServeClosed.loop (fuel : Nat) (h : P c) : P (serveLoop fuel c) := by
  induction fuel generalizing c with
  | zero => exact h
  | succ fuel ih =>
    have once := closed.once h
    rw [serveLoop]
    split
    · next e => rw [e] at once; exact ih once
    · next e => rw [e] at once; exact once

theorem ServeClosed.serves (b : Chip) (h : P c) : P (serveIfNew b c) := by
  unfold serveIfNew
  split
  · exact h
  · exact closed.reads _ _ (closed.loop _ h)

end

/-- A pending cause stays pending, and the rate cap stands (R33, R180). -/
theorem standing_serveClosed (n : Nat) (cap : Option Nat) : ServeClosed fun d =>
    d.cmd.pendingSet.getLsbD n = true ∧ d.sched.rateCap = cap where
  queues _ _ _ _ _ _ h := h
  reads _ _ h := h
  member i c h := by
    rw [settleMember_sched]
    refine ⟨?_, h.2⟩
    unfold settleMember
    split
    · split
      · exact h.1
      · exact h.1
    all_goals exact h.1
  fragment p cls i a o t k l c h := by
    unfold hand beginTransmission
    dsimp only
    split
    · split <;> exact h
    · exact h
  handed n k c h := by
    unfold clipHanded
    split
    · exact h
    · split
      · exact h
      · split
        · refine ⟨askReport_keeps_pending _ _ _ _ h.1, ?_⟩
          rw [(askReport_reportOnly _ _ _).sched]
          exact h.2
        · exact h

/-- A HOME report and the serve after it leave the filter, the tallies and the rate cap, and cause HOME is
pending (R176, R180). -/
theorem homeReport_served (b c : Chip) (body : List Byte) :
    (serveIfNew b (askReport .home body c)).filter = c.filter ∧
    (serveIfNew b (askReport .home body c)).tally = c.tally ∧
    (serveIfNew b (askReport .home body c)).sched.rateCap = c.sched.rateCap ∧
    (serveIfNew b (askReport .home body c)).cmd.pendingSet.getLsbD 6 = true := by
  have report := askReport_reportOnly .home body c
  have serves := serveIfNew_serveOnly b (askReport .home body c)
  obtain ⟨pending, cap⟩ := (standing_serveClosed 6 c.sched.rateCap).serves b (c := askReport .home body c)
    ⟨askReport_pending (k := .home) (x := .home) rfl body c, by rw [report.sched]⟩
  exact ⟨by rw [serves.same]; exact report.filter, serves.tally.trans report.tally, cap, pending⟩

/-! ### The receipt of a message -/

/-- The part after a good unit on an UP path (R158). -/
def heardOn (p : Fin 4) (c : Chip) : Chip := setPath c p { c.paths[p] with silence := some 250 }

/-- The part as a message that passed the filter finds it (R158, R166). -/
def filtered (p : Fin 4) (g : ReturnFilter) (c : Chip) : Chip := { heardOn p c with filter := g }

section
variable {p : Fin 4} {session number : BitVec 32} {body : List Byte} {c : Chip}
  (up : c.paths[p].state = .up) (fits : body.length ≤ dataLimit c.paths[p])
include up fits

theorem messageReceived_up (ok : Bool) (take : Chip → Chip) :
    messageReceived p session number body ok take c =
      if c.paths[p].level = 2 ∧ ok = true then
        match filterTake c.filter session number with
        | none => heardOn p c
        | some f => take (filtered p f c)
      else heardOn p c := by
  have full : fullLevel (heardOn p c) p = (c.paths[p].level == 2) := by
    rw [fullLevel, heardOn, setPath_same]
    dsimp only
    rw [up]
    rfl
  unfold messageReceived
  rw [if_neg (Nat.not_lt.2 fits), heard, if_pos up]
  dsimp only
  rw [← heardOn, full]
  simp only [Bool.and_eq_true, beq_iff_eq]
  rfl

theorem messageReceived_taken {g : ReturnFilter} (level : c.paths[p].level = 2)
    (taken : filterTake c.filter session number = some g) {ok : Bool} (whole : ok = true)
    (take : Chip → Chip) :
    messageReceived p session number body ok take c = take (filtered p g c) := by
  rw [messageReceived_up up fits, if_pos ⟨level, whole⟩, taken]

/-- A message on a level-1 path, or one that the filter refuses, is a good unit and no more (R158, R160,
R166). -/
theorem messageReceived_dropped
    (none : c.paths[p].level ≠ 2 ∨ filterTake c.filter session number = none) (ok : Bool)
    (take : Chip → Chip) : messageReceived p session number body ok take c = heardOn p c := by
  rw [messageReceived_up up fits]
  split
  · next full => rw [none.resolve_left (not_not.2 full.1)]
  · rfl

end

/-! ### TALLY -/

/-- The state that a byte of a TALLY body names (R187). -/
def tallyNamed (b : Byte) : TallyState := (tallyOf b).getD .off

theorem tallyNamed_some {b : Byte} (range : b.toNat ≤ 2) : tallyOf b = some (tallyNamed b) := by
  obtain ⟨x, read⟩ := Option.isSome_iff_exists.1 ((tallyOf_isSome b).2 range)
  rw [tallyNamed, read]
  rfl

theorem tallyStates_some {body : List Byte} (range : ∀ b ∈ body.take 8, b.toNat ≤ 2) :
    tallyStates body = some ((body.take 8).map tallyNamed) := by
  have read : ∀ l : List Byte, (∀ b ∈ l, b.toNat ≤ 2) → l.mapM tallyOf = some (l.map tallyNamed) := by
    intro l
    induction l with
    | nil => exact fun _ => rfl
    | cons b l ih =>
      intro range
      obtain ⟨head, tail⟩ := List.forall_mem_cons.1 range
      rw [List.mapM_cons, tallyNamed_some head, ih tail]
      rfl
  exact read _ range

/-- Beside the tallies and the clip log, tally states concern nothing (R123). -/
structure StatesOnly (c d : Chip) : Prop where
  filter : d.filter = c.filter
  authority : d.tally.authority = c.tally.authority
  feeds : d.feeds = c.feeds
  rings : d.rings = c.rings

theorem StatesOnly.trans {a b c : Chip} (h : StatesOnly a b) (k : StatesOnly b c) : StatesOnly a c :=
  ⟨k.filter.trans h.filter, k.authority.trans h.authority, k.feeds.trans h.feeds, k.rings.trans h.rings⟩

theorem setTally_statesOnly (f : Fin 8) (x : TallyState) (c : Chip) : StatesOnly c (setTally f x c) :=
  have log := setTally_logOnly f x c
  ⟨log.filter, log.authority, log.feeds, log.rings⟩

/-- Tally states set one after another (R117, R123). -/
def setTallies (l : List (Fin 8 × TallyState)) (c : Chip) : Chip := l.foldl (fun c x => setTally x.1 x.2 c) c

theorem setTallies_statesOnly (l : List (Fin 8 × TallyState)) (c : Chip) : StatesOnly c (setTallies l c) := by
  induction l generalizing c with
  | nil => exact ⟨rfl, rfl, rfl, rfl⟩
  | cons x l ih => exact (setTally_statesOnly x.1 x.2 c).trans (ih _)

theorem setTallies_other {l : List (Fin 8 × TallyState)} {f : Fin 8} (none : f ∉ l.map (·.1)) (c : Chip) :
    (setTallies l c).tally.feeds[f] = c.tally.feeds[f] := by
  induction l generalizing c with
  | nil => rfl
  | cons x l ih =>
    obtain ⟨other, none⟩ := not_or.1 (List.mem_cons.not.1 none)
    exact (ih none _).trans (setTally_other _ _ _ _ other)

theorem setTallies_state {l : List (Fin 8 × TallyState)} {f : Fin 8} {x : TallyState}
    (once : (l.map (·.1)).Nodup) (mem : (f, x) ∈ l) (c : Chip) :
    (setTallies l c).tally.feeds[f].state = x := by
  induction l generalizing c with
  | nil => cases mem
  | cons y l ih =>
    obtain ⟨fresh, once⟩ := List.nodup_cons.1 once
    rcases List.mem_cons.1 mem with rfl | mem
    · exact (congrArg TallyFeed.state ((setTallies_other fresh _).trans (setTally_feed _ _ _))).trans
        (tallied_state _ _)
    · exact ih once mem _

theorem eight_get (f : Fin 8) : eight[f.val]'(by simp [eight]) = f := by
  revert f
  decide

/-- A home TALLY gives every feed the state of its byte (R123). -/
theorem applyHomeTally_state {body : List Byte} (long : 8 ≤ body.length)
    (range : ∀ b ∈ body.take 8, b.toNat ≤ 2) (c : Chip) (f : Fin 8) :
    tallyOf (body.getD f.val 0) =
      some (applyHomeTally ((body.take 8).map tallyNamed) c).tally.feeds[f].state := by
  have inside : f.val < (body.take 8).length := by rw [List.length_take]; omega
  have pair : (f, tallyNamed (body.take 8)[f.val]) ∈ eight.zip ((body.take 8).map tallyNamed) :=
    List.mem_iff_getElem.2 ⟨f.val, by simp [eight]; omega, by simp [eight_get]⟩
  have once : ((eight.zip ((body.take 8).map tallyNamed)).map (·.1)).Nodup := by
    rw [List.map_fst_zip (by simp [eight]; omega)]
    decide
  have byte : body.getD f.val 0 = (body.take 8)[f.val] := by
    rw [List.getElem_take, List.getD_eq_getElem]
  rw [byte, tallyNamed_some (range _ (List.getElem_mem inside))]
  exact congrArg some (setTallies_state once pair c).symm

/-- A home TALLY under an authority other than LOCAL is taken under authority HOME (R123). -/
theorem homeTally_taken {c : Chip} (other : c.tally.authority ≠ .van) (p : Fin 4) (number : BitVec 32)
    (states : List TallyState) : ∃ fallback, homeTally p number states c =
      homeMessageReport 0 p number true
        (applyHomeTally states { c with tally.authority := .home, tally.fallback := fallback }) := by
  unfold homeTally
  cases authority : c.tally.authority with
  | van => exact absurd authority other
  | home =>
    have same : { c with tally.authority := .home, tally.fallback := c.tally.fallback } = c := by
      rw [← authority]
    exact ⟨c.tally.fallback, by rw [same]⟩
  | homeLost => exact ⟨_, rfl⟩

theorem homeTally_ignored {c : Chip} (van : c.tally.authority = .van) (p : Fin 4) (number : BitVec 32)
    (states : List TallyState) : homeTally p number states c = homeMessageReport 0 p number false c := by
  rw [homeTally, van]

/-! ### CLIP_REQUEST -/

section
variable {c : Chip} {n : Nat}

theorem homeRequest_nak {o : RequestOutcome} {code : Nat} (outcome : requestOutcome c n = o)
    (named : nakCode o = some code) : homeRequest n c =
      askReport .home (reportBody 1 (leNat16 n ++ [byteOf (outcomeCode o)]))
        (joinLabel
          { kind := 1, number := n, data := be16 (BitVec.ofNat 16 n) ++ [byteOf code], cursor := 0 } c) := by
  unfold homeRequest
  rw [outcome]
  dsimp only
  rw [named]
  cases o with
  | sending => cases named
  | ignored => cases named
  | nakBusy | nakNotReady | nakGone => rfl

theorem homeRequest_ignored (outcome : requestOutcome c n = .ignored) : homeRequest n c =
    askReport .home (reportBody 1 (leNat16 n ++ [1])) c := by
  rw [homeRequest, outcome]
  rfl

theorem homeRequest_sends {k : Clip} (outcome : requestOutcome c n = .sending)
    (found : findClip c n = some k) : homeRequest n c =
      askReport .home (reportBody 1 (leNat16 n ++ [0])) (sendClip k c) := by
  rw [homeRequest, outcome, found]
  rfl

theorem requestOutcome_gone (h : findClip c n = none ∨
    ∃ k, findClip c n = some k ∧ (k.state = .released ∨ k.state = .lapsed)) :
    requestOutcome c n = .nakGone := by
  unfold requestOutcome
  rcases h with none | ⟨k, found, state | state⟩
  · rw [none]
  · rw [found]; dsimp only; rw [state]
  · rw [found]; dsimp only; rw [state]

section
variable {k : Clip} (found : findClip c n = some k)
include found

theorem requestOutcome_open (state : k.state = .opened) : requestOutcome c n = .nakNotReady := by
  unfold requestOutcome
  rw [found]
  dsimp only
  rw [state]

theorem requestOutcome_ignored (state : k.state = .sending) : requestOutcome c n = .ignored := by
  unfold requestOutcome
  rw [found]
  dsimp only
  rw [state]

variable (state : k.state = .closed ∨ k.state = .sent)
include state

theorem requestOutcome_checked :
    requestOutcome c n = if (sendCheck c k).isSome then .nakBusy else .sending := by
  unfold requestOutcome
  rw [found]
  dsimp only
  rcases state with state | state <;> rw [state]

/-- A clip that may be sent is refused in the trim session and at 16 clips queued (R144). -/
theorem sendCheck_isSome :
    (sendCheck c k).isSome = true ↔ inTrim c n = true ∨ 16 ≤ c.sched.clipQ.length := by
  unfold sendCheck
  rw [findClip_number found, if_neg (not_not.2 state)]
  split
  · next trim => simp [trim]
  · next free =>
    split
    · next full => simpa using .inr full
    · next room => simpa [free, Config.clipQueueLimit] using room

theorem requestOutcome_busy (busy : inTrim c n = true ∨ 16 ≤ c.sched.clipQ.length) :
    requestOutcome c n = .nakBusy := by
  rw [requestOutcome_checked found state, if_pos ((sendCheck_isSome found state).2 busy)]

theorem requestOutcome_sending (free : inTrim c n = false) (room : c.sched.clipQ.length < 16) :
    requestOutcome c n = .sending := by
  have passes : ¬(sendCheck c k).isSome = true := fun check =>
    ((sendCheck_isSome found state).1 check).elim (fun trim => Bool.false_ne_true (free.symm.trans trim))
      (Nat.not_le.2 room)
  rw [requestOutcome_checked found state, if_neg passes]

end

/-- Bytes in all of a clip's send (R144). -/
def sendTotal (c : Chip) (k : Clip) : Nat := ((clipUnits c k).map (·.length)).sum

/-- A clip with bytes becomes SENDING and joins the CLIP queue (R144, R174). -/
theorem sendClip_bytes {k : Clip} (bytes : sendTotal c k ≠ 0) : sendClip k c =
    { mapClip k.number (fun x => { x with state := .sending, progress := some (sendTotal c k, 0) }) c with
      sched.clipQ := c.sched.clipQ ++ [{ clip := k.number, units := clipUnits c k }] } := if_neg bytes

theorem mapClip_mapClip (n : Nat) (g h : Clip → Clip) (number : ∀ x, (g x).number = x.number) (c : Chip) :
    mapClip n h (mapClip n g c) = mapClip n (fun x => h (g x)) c := by
  have list : ((fun x : Clip => if x.number = n then h x else x) ∘
      fun x : Clip => if x.number = n then g x else x) = fun x => if x.number = n then h (g x) else x := by
    funext x
    by_cases named : x.number = n <;> simp [named, number]
  simp only [mapClip, List.map_map, list]

/-- A clip with no byte to send is SENT at once (R145; DEDUCED, log 31). -/
theorem sendClip_empty {k : Clip} (found : findClip c n = some k) (none : sendTotal c k = 0) :
    sendClip k c = askReport .clip (reportBody 2 (leNat16 n))
      (mapClip n (fun x => { x with state := .sent, progress := Option.none }) c) := by
  have number := findClip_number found
  have begun : findClip (mapClip n (fun x => { x with state := .sending, progress := some (0, 0) }) c) n =
      some { k with state := .sending, progress := some (0, 0) } := findClip_mapClip found fun _ => rfl
  have sends : sendClip k c =
      clipHanded n 0 (mapClip n (fun x => { x with state := .sending, progress := some (0, 0) }) c) := by
    rw [sendTotal] at none
    rw [sendClip, none, number]
    exact if_pos rfl
  rw [sends, clipHanded, begun]
  dsimp only
  rw [if_pos (Nat.le_refl 0),
    mapClip_mapClip n (fun x => { x with state := .sending, progress := some (0, 0) }) _ fun _ => rfl]

end

/-! ### The five rows -/

section
variable {p : Fin 4} {session number : BitVec 32} {body : List Byte} {s : State}
  (free : s.chip.resetHeld = false)
include free

theorem exec_message {i : Instr} {ok : Bool} {take : Chip → Chip}
    (row : exec i s = event s (served (messageReceived p session number body ok take))) :
    exec i s =
      .next { s with
        chip := serveIfNew s.chip (messageReceived p session number body ok take s.chip) } :=
  exec_event free row

variable (up : s.chip.paths[p].state = .up) (fits : body.length ≤ dataLimit s.chip.paths[p])
include up fits

theorem exec_message_dropped {i : Instr} {ok : Bool} {take : Chip → Chip}
    (row : exec i s = event s (served (messageReceived p session number body ok take)))
    (none : s.chip.paths[p].level ≠ 2 ∨ filterTake s.chip.filter session number = none) :
    exec i s = .next { s with chip := serveIfNew s.chip (heardOn p s.chip) } := by
  rw [exec_message free row, messageReceived_dropped up fits none]

variable {g : ReturnFilter} (level : s.chip.paths[p].level = 2)
  (taken : filterTake s.chip.filter session number = some g)
include level taken

theorem exec_message_taken {i : Instr} {ok : Bool} {take : Chip → Chip}
    (row : exec i s = event s (served (messageReceived p session number body ok take)))
    (whole : ok = true) :
    exec i s = .next { s with chip := serveIfNew s.chip (take (filtered p g s.chip)) } := by
  rw [exec_message free row, messageReceived_taken up fits level taken whole]

theorem exec_tallyMessage (long : 8 ≤ body.length) (range : ∀ b ∈ body.take 8, b.toNat ≤ 2) :
    exec (.tallyMessage p session number body) s =
      .next { s with
        chip := serveIfNew s.chip
          (takeTally p number ((body.take 8).map tallyNamed) (filtered p g s.chip)) } := by
  have states := tallyStates_some range
  rw [exec_message_taken free up fits level taken (i := .tallyMessage p session number body)
    (take := takeTally p number ((tallyStates body).getD [])) rfl (by simp [long, states]), states]
  rfl

theorem exec_tallyMessage_stale (long : 8 ≤ body.length) (range : ∀ b ∈ body.take 8, b.toNat ≤ 2)
    (old : stale g.lastTally number = true) :
    exec (.tallyMessage p session number body) s =
      .next { s with chip := serveIfNew s.chip (filtered p g s.chip) } := by
  rw [exec_tallyMessage free up fits level taken long range, takeTally]
  exact congrArg (fun d => (.next { s with chip := serveIfNew s.chip d } : Out)) (if_pos old)

theorem exec_tallyMessage_ignored (long : 8 ≤ body.length) (range : ∀ b ∈ body.take 8, b.toNat ≤ 2)
    (new : stale g.lastTally number = false) (van : s.chip.tally.authority = .van) :
    exec (.tallyMessage p session number body) s =
      .next { s with
        chip := serveIfNew s.chip
          (askReport .home (reportBody 0 ([0, byteOf p.val] ++ le32 number ++ [1]))
            (filtered p { g with lastTally := some number } s.chip)) } := by
  have ignored := homeTally_ignored (c := filtered p { g with lastTally := some number } s.chip) van p number
    ((body.take 8).map tallyNamed)
  rw [exec_tallyMessage free up fits level taken long range, takeTally]
  exact congrArg (fun d => (.next { s with chip := serveIfNew s.chip d } : Out))
    ((if_neg (Bool.eq_false_iff.1 new)).trans ignored)

theorem exec_tallyMessage_home (long : 8 ≤ body.length) (range : ∀ b ∈ body.take 8, b.toNat ≤ 2)
    (new : stale g.lastTally number = false) (other : s.chip.tally.authority ≠ .van) :
    ∃ d, exec (.tallyMessage p session number body) s =
        .next { s with
          chip := serveIfNew s.chip
            (askReport .home (reportBody 0 ([0, byteOf p.val] ++ le32 number ++ [0])) d) } ∧
      d.filter = { g with lastTally := some number } ∧ d.tally.authority = .home ∧
      d.feeds = s.chip.feeds ∧ d.rings = s.chip.rings ∧
      ∀ f : Fin 8, tallyOf (body.getD f.val 0) = some d.tally.feeds[f].state := by
  obtain ⟨fallback, home⟩ := homeTally_taken
    (c := filtered p { g with lastTally := some number } s.chip) other p number ((body.take 8).map tallyNamed)
  have only := setTallies_statesOnly (eight.zip ((body.take 8).map tallyNamed))
    { filtered p { g with lastTally := some number } s.chip with
      tally.authority := .home, tally.fallback := fallback }
  refine ⟨_, ?_, only.filter, only.authority, only.feeds, only.rings, applyHomeTally_state long range _⟩
  rw [exec_tallyMessage free up fits level taken long range, takeTally]
  exact congrArg (fun d => (.next { s with chip := serveIfNew s.chip d } : Out))
    ((if_neg (Bool.eq_false_iff.1 new)).trans home)

theorem exec_callMessage (whole : 1 ≤ body.length) : exec (.callMessage p session number body) s =
    .next { s with
      chip := serveIfNew s.chip (homeCall p number (body.getD 0 0) (filtered p g s.chip)) } :=
  exec_message_taken free up fits level taken (take := homeCall p number (body.getD 0 0)) rfl
    (decide_eq_true whole)

theorem exec_callMessage_feed (whole : 1 ≤ body.length) {f : Fin 8} (named : (body.getD 0 0).toNat = f.val) :
    exec (.callMessage p session number body) s =
      .next { s with
        chip := serveIfNew s.chip
          (askReport .home (reportBody 0 ([1, byteOf p.val] ++ le32 number ++ [0]))
            (setCall f (filtered p g s.chip))) } := by
  rw [exec_callMessage free up fits level taken whole, homeCall, index8_some named]
  rfl

theorem exec_callMessage_ignored (whole : 1 ≤ body.length) (above : 8 ≤ (body.getD 0 0).toNat) :
    exec (.callMessage p session number body) s =
      .next { s with
        chip := serveIfNew s.chip
          (askReport .home (reportBody 0 ([1, byteOf p.val] ++ le32 number ++ [1]))
            (filtered p g s.chip)) } := by
  rw [exec_callMessage free up fits level taken whole, homeCall, index8_none above]
  rfl

theorem exec_signalMessage (whole : 1 ≤ body.length) : exec (.signalMessage p session number body) s =
    .next { s with
      chip := serveIfNew s.chip
        (askReport .home (reportBody 3 [body.getD 0 0, byteOf p.val]) (filtered p g s.chip)) } :=
  exec_message_taken free up fits level taken
    (take := askReport .home (reportBody 3 [body.getD 0 0, byteOf p.val])) rfl (decide_eq_true whole)

theorem exec_rateCap (whole : 4 ≤ body.length) : exec (.rateCap p session number body) s =
    .next { s with
      chip := serveIfNew s.chip (takeRateCap p number (beNat (body.take 4)) (filtered p g s.chip)) } :=
  exec_message_taken free up fits level taken (take := takeRateCap p number (beNat (body.take 4))) rfl
    (decide_eq_true whole)

theorem exec_rateCap_stale (whole : 4 ≤ body.length) (old : stale g.lastRateCap number = true) :
    exec (.rateCap p session number body) s =
      .next { s with chip := serveIfNew s.chip (filtered p g s.chip) } := by
  rw [exec_rateCap free up fits level taken whole, takeRateCap]
  exact congrArg (fun d => (.next { s with chip := serveIfNew s.chip d } : Out)) (if_pos old)

theorem exec_rateCap_new (whole : 4 ≤ body.length) (new : stale g.lastRateCap number = false) {v : Nat}
    (value : v = min 400000 (beNat (body.take 4))) :
    exec (.rateCap p session number body) s =
      .next { s with
        chip := serveIfNew s.chip
          (askReport .home (reportBody 2 (byteOf p.val :: (le32 number ++ leNat32 v)))
            { filtered p { g with lastRateCap := some number } s.chip with
              sched.rateCap := if v = 0 then none else some v }) } := by
  subst value
  rw [exec_rateCap free up fits level taken whole, takeRateCap]
  exact congrArg (fun d => (.next { s with chip := serveIfNew s.chip d } : Out))
    (if_neg (Bool.eq_false_iff.1 new))

theorem exec_clipRequest (whole : 2 ≤ body.length) : exec (.clipRequest p session number body) s =
    .next { s with
      chip := serveIfNew s.chip (homeRequest (beNat (body.take 2)) (filtered p g s.chip)) } :=
  exec_message_taken free up fits level taken (take := homeRequest (beNat (body.take 2))) rfl
    (decide_eq_true whole)

end

section
variable {p : Fin 4} {session number : BitVec 32} {body : List Byte} {s : State} {g : ReturnFilter}
  (free : s.chip.resetHeld = false) (up : s.chip.paths[p].state = .up)
  (level : s.chip.paths[p].level = 2) (fits : body.length ≤ dataLimit s.chip.paths[p])
  (taken : filterTake s.chip.filter session number = some g)
include free up level fits taken

/-- A CLIP_REQUEST is answered by its outcome (R149). -/
theorem exec_clipRequest_answers {n : Nat} (named : n = beNat (body.take 2)) (whole : 2 ≤ body.length)
    {d : Chip} (answer : homeRequest n (filtered p g s.chip) = d) :
    exec (.clipRequest p session number body) s = .next { s with chip := serveIfNew s.chip d } := by
  rw [exec_clipRequest free up fits level taken whole, ← named, answer]

/-- A CLIP_REQUEST of a clip that may be sent: BUSY, or the send (R144, R149). -/
theorem exec_clipRequest_sends {n : Nat} (named : n = beNat (body.take 2)) (whole : 2 ≤ body.length)
    {k : Clip} (found : findClip s.chip n = some k) (state : k.state = .closed ∨ k.state = .sent)
    (quiet : inTrim s.chip n = false) (room : s.chip.sched.clipQ.length < 16) :
    exec (.clipRequest p session number body) s =
      .next { s with
        chip := serveIfNew s.chip
          (askReport .home (reportBody 1 (leNat16 n ++ [0])) (sendClip k (filtered p g s.chip))) } :=
  exec_clipRequest_answers free up level fits taken named whole
    (homeRequest_sends (c := filtered p g s.chip)
      (requestOutcome_sending (c := filtered p g s.chip) found state quiet room) found)

end

/-- Settles O57: each message's exact effect, and from it what stands after the serve. -/
theorem messagesDispatched : Obligations.MessagesDispatched := by
  refine ⟨fun p session number body s g free up level fits taken =>
      ⟨fun long range van new => ?ignored, fun long range other new => ?tally, fun f whole named => ?call,
        fun whole new => ?rateCap, fun whole => ?signal, fun whole none => ?request⟩,
    fun p session number body s g on free up level fits taken same => ?exact,
    fun p session number body s i free up fits none row => ?dropped⟩
  case ignored =>
    obtain ⟨filter, tally, -, pending⟩ := homeReport_served s.chip
      (filtered p { g with lastTally := some number } s.chip)
      (reportBody 0 ([0, byteOf p.val] ++ le32 number ++ [1]))
    exact ⟨_, exec_tallyMessage_ignored free up fits level taken long range new van, rfl, filter, tally, pending⟩
  case tally =>
    obtain ⟨d, effect, filterD, authority, -, -, states⟩ :=
      exec_tallyMessage_home free up fits level taken long range new other
    obtain ⟨filter, tally, -, pending⟩ := homeReport_served s.chip d
      (reportBody 0 ([0, byteOf p.val] ++ le32 number ++ [0]))
    refine ⟨_, effect, rfl, filter.trans filterD, ?_, pending, fun f => ?_⟩
    · exact (congrArg TallyUnit.authority tally).trans authority
    · exact (states f).trans (congrArg (fun t : TallyUnit => some t.feeds[f].state) tally.symm)
  case call =>
    obtain ⟨filter, tally, -, pending⟩ := homeReport_served s.chip (setCall f (filtered p g s.chip))
      (reportBody 0 ([1, byteOf p.val] ++ le32 number ++ [0]))
    have feed := calledAs_set f (filtered p g s.chip)
    refine ⟨_, exec_callMessage_feed free up fits level taken whole named, rfl, filter, ?_, ?_, pending⟩
    · dsimp only
      rw [tally]
      exact (congrArg TallyFeed.call feed).trans (redrive_call _)
    · dsimp only
      rw [tally]
      exact (congrArg TallyFeed.callTimer feed).trans (redrive_callTimer _)
  case rateCap =>
    obtain ⟨filter, -, cap, pending⟩ := homeReport_served s.chip
      { filtered p { g with lastRateCap := some number } s.chip with
        sched.rateCap := if min 400000 (beNat (body.take 4)) = 0 then none
          else some (min 400000 (beNat (body.take 4))) }
      (reportBody 2 (byteOf p.val :: (le32 number ++ leNat32 (min 400000 (beNat (body.take 4))))))
    refine ⟨_, exec_rateCap_new free up fits level taken whole new rfl, rfl, filter, cap.trans ?_, pending⟩
    exact if_congr (by omega) rfl rfl
  case signal =>
    obtain ⟨filter, tally, -, pending⟩ := homeReport_served s.chip (filtered p g s.chip)
      (reportBody 3 [body.getD 0 0, byteOf p.val])
    exact ⟨_, exec_signalMessage free up fits level taken whole, rfl, filter, tally, pending⟩
  case request =>
    have answer := homeRequest_nak (c := filtered p g s.chip) (o := .nakGone) (code := 1)
      (requestOutcome_gone (c := filtered p g s.chip) (.inl none)) rfl
    have effect := exec_clipRequest_answers free up level fits taken rfl whole answer
    refine ⟨_, effect, rfl, ?_⟩
    obtain ⟨filter, -, -, pending⟩ := homeReport_served s.chip
      (joinLabel
        { kind := 1, number := beNat (body.take 2)
          data := be16 (BitVec.ofNat 16 (beNat (body.take 2))) ++ [byteOf 1], cursor := 0 }
        (filtered p g s.chip))
      (reportBody 1 (leNat16 (beNat (body.take 2)) ++ [byteOf (outcomeCode .nakGone)]))
    exact ⟨filter.trans (joinLabel_logOnly _ _).filter, pending⟩
  case exact =>
    subst same
    refine ⟨fun long range => ⟨exec_tallyMessage_stale free up fits level taken long range,
        exec_tallyMessage_ignored free up fits level taken long range,
        exec_tallyMessage_home free up fits level taken long range⟩,
      fun whole => ⟨fun f => exec_callMessage_feed free up fits level taken whole,
        exec_callMessage_ignored free up fits level taken whole,
        exec_signalMessage free up fits level taken whole⟩,
      fun v whole value => ⟨exec_rateCap_stale free up fits level taken whole,
        fun new => exec_rateCap_new free up fits level taken whole new value⟩,
      fun n answer nak whole named answers naks => ?_⟩
    subst answers naks
    have request := fun {d} => exec_clipRequest_answers free up level fits taken named whole (d := d)
    refine ⟨fun gone => request (homeRequest_nak (o := .nakGone) (code := 1)
        (requestOutcome_gone (c := filtered p g s.chip) gone) rfl),
      fun k found => ⟨fun state => ?_, fun state => ?_, fun state => ⟨fun busy => ?_,
        fun total quiet room sum => ⟨fun bytes => ?_, fun empty => ?_⟩⟩⟩⟩
    · exact request (homeRequest_nak (o := .nakNotReady) (code := 0)
        (requestOutcome_open (c := filtered p g s.chip) found state) rfl)
    · exact request (homeRequest_ignored (requestOutcome_ignored (c := filtered p g s.chip) found state))
    · exact request (homeRequest_nak (o := .nakBusy) (code := 2)
        (requestOutcome_busy (c := filtered p g s.chip) found state busy) rfl)
    · obtain rfl : total = sendTotal (filtered p g s.chip) k := sum
      rw [exec_clipRequest_sends free up level fits taken named whole found state quiet room,
        sendClip_bytes bytes, findClip_number found]
      rfl
    · rw [exec_clipRequest_sends free up level fits taken named whole found state quiet room,
        sendClip_empty (c := filtered p g s.chip) found (sum.symm.trans empty)]
      rfl
  case dropped =>
    rcases row with rfl | rfl | rfl | rfl | rfl
    · exact exec_message_dropped free up fits (take := takeTally p number ((tallyStates body).getD [])) rfl none
    · exact exec_message_dropped free up fits (take := homeCall p number (body.getD 0 0)) rfl none
    · exact exec_message_dropped free up fits (take := homeRequest (beNat (body.take 2))) rfl none
    · exact exec_message_dropped free up fits (take := takeRateCap p number (beNat (body.take 4))) rfl none
    · exact exec_message_dropped free up fits
        (take := askReport .home (reportBody 3 [body.getD 0 0, byteOf p.val])) rfl none

end Sys2Proof.Machine
end

section
/-! SUPPORT. The order of sequences, and the return filter (R134, R166). -/

namespace Sys2Proof.Machine

/-! ### The order of sequences -/

@[simp] theorem seqBefore_self (a : Count32) : seqBefore a a = false := by simp [seqBefore]

theorem seqBefore_asymm {a b : Count32} (h : seqBefore a b = true) : seqBefore b a = false := by
  simp only [seqBefore, Bool.and_eq_true, decide_eq_true_eq, Bool.and_eq_false_iff,
    decide_eq_false_iff_not] at h ⊢
  bv_omega

theorem seqBefore_ne {a b : Count32} (h : seqBefore a b = true) : a ≠ b := by
  rintro rfl
  rw [seqBefore_self] at h
  exact absurd h Bool.false_ne_true

/-- From a number that is not ahead of `h` to one that is, the distance runs through `h` (R134). -/
theorem distance_through {h m n : Count32} (ahead : seqBefore h m = true) (behind : seqBefore h n = false) :
    (m - n).toNat = (m - h).toNat + (h - n).toNat := by
  simp only [seqBefore, Bool.and_eq_true, decide_eq_true_eq, Bool.and_eq_false_iff,
    decide_eq_false_iff_not] at ahead behind
  bv_omega

/-! ### The return filter -/

/-- The 32 numbers remembered, after the number `k` below the highest was taken (R166). -/
theorem markTaken_get {k : Nat} (taken : BitVec 32) (inside : k < 32) (j : Nat) :
    (taken ||| BitVec.ofNat 32 (2 ^ k)).getLsbD j = (taken.getLsbD j || decide (j = k)) := by
  simp only [BitVec.getLsbD_or, BitVec.getLsbD_ofNat, Nat.testBit_two_pow]
  by_cases same : j = k
  · simp [same, inside]
  · simp [same, Ne.symm same]

/-- The 32 numbers remembered, after the highest rose by `d`: what stood at `k` stands at `d + k` (R166). -/
theorem shiftTaken_get (taken : BitVec 32) {d k : Nat} (inside : d + k < 32) :
    ((taken <<< min 32 d) ||| 1).getLsbD (d + k) = (taken.getLsbD k || decide (d + k = 0)) := by
  have short : min 32 d = d := by omega
  have low : (1 : BitVec 32).getLsbD (d + k) = decide (d + k = 0) := by
    simp [BitVec.getLsbD_one]
  rw [BitVec.getLsbD_or, short, low, BitVec.getLsbD_shiftLeft]
  simp [inside]

section
variable {f g : ReturnFilter} {session number : BitVec 32}

theorem filterTake_fresh (other : f.session ≠ some session) : filterTake f session number =
    some { session := some session, highest := number, taken := 1, lastTally := none,
           lastRateCap := none } := if_neg other

section
variable (same : f.session = some session)
include same

theorem filterTake_ahead (ahead : seqBefore f.highest number = true) : filterTake f session number =
    some { f with
      highest := number
      taken := (f.taken <<< min 32 (number - f.highest).toNat) ||| 1 } := by
  rw [filterTake, if_pos same, if_pos ahead]

theorem filterTake_behind (behind : seqBefore f.highest number = false) : filterTake f session number =
    if (f.highest - number).toNat < 32 ∧ f.taken.getLsbD (f.highest - number).toNat = false then
      some { f with taken := f.taken ||| BitVec.ofNat 32 (2 ^ (f.highest - number).toNat) }
    else none := by
  rw [filterTake, if_pos same, if_neg (Bool.eq_false_iff.1 behind)]

/-- What the filter refuses: a number not ahead of the highest that is too old or was taken (R166). -/
theorem filterTake_none_iff : filterTake f session number = none ↔
    seqBefore f.highest number = false ∧
      (32 ≤ (f.highest - number).toNat ∨ f.taken.getLsbD (f.highest - number).toNat = true) := by
  cases ahead : seqBefore f.highest number with
  | true => simp [filterTake_ahead same ahead]
  | false =>
    simp only [filterTake_behind same ahead, ite_eq_right_iff, reduceCtorEq, imp_false, not_and_or,
      Nat.not_lt, Bool.not_eq_false, true_and]

end

/-- Everything the taking of a message can do to the filter (R166). -/
theorem filterTake_cases (taken : filterTake f session number = some g) :
    (f.session ≠ some session ∧
      g = { session := some session, highest := number, taken := 1, lastTally := none,
            lastRateCap := none }) ∨
    (f.session = some session ∧ seqBefore f.highest number = true ∧
      g = { f with
        highest := number
        taken := (f.taken <<< min 32 (number - f.highest).toNat) ||| 1 }) ∨
    (f.session = some session ∧ seqBefore f.highest number = false ∧
      (f.highest - number).toNat < 32 ∧
      g = { f with taken := f.taken ||| BitVec.ofNat 32 (2 ^ (f.highest - number).toNat) }) := by
  by_cases same : f.session = some session
  · cases ahead : seqBefore f.highest number with
    | true =>
      rw [filterTake_ahead same ahead, Option.some_inj] at taken
      exact .inr (.inl ⟨same, rfl, taken.symm⟩)
    | false =>
      rw [filterTake_behind same ahead] at taken
      split at taken
      · next new => exact .inr (.inr ⟨same, rfl, new.1, (Option.some_inj.1 taken).symm⟩)
      · cases taken
  · rw [filterTake_fresh same, Option.some_inj] at taken
    exact .inl ⟨same, taken.symm⟩

/-- A number just taken is marked, in a session that is the filter's, and not ahead of the highest. -/
theorem filterTake_marks (taken : filterTake f session number = some g) :
    g.session = some session ∧ seqBefore g.highest number = false ∧
      g.taken.getLsbD (g.highest - number).toNat = true := by
  rcases filterTake_cases taken with ⟨-, rfl⟩ | ⟨same, -, rfl⟩ | ⟨same, behind, inside, rfl⟩
  · simp
  · simp [same]
  · exact ⟨same, behind, by rw [markTaken_get _ inside]; simp⟩

theorem filterTake_once (taken : filterTake f session number = some g) :
    filterTake g session number = none := by
  obtain ⟨session, behind, marked⟩ := filterTake_marks taken
  exact (filterTake_none_iff session).2 ⟨behind, .inr marked⟩

/-- A refused number's mark moves up with the highest, or leaves the 32 remembered (R166). -/
theorem filterTake_stays_refused {m : BitVec 32} (same : f.session = some session)
    (refused : filterTake f session number = none) (taken : filterTake f session m = some g)
    (behind : seqBefore g.highest number = false) : filterTake g session number = none := by
  obtain ⟨below, old⟩ := (filterTake_none_iff same).1 refused
  refine (filterTake_none_iff (filterTake_marks taken).1).2 ⟨behind, ?_⟩
  rcases filterTake_cases taken with ⟨other, -⟩ | ⟨-, ahead, rfl⟩ | ⟨-, -, inside, rfl⟩
  · exact absurd same other
  · dsimp only
    rw [distance_through ahead below]
    refine or_iff_not_imp_left.2 fun young => ?_
    have marked := old.resolve_left (by omega)
    rw [shiftTaken_get _ (by omega), marked, Bool.true_or]
  · exact old.imp_right fun marked => by rw [markTaken_get _ inside, marked, Bool.true_or]

end

/-- Settles O56, from what the filter refuses and from everything a taking can do. -/
theorem filterTakesOnce : Obligations.FilterTakesOnce := by
  refine ⟨fun f g session number => ⟨fun taken => ?_, filterTake_fresh⟩,
    fun f g session number m same refused taken => filterTake_stays_refused same refused taken,
    fun f session number same => ⟨fun ahead => ?_, fun behind => ⟨?_, fun g taken => ?_⟩⟩⟩
  · obtain ⟨session, -, marked⟩ := filterTake_marks taken
    exact ⟨filterTake_once taken, session, marked⟩
  · exact ⟨_, filterTake_ahead same ahead, rfl, rfl, rfl⟩
  · simp only [filterTake_none_iff same, behind, true_and]
  · rcases filterTake_cases taken with ⟨other, -⟩ | ⟨-, ahead, -⟩ | ⟨-, -, inside, rfl⟩
    · exact absurd same other
    · exact absurd (behind.symm.trans ahead) Bool.false_ne_true
    · exact ⟨rfl, fun j => markTaken_get _ inside j⟩

end Sys2Proof.Machine
end

section
/-! SUPPORT. CLIP SEND, the units it sends, and the bytes handed (R144, R145, R174). -/

namespace Sys2Proof.Machine

/-! ### CLIP SEND -/

theorem serveIfNew_clipQ {b a : Chip} (new : a.sched.clipQ ≠ b.sched.clipQ) : serveIfNew b a = serve a :=
  if_neg fun same => new same.2.1

section
variable {c : Chip} {k : Clip}

theorem sendCheck_busy (trim : inTrim c k.number = true) : sendCheck c k = some .busy := if_pos trim

section
variable (free : inTrim c k.number = false)
include free

theorem sendCheck_wrongState (closed : k.state ≠ .closed) (sent : k.state ≠ .sent) :
    sendCheck c k = some .wrongState := by
  rw [sendCheck, if_neg (Bool.eq_false_iff.1 free), if_pos (not_or.2 ⟨closed, sent⟩)]

variable (state : k.state = .closed ∨ k.state = .sent)
include state

theorem sendCheck_full (full : 16 ≤ c.sched.clipQ.length) : sendCheck c k = some .queueFull := by
  rw [sendCheck, if_neg (Bool.eq_false_iff.1 free), if_neg (not_not.2 state)]
  exact if_pos full

theorem sendCheck_passes (room : c.sched.clipQ.length < 16) : sendCheck c k = none := by
  rw [sendCheck, if_neg (Bool.eq_false_iff.1 free), if_neg (not_not.2 state)]
  exact if_neg (Nat.not_le.2 room)

end

variable {n : Nat}

theorem clipSend_noClip (none : findClip c n = none) : clipSend n c = .refused .noSuchClip := by
  rw [clipSend, none]

variable (found : findClip c n = some k)
include found

theorem clipSend_refused {r : ResultCode} (check : sendCheck c k = some r) : clipSend n c = .refused r := by
  rw [clipSend, found]
  dsimp only
  rw [check]

variable (check : sendCheck c k = none)
include check

theorem clipSend_checked : clipSend n c = .completed .done [] (serveIfNew c (sendClip k c)) := by
  rw [clipSend, found]
  dsimp only
  rw [check]

/-- The clip joins the CLIP queue, which the scheduler serves (R174, R176). -/
theorem clipSend_bytes (bytes : sendTotal c k ≠ 0) : clipSend n c = .completed .done []
    (serve
      { mapClip k.number (fun x => { x with state := .sending, progress := some (sendTotal c k, 0) }) c with
        sched.clipQ := c.sched.clipQ ++ [{ clip := k.number, units := clipUnits c k }] }) := by
  rw [clipSend_checked found check, sendClip_bytes bytes]
  exact congrArg _ (serveIfNew_clipQ (by simp))

/-- With no byte to send nothing joins a queue (DEDUCED, log 31). -/
theorem clipSend_empty (empty : sendTotal c k = 0) : clipSend n c = .completed .done []
    (askReport .clip (reportBody 2 (leNat16 k.number))
      (mapClip k.number (fun x => { x with state := .sent, progress := none }) c)) := by
  obtain rfl := findClip_number found
  have report := askReport_reportOnly .clip (reportBody 2 (leNat16 k.number))
    (mapClip k.number (fun x => { x with state := .sent, progress := none }) c)
  rw [clipSend_checked found check, sendClip_empty found empty]
  exact congrArg _ (serveIfNew_same report.sched report.paths)

end

/-! ### The units sent -/

theorem points_eq_some {x : ClipFeed} {a b : Count32} :
    points x = some (a, b) ↔ x.inSeq = some a ∧ x.outSeq = some b := by
  unfold points
  split
  · next i j => simp [i, j]
  · next bare => exact ⟨fun h => (nomatch h), fun h => absurd h.2 (bare a b h.1)⟩

theorem mem_nonBare {k : Clip} {x : ClipFeed} :
    x ∈ nonBare k ↔ x ∈ k.feeds ∧ ∃ a b, x.inSeq = some a ∧ x.outSeq = some b := by
  simp only [nonBare, List.mem_filter, Option.isSome_iff_exists, Prod.exists, points_eq_some]

theorem spanIncludes_points {x : ClipFeed} {a b : Count32} (i : x.inSeq = some a) (o : x.outSeq = some b)
    (q : Count32) : spanIncludes x q = inSpan a b q := by
  rw [spanIncludes, i, o]

/-- The queue items of one listed feed's units (R144, R174). -/
def feedUnits (c : Chip) (x : ClipFeed) : List ClipUnit :=
  (c.rings[x.feed].units.filter fun u => u.complete && spanIncludes x u.seq).map fun u =>
    { feed := x.feed, seq := u.seq, length := u.bytes, addr := codedAddr c x.feed u.start, cursor := 0 }

theorem clipUnits_eq (c : Chip) (k : Clip) : clipUnits c k = (nonBare k).flatMap (feedUnits c) := rfl

theorem mem_feedUnits {c : Chip} {x : ClipFeed} {u : ClipUnit} : u ∈ feedUnits c x ↔
    ∃ r ∈ c.rings[x.feed].units, (r.complete = true ∧ spanIncludes x r.seq = true) ∧
      u = { feed := x.feed, seq := r.seq, length := r.bytes, addr := codedAddr c x.feed r.start,
            cursor := 0 } := by
  simp only [feedUnits, List.mem_map, List.mem_filter, Bool.and_eq_true, and_assoc, eq_comm (b := u)]

theorem feedUnits_feed {c : Chip} {x : ClipFeed} {u : ClipUnit} (mem : u ∈ feedUnits c x) :
    u.feed = x.feed := by
  obtain ⟨r, -, -, rfl⟩ := mem_feedUnits.1 mem
  rfl

theorem feedUnits_seqs (c : Chip) (x : ClipFeed) :
    ((feedUnits c x).map (·.seq)).Sublist (c.rings[x.feed].units.map (·.seq)) := by
  rw [feedUnits, List.map_map]
  exact List.filter_sublist.map fun u : UnitRec => u.seq

theorem mem_clipUnits {c : Chip} {k : Clip} {u : ClipUnit} : u ∈ clipUnits c k ↔
    ∃ x a b r, x ∈ k.feeds ∧ x.inSeq = some a ∧ x.outSeq = some b ∧
      r ∈ c.rings[x.feed].units ∧ r.complete = true ∧ inSpan a b r.seq = true ∧
      u = { feed := x.feed, seq := r.seq, length := r.bytes, addr := codedAddr c x.feed r.start,
            cursor := 0 } := by
  simp only [clipUnits_eq, List.mem_flatMap, mem_nonBare, mem_feedUnits]
  constructor
  · rintro ⟨x, ⟨mem, a, b, i, o⟩, r, unit, ⟨complete, inside⟩, rfl⟩
    exact ⟨x, a, b, r, mem, i, o, unit, complete, (spanIncludes_points i o _).symm.trans inside, rfl⟩
  · rintro ⟨x, a, b, r, mem, i, o, unit, complete, inside, rfl⟩
    exact ⟨x, ⟨mem, a, b, i, o⟩, r, unit, ⟨complete, (spanIncludes_points i o _).trans inside⟩, rfl⟩

/-- Listed feeds in rising order give their items in that order (R144, R174). -/
theorem feedUnits_rising (c : Chip) {xs : List ClipFeed} (rising : xs.Pairwise (·.feed.val < ·.feed.val)) :
    (xs.flatMap (feedUnits c)).Pairwise (·.feed.val ≤ ·.feed.val) := by
  refine List.pairwise_flatMap.2 ⟨fun x _ => ?_, rising.imp fun {x y} less u hu v hv => ?_⟩
  · refine List.pairwise_iff_forall_sublist.2 fun {u v} sub => ?_
    have hu := feedUnits_feed (sub.subset (List.mem_cons_self ..))
    have hv := feedUnits_feed (sub.subset (List.mem_cons_of_mem _ (List.mem_cons_self ..)))
    exact (congrArg Fin.val (hu.trans hv.symm)).le
  · rw [feedUnits_feed hu, feedUnits_feed hv]
    exact less.le

/-- The items of one feed are those of its one listing, or none. -/
theorem feedUnits_filter (c : Chip) (f : Fin 8) {xs : List ClipFeed}
    (rising : xs.Pairwise (·.feed.val < ·.feed.val)) :
    (((xs.flatMap (feedUnits c)).filter fun u => u.feed == f).map (·.seq)).Sublist
      (c.rings[f].units.map (·.seq)) := by
  induction xs with
  | nil => exact List.nil_sublist _
  | cons x xs ih =>
    obtain ⟨later, rising⟩ := List.pairwise_cons.1 rising
    rw [List.flatMap_cons, List.filter_append]
    by_cases same : x.feed = f
    · subst same
      have rest : (xs.flatMap (feedUnits c)).filter (fun u => u.feed == x.feed) = [] := by
        refine List.filter_eq_nil_iff.2 fun u mem same => ?_
        obtain ⟨y, listed, mem⟩ := List.mem_flatMap.1 mem
        rw [feedUnits_feed mem, beq_iff_eq] at same
        exact absurd (later y listed) (by rw [same]; exact Nat.lt_irrefl _)
      have all : (feedUnits c x).filter (fun u => u.feed == x.feed) = feedUnits c x :=
        List.filter_eq_self.2 fun u mem => beq_iff_eq.2 (feedUnits_feed mem)
      rw [rest, all, List.append_nil]
      exact feedUnits_seqs c x
    · have head : (feedUnits c x).filter (fun u => u.feed == f) = [] :=
        List.filter_eq_nil_iff.2 fun u mem named => same ((feedUnits_feed mem).symm.trans (beq_iff_eq.1 named))
      rw [head, List.nil_append]
      exact ih rising

/-- The feeds that are not bare stand in the order of the feed list. -/
theorem nonBare_rising {k : Clip} (rising : (k.feeds.map (·.feed.val)).Pairwise (· < ·)) :
    (nonBare k).Pairwise (·.feed.val < ·.feed.val) := (List.pairwise_map.1 rising).filter _

/-! ### Bytes handed -/

section
variable {c : Chip} {n : Nat} {x : Clip} (found : findClip c n = some x) (k : Nat)
include found

theorem clipHanded_idle (idle : x.progress = none) : clipHanded n k c = c := by
  rw [clipHanded, found]
  dsimp only
  rw [idle]

variable {total handed : Nat} (progress : x.progress = some (total, handed))
include progress

theorem clipHanded_grows (less : handed + k < total) : clipHanded n k c =
    mapClip n (fun y => { y with progress := some (total, handed + k) }) c := by
  rw [clipHanded, found]
  dsimp only
  rw [progress]
  exact if_neg (Nat.not_le.2 less)

theorem clipHanded_sent (all : total ≤ handed + k) : clipHanded n k c =
    askReport .clip (reportBody 2 (leNat16 n))
      (mapClip n (fun y => { y with state := .sent, progress := none }) c) := by
  rw [clipHanded, found]
  dsimp only
  rw [progress]
  exact if_pos all

end

/-- Settles O44: the checks in order, the two ends of a send, and the units feed by feed. -/
theorem clipSendQueues : Obligations.ClipSendQueues := by
  refine ⟨fun h clip s taken => ?send, fun c k => ⟨fun u => mem_clipUnits, fun rising => ?order⟩,
    fun c n k total handed x found => ⟨clipHanded_idle found k,
      fun progress => ⟨clipHanded_grows found k progress, clipHanded_sent found k progress⟩⟩⟩
  case send =>
    have send := exec_concluded (k := 0x46) (v := clipSend clip.toNat) taken rfl
    refine ⟨fun none => ?_, fun k found => ⟨fun trim => ?_, fun free closed sent => ?_⟩,
      fun k found free state full => ?_,
      fun k found free state room => ⟨fun bytes => ?_, fun empty => ?_⟩⟩
    · rw [send, clipSend_noClip none, conclude_refused]
    · rw [send, clipSend_refused found (sendCheck_busy trim), conclude_refused]
    · rw [send, clipSend_refused found (sendCheck_wrongState free closed sent), conclude_refused]
    · rw [send, clipSend_refused found (sendCheck_full free state full), conclude_refused]
    · rw [send, clipSend_bytes found (sendCheck_passes free state room) bytes, conclude_done]
      rfl
    · rw [send, clipSend_empty found (sendCheck_passes free state room) empty, conclude_done]
  case order =>
    have rising := nonBare_rising rising
    exact ⟨List.pairwise_map.2 (feedUnits_rising c rising), fun f => feedUnits_filter c f rising⟩

end Sys2Proof.Machine
end

section
/-! SUPPORT. The trim of a clip: hold changes, house counts, clamps and the result code, and TRIM MOVE (R134,
R140, R148). -/

namespace Sys2Proof.Machine

/-! ### Hold changes -/

/-- The hold changes of one feed are those of each of its units (R86, R140). -/
theorem changeHolds_eq (f : Fin 8) (was now : Count32 → Bool) (c : Chip) : changeHolds f was now c =
    setRing c f { c.rings[f] with units := c.rings[f].units.map (holdsMoved was now) } := by
  have unit : (fun u : UnitRec =>
      if u.complete && now u.seq && !was u.seq then { u with held := holdMore u.held }
      else if u.complete && was u.seq && !now u.seq then { u with held := u.held - 1 }
      else u) = holdsMoved was now := by
    funext u
    have gains : (u.complete && now u.seq && !was u.seq) = true ↔
        u.complete = true ∧ was u.seq = false ∧ now u.seq = true := by
      rw [Bool.and_eq_true, Bool.and_eq_true, Bool.not_eq_true', and_assoc, and_comm (a := now u.seq = true)]
    have loses : (u.complete && was u.seq && !now u.seq) = true ↔
        u.complete = true ∧ was u.seq = true ∧ now u.seq = false := by simp [and_assoc]
    simp only [gains, loses, holdsMoved]
    split_ifs <;> rfl
  rw [changeHolds, mapUnits, unit]

/-- The house count of a unit does not depend on its holds. -/
theorem unitHouse_changeHolds (f g : Fin 8) (was now : Count32 → Bool) (q : Count32) (c : Chip) :
    unitHouse (changeHolds f was now c) g q = unitHouse c g q := by
  rw [changeHolds_eq]
  by_cases same : g = f
  · subst same
    rw [unitHouse, findUnit, setRing_same, List.find?_map, Option.map_map]
    rfl
  · rw [unitHouse, findUnit, setRing_other _ _ _ _ same]
    rfl

/-- The hold changes of the listed feeds `xs` whose points become those `g` gives (R140, R148). -/
def movedHolds (g : ClipFeed → ClipFeed) (xs : List ClipFeed) (c : Chip) : Chip :=
  xs.foldl (fun c x => changeHolds x.feed (spanIncludes x) (spanIncludes (g x)) c) c

section
variable (g : ClipFeed → ClipFeed) (xs : List ClipFeed) (c : Chip)

theorem movedHolds_cons (x : ClipFeed) : movedHolds g (x :: xs) c =
    movedHolds g xs (changeHolds x.feed (spanIncludes x) (spanIncludes (g x)) c) := rfl

theorem movedHolds_same : movedHolds g xs c = { c with rings := (movedHolds g xs c).rings } := by
  induction xs generalizing c with
  | nil => rfl
  | cons x xs ih => exact (ih _).trans rfl

theorem movedHolds_unitHouse (f : Fin 8) (q : Count32) :
    unitHouse (movedHolds g xs c) f q = unitHouse c f q := by
  induction xs generalizing c with
  | nil => rfl
  | cons x xs ih => rw [movedHolds_cons, ih, unitHouse_changeHolds]

variable {xs}

theorem movedHolds_unlisted {f : Fin 8} (unlisted : ∀ x ∈ xs, x.feed ≠ f) :
    (movedHolds g xs c).rings[f] = c.rings[f] := by
  induction xs generalizing c with
  | nil => rfl
  | cons x xs ih =>
    obtain ⟨head, tail⟩ := List.forall_mem_cons.1 unlisted
    rw [movedHolds_cons, ih _ tail, changeHolds_eq, setRing_other _ _ _ _ head.symm]

theorem movedHolds_listed (once : (xs.map (·.feed)).Nodup) {x : ClipFeed} (listed : x ∈ xs) :
    (movedHolds g xs c).rings[x.feed] =
      { c.rings[x.feed] with
        units := c.rings[x.feed].units.map (holdsMoved (spanIncludes x) (spanIncludes (g x))) } := by
  induction xs generalizing c with
  | nil => cases listed
  | cons y ys ih =>
    obtain ⟨fresh, once⟩ := List.nodup_cons.1 once
    have other : ∀ z ∈ ys, z.feed ≠ y.feed := fun z mem same => fresh (List.mem_map.2 ⟨z, mem, same⟩)
    rw [movedHolds_cons, changeHolds_eq]
    rcases List.mem_cons.1 listed with rfl | listed
    · rw [movedHolds_unlisted g _ other, setRing_same]
    · rw [ih _ once listed, setRing_other _ _ _ _ (other x listed)]

end

/-! ### The trimmed clip -/

theorem renewHouses_congr {c d : Chip} (house : ∀ f q, unitHouse d f q = unitHouse c f q) (k : Clip) :
    renewHouses d k = renewHouses c k := by
  have same : unitHouse d = unitHouse c := funext fun f => funext (house f)
  unfold renewHouses
  rw [same]

/-- New house counts are all that the renewal changes (R148). -/
theorem renewHouses_same (c : Chip) (k : Clip) : renewHouses c k =
    { k with inHouse := (renewHouses c k).inHouse, outHouse := (renewHouses c k).outHouse } := by
  unfold renewHouses
  split <;> rfl

theorem renewHouses_feeds (c : Chip) (k : Clip) : (renewHouses c k).feeds = k.feeds := by
  rw [renewHouses_same]

/-- The house counts are those of the first feed's in and out units, where these have records (R148). -/
theorem renewHouses_houses {c : Chip} {k : Clip} {x : ClipFeed} {xs : List ClipFeed}
    (first : nonBare k = x :: xs) :
    (renewHouses c k).inHouse = (x.inSeq.bind (unitHouse c x.feed)).or k.inHouse ∧
      (renewHouses c k).outHouse = (x.outSeq.bind (unitHouse c x.feed)).or k.outHouse := by
  unfold renewHouses
  rw [first]
  dsimp only
  constructor
  · cases x.inSeq.bind (unitHouse c x.feed) <;> rfl
  · cases x.outSeq.bind (unitHouse c x.feed) <;> rfl

/-- Clip `k` with the points `g` gives each listed feed, and its house counts taken again (R148). -/
def trimmedClip (c : Chip) (k : Clip) (g : ClipFeed → ClipFeed) : Clip :=
  renewHouses c { k with feeds := k.feeds.map g }

theorem trimmedClip_feeds (c : Chip) (k : Clip) (g : ClipFeed → ClipFeed) :
    (trimmedClip c k g).feeds = k.feeds.map g := renewHouses_feeds _ _

theorem trimmedClip_number (c : Chip) (k : Clip) (g : ClipFeed → ClipFeed) :
    (trimmedClip c k g).number = k.number := (renewHouses_keeps _ _).1

/-- The part after clip `k` took the points `g` gives (R148). -/
def trimmedChip (k : Clip) (g : ClipFeed → ClipFeed) (c : Chip) : Chip :=
  mapClip k.number (fun _ => trimmedClip c k g) (movedHolds g k.feeds c)

theorem retrim_eq (k : Clip) (g : ClipFeed → ClipFeed × List Clamp) (c : Chip) : retrim k g c =
    (trimmedChip k (fun x => (g x).1) c, k.feeds.flatMap fun x => (g x).2) := by
  have holds : (k.feeds.map fun x => (x, g x)).foldl (fun c m =>
      changeHolds m.1.feed (spanIncludes m.1) (spanIncludes m.2.1) c) c =
        movedHolds (fun x => (g x).1) k.feeds c := by
    rw [List.foldl_map]
    rfl
  unfold retrim
  dsimp only
  rw [holds, List.map_map, List.flatMap_map, renewHouses_congr (movedHolds_unitHouse _ _ c)]
  rfl

theorem trimmedChip_same (k : Clip) (g : ClipFeed → ClipFeed) (c : Chip) : trimmedChip k g c =
    { c with
      clips.list := c.clips.list.map (fun z => if z.number = k.number then trimmedClip c k g else z)
      rings := (trimmedChip k g c).rings } := by
  rw [trimmedChip, movedHolds_same]
  rfl

/-- The new record is the one the clip's number names. -/
theorem trimmedChip_found {c : Chip} {n : Nat} {k : Clip} (found : findClip c n = some k)
    (g : ClipFeed → ClipFeed) : findClip (trimmedChip k g c) n = some (trimmedClip c k g) := by
  obtain rfl := findClip_number found
  have log : (movedHolds g k.feeds c).clips = c.clips := by rw [movedHolds_same]
  exact findClip_replaced ((findClip_congr log _).trans found) (trimmedClip_number c k g)

theorem trimmedChip_effect (c : Chip) (k : Clip) (g : ClipFeed → ClipFeed) :
    TrimEffect c k (trimmedClip c k g) (trimmedChip k g c) where
  same := trimmedChip_same k g c
  clip := by
    rw [trimmedClip_feeds]
    exact renewHouses_same _ _
  houses := fun x xs first => by
    have nonbare : nonBare { k with feeds := k.feeds.map g } = x :: xs := by
      rw [← first, nonBare, nonBare, trimmedClip_feeds]
    obtain ⟨inHouse, outHouse⟩ := renewHouses_houses (c := c) nonbare
    rw [trimmedClip, inHouse, outHouse]
    exact ⟨fun h e => by rw [e]; rfl, fun e => by rw [e]; rfl, fun h e => by rw [e]; rfl,
      fun e => by rw [e]; rfl⟩
  holds := fun once x z mem => by
    rw [trimmedClip_feeds, List.zip, List.zipWith_map_right, List.zipWith_self] at mem
    obtain ⟨y, listed, pair⟩ := List.mem_map.1 mem
    obtain ⟨rfl, rfl⟩ := Prod.mk.inj pair
    exact movedHolds_listed g c once listed
  others := fun f unlisted => movedHolds_unlisted g c unlisted

/-! ### Clamps -/

section
variable {lo hi want : Count32}

theorem clampSeq_lo_inside (low : seqBefore want lo = false) : clampSeq (some lo) none want = want :=
  if_neg (Bool.eq_false_iff.1 low)

theorem clampSeq_lo_below (low : seqBefore want lo = true) : clampSeq (some lo) none want = lo := if_pos low

theorem clampSeq_hi_inside (high : seqBefore hi want = false) : clampSeq none (some hi) want = want :=
  if_neg (Bool.eq_false_iff.1 high)

theorem clampSeq_hi_above (high : seqBefore hi want = true) : clampSeq none (some hi) want = hi :=
  if_pos high

/-- With two bounds the lower one acts first (DESIGN CHOICE, log 16). -/
theorem clampSeq_both (lo hi want : Count32) : clampSeq (some lo) (some hi) want =
    clampSeq none (some hi) (clampSeq (some lo) none want) := rfl

theorem clampSeq_inside (low : seqBefore want lo = false) (high : seqBefore hi want = false) :
    clampSeq (some lo) (some hi) want = want := by
  rw [clampSeq_both, clampSeq_lo_inside low, clampSeq_hi_inside high]

theorem clampSeq_below (low : seqBefore want lo = true) (order : seqBefore hi lo = false) :
    clampSeq (some lo) (some hi) want = lo := by
  rw [clampSeq_both, clampSeq_lo_below low, clampSeq_hi_inside order]

theorem clampSeq_above (low : seqBefore want lo = false) (high : seqBefore hi want = true) :
    clampSeq (some lo) (some hi) want = hi := by
  rw [clampSeq_both, clampSeq_lo_inside low, clampSeq_hi_above high]

theorem clampOf_kept (f : Fin 8) (want : Count32) : clampOf f want want = none := if_pos rfl

theorem clampOf_low (f : Fin 8) (low : seqBefore want lo = true) :
    clampOf f want lo = some { feed := f, amount := (lo - want).toNat, low := true } := by
  rw [clampOf, if_neg (seqBefore_ne low).symm, if_pos low]

theorem clampOf_high (f : Fin 8) (high : seqBefore hi want = true) :
    clampOf f want hi = some { feed := f, amount := (want - hi).toNat, low := false } := by
  rw [clampOf, if_neg (seqBefore_ne high), if_neg (Bool.eq_false_iff.1 (seqBefore_asymm high))]

end

/-! ### One listed feed's move -/

theorem moveFeed_bare {c : Chip} {x : ClipFeed} (bare : x.inSeq = none ∨ x.outSeq = none) (isIn : Bool)
    (delta : Count32) : moveFeed c isIn delta x = (x, []) := by
  have none : points x = none := by
    cases i : points x with
    | none => rfl
    | some ab =>
      obtain ⟨i, o⟩ := points_eq_some.1 i
      rcases bare with b | b
      · cases b.symm.trans i
      · cases b.symm.trans o
  rw [moveFeed, none]

section
variable {c : Chip} {x : ClipFeed} {a b lo hi delta : Count32} (i : x.inSeq = some a)
  (o : x.outSeq = some b)
include i o

section
variable (old : oldestSeq c x.feed = some lo)
include old

theorem moveFeed_in : moveFeed c true delta x =
    ({ x with inSeq := some (clampSeq (some lo) (some b) (a + delta)) },
      (clampOf x.feed (a + delta) (clampSeq (some lo) (some b) (a + delta))).toList) := by
  rw [moveFeed, points_eq_some.2 ⟨i, o⟩, old]
  rfl

theorem moveFeed_in_inside (low : seqBefore (a + delta) lo = false)
    (high : seqBefore b (a + delta) = false) :
    moveFeed c true delta x = ({ x with inSeq := some (a + delta) }, []) := by
  rw [moveFeed_in i o old, clampSeq_inside low high, clampOf_kept, Option.toList_none]

theorem moveFeed_in_low (low : seqBefore (a + delta) lo = true) (order : seqBefore b lo = false) :
    moveFeed c true delta x = ({ x with inSeq := some lo },
      [{ feed := x.feed, amount := (lo - (a + delta)).toNat, low := true }]) := by
  rw [moveFeed_in i o old, clampSeq_below low order, clampOf_low _ low, Option.toList_some]

theorem moveFeed_in_high (low : seqBefore (a + delta) lo = false)
    (high : seqBefore b (a + delta) = true) :
    moveFeed c true delta x = ({ x with inSeq := some b },
      [{ feed := x.feed, amount := (a + delta - b).toNat, low := false }]) := by
  rw [moveFeed_in i o old, clampSeq_above low high, clampOf_high _ high, Option.toList_some]

end

variable (new : newestSeq c x.feed = some hi)
include new

theorem moveFeed_out : moveFeed c false delta x =
    ({ x with outSeq := some (clampSeq (some a) (some hi) (b + delta)) },
      (clampOf x.feed (b + delta) (clampSeq (some a) (some hi) (b + delta))).toList) := by
  rw [moveFeed, points_eq_some.2 ⟨i, o⟩, new]
  rfl

theorem moveFeed_out_inside (low : seqBefore (b + delta) a = false)
    (high : seqBefore hi (b + delta) = false) :
    moveFeed c false delta x = ({ x with outSeq := some (b + delta) }, []) := by
  rw [moveFeed_out i o new, clampSeq_inside low high, clampOf_kept, Option.toList_none]

theorem moveFeed_out_low (low : seqBefore (b + delta) a = true) (order : seqBefore hi a = false) :
    moveFeed c false delta x = ({ x with outSeq := some a },
      [{ feed := x.feed, amount := (a - (b + delta)).toNat, low := true }]) := by
  rw [moveFeed_out i o new, clampSeq_below low order, clampOf_low _ low, Option.toList_some]

theorem moveFeed_out_high (low : seqBefore (b + delta) a = false)
    (high : seqBefore hi (b + delta) = true) :
    moveFeed c false delta x = ({ x with outSeq := some hi },
      [{ feed := x.feed, amount := (b + delta - hi).toNat, low := false }]) := by
  rw [moveFeed_out i o new, clampSeq_above low high, clampOf_high _ high, Option.toList_some]

end

/-! ### The result code -/

/-- Clamp `m` counts before `x`: by more sequences, or by as many in a lower feed (R148). -/
def Clamp.Outdoes (m x : Clamp) : Prop :=
  x.amount < m.amount ∨ (x.amount = m.amount ∧ m.feed < x.feed)

/-- The clamp that counts of those met so far and one more (R148). -/
def worseClamp (best : Option Clamp) (x : Clamp) : Option Clamp :=
  match best with
  | none => some x
  | some b => if b.amount < x.amount ∨ (b.amount = x.amount ∧ x.feed < b.feed) then some x else best

theorem trimCode_eq (cl : List Clamp) : trimCode cl =
    match cl.foldl worseClamp none with
    | none => .exact
    | some b => if b.low then .clampedLow else .clampedHigh := rfl

theorem worseClamp_keeps {m x : Clamp} (less : x = m ∨ m.Outdoes x) : worseClamp (some m) x = some m := by
  refine if_neg fun more => ?_
  rcases less with rfl | less | ⟨amount, feed⟩
  · rcases more with more | ⟨-, more⟩
    · exact Nat.lt_irrefl _ more
    · exact Fin.lt_irrefl _ more
  · omega
  · rcases more with more | ⟨-, more⟩
    · omega
    · exact Fin.lt_asymm feed more

theorem worseClamp_takes {m : Clamp} {best : Option Clamp} (less : ∀ b ∈ best, b = m ∨ m.Outdoes b) :
    worseClamp best m = some m := by
  cases best with
  | none => rfl
  | some b =>
    rcases less b rfl with rfl | more
    · exact ite_self _
    · exact if_pos more

/-- A clamp that counts before all the others, once met, is the one found. -/
theorem foldl_worseClamp {m : Clamp} {cl : List Clamp} (top : ∀ x ∈ cl, x = m ∨ m.Outdoes x) :
    cl.foldl worseClamp (some m) = some m ∧
      ∀ best : Option Clamp, (∀ b ∈ best, b = m ∨ m.Outdoes b) → m ∈ cl →
        cl.foldl worseClamp best = some m := by
  induction cl with
  | nil => exact ⟨rfl, fun _ _ mem => nomatch mem⟩
  | cons x cl ih =>
    obtain ⟨head, tail⟩ := List.forall_mem_cons.1 top
    obtain ⟨kept, met⟩ := ih tail
    refine ⟨by rw [List.foldl_cons, worseClamp_keeps head, kept], fun best less mem => ?_⟩
    rw [List.foldl_cons]
    rcases List.mem_cons.1 mem with rfl | mem
    · rw [worseClamp_takes less, kept]
    · refine met _ (fun b now => ?_) mem
      unfold worseClamp at now
      split at now
      · exact Option.some_inj.1 now ▸ head
      · split at now
        · exact Option.some_inj.1 now ▸ head
        · exact less b now

/-- The clamp that counts before all the others gives the code (R148). -/
theorem trimCode_top {m : Clamp} {cl : List Clamp} (mem : m ∈ cl)
    (top : ∀ x ∈ cl, x = m ∨ m.Outdoes x) :
    trimCode cl = if m.low = true then .clampedLow else .clampedHigh := by
  rw [trimCode_eq, (foldl_worseClamp top).2 none (fun _ b => nomatch b) mem]

theorem clampedFeeds_once {cl : List Clamp} (once : (cl.map (·.feed)).Nodup) :
    clampedFeeds cl = cl.length := by
  have clamped : (eight.filter fun f => cl.any fun x => x.feed == f).Perm (cl.map (·.feed)) := by
    refine (List.perm_ext_iff_of_nodup (List.Nodup.filter _ (by decide)) once).2 fun f => ?_
    have all : f ∈ eight := by revert f; decide
    simp [List.mem_filter, all]
  rw [clampedFeeds, List.countP_eq_length_filter, clamped.length_eq, List.length_map]

/-! ### TRIM MOVE -/

/-- The clamps of a move of clip `k`'s feeds (R148). -/
def moveClamps (c : Chip) (isIn : Bool) (delta : Count32) (k : Clip) : List Clamp :=
  k.feeds.flatMap fun x => (moveFeed c isIn delta x).2

/-- Clip `k` with the point of every feed moved (R148). -/
def movedClip (c : Chip) (isIn : Bool) (delta : Count32) (k : Clip) : Clip :=
  trimmedClip c k fun x => (moveFeed c isIn delta x).1

section
variable {c : Chip} {k : Clip} {x y : ClipFeed} {isIn : Bool} {delta : Count32} (alone : k.feeds = [x])
include alone

theorem movedClip_alone {cl : List Clamp} (move : moveFeed c isIn delta x = (y, cl)) :
    (movedClip c isIn delta k).feeds = [y] ∧ moveClamps c isIn delta k = cl := by
  rw [movedClip, trimmedClip_feeds, moveClamps, alone, List.map_singleton, List.flatMap_singleton, move]
  exact ⟨rfl, rfl⟩

theorem movedClip_alone_inside (move : moveFeed c isIn delta x = (y, [])) :
    (movedClip c isIn delta k).feeds = [y] ∧ trimCode (moveClamps c isIn delta k) = .exact ∧
      byteOf (clampedFeeds (moveClamps c isIn delta k)) = 0 := by
  obtain ⟨feeds, clamps⟩ := movedClip_alone alone move
  rw [clamps]
  exact ⟨feeds, rfl, rfl⟩

theorem movedClip_alone_clamped {m : Clamp} (move : moveFeed c isIn delta x = (y, [m])) :
    (movedClip c isIn delta k).feeds = [y] ∧
      trimCode (moveClamps c isIn delta k) = (if m.low = true then .clampedLow else .clampedHigh) ∧
      byteOf (clampedFeeds (moveClamps c isIn delta k)) = 1 := by
  obtain ⟨feeds, clamps⟩ := movedClip_alone alone move
  rw [clamps, clampedFeeds_once (cl := [m]) (List.nodup_singleton _)]
  exact ⟨feeds, rfl, rfl⟩

end

theorem deltaOk_iff {d : BitVec 32} : deltaOk d = true ↔ -30000 ≤ d.toInt ∧ d.toInt ≤ 30000 := by
  simp [deltaOk]

section
variable {point : Byte} {delta : BitVec 32} {c : Chip}

theorem trimMove_badArg (bad : delta.toInt < -30000 ∨ 30000 < delta.toInt ∨ 1 < point.toNat) :
    trimMove point delta c = .refused .badArg := by
  refine if_pos ?_
  rw [Bool.or_eq_true, Bool.not_eq_true', decide_eq_true_eq, ← Bool.not_eq_true, deltaOk_iff]
  omega

variable (least : -30000 ≤ delta.toInt) (most : delta.toInt ≤ 30000) (known : point.toNat ≤ 1)
include least most known

theorem trimMove_inRange : ¬(!deltaOk delta || decide (1 < point.toNat)) = true := by
  rw [Bool.or_eq_true, Bool.not_eq_true', decide_eq_true_eq, ← Bool.not_eq_true, deltaOk_iff]
  omega

theorem trimMove_wrongState (closed : c.clips.trim = none) :
    trimMove point delta c = .refused .wrongState := by
  rw [trimMove, if_neg (trimMove_inRange least most known), closed]

variable {t : TrimSession} (session : c.clips.trim = some t)
include session

theorem trimMove_moves {k : Clip} (found : findClip c t.clip = some k) (moves : delta ≠ 0) :
    trimMove point delta c =
      .completed (trimCode (moveClamps c (point == 0) delta k))
        [byteOf (clampedFeeds (moveClamps c (point == 0) delta k))]
        (trimmedChip k (fun x => (moveFeed c (point == 0) delta x).1) c) := by
  rw [trimMove, if_neg (trimMove_inRange least most known), session]
  dsimp only
  rw [if_neg moves, found]
  dsimp only
  rw [retrim_eq]
  rfl

end

theorem trimMove_still {point : Byte} {c : Chip} {t : TrimSession} (known : point.toNat ≤ 1)
    (session : c.clips.trim = some t) : trimMove point 0 c = .completed .exact [0] c := by
  rw [trimMove, if_neg (trimMove_inRange (by decide) (by decide) known), session]
  exact if_pos rfl

theorem exec_trimMove_moves {h : CmdHead} {point : Byte} {delta : BitVec 32} {s : State} {t : TrimSession}
    {k : Clip} (taken : takes (.trimMove h point delta) s = true) (session : s.chip.clips.trim = some t)
    (found : findClip s.chip t.clip = some k) (known : point.toNat ≤ 1) (moves : delta ≠ 0)
    (least : -30000 ≤ delta.toInt) (most : delta.toInt ≤ 30000) :
    exec (.trimMove h point delta) s = .next (s.taken (completedBy 0x48 h
      (trimCode (moveClamps s.chip (point == 0) delta k))
      [byteOf (clampedFeeds (moveClamps s.chip (point == 0) delta k))]
      (trimmedChip k (fun x => (moveFeed s.chip (point == 0) delta x).1) s.chip))) := by
  rw [exec_concluded (k := 0x48) (v := trimMove point delta) taken rfl,
    trimMove_moves least most known session found moves, conclude_done]

/-- Settles O46: the effect on every feed, and from it and the moves of one feed a clip that lists it alone. -/
theorem trimMovePoints : Obligations.TrimMovePoints := by
  refine ⟨?alone, ?every,
    fun c x a b lo hi delta => ⟨fun bare isIn => moveFeed_bare bare isIn delta, ?points⟩,
    fun cl => ⟨fun none => by rw [none]; rfl, fun m mem top => trimCode_top mem top, clampedFeeds_once⟩⟩
  case alone =>
    intro h point delta s t k x a b lo hi taken session found alone i o old new known moves least most
    have trimmed := trimmedChip_effect s.chip k fun x => (moveFeed s.chip (point == 0) delta x).1
    refine ⟨_, _, _, movedClip s.chip (point == 0) delta k,
      exec_trimMove_moves taken session found known moves least most, by rw [trimmed.same]; rfl,
      by rw [trimmed.same], by rw [trimmed.same], by rw [trimmed.same], by rw [trimmed.same]; exact session,
      trimmed.clip, ?_, ?_, ?_, ?_, ?_, ?_⟩
    · rintro rfl low high
      exact movedClip_alone_inside alone (moveFeed_in_inside i o old low high)
    · rintro rfl low order
      exact movedClip_alone_clamped alone (moveFeed_in_low i o old low order)
    · rintro rfl low high -
      exact movedClip_alone_clamped alone (moveFeed_in_high i o old low high)
    · rintro rfl low high
      exact movedClip_alone_inside alone (moveFeed_out_inside i o new low high)
    · rintro rfl low order
      exact movedClip_alone_clamped alone (moveFeed_out_low i o new low order)
    · rintro rfl low high -
      exact movedClip_alone_clamped alone (moveFeed_out_high i o new low high)
  case every =>
    rintro h point delta s t k cl taken session found known moves least most rfl
    exact ⟨_, _, trimmedChip_effect s.chip k _, trimmedClip_feeds _ _ _,
      exec_trimMove_moves taken session found known moves least most⟩
  case points =>
    intro i o old new
    exact ⟨moveFeed_in_inside i o old, moveFeed_in_low i o old,
      fun low high _ => moveFeed_in_high i o old low high, moveFeed_out_inside i o new,
      moveFeed_out_low i o new, fun low high _ => moveFeed_out_high i o new low high⟩

end Sys2Proof.Machine
end

section
/-! SUPPORT. TRIM BEGIN, TRIM END and TRIM ABANDON, and the points restored (R134, R147, R148, R150). -/

namespace Sys2Proof.Machine

/-! ### TRIM BEGIN -/

section
variable {n : Nat} {c : Chip}

theorem trimBegin_noClip (none : findClip c n = none) : trimBegin n c = .refused .noSuchClip := by
  rw [trimBegin, none]

variable {k : Clip} (found : findClip c n = some k)
include found

theorem trimBegin_busy (session : c.clips.trim.isSome = true) : trimBegin n c = .refused .busy := by
  rw [trimBegin, found]
  exact if_pos session

variable (idle : c.clips.trim = none)
include idle

theorem trimBegin_wrongState (closed : k.state ≠ .closed) (sent : k.state ≠ .sent) :
    trimBegin n c = .refused .wrongState := by
  rw [trimBegin, found]
  dsimp only
  rw [if_neg (by simp [idle]), if_pos (not_or.2 ⟨closed, sent⟩)]

theorem trimBegin_done (state : k.state = .closed ∨ k.state = .sent) : trimBegin n c =
    .completed .done [] { c with clips.trim := some { clip := n, saved := nonBare k } } := by
  rw [trimBegin, found]
  dsimp only
  rw [if_neg (by simp [idle]), if_neg (not_not.2 state)]

end

/-! ### The end of a session -/

/-- The part with no trim session present. -/
def withoutSession (c : Chip) : Chip := { c with clips.trim := none }

/-- The session ends, with a notice while notify is on if a point differs from its saved value (R147, R150). -/
theorem endTrim_eq {c : Chip} {t : TrimSession} {k : Clip} (found : findClip c t.clip = some k) :
    endTrim t c =
      if nonBare k ≠ t.saved ∧ c.sched.notify = true then
        joinLabel { kind := 0, number := t.clip, data := noticeBody k, cursor := 0 } (withoutSession c)
      else withoutSession c := by
  have ends : endTrim t c =
    if trimChanged c t then giveNotice t.clip (withoutSession c) else withoutSession c := rfl
  have changed : trimChanged c t = true ↔ nonBare k ≠ t.saved := by
    rw [trimChanged, found]
    exact bne_iff_ne
  by_cases differs : nonBare k = t.saved
  · rw [ends, if_neg (fun h => changed.1 h differs), if_neg (fun h => h.1 differs)]
  · rw [ends, if_pos (changed.2 differs)]
    cases on : c.sched.notify with
    | true => rw [giveNotice_on (c := withoutSession c) on found, if_pos ⟨differs, rfl⟩]
    | false => rw [giveNotice_off (c := withoutSession c) on, if_neg (fun h => Bool.false_ne_true h.2)]

theorem trimEnd_wrongState {c : Chip} (idle : c.clips.trim = none) : trimEnd c = .refused .wrongState := by
  rw [trimEnd, idle]

section
variable {c : Chip} {t : TrimSession} {k : Clip} (session : c.clips.trim = some t)
  (found : findClip c t.clip = some k)
include session found

theorem trimEnd_done : trimEnd c = .completed .done []
    (serveIfNew c
      (if nonBare k ≠ t.saved ∧ c.sched.notify = true then
        joinLabel { kind := 0, number := t.clip, data := noticeBody k, cursor := 0 } (withoutSession c)
      else withoutSession c)) := by
  rw [trimEnd, session, ← endTrim_eq found]

theorem trimEnd_unchanged (same : nonBare k = t.saved) :
    trimEnd c = .completed .done [] (withoutSession c) := by
  rw [trimEnd_done session found, if_neg (fun h => h.1 same)]
  exact congrArg _ (serveIfNew_same rfl rfl)

theorem trimEnd_changed (changed : nonBare k ≠ t.saved) : trimEnd c = .completed .done []
    (serveIfNew c
      (if c.sched.notify = true then
        joinLabel { kind := 0, number := t.clip, data := noticeBody k, cursor := 0 } (withoutSession c)
      else withoutSession c)) := by
  simp only [trimEnd_done session found, ne_eq, changed, not_false_eq_true, true_and]

end

/-! ### TRIM ABANDON -/

theorem trimAbandon_wrongState {c : Chip} (idle : c.clips.trim = none) :
    trimAbandon c = .refused .wrongState := by
  rw [trimAbandon, idle]

section
variable {c : Chip} {t : TrimSession} {k : Clip}

/-- The clip with every listed feed at its saved points, clamped (R148). -/
def restoredClip (c : Chip) (saved : List ClipFeed) (k : Clip) : Clip :=
  trimmedClip c k fun x => (restoreFeed c saved x).1

/-- The part with the points restored and the session ended (R148). -/
def abandoned (saved : List ClipFeed) (k : Clip) (c : Chip) : Chip :=
  withoutSession (trimmedChip k (fun x => (restoreFeed c saved x).1) c)

/-- A trim's effect is the same with the session ended before and after. -/
theorem TrimEffect.ended {c d : Chip} {k y : Clip} (h : TrimEffect c k y d) :
    TrimEffect (withoutSession c) k y (withoutSession d) where
  same := by
    rw [h.same]
    rfl
  clip := h.clip
  houses := h.houses
  holds := h.holds
  others := h.others

theorem abandoned_effect (c : Chip) (saved : List ClipFeed) (k : Clip) :
    TrimEffect (withoutSession c) k (restoredClip c saved k) (abandoned saved k c) :=
  (trimmedChip_effect c k _).ended

theorem trimAbandon_done (session : c.clips.trim = some t) (found : findClip c t.clip = some k) :
    trimAbandon c =
      .completed (trimCode (k.feeds.flatMap fun x => (restoreFeed c t.saved x).2))
        [byteOf (clampedFeeds (k.feeds.flatMap fun x => (restoreFeed c t.saved x).2))]
        (serveIfNew c
          (if nonBare (restoredClip c t.saved k) ≠ t.saved ∧ c.sched.notify = true then
            joinLabel
              { kind := 0, number := t.clip, data := noticeBody (restoredClip c t.saved k), cursor := 0 }
              (abandoned t.saved k c)
          else abandoned t.saved k c)) := by
  have trimmed := trimmedChip_found found fun x => (restoreFeed c t.saved x).1
  have sched : (trimmedChip k (fun x => (restoreFeed c t.saved x).1) c).sched = c.sched := by
    rw [trimmedChip_same]
  rw [trimAbandon, session]
  dsimp only
  rw [found]
  dsimp only
  rw [retrim_eq]
  dsimp only
  rw [endTrim_eq trimmed, sched]
  rfl

end

/-! ### One listed feed's points restored -/

theorem restoreFeed_unsaved {c : Chip} {saved : List ClipFeed} {x : ClipFeed}
    (unsaved : saved.find? (fun z => z.feed == x.feed) = none) : restoreFeed c saved x = (x, []) := by
  rw [restoreFeed, unsaved]

/-- The in point that a saved span from `a` to `b` gets back in a list from `lo` to `hi` (R148; order: DESIGN
CHOICE, log 16). -/
def restoredIn (lo hi a b : Count32) : Count32 :=
  clampSeq (some lo) none (clampSeq (some lo) (some (clampSeq none (some hi) b)) a)

/-- The out point that it gets back. -/
def restoredOut (lo hi a b : Count32) : Count32 :=
  clampSeq (some (restoredIn lo hi a b)) none (clampSeq none (some hi) b)

section
variable {a b lo hi : Count32}

/-- A point clamped from below is not before the bound. -/
theorem clampSeq_lo_bound (lo want : Count32) : seqBefore (clampSeq (some lo) none want) lo = false := by
  cases low : seqBefore want lo with
  | true => rw [clampSeq_lo_below low, seqBefore_self]
  | false => rw [clampSeq_lo_inside low, low]

/-- A point clamped from above is not past the bound. -/
theorem clampSeq_hi_bound (hi want : Count32) : seqBefore hi (clampSeq none (some hi) want) = false := by
  cases high : seqBefore hi want with
  | true => rw [clampSeq_hi_above high, seqBefore_self]
  | false => rw [clampSeq_hi_inside high, high]

theorem restored_inside (low : seqBefore a lo = false) (order : seqBefore b a = false)
    (high : seqBefore hi b = false) : restoredIn lo hi a b = a ∧ restoredOut lo hi a b = b := by
  have inn : restoredIn lo hi a b = a := by
    rw [restoredIn, clampSeq_hi_inside high, clampSeq_inside low order, clampSeq_lo_inside low]
  exact ⟨inn, by rw [restoredOut, inn, clampSeq_hi_inside high, clampSeq_lo_inside order]⟩

theorem restored_low (low : seqBefore a lo = true) (out : seqBefore b lo = false)
    (high : seqBefore hi b = false) : restoredIn lo hi a b = lo ∧ restoredOut lo hi a b = b := by
  have inn : restoredIn lo hi a b = lo := by
    rw [restoredIn, clampSeq_hi_inside high, clampSeq_below low out, clampSeq_lo_inside (seqBefore_self lo)]
  exact ⟨inn, by rw [restoredOut, inn, clampSeq_hi_inside high, clampSeq_lo_inside out]⟩

theorem restored_high (low : seqBefore a lo = false) (high : seqBefore hi b = true)
    (inside : seqBefore hi a = false) : restoredIn lo hi a b = a ∧ restoredOut lo hi a b = hi := by
  have inn : restoredIn lo hi a b = a := by
    rw [restoredIn, clampSeq_hi_above high, clampSeq_inside low inside, clampSeq_lo_inside low]
  exact ⟨inn, by rw [restoredOut, inn, clampSeq_hi_above high, clampSeq_lo_inside inside]⟩

/-- A saved span that was reclaimed whole comes back as the oldest sequence alone. -/
theorem restored_reclaimed (low : seqBefore a lo = true) (out : seqBefore b lo = true)
    (high : seqBefore hi b = false) : restoredIn lo hi a b = lo ∧ restoredOut lo hi a b = lo := by
  have inn : restoredIn lo hi a b = lo := by
    rw [restoredIn, clampSeq_hi_inside high, clampSeq_both, clampSeq_lo_below low, clampSeq_hi_above out,
      clampSeq_lo_below out]
  exact ⟨inn, by rw [restoredOut, inn, clampSeq_hi_inside high, clampSeq_lo_below out]⟩

/-- The in point is the oldest sequence, or not past the out point as first clamped. -/
theorem restoredIn_cases (lo hi a b : Count32) :
    restoredIn lo hi a b = lo ∨ seqBefore (clampSeq none (some hi) b) (restoredIn lo hi a b) = false := by
  have bound := clampSeq_hi_bound (clampSeq none (some hi) b) (clampSeq (some lo) none a)
  rw [restoredIn, clampSeq_both]
  cases low : seqBefore (clampSeq none (some (clampSeq none (some hi) b)) (clampSeq (some lo) none a)) lo with
  | true => exact .inl (clampSeq_lo_below low)
  | false =>
    rw [clampSeq_lo_inside low]
    exact .inr bound

/-- Whatever was saved, the restored span lies within a list whose newest sequence is not before its oldest
(R148). -/
theorem restored_within (list : seqBefore hi lo = false) (a b : Count32) :
    seqBefore (restoredIn lo hi a b) lo = false ∧
      seqBefore (restoredOut lo hi a b) (restoredIn lo hi a b) = false ∧
      seqBefore hi (restoredOut lo hi a b) = false := by
  refine ⟨clampSeq_lo_bound lo _, clampSeq_lo_bound _ _, ?_⟩
  rw [restoredOut]
  cases crossed : seqBefore (clampSeq none (some hi) b) (restoredIn lo hi a b) with
  | false => rw [clampSeq_lo_inside crossed, clampSeq_hi_bound]
  | true =>
    have oldest := (restoredIn_cases lo hi a b).resolve_right (by simp [crossed])
    rw [clampSeq_lo_below crossed, oldest, list]

end

section
variable {c : Chip} {saved : List ClipFeed} {x y : ClipFeed} {a b lo hi : Count32}
  (found : saved.find? (fun z => z.feed == x.feed) = some y) (i : y.inSeq = some a) (o : y.outSeq = some b)
  (old : oldestSeq c x.feed = some lo) (new : newestSeq c x.feed = some hi)
include found i o old new

theorem restoreFeed_saved : restoreFeed c saved x =
    ({ x with inSeq := some (restoredIn lo hi a b), outSeq := some (restoredOut lo hi a b) },
      (clampOf x.feed a (restoredIn lo hi a b)).toList ++
        (clampOf x.feed b (restoredOut lo hi a b)).toList) := by
  rw [restoreFeed, found]
  dsimp only
  rw [points_eq_some.2 ⟨i, o⟩]
  dsimp only
  rw [old, new]
  rfl

theorem restoreFeed_inside (low : seqBefore a lo = false) (order : seqBefore b a = false)
    (high : seqBefore hi b = false) :
    restoreFeed c saved x = ({ x with inSeq := some a, outSeq := some b }, []) := by
  obtain ⟨inn, out⟩ := restored_inside low order high
  rw [restoreFeed_saved found i o old new, inn, out, clampOf_kept, clampOf_kept]
  rfl

theorem restoreFeed_low (low : seqBefore a lo = true) (out : seqBefore b lo = false)
    (high : seqBefore hi b = false) :
    restoreFeed c saved x = ({ x with inSeq := some lo, outSeq := some b },
      [{ feed := x.feed, amount := (lo - a).toNat, low := true }]) := by
  obtain ⟨inn, out⟩ := restored_low low out high
  rw [restoreFeed_saved found i o old new, inn, out, clampOf_low _ low, clampOf_kept]
  rfl

theorem restoreFeed_high (low : seqBefore a lo = false) (high : seqBefore hi b = true)
    (inside : seqBefore hi a = false) :
    restoreFeed c saved x = ({ x with inSeq := some a, outSeq := some hi },
      [{ feed := x.feed, amount := (b - hi).toNat, low := false }]) := by
  obtain ⟨inn, out⟩ := restored_high low high inside
  rw [restoreFeed_saved found i o old new, inn, out, clampOf_kept, clampOf_high _ high]
  rfl

theorem restoreFeed_reclaimed (low : seqBefore a lo = true) (gone : seqBefore b lo = true)
    (high : seqBefore hi b = false) :
    restoreFeed c saved x = ({ x with inSeq := some lo, outSeq := some lo },
      [{ feed := x.feed, amount := (lo - a).toNat, low := true },
       { feed := x.feed, amount := (lo - b).toNat, low := true }]) := by
  obtain ⟨inn, out⟩ := restored_reclaimed low gone high
  rw [restoreFeed_saved found i o old new, inn, out, clampOf_low _ low, clampOf_low _ gone]
  rfl

theorem restoreFeed_within (list : seqBefore hi lo = false) :
    ∃ i j, (restoreFeed c saved x).1 = { x with inSeq := some i, outSeq := some j } ∧
      seqBefore i lo = false ∧ seqBefore j i = false ∧ seqBefore hi j = false :=
  ⟨_, _, congrArg Prod.fst (restoreFeed_saved found i o old new), restored_within list a b⟩

end

/-- Settles O45: each command by its checks in their order, the points restored by the clamps of one feed. -/
theorem trimCommands : Obligations.TrimCommands := by
  refine ⟨⟨fun h clip s taken => ?begin, fun h s taken => ?done⟩, fun h point delta s taken => ?move,
    fun h s taken => ?abandon, fun c saved x y a b lo hi => ⟨restoreFeed_unsaved, fun found i o old new =>
      ⟨restoreFeed_inside found i o old new, restoreFeed_low found i o old new,
        restoreFeed_high found i o old new, restoreFeed_reclaimed found i o old new,
        restoreFeed_within found i o old new⟩⟩⟩
  case begin =>
    have opens := exec_concluded (k := 0x47) (v := trimBegin clip.toNat) taken rfl
    refine ⟨fun none => ?_, fun k found => ⟨fun session => ?_, fun idle closed sent => ?_,
      fun idle state => ?_⟩⟩
    · rw [opens, trimBegin_noClip none, conclude_refused]
    · rw [opens, trimBegin_busy found session, conclude_refused]
    · rw [opens, trimBegin_wrongState found idle closed sent, conclude_refused]
    · rw [opens, trimBegin_done found idle state, conclude_done]
  case done =>
    have ends := exec_concluded (k := 0x49) (v := trimEnd) taken rfl
    refine ⟨fun idle => ?_, fun t k session found => ⟨fun same => ?_, fun changed => ?_⟩⟩
    · rw [ends, trimEnd_wrongState idle, conclude_refused]
    · rw [ends, trimEnd_unchanged session found same, conclude_done]
      rfl
    · rw [ends, trimEnd_changed session found changed, conclude_done]
      rfl
  case move =>
    have moves := exec_concluded (k := 0x48) (v := trimMove point delta) taken rfl
    refine ⟨fun bad => ?_, fun least most known idle => ?_, fun still known session => ?_⟩
    · rw [moves, trimMove_badArg bad, conclude_refused]
    · rw [moves, trimMove_wrongState least most known idle, conclude_refused]
    · subst still
      obtain ⟨t, session⟩ := Option.isSome_iff_exists.1 session
      rw [moves, trimMove_still known session, conclude_done]
  case abandon =>
    have abandons := exec_concluded (k := 0x4A) (v := trimAbandon) taken rfl
    refine ⟨fun idle => ?_, fun t k cl session found clamps => ?_⟩
    · rw [abandons, trimAbandon_wrongState idle, conclude_refused]
    · subst clamps
      refine ⟨_, _, abandoned_effect s.chip t.saved k, trimmedClip_feeds _ _ _, ?_⟩
      rw [abandons, trimAbandon_done session found, conclude_done]

end Sys2Proof.Machine
end

section
/-! SUPPORT. PATH SET, PATH RETRAIN and the timers of training and negotiation (R154 to R156, R159). -/

namespace Sys2Proof.Machine

/-! ### PATH SET -/

theorem index4_some {b : Byte} {p : Fin 4} (named : b.toNat = p.val) : index4 b = some p := by
  have below : b.toNat < 4 := named ▸ p.isLt
  rw [index4, dif_pos below]
  exact congrArg some (Fin.ext named)

theorem index4_none {b : Byte} (above : 3 < b.toNat) : index4 b = none :=
  dif_neg (Nat.not_lt.2 above)

/-- The part with a path's host cap set (R154). -/
def cappedTo (p : Fin 4) (cap : Nat) (c : Chip) : Chip := setPath c p { c.paths[p] with hostCap := cap }

section
variable {path enable : Byte} {cap : BitVec 32}

theorem pathSet_badArg (bad : 3 < path.toNat ∨ 1 < enable.toNat ∨ 400000 < cap.toNat) (c : Chip) :
    pathSet path enable cap c = .refused .badArg := by
  unfold pathSet
  split
  · next p on index flag =>
    rcases bad with above | above | above
    · rw [index4_none above] at index
      cases index
    · have known := (flagOf_isSome enable).1 (by rw [flag]; rfl)
      omega
    · exact if_pos above
  · rfl

variable {p : Fin 4} (named : path.toNat = p.val) (small : cap.toNat ≤ 400000)
include named small

/-- PATH SET with its fields in range (R154). -/
theorem pathSet_inRange {on : Bool} (flag : flagOf enable = some on) (c : Chip) :
    pathSet path enable cap c = .completed .done [] (serveIfNew c
      (if on then
        if c.paths[p].state = .disabled then
          enterTraining p .enabled 0 (clearFailed p (cappedTo p cap.toNat c))
        else cappedTo p cap.toNat c
      else if c.paths[p].state = .disabled then cappedTo p cap.toNat c
      else disablePath p (cappedTo p cap.toNat c))) := by
  unfold pathSet
  rw [index4_some named, flag]
  exact if_neg (Nat.not_lt.2 small)

theorem pathSet_enables {c : Chip} (state : c.paths[p].state = .disabled) :
    pathSet path 1 cap c = .completed .done [] (serveIfNew c
      (changeState p .enabled 0
        { c.paths[p] with
          hostCap := cap.toNat, failed := 0, state := .training, good := 0, trainingTimer := some 1,
          window := some 2000, offerTimer := none, negotiation := none }
        (setPath c p { c.paths[p] with hostCap := cap.toNat, failed := 0 }))) := by
  rw [pathSet_inRange named small (on := true) rfl, if_pos rfl, if_pos state, cappedTo, clearFailed,
    setPath_set, setPath_same, enterTraining, setPath_same, trainingRec]

theorem pathSet_caps {c : Chip}
    (stays : enable = 1 ∧ c.paths[p].state ≠ .disabled ∨ enable = 0 ∧ c.paths[p].state = .disabled) :
    pathSet path enable cap c = .completed .done [] (serveIfNew c (cappedTo p cap.toNat c)) := by
  rcases stays with ⟨rfl, state⟩ | ⟨rfl, state⟩
  · rw [pathSet_inRange named small (on := true) rfl, if_pos rfl, if_neg state]
  · rw [pathSet_inRange named small (on := false) rfl, if_neg Bool.false_ne_true, if_pos state]

theorem pathSet_disables {c : Chip} (state : c.paths[p].state ≠ .disabled) :
    pathSet path 0 cap c =
      .completed .done [] (serveIfNew c (disablePath p (cappedTo p cap.toNat c))) := by
  rw [pathSet_inRange named small (on := false) rfl, if_neg Bool.false_ne_true, if_neg state]

end

/-! ### PATH RETRAIN -/

section
variable {path : Byte} {c : Chip}

theorem pathRetrain_badArg (above : 3 < path.toNat) : pathRetrain path c = .refused .badArg := by
  rw [pathRetrain, index4_none above]

variable {p : Fin 4} (named : path.toNat = p.val)
include named

theorem pathRetrain_busy (busy : inFlight (.path p) c = true) :
    pathRetrain path c = .refused .busy := by
  rw [pathRetrain, index4_some named]
  exact if_pos busy

variable (free : inFlight (.path p) c = false)
include free

theorem pathRetrain_wrongState (state : c.paths[p].state = .disabled) :
    pathRetrain path c = .refused .wrongState := by
  rw [pathRetrain, index4_some named]
  exact (if_neg (Bool.eq_false_iff.1 free)).trans (if_pos state)

theorem pathRetrain_begun (state : c.paths[p].state ≠ .disabled) :
    pathRetrain path c = .begun (.path p) (serveIfNew c
      (enterTraining p .retrain (returnCount p c) (clearFailed p (goDown p true c)))) := by
  rw [pathRetrain, index4_some named]
  exact (if_neg (Bool.eq_false_iff.1 free)).trans (if_neg state)

end

/-- Settles O47: each command by its checks in their order. -/
theorem pathCommands : Obligations.PathCommands := by
  refine ⟨fun h path enable cap s taken => ?set, fun h path s taken => ?retrain⟩
  case set =>
    have sets := exec_concluded (k := 0x50) (v := pathSet path enable cap) taken rfl
    refine ⟨fun bad => ?_, fun p named small => ⟨fun on state => ?_, fun stays => ?_, fun off state => ?_⟩⟩
    · rw [sets, pathSet_badArg bad, conclude_refused]
    · subst on
      rw [sets, pathSet_enables named small state, conclude_done]
    · rw [sets, pathSet_caps named small stays, conclude_done, cappedTo]
    · subst off
      rw [sets, pathSet_disables named small state, conclude_done, cappedTo]
  case retrain =>
    have retrains := exec_concluded (k := 0x51) (v := pathRetrain path) taken rfl
    refine ⟨fun above => ?_, fun p named => ⟨fun busy => ?_, fun free state => ?_, fun free state => ?_⟩⟩
    · rw [retrains, pathRetrain_badArg above, conclude_refused]
    · rw [retrains, pathRetrain_busy named busy, conclude_refused]
    · rw [retrains, pathRetrain_wrongState named free state, conclude_refused]
    · rw [retrains, pathRetrain_begun named free state]

/-! ### The timers of training and negotiation -/

/-- A control word due on a path whose record was just set (R165). -/
theorem sendWord_setPath (p : Fin 4) (w : ControlWord) (r : PathRec) (c : Chip) :
    sendWord p w (setPath c p r) = setPath c p
      (if r.link = .quiet then { r with link := .word w } else { r with due := r.due ++ [w] }) := by
  unfold sendWord
  dsimp only
  rw [setPath_same]
  split
  · exact setPath_set _ _ _ _
  · exact setPath_set _ _ _ _

section
variable {p : Fin 4} {c : Chip}

theorem trainingTick_sends (running : c.paths[p].trainingTimer.isSome = true) :
    trainingTick p c = setPath c p
      (if c.paths[p].link = .quiet then
        { c.paths[p] with trainingTimer := some 1, link := .word .train }
      else { c.paths[p] with trainingTimer := some 1, due := c.paths[p].due ++ [.train] }) := by
  rw [trainingTick, if_pos running, sendWord_setPath]

theorem offerTick_sends (running : c.paths[p].offerTimer.isSome = true) :
    offerTick p c = setPath c p
      (if c.paths[p].link = .quiet then
        { c.paths[p] with offerTimer := some 10, link := .word .offer }
      else { c.paths[p] with offerTimer := some 10, due := c.paths[p].due ++ [.offer] }) := by
  rw [offerTick, if_pos running, sendWord_setPath]

theorem failAttempt_own : (failAttempt p c).paths[p] =
    { c.paths[p] with failed := c.paths[p].failed + 1 } := setPath_same _ _ _

/-- The limit of failed attempts is reached at the 8th (R155). -/
theorem attemptLimit_le_iff :
    Config.attemptLimit ≤ (failAttempt p c).paths[p].failed ↔ 8 ≤ c.paths[p].failed + 1 := by
  rw [failAttempt_own]
  exact Iff.rfl

section
variable (running : c.paths[p].window.isSome = true)
include running

/-- Before the 8th failed attempt training begins again (R155). -/
theorem windowExpires_restarts (few : c.paths[p].failed + 1 < 8) :
    windowExpires p c = setPath c p
      { c.paths[p] with failed := c.paths[p].failed + 1, good := 0, window := some 2000 } := by
  rw [windowExpires, if_pos running]
  dsimp only
  rw [if_neg (attemptLimit_le_iff.not.2 (Nat.not_le.2 few)), failAttempt_own]
  exact setPath_set _ _ _ _

theorem windowExpires_fails (many : 8 ≤ c.paths[p].failed + 1) :
    windowExpires p c = enterFailed p (failAttempt p c) := by
  rw [windowExpires, if_pos running]
  exact if_pos (attemptLimit_le_iff.2 many)

end

theorem negotiationExpires_retries (running : c.paths[p].negotiation.isSome = true) :
    negotiationExpires p c =
      if c.paths[p].failed + 1 < 8 then enterTraining p .noAccept 0 (failAttempt p c)
      else enterFailed p (failAttempt p c) := by
  rw [negotiationExpires, if_pos running]
  dsimp only
  by_cases few : c.paths[p].failed + 1 < 8
  · rw [if_pos few, if_neg (attemptLimit_le_iff.not.2 (Nat.not_le.2 few))]
  · rw [if_neg few, if_pos (attemptLimit_le_iff.2 (Nat.not_lt.1 few))]

end

/-- Settles O49. -/
theorem handshakeTimers : Obligations.HandshakeTimers := by
  refine ⟨fun p s held => ⟨fun running => ?train, fun running => ?offer⟩,
    fun p s held => ⟨fun running => ⟨fun few => ?again, fun many => ?last⟩, fun running => ?negotiation⟩⟩
  case train => rw [exec_event (k := trainingTick p) held rfl, trainingTick_sends running]
  case offer => rw [exec_event (k := offerTick p) held rfl, offerTick_sends running]
  case again =>
    rw [exec_event (k := served (windowExpires p)) held rfl, served, windowExpires_restarts running few]
  case last =>
    rw [exec_event (k := served (windowExpires p)) held rfl, served, windowExpires_fails running many,
      failAttempt]
  case negotiation =>
    rw [exec_event (k := served (negotiationExpires p)) held rfl, served,
      negotiationExpires_retries running, failAttempt]

end Sys2Proof.Machine
end

section
/-! SUPPORT. The silence and hold timers and the return list they fill (R157, R158, R161, R178). -/

namespace Sys2Proof.Machine

/-! ### Units whose records stand -/

/-- The live membership of a unit is as it was last set or ended (R87). -/
theorem setLive_live {f : Fin 8} {seq : Count32} {b : Bool} {c : Chip} {u : UnitRec}
    (mem : u ∈ (setLive f seq b c).rings[f].units) (complete : u.complete = true) (named : u.seq = seq) :
    u.live = b := by
  rw [setLive_units] at mem
  obtain ⟨v, -, rfl⟩ := List.mem_map.1 mem
  split
  · rfl
  · next other =>
    rw [if_neg other] at complete named
    simp [complete, named] at other

/-- A membership set or ended keeps the units' names. -/
theorem findUnit_setLive_isSome (f g : Fin 8) (seq q : Count32) (b : Bool) (c : Chip) :
    (findUnit (setLive f seq b c) g q).isSome = (findUnit c g q).isSome := by
  by_cases same : g = f
  · subst same
    have name : (fun u : UnitRec => u.complete && u.seq == q) ∘
        (fun u => if u.complete && u.seq == seq then { u with live := b } else u) =
          fun u => u.complete && u.seq == q := by
      funext u
      dsimp only [Function.comp]
      split <;> rfl
    rw [findUnit, setLive_units, List.find?_map, Option.isSome_map, name, findUnit]
  · have ring : (setLive f seq b c).rings[g] = c.rings[g] := setRing_other _ _ _ _ same
    rw [findUnit, ring, findUnit]

theorem itemStands_rejoin (i : Item) (c : Chip) : itemStands (rejoin i c) = itemStands c := by
  funext j
  cases i with
  | audio | message | clipUnit => rfl
  | liveUnit f seq =>
    cases j with
    | audio | message => rfl
    | liveUnit | clipUnit => exact findUnit_setLive_isSome _ _ _ _ _ _

theorem itemStands_gone {c : Chip} {i : Item} {g : Fin 8} {q : Count32} {n : Nat}
    (item : i = .liveUnit g q ∨ i = .clipUnit n g q) (gone : findUnit c g q = none) :
    itemStands c i = false := by
  rcases item with rfl | rfl <;> exact congrArg Option.isSome gone

theorem itemStands_live {c : Chip} {g : Fin 8} {q : Count32} (found : findUnit c g q ≠ none) :
    itemStands c (.liveUnit g q) = true := Option.isSome_iff_ne_none.2 found

theorem itemStands_other {c : Chip} {i : Item} (other : ∀ g q, i ≠ .liveUnit g q)
    (found : ∀ n g q, i = .clipUnit n g q → findUnit c g q ≠ none) : itemStands c i = true := by
  cases i with
  | audio | message => rfl
  | liveUnit g q => exact absurd rfl (other g q)
  | clipUnit n g q => exact Option.isSome_iff_ne_none.2 (found n g q rfl)

/-! ### A fragment handed back -/

/-- The part with a fragment's entry at the tail of the return list (R178). -/
def joinReturns (f : Fragment) (c : Chip) : Chip :=
  { c with sched.returns := c.sched.returns ++ [returned f] }

theorem rejoin_sched (i : Item) (c : Chip) : (rejoin i c).sched = c.sched := by
  cases i <;> rfl

theorem rejoin_other {i : Item} (other : ∀ g q, i ≠ .liveUnit g q) (c : Chip) : rejoin i c = c := by
  cases i with
  | audio | message | clipUnit => rfl
  | liveUnit g q => exact absurd rfl (other g q)

theorem makeReturnRoom_spare {c : Chip} (room : c.sched.returns.length < 16) : makeReturnRoom c = c :=
  if_pos room

theorem makeReturnRoom_full {c : Chip} {r : ReturnEntry} {rest : List ReturnEntry}
    (returns : c.sched.returns = r :: rest) (full : 16 ≤ c.sched.returns.length) :
    makeReturnRoom c = settleMember r.item { c with sched.returns := rest } := by
  rw [makeReturnRoom, if_neg (show ¬c.sched.returns.length < Config.returnLimit from Nat.not_lt.2 full),
    returns]

theorem returnFragment_gone {f : Fragment} {c : Chip} (gone : itemStands c f.item = false) :
    returnFragment f c = c := if_neg (Bool.eq_false_iff.1 gone)

section
variable {f : Fragment} {c : Chip} (stands : itemStands c f.item = true)
include stands

theorem returnFragment_joins :
    returnFragment f c = rejoin f.item (joinReturns f (makeReturnRoom c)) := if_pos stands

theorem returnFragment_spare (room : c.sched.returns.length < 16) :
    returnFragment f c = rejoin f.item (joinReturns f c) := by
  rw [returnFragment_joins stands, makeReturnRoom_spare room]

theorem returnFragment_spare_sched (room : c.sched.returns.length < 16) :
    (returnFragment f c).sched = { c.sched with returns := c.sched.returns ++ [returned f] } := by
  rw [returnFragment_spare stands room, rejoin_sched]
  rfl

/-- At 16 entries the oldest is dropped first (R178). -/
theorem returnFragment_full_sched {r : ReturnEntry} {rest : List ReturnEntry}
    (returns : c.sched.returns = r :: rest) (full : 16 ≤ c.sched.returns.length) :
    (returnFragment f c).sched = { c.sched with returns := rest ++ [returned f] } := by
  rw [returnFragment_joins stands, rejoin_sched, makeReturnRoom_full returns full, joinReturns]
  dsimp only
  rw [settleMember_sched]

end

/-- A live unit with returned bytes is a member again (R178). -/
theorem returnFragment_member {f : Fragment} {c : Chip} {g : Fin 8} {q : Count32}
    (item : f.item = .liveUnit g q) (found : findUnit c g q ≠ none) {u : UnitRec}
    (mem : u ∈ (returnFragment f c).rings[g].units) (complete : u.complete = true) (named : u.seq = q) :
    u.live = true := by
  rw [returnFragment_joins (by rw [item]; exact itemStands_live found), item] at mem
  exact setLive_live mem complete named

/-! ### A queue handed back -/

theorem itemStands_returnFragment {f : Fragment} {c : Chip} (room : c.sched.returns.length < 16) :
    itemStands (returnFragment f c) = itemStands c := by
  cases stands : itemStands c f.item with
  | false => rw [returnFragment_gone stands]
  | true =>
    rw [returnFragment_spare stands room, itemStands_rejoin]
    rfl

/-- With room for all, fragments handed back join in order, but for those whose units are gone (R178). -/
theorem returnFragments_sched (l : List Fragment) {c : Chip}
    (room : c.sched.returns.length + l.length ≤ 16) :
    (l.foldl (fun c f => returnFragment f c) c).sched =
      { c.sched with
        returns := c.sched.returns ++ (l.filter fun f => itemStands c f.item).map returned } := by
  induction l generalizing c with
  | nil => simp
  | cons f l ih =>
    rw [List.length_cons] at room
    have spare : c.sched.returns.length < 16 := by omega
    rw [List.foldl_cons]
    cases stands : itemStands c f.item with
    | false =>
      rw [returnFragment_gone stands, ih (by omega), List.filter_cons_of_neg (by simp [stands])]
    | true =>
      have sched := returnFragment_spare_sched stands spare
      have left : (returnFragment f c).sched.returns.length + l.length ≤ 16 := by
        rw [sched, List.length_append, List.length_singleton]
        omega
      rw [ih left, itemStands_returnFragment spare, sched, List.filter_cons_of_pos (by exact stands)]
      simp

theorem returnQueue_sched (p : Fin 4) {c : Chip}
    (room : c.sched.returns.length + c.paths[p].queue.length ≤ 16) :
    (returnQueue p c).sched =
      { c.sched with
        returns := c.sched.returns ++
          (c.paths[p].queue.filter fun f => itemStands c f.item).map returned } :=
  returnFragments_sched c.paths[p].queue (c := setPath c p { c.paths[p] with queue := [] }) room

/-! ### The two timers -/

theorem silenceExpires_drops {p : Fin 4} {c : Chip} (running : c.paths[p].silence.isSome = true) :
    silenceExpires p c = enterTraining p .silence (returnCount p c) (goDown p true c) := if_pos running

theorem holdExpires_returns {p : Fin 4} {c : Chip} (running : c.paths[p].hold.isSome = true) :
    holdExpires p c =
      askReport .path (reportBody 1 [byteOf p.val, byteOf c.paths[p].queue.length])
        (returnQueue p (setPath c p { c.paths[p] with hold := none })) := if_pos running

/-- Settles O50, the return list by one fragment and a queue by induction on its fragments. -/
theorem silenceAndHoldLimit : Obligations.SilenceAndHoldLimit := by
  refine ⟨fun p s held => ⟨fun running => ?silence, fun running => ?hold⟩,
    fun f c => ⟨fun g q n item gone => returnFragment_gone (itemStands_gone item gone),
      fun other found => ?other, fun g q item found => ?live⟩,
    fun p c => ⟨?own, fun q other => ?others, returnQueue_sched p⟩⟩
  case silence =>
    rw [exec_event (k := served (silenceExpires p)) held rfl, served, silenceExpires_drops running]
  case hold =>
    rw [exec_event (k := served (holdExpires p)) held rfl, served, holdExpires_returns running]
  case other =>
    have stands := itemStands_other other found
    refine ⟨fun room => ?_, fun r rest returns full =>
      ⟨returnFragment_full_sched stands returns full, returnFragment_paths c f⟩⟩
    rw [returnFragment_spare stands room, rejoin_other other, joinReturns]
  case live =>
    have stands : itemStands c f.item = true := by rw [item]; exact itemStands_live found
    exact ⟨fun u => returnFragment_member item found, returnFragment_paths c f,
      returnFragment_spare_sched stands, fun r rest => returnFragment_full_sched stands⟩
  case own => exact (congrArg (·[p]) (returnQueue_paths p c)).trans (setPath_same _ _ _)
  case others => exact (congrArg (·[q]) (returnQueue_paths p c)).trans (setPath_other _ _ _ _ other)

end Sys2Proof.Machine
end

section
/-! SUPPORT. The pacing tick: credit and the IDLE word (R163, R165). -/

namespace Sys2Proof.Machine

/-- A path's record after a pacing tick: the credit has risen to its limit at most (R163). -/
def tickedRec (r : PathRec) : PathRec :=
  { r with
    credit := min (50 * r.pacingCap) (r.credit + 10 * r.pacingCap), sent := false, pacing := some 10 }

theorem tickCredit_eq (r : PathRec) :
    tickCredit r = min (50 * (r.pacingCap : Int)) (r.credit + 10 * r.pacingCap) := by
  rw [tickCredit, Nat.mul_comm, Nat.mul_comm r.pacingCap]
  push_cast
  rfl

section
variable {p : Fin 4} {c : Chip} (running : c.paths[p].pacing.isSome = true)
include running

theorem paceTick_eq :
    paceTick p c =
      if wasBusy c.paths[p] then setPath c p (tickedRec c.paths[p])
      else sendWord p .idle (setPath c p (tickedRec c.paths[p])) := by
  rw [paceTick, tickedRec, ← tickCredit_eq]
  exact if_pos running

/-- A path that sent since the tick before, or has a frame on its link, sends no IDLE word (R165). -/
theorem paceTick_busy
    (busy : c.paths[p].sent = true ∨ ∃ f got, c.paths[p].link = .frame f got) :
    paceTick p c = setPath c p (tickedRec c.paths[p]) := by
  have was : wasBusy c.paths[p] = true := by
    unfold wasBusy
    rcases busy with sent | ⟨f, got, link⟩
    · rw [sent, Bool.true_or]
    · rw [link, Bool.or_true]
  rw [paceTick_eq running, if_pos was]

variable (silent : c.paths[p].sent = false)
include silent

/-- A path that sent nothing sends an IDLE word, or has it wait for the word on its link (R165). -/
theorem paceTick_idle (noFrame : ∀ f got, c.paths[p].link ≠ .frame f got) :
    paceTick p c = setPath c p
      (if c.paths[p].link = .quiet then { tickedRec c.paths[p] with link := .word .idle }
      else { tickedRec c.paths[p] with due := c.paths[p].due ++ [.idle] }) := by
  have was : wasBusy c.paths[p] = false := by
    unfold wasBusy
    split
    · next link => exact absurd link (noFrame _ _)
    all_goals rw [silent, Bool.or_false]
  rw [paceTick_eq running, if_neg (Bool.eq_false_iff.1 was), sendWord_setPath]
  rfl

theorem paceTick_sends (quiet : c.paths[p].link = .quiet) :
    paceTick p c = setPath c p { tickedRec c.paths[p] with link := .word .idle } := by
  rw [paceTick_idle running silent (by rw [quiet]; nofun), if_pos quiet]

theorem paceTick_waits {w : ControlWord} (word : c.paths[p].link = .word w) :
    paceTick p c = setPath c p { tickedRec c.paths[p] with due := c.paths[p].due ++ [.idle] } := by
  rw [paceTick_idle running silent (by rw [word]; nofun), if_neg (by rw [word]; nofun)]

end

/-- Settles O51, by what the path sent and what stands on its link. -/
theorem pacingTickCredit : Obligations.PacingTickCredit := by
  intro p s r held running ticked
  obtain rfl : r = tickedRec s.chip.paths[p] := ticked
  rw [exec_event (k := served (paceTick p)) held rfl, served]
  refine ⟨fun busy => ?_, fun silent quiet => ?_, fun w silent word => ?_⟩
  · rw [paceTick_busy running busy]
  · rw [paceTick_sends running silent quiet]
  · rw [paceTick_waits running silent word]
    rfl

end Sys2Proof.Machine
end

section
/-! SUPPORT. What a received unit does, whatever its kind, and TRAIN and ACCEPT (R155 to R158, R160, R162). -/

namespace Sys2Proof.Machine

/-! ### Units without effect -/

/-- An effect that changes nothing is served nothing (R176). -/
theorem served_same {k : Chip → Chip} {c : Chip} (same : k c = c) : served k c = c := by
  rw [served, same, serveIfNew_same rfl rfl]

/-- An event whose effect on the part changes nothing. -/
theorem exec_unchanged {i : Instr} {s : State} {k : Chip → Chip} (held : s.chip.resetHeld = false)
    (row : exec i s = event s k) (same : k s.chip = s.chip) : exec i s = .next s := by
  rw [exec_event held row, same]

section
variable {p : Fin 4} {c : Chip}

theorem heard_up (up : c.paths[p].state = .up) : heard p c = heardOn p c := if_pos up

theorem heard_down (down : c.paths[p].state ≠ .up) : heard p c = c := if_neg down

theorem heardOn_own : (heardOn p c).paths[p] = { c.paths[p] with silence := some 250 } :=
  setPath_same _ _ _

theorem heardOn_idle (idle : ∀ q : Fin 4, ready c.paths[q] = false) (q : Fin 4) :
    ready (heardOn p c).paths[q] = false :=
  setPath_idle (r := { c.paths[p] with silence := some 250 }) idle (idle p) q

end

/-! ### TRAIN -/

section
variable {p : Fin 4} {c : Chip}

section
variable (state : c.paths[p].state = .training)
include state

theorem trainReceived_counts (few : c.paths[p].good < 2) :
    trainReceived p c = setPath c p { c.paths[p] with good := c.paths[p].good + 1 } := by
  unfold trainReceived
  rw [state]
  exact if_neg (by omega)

/-- The third good TRAIN word ends training (R155). -/
theorem trainReceived_third (many : 2 ≤ c.paths[p].good) :
    trainReceived p c =
      enterNegotiating p (setPath c p { c.paths[p] with good := c.paths[p].good + 1 }) := by
  unfold trainReceived
  rw [state]
  exact if_pos (by omega)

end

/-- A TRAIN word on an UP path takes it down into TRAINING, as the first good one there (R158). -/
theorem trainReceived_up {d : Chip} (up : c.paths[p].state = .up)
    (down : d = enterTraining p .modemTraining (returnCount p c) (goDown p true c)) :
    trainReceived p c = setPath d p { d.paths[p] with good := 1 } := by
  subst down
  unfold trainReceived
  rw [up]
  rfl

theorem trainReceived_discards (state : c.paths[p].state = .disabled ∨
    c.paths[p].state = .negotiating ∨ c.paths[p].state = .failed) : trainReceived p c = c := by
  unfold trainReceived
  rcases state with state | state | state <;> rw [state]

end

/-! ### Errors -/

section
variable {p : Fin 4} {c : Chip}

theorem countError_discards (state : c.paths[p].state = .disabled ∨ c.paths[p].state = .failed) :
    countError p c = c := by
  unfold countError
  rcases state with state | state <;> rw [state]

theorem failingUnit_discards (state : c.paths[p].state = .disabled ∨ c.paths[p].state = .failed) :
    failingUnit p c = c := by
  rw [failingUnit, countError_discards state]
  exact if_neg (by rcases state with state | state <;> rw [state] <;> decide)

theorem noticeReceived_discards (state : c.paths[p].state = .disabled ∨ c.paths[p].state = .failed) :
    noticeReceived p c = c := by
  rw [noticeReceived, heard_down (by rcases state with state | state <;> rw [state] <;> decide),
    countError_discards state]

variable (state : c.paths[p].state = .training ∨ c.paths[p].state = .negotiating ∨
  c.paths[p].state = .up)
include state

/-- The error count stops at 65535 (R162). -/
theorem countError_counts :
    countError p c = setPath c p { c.paths[p] with errors := min 65535 (c.paths[p].errors + 1) } := by
  unfold countError
  rcases state with state | state | state <;> rw [state]

/-- In TRAINING a failing unit clears the good count too (R155). -/
theorem failingUnit_counts :
    failingUnit p c = setPath c p
      { c.paths[p] with
        errors := min 65535 (c.paths[p].errors + 1)
        good := if c.paths[p].state = .training then 0 else c.paths[p].good } := by
  rw [failingUnit, countError_counts state]
  dsimp only
  rw [setPath_same]
  by_cases training : c.paths[p].state = .training
  · rw [if_pos training, if_pos training, setPath_set]
  · rw [if_neg training, if_neg training]

/-- An ERROR_NOTICE is a good unit that counts one error (R160, R162). -/
theorem noticeReceived_counts :
    noticeReceived p c = setPath c p
      { c.paths[p] with
        errors := min 65535 (c.paths[p].errors + 1)
        silence := if c.paths[p].state = .up then some 250 else c.paths[p].silence } := by
  rw [noticeReceived]
  by_cases up : c.paths[p].state = .up
  · rw [heard_up up, countError_counts (by rw [heardOn_own]; exact .inr (.inr up)), heardOn_own,
      if_pos up]
    exact setPath_set _ _ _ _
  · rw [heard_down up, countError_counts state, if_neg up]

end

/-! ### ACCEPT -/

theorem acceptOk_iff (level : Byte) (mtu ceiling : Nat) : acceptOk level.toNat mtu ceiling = true ↔
    (level = 1 ∨ level = 2) ∧ 256 ≤ mtu ∧ mtu ≤ 1500 ∧ 100 ≤ ceiling ∧ ceiling ≤ 400000 := by
  have one : level.toNat = 1 ↔ level = 1 := by bv_omega
  have two : level.toNat = 2 ↔ level = 2 := by bv_omega
  simp only [acceptOk, Bool.and_eq_true, Bool.or_eq_true, beq_iff_eq, decide_eq_true_eq, one, two, and_assoc]
  exact Iff.rfl

section
variable {p : Fin 4} {c : Chip} {level : Byte} {mtu : Nat} {ceiling : Nat} (initial : Nat)

theorem acceptReceived_enters (state : c.paths[p].state = .negotiating)
    (range : (level = 1 ∨ level = 2) ∧ 256 ≤ mtu ∧ mtu ≤ 1500 ∧ 100 ≤ ceiling ∧ ceiling ≤ 400000) :
    acceptReceived p level.toNat mtu ceiling initial c =
      changeState p .accepted 0
        { c.paths[p] with
          state := .up, level := level.toNat, mtu := mtu, ceiling := ceiling
          reported := if level = 2 then min initial ceiling else 0
          failed := 0, credit := 0, held := false, queue := [], sent := false, offerTimer := none
          negotiation := none, silence := some 250, pacing := some 10 } c := by
  have two : (level = 2) = (level.toNat = 2) := by rw [eq_iff_iff]; bv_omega
  unfold acceptReceived
  rw [state]
  simp only [two]
  exact if_pos ((acceptOk_iff level mtu ceiling).2 range)

theorem acceptReceived_fails (state : c.paths[p].state = .negotiating)
    (bad : (level ≠ 1 ∧ level ≠ 2) ∨ mtu < 256 ∨ 1500 < mtu ∨ ceiling < 100 ∨ 400000 < ceiling) :
    acceptReceived p level.toNat mtu ceiling initial c =
      setPath c p { c.paths[p] with errors := min 65535 (c.paths[p].errors + 1) } := by
  have out : ¬acceptOk level.toNat mtu ceiling = true := by
    rw [acceptOk_iff]
    rintro ⟨known, fields⟩
    rcases bad with ⟨one, two⟩ | fields'
    · exact known.elim one two
    · omega
  unfold acceptReceived
  rw [state]
  exact (if_neg out).trans (countError_counts (.inr (.inl state)))

theorem acceptReceived_discards (level : Nat) (state : c.paths[p].state = .disabled ∨
    c.paths[p].state = .training ∨ c.paths[p].state = .failed) :
    acceptReceived p level mtu ceiling initial c = c := by
  unfold acceptReceived
  rcases state with state | state | state <;> rw [state]

theorem acceptReceived_up (level : Nat) (up : c.paths[p].state = .up) :
    acceptReceived p level mtu ceiling initial c = heardOn p c := by
  unfold acceptReceived
  rw [up]
  exact heard_up up

end

/-- Settles O53: each word by the path's state. -/
theorem handshakeReceived : Obligations.HandshakeReceived := by
  refine ⟨fun p s held => ?train, fun p level mtu ceiling initial s held => ?accept⟩
  case train =>
    have train := exec_event (i := .train p) (k := served (trainReceived p)) held rfl
    refine ⟨fun state few => ?_, fun state many => ?_, fun d up down => ?_, fun state => ?_⟩
    · rw [train, served, trainReceived_counts state few]
    · rw [train, served, trainReceived_third state many]
    · rw [train, served, trainReceived_up up down]
    · exact exec_unchanged held (k := served (trainReceived p)) rfl
        (served_same (trainReceived_discards state))
  case accept =>
    have accept := exec_event (i := .accept p level mtu ceiling initial)
      (k := served (acceptReceived p level.toNat mtu.toNat ceiling.toNat initial.toNat)) held rfl
    refine ⟨fun state known least most low high => ?_, fun state bad => ?_, fun state => ?_,
      fun up idle => ?_⟩
    · rw [accept, served, acceptReceived_enters _ state ⟨known, least, most, low, high⟩]
    · rw [accept, served, acceptReceived_fails _ state bad]
    · rw [accept, served_same (acceptReceived_discards _ _ state)]
    · rw [accept, served, acceptReceived_up _ _ up, serveIfNew_quiet (heardOn_idle idle), heardOn]

end Sys2Proof.Machine
end

section
/-! SUPPORT. The units without effect, the failing units, and the units of received bytes (R155, R158,
R160, R162, R187). -/

namespace Sys2Proof.Machine

/-! ### Messages of unknown kind -/

section
variable {p : Fin 4} {body : List Byte} {c : Chip}

theorem unknownReceived_fits (fits : body.length ≤ dataLimit c.paths[p]) :
    unknownReceived p body c = heard p c := by
  rw [unknownReceived, messageReceived, if_neg (Nat.not_lt.2 fits)]
  dsimp only
  rw [Bool.and_false, if_neg Bool.false_ne_true]

theorem unknownReceived_tooLong (long : dataLimit c.paths[p] < body.length) :
    unknownReceived p body c = failingUnit p c := if_pos long

end

/-- The units that have no effect but the silence timer's restart (R158, R160, R187). -/
theorem exec_onlyHeard {p : Fin 4} {i : Instr} {s : State} (held : s.chip.resetHeld = false)
    (unit : i = .offer p ∨ i = .idle p ∨ i = .fragmentFrameReceived p ∨
      ∃ kind body, i = .unknownKindReturnMessage p kind body ∧
        body.length ≤ dataLimit s.chip.paths[p]) :
    exec i s = .next { s with chip := heard p s.chip } := by
  rcases unit with rfl | rfl | rfl | ⟨kind, body, rfl, fits⟩
  · exact exec_event (k := heard p) held rfl
  · exact exec_event (k := heard p) held rfl
  · exact exec_event (k := heard p) held rfl
  · rw [exec_event (k := unknownReceived p body) held rfl, unknownReceived_fits fits]

/-! ### The units of received bytes -/

section
variable {p : Fin 4} {r : PathRec} {lead : Byte} {more : List Byte}

section
variable (word : 1 ≤ lead.toNat ∧ lead.toNat ≤ 8)
include word

theorem unitExtent_word : unitExtent (lead :: more) = 12 := if_pos word

theorem classifyUnit_word : classifyUnit p r (lead :: more) =
    if (lead :: more).length < 12 ∨ be16At (lead :: more) 10 ≠ wordCheck (lead :: more) then
      .unitFailingCheck p
    else classifyWord p (lead :: more) := if_pos word

end

section
variable (frame : 0x10 ≤ lead.toNat ∧ lead.toNat ≤ 0x2F)
include frame

theorem unitExtent_frame :
    unitExtent (lead :: more) = 24 + (be16At (lead :: more) 22).toNat + 4 :=
  (if_neg (show ¬(1 ≤ lead.toNat ∧ lead.toNat ≤ 8) by omega)).trans (if_pos frame)

variable {n : Nat} (length : n = (be16At (lead :: more) 22).toNat)
include length

theorem classifyUnit_frame : classifyUnit p r (lead :: more) =
    if dataLimit r < n ∨ (lead :: more).length < 24 + n + 4 ∨
        ((lead :: more).drop (24 + n)).take 4 ≠ le32 (crc32 ((lead :: more).take (24 + n))) then
      .unitFailingCheck p
    else if lead.toNat < 0x20 then .fragmentFrameReceived p
    else classifyMessage p (lead :: more) (((lead :: more).drop 24).take n) := by
  subst length
  exact (if_neg (show ¬(1 ≤ lead.toNat ∧ lead.toNat ≤ 8) by omega)).trans (if_pos frame)

/-- A frame of an allowed length with a good check (R187). -/
theorem classifyUnit_goodFrame (fits : n ≤ dataLimit r) (whole : 24 + n + 4 ≤ (lead :: more).length)
    (check : ((lead :: more).drop (24 + n)).take 4 = le32 (crc32 ((lead :: more).take (24 + n)))) :
    classifyUnit p r (lead :: more) =
      if lead.toNat < 0x20 then .fragmentFrameReceived p
      else classifyMessage p (lead :: more) (((lead :: more).drop 24).take n) := by
  rw [classifyUnit_frame frame length, if_neg]
  rintro (long | short | wrong)
  · exact Nat.not_lt.2 fits long
  · exact Nat.not_lt.2 whole short
  · exact wrong check

end

section
variable (other : lead.toNat = 0 ∨ 8 < lead.toNat ∧ lead.toNat < 0x10 ∨ 0x2F < lead.toNat)
include other

theorem unitExtent_other : unitExtent (lead :: more) = 1 :=
  (if_neg (show ¬(1 ≤ lead.toNat ∧ lead.toNat ≤ 8) by omega)).trans
    (if_neg (show ¬(0x10 ≤ lead.toNat ∧ lead.toNat ≤ 0x2F) by omega))

theorem classifyUnit_other : classifyUnit p r (lead :: more) = .unitFailingCheck p :=
  (if_neg (show ¬(1 ≤ lead.toNat ∧ lead.toNat ≤ 8) by omega)).trans
    (if_neg (show ¬(0x10 ≤ lead.toNat ∧ lead.toNat ≤ 0x2F) by omega))

end

end

theorem unitExtent_pos (bs : List Byte) : 0 < unitExtent bs := by
  unfold unitExtent
  dsimp only
  split
  · decide
  · split
    · exact Nat.succ_pos _
    · exact Nat.one_pos

theorem takeUnit_shorter {p : Fin 4} {r : PathRec} {bs rest : List Byte} {i : Instr}
    (unit : takeUnit p r bs = some (i, rest)) : rest.length < bs.length := by
  cases bs with
  | nil => cases unit
  | cons lead more =>
    have left : (lead :: more).drop (unitExtent (lead :: more)) = rest :=
      congrArg Prod.snd (Option.some.inj unit)
    have pos := unitExtent_pos (lead :: more)
    rw [← left, List.length_drop, List.length_cons]
    omega

section
variable {p : Fin 4} {s : State}

theorem receiveFrom_nil (fuel : Nat) : receiveFrom p fuel [] s = .next s := by
  cases fuel <;> rfl

/-- Fuel for every byte is fuel enough: each unit takes at least one. -/
theorem receiveFrom_fuel {n m : Nat} {bs : List Byte} (n_le : bs.length ≤ n) (m_le : bs.length ≤ m) :
    receiveFrom p n bs s = receiveFrom p m bs s := by
  induction n generalizing m bs s with
  | zero => rw [List.length_eq_zero_iff.1 (Nat.le_zero.1 n_le), receiveFrom_nil, receiveFrom_nil]
  | succ n ih =>
    cases m with
    | zero => rw [List.length_eq_zero_iff.1 (Nat.le_zero.1 m_le), receiveFrom_nil, receiveFrom_nil]
    | succ m =>
      rw [receiveFrom, receiveFrom]
      cases unit : takeUnit p s.chip.paths[p] bs with
      | none => rfl
      | some x =>
        have shorter := takeUnit_shorter unit
        dsimp only
        cases exec x.1 s with
        | next t => exact ih (by omega) (by omega)
        | fault | refused => rfl

/-- The first unit runs, and the link goes on with the byte after it (R187). -/
theorem receive_unit {bs rest : List Byte} {i : Instr} {t : State}
    (unit : takeUnit p s.chip.paths[p] bs = some (i, rest)) (run : exec i s = .next t) :
    receive p bs s = receive p rest t := by
  have shorter := takeUnit_shorter unit
  obtain ⟨n, length⟩ : ∃ n, bs.length = n + 1 := Nat.exists_eq_succ_of_ne_zero (by omega)
  rw [receive, length, receiveFrom, unit]
  dsimp only
  rw [run]
  exact receiveFrom_fuel (by omega) (Nat.le_refl _)

end

/-- Settles O54: units by the path's state, and received bytes by the lead byte. -/
theorem discardedAndFailingUnits : Obligations.DiscardedAndFailingUnits := by
  refine ⟨fun p s i held unit => ⟨fun down => ?discarded, fun up => ?heard⟩,
    fun p kind body s held long => ?tooLong, fun p count s held => ⟨fun state => ?ignored, fun state => ?counts⟩,
    fun p r lead more bs shape => ?bytes, fun p bs rest i s t => ⟨fun none => ?done, receive_unit⟩⟩
  case discarded => rw [exec_onlyHeard held unit, heard_down down]
  case heard => rw [exec_onlyHeard held unit, heard_up up, heardOn]
  case tooLong =>
    rw [exec_event (k := unknownReceived p body) held rfl, exec_event (k := failingUnit p) held rfl,
      unknownReceived_tooLong long]
  case ignored =>
    exact ⟨exec_unchanged held (k := failingUnit p) rfl (failingUnit_discards state),
      exec_unchanged held (k := noticeReceived p) rfl (noticeReceived_discards state)⟩
  case counts =>
    rw [exec_event (k := failingUnit p) held rfl, exec_event (k := noticeReceived p) held rfl,
      failingUnit_counts state, noticeReceived_counts state]
    exact ⟨rfl, rfl⟩
  case bytes =>
    subst shape
    refine ⟨rfl, rfl, fun least most => ⟨unitExtent_word ⟨least, most⟩, fun whole check => ?_, fun bad => ?_⟩,
      fun n least most length => ⟨?_, fun fits whole check => ?_, fun bad => ?_⟩,
      fun other => ⟨unitExtent_other other, classifyUnit_other other⟩⟩
    · rw [classifyUnit_word ⟨least, most⟩, if_neg]
      exact fun bad => bad.elim (Nat.not_lt.2 whole) fun wrong => wrong check
    · rw [classifyUnit_word ⟨least, most⟩, if_pos bad]
    · rw [unitExtent_frame ⟨least, most⟩, length]
    · rw [classifyUnit_goodFrame ⟨least, most⟩ length fits whole check]
      exact ⟨fun fragment => if_pos fragment, fun message => if_neg (Nat.not_lt.2 message)⟩
    · rw [classifyUnit_frame ⟨least, most⟩ length, if_pos bad]
  case done => rw [none, receive, receiveFrom_nil]

end Sys2Proof.Machine
end

section
/-! SUPPORT. CAPACITY, HOLD and RESUME (R158, R160, R161, R163, R165). -/

namespace Sys2Proof.Machine

section
variable {p : Fin 4} {c : Chip}

theorem fullLevel_down (down : c.paths[p].state ≠ .up) : fullLevel c p = false := by
  rw [fullLevel, beq_false_of_ne down, Bool.false_and]

theorem fullLevel_heardOn (up : c.paths[p].state = .up) :
    fullLevel (heardOn p c) p = (c.paths[p].level == 2) := by
  rw [fullLevel, heardOn_own]
  dsimp only
  rw [up]
  rfl

/-- Off level 2 the words of flow control are good units and no more (R160). -/
theorem flowWords_heard (off : fullLevel (heard p c) p = false) (value : Nat) :
    capacityReceived p value c = heard p c ∧ holdReceived p c = heard p c ∧
      resumeReceived p c = heard p c := by
  have flag (b : Bool) : ¬(fullLevel (heard p c) p && b) = true := by
    rw [off, Bool.false_and]
    exact Bool.false_ne_true
  exact ⟨if_neg (Bool.eq_false_iff.1 off), if_neg (flag _), if_neg (flag _)⟩

theorem flowWords_down (down : c.paths[p].state ≠ .up) (value : Nat) :
    capacityReceived p value c = c ∧ holdReceived p c = c ∧ resumeReceived p c = c := by
  have words := flowWords_heard (p := p) (c := c) (by rw [heard_down down, fullLevel_down down]) value
  rwa [heard_down down] at words

variable (up : c.paths[p].state = .up)
include up

theorem flowWords_level1 (other : c.paths[p].level ≠ 2) (value : Nat) :
    capacityReceived p value c = heardOn p c ∧ holdReceived p c = heardOn p c ∧
      resumeReceived p c = heardOn p c := by
  have words := flowWords_heard (p := p) (c := c)
    (by rw [heard_up up, fullLevel_heardOn up, beq_false_of_ne other]) value
  rwa [heard_up up] at words

variable (level : c.paths[p].level = 2)
include level

theorem fullLevel_level2 : fullLevel (heardOn p c) p = true := by
  rw [fullLevel_heardOn up, level]
  rfl

/-- The reported capacity is limited to the ceiling (R160). -/
theorem capacityReceived_limits (value : Nat) :
    capacityReceived p value c = setPath c p
      { c.paths[p] with silence := some 250, reported := min value c.paths[p].ceiling } := by
  rw [capacityReceived, heard_up up]
  dsimp only
  rw [if_pos (fullLevel_level2 up level), heardOn_own]
  exact setPath_set _ _ _ _

theorem holdReceived_holds (free : c.paths[p].held = false) :
    holdReceived p c = setPath c p
      { c.paths[p] with silence := some 250, held := true, hold := some 500 } := by
  rw [holdReceived, heard_up up]
  dsimp only
  rw [fullLevel_level2 up level, heardOn_own, free]
  exact setPath_set _ _ _ _

/-- A held path is held once (R161). -/
theorem holdReceived_again (held : c.paths[p].held = true) : holdReceived p c = heardOn p c := by
  rw [holdReceived, heard_up up]
  dsimp only
  rw [fullLevel_level2 up level, heardOn_own, held]
  rfl

theorem resumeReceived_free (free : c.paths[p].held = false) : resumeReceived p c = heardOn p c := by
  rw [resumeReceived, heard_up up]
  dsimp only
  rw [fullLevel_level2 up level, heardOn_own, free]
  rfl

end

/-- A path's record after the RESUME that ends its hold (R161). -/
def resumedRec (r : PathRec) : PathRec := { r with silence := some 250, held := false, hold := none }

/-- The head fragment begins on a path whose record was just set (R165). -/
theorem beginTransmission_setPath {p : Fin 4} {c : Chip} {r : PathRec} {f : Fragment} {rest : List Fragment}
    (queue : r.queue = f :: rest) (up : r.state = .up) (free : r.held = false) (quiet : r.link = .quiet)
    (due : r.due = []) :
    ∃ got reads, beginTransmission p (setPath c p r) =
      setPath { c with mem.ownReads := reads } p
        { r with queue := rest, link := .frame f got, sent := true } := by
  have own : (setPath c p r).paths[p] = r := setPath_same _ _ _
  have begun := beginTransmission_begins (p := p) (c := setPath c p r) (by rw [own]; exact queue)
    (by rw [own]; exact up) (by rw [own]; exact free) (by rw [own]; exact quiet) (by rw [own]; exact due)
  rw [own] at begun
  exact ⟨_, _, begun.trans (setPath_set { c with mem.ownReads := _ } p _ _)⟩

section
variable {p : Fin 4} {c : Chip} (held : c.paths[p].held = true)

section
variable (spent : c.paths[p].credit ≤ 0) (others : ∀ q : Fin 4, q ≠ p → ready c.paths[q] = false)
include held spent others

/-- When a held path without credit resumes, no path is ready (R163). -/
theorem ready_resumed {r : PathRec} (credit : r.credit = c.paths[p].credit) (q : Fin 4) :
    ready (setPath c p r).paths[q] = false := by
  refine setPath_idle (fun x => ?_) ?_ q
  · by_cases same : x = p
    · rw [same, Bool.eq_false_iff, ne_eq, ready_iff]
      rintro ⟨-, free, -⟩
      exact Bool.false_ne_true (free.symm.trans held)
    · exact others x same
  · rw [Bool.eq_false_iff, ne_eq, ready_iff, credit]
    rintro ⟨-, -, -, left⟩
    exact Int.not_lt.2 spent left

end

variable (up : c.paths[p].state = .up) (level : c.paths[p].level = 2)
include held up level

theorem resumeReceived_resumes :
    resumeReceived p c =
      inReadOrder (fun c => serve (beginTransmission p c)) (setPath c p (resumedRec c.paths[p])) := by
  have set : setPath (heardOn p c) p { (heardOn p c).paths[p] with held := false, hold := none } =
      setPath c p (resumedRec c.paths[p]) := by
    rw [heardOn_own]
    exact setPath_set _ _ _ _
  rw [resumeReceived, heard_up up]
  dsimp only
  rw [if_pos (by rw [fullLevel_level2 up level, heardOn_own, Bool.true_and]; exact held), set]

variable (spent : c.paths[p].credit ≤ 0) (others : ∀ q : Fin 4, q ≠ p → ready c.paths[q] = false)
include spent others

theorem resumeReceived_nothing (empty : c.paths[p].queue = []) :
    resumeReceived p c = setPath c p (resumedRec c.paths[p]) := by
  have begun : beginTransmission p (setPath c p (resumedRec c.paths[p])) =
      setPath c p (resumedRec c.paths[p]) := beginTransmission_none (by rw [setPath_same]; exact .inl empty)
  have quiet := serve_quiet (ready_resumed held spent others (r := resumedRec c.paths[p]) rfl)
  rw [resumeReceived_resumes held up level, inReadOrder_quiet (by rw [begun, quiet]), begun, quiet]

/-- The head fragment of a path that RESUME frees begins on a quiet link (R161, R165). -/
theorem resumeReceived_begins {f : Fragment} {rest : List Fragment} (queue : c.paths[p].queue = f :: rest)
    (quiet : c.paths[p].link = .quiet) (due : c.paths[p].due = []) :
    ∃ got, (resumeReceived p c).paths[p] =
      { resumedRec c.paths[p] with queue := rest, link := .frame f got, sent := true } := by
  obtain ⟨got, reads, begun⟩ := beginTransmission_setPath (p := p) (c := c) (r := resumedRec c.paths[p])
    queue up rfl quiet due
  refine ⟨got, ?_⟩
  rw [resumeReceived_resumes held up level, (inReadOrder_same _ _).1, begun, serve_quiet]
  · exact setPath_same _ _ _
  · exact ready_resumed (c := { c with mem.ownReads := reads }) held spent others rfl

end

/-- Settles O55: each word by the path's state and level. -/
theorem flowControlWords : Obligations.FlowControlWords := by
  intro p v s r held same
  subst same
  have capacity := exec_event (i := .capacity p v) (k := capacityReceived p v.toNat) held rfl
  have hold := exec_event (i := .hold p) (k := holdReceived p) held rfl
  have resume := exec_event (i := .resume p) (k := resumeReceived p) held rfl
  refine ⟨fun down => ?down, fun up other => ?level1, fun up level => ⟨?capacity, fun free => ?free,
    fun on => ?again, fun on spent others => ⟨fun empty => ?nothing, fun f rest queue quiet due => ?begins⟩⟩⟩
  case down =>
    obtain ⟨c, h, r⟩ := flowWords_down down v.toNat
    rw [capacity, hold, resume, c, h, r]
    exact ⟨rfl, rfl, rfl⟩
  case level1 =>
    obtain ⟨c, h, r⟩ := flowWords_level1 up other v.toNat
    rw [capacity, hold, resume, c, h, r]
    exact ⟨rfl, rfl, rfl⟩
  case capacity => rw [capacity, capacityReceived_limits up level]
  case free =>
    rw [hold, resume, holdReceived_holds up level free, resumeReceived_free up level free]
    exact ⟨rfl, rfl⟩
  case again => rw [hold, holdReceived_again up level on, heardOn]
  case nothing => rw [resume, resumeReceived_nothing on up level spent others empty, resumedRec]
  case begins =>
    obtain ⟨got, record⟩ := resumeReceived_begins on up level spent others queue quiet due
    exact ⟨_, got, resume, rfl, record⟩

end Sys2Proof.Machine
end

section
/-! SUPPORT. The allocation: the caps of the paths, the live pool and the feeds' shares of it (R169 to R171). -/

namespace Sys2Proof.Machine

/-! ### The caps of the paths -/

theorem pathCap_up {r : PathRec} {a b : Nat} (up : r.state = .up)
    (reported : a = if r.level = 1 then r.ceiling else min r.reported r.ceiling)
    (limited : b = if r.hostCap = 0 then a else min a r.hostCap) :
    pathCap r = if r.degraded then b / 2 else b := by
  subst limited reported
  exact if_pos up

/-! ### The live pool -/

/-- The sum of the caps, limited to the RATE_CAP (R170). -/
def cappedSum (c : Chip) : Nat :=
  match c.sched.rateCap with
  | some v => min (four.map fun p => pathCap c.paths[p]).sum v
  | none => (four.map fun p => pathCap c.paths[p]).sum

theorem cappedSum_limit {c : Chip} {caps limit : Nat}
    (sum : caps = pathCap c.paths[0] + pathCap c.paths[1] + pathCap c.paths[2] + pathCap c.paths[3])
    (free : c.sched.rateCap = none → limit = caps)
    (capped : ∀ v, c.sched.rateCap = some v → limit = min caps v) : cappedSum c = limit := by
  have total : (four.map fun p => pathCap c.paths[p]).sum = caps := by
    subst sum
    simp only [four, List.map_cons, List.map_nil, List.sum_cons, List.sum_nil, Nat.add_zero, Nat.add_assoc]
    rfl
  rw [cappedSum, total]
  cases rate : c.sched.rateCap with
  | none => exact (free rate).symm
  | some v => exact (capped v rate).symm

/-- The steps of R170 from the limited sum: headroom, reserves and clip share. -/
theorem livePool_eq (c : Chip) :
    livePool c =
      (cappedSum c * c.sched.headroom / 100 -
        (if c.mixer.running = true then
          1200 * (eight.filter fun l => c.mixer.legs[l].uplink).length else 0) - 64) *
        (100 - c.sched.share) / 100 := by
  rw [← List.countP_eq_length_filter]
  rfl

/-! ### The feeds' shares -/

theorem sharesPool_iff {c : Chip} {f : Fin 8} :
    sharesPool c f = true ↔ c.feeds[f].state = .running ∧ c.feeds[f].cfg.mode = .live := by
  simp [sharesPool]

theorem sharesPool_false_iff {c : Chip} {f : Fin 8} :
    sharesPool c f = false ↔ c.feeds[f].state ≠ .running ∨ c.feeds[f].cfg.mode ≠ .live := by
  rw [Bool.eq_false_iff, Ne, sharesPool_iff, not_and_or]

theorem feedRate_none {c : Chip} {f : Fin 8} (alone : sharesPool c f = false) : feedRate c f = none := by
  rw [feedRate, alone]
  rfl

/-- The weight that a feed brings into the pool: none where it does not share it (R171). -/
def poolWeight (c : Chip) (f : Fin 8) : Nat := if sharesPool c f then tallyWeight c f else 0

theorem poolWeight_eq (c : Chip) (f : Fin 8) :
    poolWeight c f =
      if c.feeds[f].state = .running ∧ c.feeds[f].cfg.mode = .live then
        (if c.tally.feeds[f].state = .program then 2 else 1) * c.feeds[f].cfg.weight
      else 0 := by
  simp only [poolWeight, sharesPool_iff, tallyWeight, ite_mul, one_mul]

theorem sum_poolWeight (c : Chip) :
    (eight.map (poolWeight c)).sum = ((eight.filter (sharesPool c)).map (tallyWeight c)).sum := by
  have split := List.sum_map_ite (sharesPool c ·) (tallyWeight c) (fun _ => 0) eight
  simp only [List.sum_map_zero, Nat.add_zero, Bool.decide_eq_true] at split
  exact split

/-- A sharing feed's share of the pool by weight, before it is clamped (R171). -/
def poolShare (c : Chip) (f : Fin 8) : Nat :=
  livePool c * poolWeight c f / (eight.map (poolWeight c)).sum

theorem feedRate_shares {c : Chip} {f : Fin 8} (shares : sharesPool c f = true) :
    feedRate c f = some (min c.feeds[f].cfg.rateMax (max c.feeds[f].cfg.rateMin (poolShare c f))) := by
  rw [poolShare, sum_poolWeight, poolWeight, feedRate, if_pos shares, if_pos shares]

/-! ### The sum of the rates -/

/-- Shares rounded down sum to no more than the whole. -/
theorem sum_map_div_le {α : Type} (w : α → Nat) (n t : Nat) (l : List α) :
    (l.map fun a => n * w a / t).sum ≤ n * (l.map w).sum / t := by
  induction l with
  | nil => exact Nat.zero_le _
  | cons a l ih =>
    calc n * w a / t + (l.map fun a => n * w a / t).sum
        ≤ n * w a / t + n * (l.map w).sum / t := Nat.add_le_add_left ih _
      _ ≤ (n * w a + n * (l.map w).sum) / t := Nat.div_add_div_le_add_div
      _ = n * (w a + (l.map w).sum) / t := by rw [Nat.mul_add]

theorem sum_poolShare_le (c : Chip) : (eight.map (poolShare c)).sum ≤ livePool c :=
  (sum_map_div_le (poolWeight c) (livePool c) _ eight).trans
    (Nat.div_le_of_le_mul (Nat.mul_comm _ _).le)

/-- The clamp lifts a rate above its share by `rateMin` at most. -/
theorem feedRate_le (c : Chip) (f : Fin 8) :
    (feedRate c f).getD 0 ≤
      poolShare c f + if sharesPool c f then c.feeds[f].cfg.rateMin else 0 := by
  cases shares : sharesPool c f with
  | true =>
    rw [feedRate_shares shares, Option.getD_some, if_pos rfl]
    omega
  | false =>
    rw [feedRate_none shares]
    exact Nat.zero_le _

/-- Settles O60: each rate is within its share and `rateMin`, and the shares sum within the pool. -/
theorem ratesWithinPool : Obligations.RatesWithinPool := by
  intro c
  calc (eight.map fun f => (feedRate c f).getD 0).sum
      ≤ (eight.map fun f => poolShare c f + if sharesPool c f then c.feeds[f].cfg.rateMin else 0).sum :=
        List.sum_le_sum fun f _ => feedRate_le c f
    _ = (eight.map (poolShare c)).sum +
          (eight.map fun f => if sharesPool c f then c.feeds[f].cfg.rateMin else 0).sum :=
        List.sum_map_add
    _ ≤ _ := Nat.add_le_add_right (sum_poolShare_le c) _

/-! ### The allocation timer -/

theorem allocate_rate (c : Chip) (f : Fin 8) : (allocate c).sched.rates[f] = feedRate c f := by
  simp [allocate]

theorem allocationExpires_rate (c : Chip) (f : Fin 8) :
    (allocationExpires c).sched.rates[f] = feedRate c f := allocate_rate _ f

theorem allocationExpires_path (c : Chip) (p : Fin 4) :
    (allocationExpires c).paths[p] = { c.paths[p] with pacingCap := pathCap c.paths[p] } :=
  allocate_path _ p

theorem allocationExpires_cap (c : Chip) (p : Fin 4) :
    (allocationExpires c).paths[p].pacingCap = pathCap c.paths[p] := by
  rw [allocationExpires_path]

/-- Settles O59: the timer's effect, then the caps, the pool and the rates. -/
theorem allocationReplaces : Obligations.AllocationReplaces := by
  refine ⟨fun s held => ?timer, fun r => ⟨pathCap_down, fun a b => pathCap_up⟩,
    fun c caps limit sum free capped => ?pool, fun c weight sum weights total f => ?rate⟩
  case timer =>
    refine ⟨_, exec_event held rfl, rfl, rfl, rfl, fun f alone => ?_, fun p => ?_, fun p down => ?_,
      allocationExpires_rate s.chip, allocationExpires_cap s.chip⟩
    · rw [allocationExpires_rate]
      exact feedRate_none (sharesPool_false_iff.2 alone)
    · rw [allocationExpires_path]
    · rw [allocationExpires_cap, pathCap_down down]
  case pool => rw [livePool_eq, cappedSum_limit sum free capped]
  case rate =>
    obtain rfl : weight = poolWeight c := weights.trans (funext fun f => (poolWeight_eq c f).symm)
    subst total
    exact ⟨fun alone => feedRate_none (sharesPool_false_iff.2 alone),
      fun running live => feedRate_shares (sharesPool_iff.2 ⟨running, live⟩)⟩

end Sys2Proof.Machine
end

section
/-! SUPPORT. The command lines read back: each parameter stands in the line in memory order, at the offset
section 11.1 gives it (R21, R184). -/

namespace Sys2Proof.Machine

/-! ### The fields of a line -/

/-- The line's kind code is `k`, its head is `h`, and its bytes from byte 8 on are `ps`, completed with 0
(section 11.1). -/
structure Carries (l : Line) (k : BitVec 16) (h : CmdHead) (ps : List Byte) : Prop where
  kind : kindCode l = k
  head : headOf l = h
  byte : ∀ o, 8 ≤ o → o < 64 → lineByte l o = ps.getD (o - 8) 0

theorem carries_of_encodeLine {i : Instr} {l : Line} {k : BitVec 16} {h : CmdHead} {ps : List Byte}
    (written : encodeLine i = some l) (row : encodeLine i = some (commandLine k h ps)) :
    Carries l k h ps := by
  obtain rfl : commandLine k h ps = l := Option.some.inj (row.symm.trans written)
  exact ⟨commandLine_kind k h ps, commandLine_head k h ps, commandLine_byte k h ps⟩

section
variable {l : Line} {k : BitVec 16} {h : CmdHead} {ps : List Byte} {o : Nat}

/-- A field's bytes are those of the parameters from its offset on. -/
theorem Carries.byte_of_field {bs : List Byte} (line : Carries l k h ps)
    (field : bs <+: ps.drop (o - 8)) (lo : 8 ≤ o) {j : Nat} (inside : j < bs.length) (hi : o + j < 64) :
    lineByte l (o + j) = bs[j] := by
  rw [line.byte _ (Nat.le_add_right_of_le lo) hi, Nat.sub_add_comm lo, List.getD_eq_getElem?_getD,
    ← List.getElem?_drop, field.getElem inside, List.getElem?_eq_getElem, Option.getD_some]

/-- The second part of a field stands behind its first. -/
theorem field_drop_of_append {α : Type} {a b l : List α} {n : Nat} (field : a ++ b <+: l.drop n) :
    b <+: l.drop (n + a.length) := by
  simpa [List.drop_drop] using field.drop a.length

theorem Carries.word16_eq {x : BitVec 16} (line : Carries l k h ps) (field : le16 x <+: ps.drop (o - 8))
    (lo : 8 ≤ o := by decide) (hi : o + 2 ≤ 64 := by decide) : word16 l o = x := by
  have low : lineByte l o = x.extractLsb' 0 8 :=
    line.byte_of_field field lo (j := 0) Nat.zero_lt_two (by omega)
  have high : lineByte l (o + 1) = x.extractLsb' 8 8 :=
    line.byte_of_field field lo (j := 1) Nat.one_lt_two hi
  rw [word16, low, high, word16_le16]

theorem Carries.word32_eq {x : BitVec 32} (line : Carries l k h ps) (field : le32 x <+: ps.drop (o - 8))
    (lo : 8 ≤ o := by decide) (hi : o + 4 ≤ 64 := by decide) : word32 l o = x := by
  have low : word16 l o = x.extractLsb' 0 16 :=
    line.word16_eq ((List.prefix_append _ _).trans field) lo (by omega)
  have high : word16 l (o + 2) = x.extractLsb' 16 16 :=
    line.word16_eq (Nat.sub_add_comm lo ▸ field_drop_of_append field) (by omega) hi
  rw [word32, low, high, word32_le32]

theorem Carries.word64_eq {x : BitVec 64} (line : Carries l k h ps) (field : le64 x <+: ps.drop (o - 8))
    (lo : 8 ≤ o := by decide) (hi : o + 8 ≤ 64 := by decide) : word64 l o = x := by
  have low : word32 l o = x.extractLsb' 0 32 :=
    line.word32_eq ((List.prefix_append _ _).trans field) lo (by omega)
  have high : word32 l (o + 4) = x.extractLsb' 32 32 :=
    line.word32_eq (Nat.sub_add_comm lo ▸ field_drop_of_append field) (by omega) hi
  rw [word64, low, high, word64_le64]

theorem Carries.noteOf_eq {note : Vector Byte 40} (line : Carries l k h ps)
    (field : note.toList <+: ps.drop 8) : noteOf l = note := by
  refine Vector.ext fun j inside => ?_
  rw [noteOf, Vector.getElem_ofFn, line.byte_of_field field (by decide) (by simpa) (by omega)]
  exact Vector.getElem_toList _

end

/-! ### The rows -/

/-- A kind that stands in neither table is read back as it was written. -/
theorem Carries.decodeLine_unlisted {l : Line} {k : BitVec 16} {h : CmdHead} {ps : List Byte}
    (line : Carries l k h ps) (unlisted : k ∉ knownKinds) : decodeLine l = .unknownKindCommand h k := by
  simp [knownKinds] at unlisted
  simp [decodeLine, line.kind, line.head, unlisted]

/-- Settles O2: by the rows of the tables, each field read where its row writes it. -/
theorem commandLineRoundTrip : Obligations.CommandLineRoundTrip := by
  intro i l wf enc
  cases i
  case unknownKindCommand h kind =>
    exact (carries_of_encodeLine enc rfl).decodeLine_unlisted (by simpa [wellFormed] using wf)
  case windowSet h entry kind feed base size =>
    have line := carries_of_encodeLine enc rfl
    have atBase : word64 l 16 = base := line.word64_eq ⟨_, rfl⟩
    have atSize : word64 l 24 = size := line.word64_eq ⟨_, rfl⟩
    simp [decodeLine, line.kind, line.head, line.byte, atBase, atSize]
  case feedConfig h a =>
    have line := carries_of_encodeLine enc rfl
    have atMin : word32 l 16 = a.rateMin := line.word32_eq ⟨_, rfl⟩
    have atMax : word32 l 20 = a.rateMax := line.word32_eq ⟨_, rfl⟩
    have atUnit : word32 l 24 = a.maxUnit := line.word32_eq ⟨_, rfl⟩
    simp [decodeLine, line.kind, line.head, line.byte, atMin, atMax, atUnit, le32, le16]
  case clipLabel h a =>
    have line := carries_of_encodeLine enc rfl
    have atClip : word16 l 8 = a.clip := line.word16_eq ⟨_, rfl⟩
    have atNote : noteOf l = a.note := line.noteOf_eq (List.prefix_refl _)
    simp [decodeLine, line.kind, line.head, line.byte, atClip, atNote, le16]
  case clipProtect h n | clipUnprotect h n | clipRelease h n | clipSend h n | trimBegin h n |
      homeSignal h n =>
    have line := carries_of_encodeLine enc rfl
    have atNumber : word16 l 8 = n := line.word16_eq ⟨_, rfl⟩
    simp [decodeLine, line.kind, line.head, atNumber]
  case uplinkSet h headroom share age notify mtu =>
    have line := carries_of_encodeLine enc rfl
    have atMtu : word16 l 12 = mtu := line.word16_eq ⟨_, rfl⟩
    simp [decodeLine, line.kind, line.head, line.byte, atMtu]
  case timecodeSet h a n | trimMove h a n | pathSet h a _ n =>
    have line := carries_of_encodeLine enc rfl
    have atNumber : word32 l 12 = n := line.word32_eq ⟨_, rfl⟩
    simp [decodeLine, line.kind, line.head, line.byte, atNumber]
  case reportsTaken h n =>
    have line := carries_of_encodeLine enc rfl
    have atNumber : word32 l 8 = n := line.word32_eq ⟨_, rfl⟩
    simp [decodeLine, line.kind, line.head, atNumber]
  case windowClear | feedStart | feedStop | audioStart | audioStop | inputSet | sendSet | legSet |
      sceneSave | sceneRecall | overloadClear | tallySet | tallyAuthority | signalLineSet | markIn |
      markOut | trimEnd | trimAbandon | pathRetrain | attentionSet | attentionClear | fence | restart =>
    have line := carries_of_encodeLine enc rfl
    simp [decodeLine, line.kind, line.head, line.byte]
  all_goals exact nomatch enc

end Sys2Proof.Machine
end

section
/-! SUPPORT. The machine's step on a queue that holds a command or event. -/

namespace Sys2Proof.Machine

/-- Settles O1: on a queue with a front, `step` takes its second branch. -/
theorem stepRunsTheFront : Obligations.StepRunsTheFront := by
  intro i rest s queued
  rw [step, queued]

end Sys2Proof.Machine
end
